-- ==== Sys2Proof/Word.lean ====
section
/-! DEFINITION. The word types of the part: bytes, bus words, addresses, times of the time base, and the type of a sparse table.
Only types stand here; every operation on them is in the Machine folder. -/

namespace Sys2Proof

/-- One 8-byte beat of the store bus, and one word of the control window (spec 00 Terms, R1). -/
abbrev Word64 := BitVec 64

/-- A 36-bit byte address of the store bus (section 1.1). -/
abbrev Addr := BitVec 36

/-- A value of the 48-bit time base, in µs (00 Conventions, Time). -/
abbrev Time := BitVec 48

/-- A system tag, 0–63 (section 1.1). -/
abbrev SysTag := BitVec 6

/-- A tag of the memory port, 0–95 (section 1.1); the values 96–127 are ill-formed. -/
abbrev PortTag := BitVec 7

/-- Sparse data by key: entries with strictly rising keys; a key that is not listed is empty. -/
abbrev Table (α : Type) := List (Nat × α)

end Sys2Proof
end

