-- ==== Sys2Proof/Syntax.lean ====
section
/-! DEFINITION. The commands of the part: one constructor of Instr for each row of spec/opcode_table.json, and the types of
their operands. -/

namespace Sys2Proof

/-- The kind of a store bus request (section 1.1). -/
inductive AccessKind where
  | read
  | write
  deriving DecidableEq, Repr

/-- The status of a store bus response (section 1.1). -/
inductive BusStatus where
  | okay
  | error
  deriving DecidableEq, Repr

/-- One data beat of a WRITE: 8 bytes, little-endian, with a strobe for each (section 1.1). -/
structure Beat where
  data : Word64
  strobes : BitVec 8
  deriving DecidableEq, Repr

/-- The fields of a request on the system port (section 1.1). The beats field may lie outside 1–16; R4 refuses it. -/
structure RequestFields where
  kind : AccessKind
  addr : Addr
  beats : Nat
  tag : SysTag
  deriving DecidableEq, Repr

/-- A tachometer channel (R57). -/
inductive Channel where
  | a
  | b
  deriving DecidableEq, Repr

/-- An output ring: the geometry ring A5, the exceedance log A6, the action log A7 (R181). -/
inductive Ring where
  | geometry
  | exceedance
  | action
  deriving DecidableEq, Repr

/-- The five input lines at one sample; true is high (R58). -/
structure LineLevels where
  ta0 : Bool
  ta1 : Bool
  tb0 : Bool
  tb1 : Bool
  mark : Bool
  deriving DecidableEq, Repr

/-- The commands: the rows of spec/opcode_table.json, in the table's order. -/
inductive Instr where
  /-- REQUEST_TAKEN (R2): a whole request is offered on the system port; `lastBeat` is the last data beat of a WRITE. -/
  | requestTaken (req : RequestFields) (lastBeat : Option Beat)
  /-- SYSTEM_HEAD_PRESENTED (R16): the arbiter gives the port to the system head. -/
  | systemHeadPresented
  /-- CONTROL_WRITE (R26): the system head is a control write and is offered to the control block. -/
  | controlWrite
  /-- ROUTE_ENTRY_WRITE (R29): a burst of route words, from word `firstWord` of the route region. -/
  | routeEntryWrite (firstWord : Nat) (words : List Word64)
  /-- CONSUMED_INDEX_WRITE (R30): the consumed-index word of a ring. -/
  | consumedIndexWrite (ring : Ring) (word : Word64)
  /-- INTERRUPT_ENABLE_MASK_WRITE (R31). -/
  | interruptEnableMaskWrite (word : Word64)
  /-- ARM (R43), command word 0. -/
  | arm
  /-- START (R50), command word 1. -/
  | start
  /-- STOP (R51), command word 2. -/
  | stop
  /-- ABORT (R53), command word 3. -/
  | abort
  /-- RELEASE (R55), command word 4. -/
  | release
  /-- CHAINAGE_SET (R71), command word 5. -/
  | chainageSet (word : Word64)
  /-- PROFILE_SELECT (R147), command word 6. -/
  | profileSelect (word : Word64)
  /-- ACTION_POST (R169), command word 7. -/
  | actionPost (word : Word64)
  /-- ACTION_CANCEL (R175), command word 8. -/
  | actionCancel (word : Word64)
  /-- WRITEBACK_HEAD_PRESENTED (R189): the arbiter gives the port to the write-back head. -/
  | writebackHeadPresented
  /-- MEMORY_RESPONSE (R7): a response arrives on the memory port. -/
  | memoryResponse (tag : PortTag) (status : BusStatus) (data : List Word64)
  /-- PORT_RESET (R22): PRST is driven low. -/
  | portReset
  /-- PORT_RESET_RELEASE (R23): PRST returns high. -/
  | portResetRelease
  /-- HARDWARE_RESET (R24): RESET is driven low. -/
  | hardwareReset
  /-- LEAD_COUNT (R61): one count of the lead channel; `forward` is the sign +1. -/
  | leadCount (forward : Bool)
  /-- NON_LEAD_COUNT (R62): one count of the channel that is not the lead. -/
  | nonLeadCount (forward : Bool)
  /-- QUADRATURE_ERROR (R59): both lines of a channel change at one sample. -/
  | quadratureError (channel : Channel)
  /-- MARK_PASSAGE (R73): an accepted rising change of MARK. -/
  | markPassage
  /-- SILENCE_TIMER_EXPIRY (R94); `stream` 0–3 is stream 1–4. -/
  | silenceTimerExpiry (stream : Fin 4)
  /-- POINT_DEADLINE_EXPIRY (R109) of the pending point of this index. -/
  | pointDeadlineExpiry (index : Int)
  /-- PULSE_RELEASE (R172) of a slot of the pulse table. -/
  | pulseRelease (slot : Fin 32)
  /-- LINE_FILTER_SAMPLE (R58): one 0.1 µs sample of the five lines. -/
  | lineFilterSample (levels : LineLevels)
  /-- HARDWARE_RESET_RELEASE (R57): RESET returns high; `levels` is the first sample. -/
  | hardwareResetRelease (levels : LineLevels)
  /-- SYSTEM_RESPONSE_DELIVERED (R7): the oldest waiting response leaves on the system port. -/
  | systemResponseDelivered
  /-- DATA_BEAT_RECEIVED (R2): a data beat of a WRITE other than its last. -/
  | dataBeatReceived (req : RequestFields) (beat : Beat)
  deriving DecidableEq, Repr

end Sys2Proof
end

