-- ==== Sys2Proof/Decode.lean ====
section
/-! DEFINITION. Decoding of a table word. No row of spec/opcode_table.json gives bits (its rows are commands and events of a
block, not instruction words), so no word spells a command. -/

namespace Sys2Proof

/-- The command that a word spells by the table's bits: none, since no row of the table gives bits. -/
def decodeTableWord (_nbits _w : Nat) : Option Instr := none

end Sys2Proof
end

