-- ==== Sys2Proof/Config.lean ====
section
/-! DEFINITION. The free values of the model: constants with no body, so that no proof can see a value of them.
Each stands for one value that the spec leaves open; the assumption log names each. -/

namespace Sys2Proof

/-- The order in which the events of one sample reach the odometer, as a number from which `orderEvents` reads a
permutation. The spec gives no order for counts of both channels, or a count and a marker passage, at one sample
(R59, R73). Applied to the fresh-value counter of State. Log 2. -/
opaque Config.sampleOrder : Nat → Nat

/-- The value of D, a signed 64-bit count (R57), after a count whose exact sum lies outside signed 64 bits.
The spec states no result there. Log 13. -/
opaque Config.distanceOutOfRange : Int → BitVec 64

/-- The 64 bits of a signed 64-bit record field (section 11.1) whose exact value lies outside signed 64 bits.
The spec states no result there. Log 13. -/
opaque Config.signed64OutOfRange : Int → BitVec 64

/-- The active profile (0–7, R141) after the consumption of a route entry whose profile field lies outside 0–7.
Such an entry can enter the list unchecked (R29); the spec states no result. Log 14. -/
opaque Config.routeProfileOutOfRange : BitVec 8 → BitVec 3

end Sys2Proof
end

