-- ==== Sys2Proof/Machine/State.lean ====
section
/-! DEFINITION. The state of the part as plain data: one record a block, every field with the spec's rule, and the state
right after reset. -/

namespace Sys2Proof.Machine

/-! ### The transit unit (spec 01) -/

/-- A filled entry of the area map: its base and its length in 4 KiB pages (R10). -/
structure Area where
  base : Addr
  pages : Nat
  deriving DecidableEq, Repr

/-- Which of the part's own writes: a record of a ring by its index, or the coalesced status write (R6, R14). -/
inductive OwnWrite where
  | record (ring : Ring) (index : BitVec 32)
  | status
  deriving DecidableEq, Repr

/-- An acknowledgement capture: the event word of a presented status write, and the sequence that write carried, which
names the write's record (R20). -/
structure Capture where
  eventWord : Word64
  seq : BitVec 32
  deriving DecidableEq, Repr

/-- What an inserted tag carries: a record of a ring, or the status record of a sequence (R6). -/
inductive Carried where
  | ring (ring : Ring)
  | status (seq : BitVec 32)
  deriving DecidableEq, Repr

/-- The phase of an in-flight entry; FREE is an entry not listed (R5, R6). -/
inductive Phase where
  | held
  | staged
  | presented
  | absorbing
  deriving DecidableEq, Repr

/-- An entry of the in-flight table that is not FREE: phase, kind and range of its request, an acknowledgement capture
(a PRESENTED READ), and what an inserted tag carries (R5, R6). -/
structure Entry where
  phase : Phase
  kind : AccessKind
  addr : Addr
  beats : Nat
  capture : Option Capture
  carried : Option Carried
  deriving DecidableEq, Repr

/-- Where a request lies by the classification made when it was taken: the area's number and the offset in it (R11, R12). -/
structure AreaHit where
  area : Nat
  offset : Nat
  deriving DecidableEq, Repr

/-- A taken request: its fields and data, its arrival time, its classification (R11), and its number in the order of taking
(R16; log 17). -/
structure Request where
  kind : AccessKind
  addr : Addr
  beats : Nat
  tag : SysTag
  data : List Beat
  arrival : Time
  hit : Option AreaHit
  order : Nat
  deriving DecidableEq, Repr

/-- A held request with the queued inserted writes and the held requests it waits on (R14). -/
structure Held where
  request : Request
  waitsWrites : List OwnWrite
  waitsHeld : List SysTag
  deriving DecidableEq, Repr

/-- A partially received burst: the WRITE's fields and the beats received (R2). -/
structure PartialBurst where
  fields : RequestFields
  received : List Beat
  deriving DecidableEq, Repr

/-- A request that stands whole at the system port, untaken: its fields, and the last beat of a WRITE (R2, R23). -/
structure WaitingRequest where
  fields : RequestFields
  lastBeat : Option Beat
  deriving DecidableEq, Repr

/-- The outcome of a presented status write (R19). -/
inductive WriteOutcome where
  | pending
  | okay
  | error
  deriving DecidableEq, Repr

/-- The transit unit's record of a presented status write (R19, R21). -/
structure StatusWriteRecord where
  seq : BitVec 32
  eventWord : Word64
  tag : PortTag
  outcome : WriteOutcome
  waiting : List Capture
  deriving DecidableEq, Repr

/-- A request as presented on the memory port. -/
structure Presentation where
  tag : PortTag
  kind : AccessKind
  addr : Addr
  beats : Nat
  data : List Beat
  deriving DecidableEq, Repr

/-- A response on the system port (section 1.1). -/
structure Response where
  tag : SysTag
  status : BusStatus
  data : List Word64
  deriving DecidableEq, Repr

/-- The transit unit (R24 lists its state). -/
structure Transit where
  /-- The control window base; none is unanchored (R8, R9). -/
  base : Option Addr
  /-- The area map, entries 0–7 (R10). -/
  areas : Table Area
  /-- The in-flight table, entries 0–95; an entry not listed is FREE (R5, R6). -/
  inflight : Table Entry
  /-- The forwarding stage, earliest taken first (R16). -/
  stage : List Request
  /-- The hold list, oldest first (R14). -/
  holds : List Held
  /-- The partially received burst of the system port (R2). -/
  partialBurst : Option PartialBurst
  /-- The request that waits untaken at the system port, with every other request behind it (R2, R23; log 26). -/
  waiting : Option WaitingRequest
  /-- The drain threshold (R18). -/
  drainThreshold : Nat
  /-- The records of presented status writes, newest last; the last is the last presented status write (R19). -/
  statusRecords : List StatusWriteRecord
  /-- The memory port: idle, or the request presented latest (R24; log 8). -/
  memoryPort : Option Presentation
  /-- Responses waiting undelivered on the system port, in arrival order (R7, R22). -/
  responses : List Response
  /-- How many requests have been taken; the model's own number for R16's order (log 17). -/
  takenCount : Nat
  deriving DecidableEq, Repr

/-! ### The control block (spec 02, 03) -/

/-- The run states (section 3.1). -/
inductive RunState where
  | unanchored
  | idle
  | armed
  | running
  | draining
  | stopped
  deriving DecidableEq, Repr

/-- Result codes of commands; `none` is the all-zero record (R34, section 11.2). -/
inductive ResultCode where
  | none
  | done
  | refusedState
  | refusedConfig
  | refusedArg
  | refusedBusy
  | queueFull
  | notFound
  deriving DecidableEq, Repr

/-- Reasons of control refusals; `none` is the all-zero record (R28, section 11.2). -/
inductive RefusalReason where
  | none
  | partialWord
  | owned
  | unassigned
  | locked
  | range
  | route
  deriving DecidableEq, Repr

/-- The last-command record (R25, R34). -/
structure LastCommand where
  word : BitVec 4
  result : ResultCode
  detail : BitVec 32
  deriving DecidableEq, Repr

/-- The last-refusal record (R25, R28). -/
structure LastRefusal where
  offset : BitVec 16
  reason : RefusalReason
  deriving DecidableEq, Repr

/-- The control block (R25). -/
structure Control where
  runState : RunState
  /-- The setup shadows: taken 8-byte words by window offset; a word not listed reads zero (R25, R29). -/
  shadow : Table Word64
  /-- The interrupt enable mask (R31). -/
  mask : Word64
  /-- The live event set: each set flag by its bit, with the status sequence at its last raise (R35). -/
  events : Table (BitVec 32)
  lastCommand : LastCommand
  lastRefusal : LastRefusal
  /-- The status sequence (R38). -/
  statusSeq : BitVec 32
  /-- The INT line; true is high (R37). -/
  int : Bool
  deriving DecidableEq, Repr

/-! ### The odometer (spec 04) -/

/-- A line filter: accepted level and count of differing samples (R57, R58). -/
structure LineFilter where
  accepted : Bool
  count : Nat
  deriving DecidableEq, Repr

/-- The five line filters (R57). -/
structure LineFilters where
  ta0 : LineFilter
  ta1 : LineFilter
  tb0 : LineFilter
  tb1 : LineFilter
  mark : LineFilter
  deriving DecidableEq, Repr

/-- A tachometer channel (R57). -/
structure ChannelState where
  countLength : Nat
  invert : Bool
  errors : BitVec 32
  travel : Int
  net : Int
  deriving DecidableEq, Repr

/-- The high-water point (R57). -/
structure HighWaterPoint where
  index : Int
  time : Time
  boundary : Int
  deriving DecidableEq, Repr

/-- The direction dir of chainage against distance (R70). -/
inductive Direction where
  | plus
  | minus
  deriving DecidableEq, Repr

/-- A marker latch (R73). -/
structure Latch where
  d : Int
  time : Time
  deriving DecidableEq, Repr

/-- The outcome of the last marker (R57). -/
inductive MarkerOutcome where
  | none
  | taken
  | rejected
  deriving DecidableEq, Repr

/-- The last marker record (R57, R76). The error is the exact integer, also outside signed 64 bits (log 28). -/
structure LastMarker where
  id : BitVec 32
  error : Int
  outcome : MarkerOutcome
  deriving DecidableEq, Repr

/-- The odometer (R57). Distances on the tachometer side are in 1/256 mm. The chainage offset `q` is the exact integer (log 30). -/
structure Odometer where
  filters : LineFilters
  filterDepth : Nat
  chanA : ChannelState
  chanB : ChannelState
  lead : Channel
  swapLock : Bool
  stallTravel : Nat
  stallReported : Bool
  d : Int
  highWater : Int
  nextPoint : Option Int
  highWaterPoint : Option HighWaterPoint
  prevMismatch : Bool
  reversal : Bool
  q : Int
  dir : Direction
  chainageStep : Bool
  latches : List Latch
  lastMarker : LastMarker
  mismatchTolerance : Nat
  stallDistance : Nat
  acceptWindow : Nat
  orphanDistance : Nat
  spacing : Nat
  deriving DecidableEq, Repr

/-! ### The stream tap (spec 05) -/

/-- The state of a stream (R79). -/
inductive StreamState where
  | idle
  | silent
  | live
  | stale
  deriving DecidableEq, Repr

/-- A taken SENSOR frame as it is kept and handed on: time, health, and the value of each mapped quantity by its code (R89). -/
structure Frame where
  time : Time
  healthy : Bool
  values : Table Int
  deriving DecidableEq, Repr

/-- The context of one stream (R79). -/
structure StreamContext where
  state : StreamState
  slotCount : Nat
  latency : Nat
  silenceLimit : Nat
  /-- The quantity code of each of slots 0–13; 0 is UNUSED (section 11.3). -/
  slotMap : List (BitVec 8)
  expectedSlot : Nat
  /-- The 8 beats of the assembly buffer; none is not present. -/
  buffer : List (Option Word64)
  lastSequence : Option (BitVec 16)
  lastFrame : Option Frame
  /-- The silence timer: none is stopped, otherwise its expiry time. -/
  timer : Option Time
  errors : BitVec 16
  deriving DecidableEq, Repr

/-- The stream tap: the four contexts and the frames lost counter (R79). -/
structure StreamTap where
  s1 : StreamContext
  s2 : StreamContext
  s3 : StreamContext
  s4 : StreamContext
  framesLost : BitVec 32
  deriving DecidableEq, Repr

/-! ### The point assembler (spec 06) -/

/-- The flags of a point (R100). -/
structure PointFlags where
  gap : Bool
  forced : Bool
  mismatch : Bool
  step : Bool
  speedUnknown : Bool
  deriving DecidableEq, Repr

/-- A before-frame: the time of a frame and the values of its quantities (R100). -/
structure BeforeFrame where
  time : Time
  values : Table Int
  deriving DecidableEq, Repr

/-- The state of a stream entry: WAITING with its before-frame or none, FILLED with the interpolated values, or MISSING (R100). -/
inductive EntryState where
  | waiting (before : Option BeforeFrame)
  | filled (values : Table Int)
  | missing
  deriving DecidableEq, Repr

/-- The entry of one contributing stream in a pending point (R100). -/
structure StreamEntry where
  stream : Fin 4
  state : EntryState
  deriving DecidableEq, Repr

/-- A pending point (R100). -/
structure PendingPoint where
  index : Int
  dmm : Int
  chainage : Int
  time : Time
  speed : Nat
  flags : PointFlags
  deadline : Time
  entries : List StreamEntry
  deriving DecidableEq, Repr

/-- A contributing stream and the codes of the quantities it maps (R90, R99). -/
structure Contributor where
  stream : Fin 4
  quantities : List Nat
  deriving DecidableEq, Repr

/-- The point assembler (R99). -/
structure Assembler where
  queue : List PendingPoint
  closeLimit : Nat
  contributing : List Contributor
  opened : BitVec 32
  closed : BitVec 32
  forced : BitVec 32
  gapped : BitVec 32
  discarded : BitVec 32
  deriving DecidableEq, Repr

/-! ### The geometry unit (spec 07) -/

/-- A quantity in a sample: VALID with its value, MISSING or UNMAPPED (R111). -/
inductive Reading where
  | valid (value : Int)
  | missing
  | unmapped
  deriving DecidableEq, Repr

/-- A sample: a closed point with the eight quantities, in the order of their codes 1–8 (R111). -/
structure Sample where
  index : Int
  dmm : Int
  chainage : Int
  time : Time
  speed : Nat
  flags : PointFlags
  readings : List Reading
  deriving DecidableEq, Repr

/-- The geometry unit (R119). -/
structure GeometryUnit where
  spacing : Nat
  chord : Nat
  twist : Nat
  beamGauge : Int
  nominalGauge : Int
  railBase : Int
  uncompensated : Bool
  /-- The history ring, positions 0–255 (R121). -/
  ring : Table Sample
  firstPoint : Option Int
  newest : Option Int
  cursor : Option Int
  deriving DecidableEq, Repr

/-- A geometry record (R137): channel values in channel number order, none for a channel not valid. -/
structure GeometryRecord where
  index : Int
  speed : Nat
  dmm : Int
  chainage : Int
  time : Time
  profile : BitVec 3
  channels : List (Option Int)
  flags : PointFlags
  uncomp : Bool
  edge : Bool
  saturated : Bool
  deriving DecidableEq, Repr

/-! ### The exceedance unit (spec 08) -/

/-- The entry of one channel in a profile (R142). -/
structure ProfileEntry where
  alert : Nat
  limit : Nat
  minLength : Nat
  mark : Bool
  deriving DecidableEq, Repr

/-- An open exceedance run (R149). -/
structure OpenRun where
  profile : BitVec 3
  start : Int
  startChainage : Int
  stop : Int
  length : Nat
  peak : Int
  peakChainage : Int
  peakValue : Int
  markRequested : Bool
  deriving DecidableEq, Repr

/-- A channel tracker (R149). -/
inductive Tracker where
  | clear
  | alertRun (run : OpenRun)
  | limitRun (run : OpenRun)
  deriving DecidableEq, Repr

/-- The exceedance unit (R141). -/
structure ExceedanceUnit where
  /-- Profiles 0–7, each with the entries of channels 0–7. -/
  profiles : List (List ProfileEntry)
  active : BitVec 3
  overrideOn : Bool
  cursor : Nat
  spacing : Nat
  trackers : List Tracker
  emitted : BitVec 32
  short : BitVec 32
  deriving DecidableEq, Repr

/-! ### The action unit (spec 09) -/

/-- The origin of an action (R165, R176). -/
inductive Origin where
  | mark
  | posted
  | periodic
  deriving DecidableEq, Repr

/-- An entry of the action queue (R165). -/
structure ActionEntry where
  id : BitVec 16
  trigger : Int
  group : Fin 2
  pattern : BitVec 4
  origin : Origin
  deriving DecidableEq, Repr

/-- An occupied slot of the pulse table (R162). -/
structure Pulse where
  group : Fin 2
  pattern : BitVec 4
  release : Time
  deriving DecidableEq, Repr

/-- A periodic trigger; its next position is none while it is off (R162, R173). -/
structure Periodic where
  period : Nat
  pattern : BitVec 4
  pulseLength : Nat
  next : Option Int
  deriving DecidableEq, Repr

/-- The action unit (R162). -/
structure ActionUnit where
  rest0 : BitVec 4
  rest1 : BitVec 4
  pulseLength : Nat
  markGroup : Fin 2
  markPattern : BitVec 4
  markOffset : Nat
  periodic0 : Periodic
  periodic1 : Periodic
  queue : List ActionEntry
  /-- The pulse table, slots 0–31; a slot not listed is free. -/
  pulses : Table Pulse
  /-- The hold counts of lines ACT0–ACT7 (R163). -/
  holds : List Nat
  idCounter : BitVec 16
  fired : BitVec 32
  missed : BitVec 32
  cancelled : BitVec 32
  deriving DecidableEq, Repr

/-! ### The write-back unit (spec 10) -/

/-- A ring outcome (R181). -/
inductive RingOutcome where
  | none
  | okay
  | error
  deriving DecidableEq, Repr

/-- The state of one ring (R181). -/
structure RingState where
  capacity : Nat
  writeIndex : BitVec 32
  consumed : BitVec 32
  lost : BitVec 32
  last : RingOutcome
  previous : RingOutcome
  deriving DecidableEq, Repr

/-- A queued record write (R186). -/
structure QueuedRecord where
  ring : Ring
  index : BitVec 32
  addr : Addr
  beats : Nat
  content : List Word64
  deriving DecidableEq, Repr

/-- The coalesced status slot: empty, filled in the event in progress and not yet placed, or pending with its place, held
as the number of queued records ahead of it (R187; log 17). `filling` stands only inside an event. -/
inductive StatusSlot where
  | empty
  | filling
  | pending (ahead : Nat)
  deriving DecidableEq, Repr

/-- The write-back unit (R181). -/
structure WriteBack where
  geometryRing : RingState
  exceedanceRing : RingState
  actionRing : RingState
  queue : List QueuedRecord
  slot : StatusSlot
  deriving DecidableEq, Repr

/-! ### The whole part -/

/-- The state of the part. -/
structure State where
  /-- The time base (00 Conventions). -/
  time : Time
  /-- Samples taken since the last step of the time base, 0–9 (log 3). -/
  phase : Nat
  /-- The RESET pin is low (R24). -/
  resetLow : Bool
  /-- The PRST pin is low (R22, R23). -/
  prstLow : Bool
  transit : Transit
  control : Control
  odometer : Odometer
  tap : StreamTap
  assembler : Assembler
  geometry : GeometryUnit
  exceedance : ExceedanceUnit
  action : ActionUnit
  writeBack : WriteBack
  /-- The counter that free values are read with (log 2). -/
  freeCount : Nat
  /-- The commands that wait, first in, first out. -/
  pending : List Instr
  deriving DecidableEq, Repr

/-- The part has no fault that stops it (INVENTORY.md, Faults): no meaning raises one. Safe. -/
inductive Fault
  deriving DecidableEq, Repr

/-- Why a command has no meaning. -/
inductive Refusal where
  /-- Raised by an arm of exec for a command whose meaning is not written. Safe. No arm raises it now. -/
  | notModelled (mnemonic : String)
  deriving DecidableEq, Repr

/-! ### The state after reset -/

/-- The transit unit after hardware reset, with every in-flight entry FREE (R24). -/
def Transit.reset : Transit :=
  { base := none, areas := [], inflight := [], stage := [], holds := [], partialBurst := none, waiting := none
    drainThreshold := 8
    statusRecords := [], memoryPort := none, responses := [], takenCount := 0 }

/-- The control block after hardware reset (R25). -/
def Control.reset : Control :=
  { runState := .unanchored, shadow := [], mask := 0, events := [], lastCommand := ⟨0, .none, 0⟩
    lastRefusal := ⟨0, .none⟩, statusSeq := 0, int := false }

/-- A line filter with its accepted level low and its count 0 (R57; the level is DESIGN CHOICE, unsafe, log 7). -/
def LineFilter.reset : LineFilter := { accepted := false, count := 0 }

/-- The five line filters at reset. -/
def LineFilters.reset : LineFilters := ⟨.reset, .reset, .reset, .reset, .reset⟩

/-- A tachometer channel after hardware reset (R57). -/
def ChannelState.reset : ChannelState := { countLength := 256, invert := false, errors := 0, travel := 0, net := 0 }

/-- The odometer after hardware reset (R57). -/
def Odometer.reset : Odometer :=
  { filters := .reset, filterDepth := 4, chanA := .reset, chanB := .reset, lead := .a, swapLock := false
    stallTravel := 0, stallReported := false, d := 0, highWater := 0, nextPoint := none, highWaterPoint := none
    prevMismatch := false, reversal := false, q := 0, dir := .plus, chainageStep := false, latches := []
    lastMarker := ⟨0, 0, .none⟩, mismatchTolerance := 0, stallDistance := 0, acceptWindow := 0, orphanDistance := 0
    spacing := 0 }

/-- An assembly buffer with no beat present (R79). -/
def emptyBuffer : List (Option Word64) := [none, none, none, none, none, none, none, none]

/-- A stream context after hardware reset (R79). -/
def StreamContext.reset : StreamContext :=
  { state := .idle, slotCount := 0, latency := 0, silenceLimit := 0, slotMap := List.replicate 14 0
    expectedSlot := 0, buffer := emptyBuffer, lastSequence := none, lastFrame := none, timer := none, errors := 0 }

/-- The stream tap after hardware reset (R79). -/
def StreamTap.reset : StreamTap := { s1 := .reset, s2 := .reset, s3 := .reset, s4 := .reset, framesLost := 0 }

/-- The point assembler after hardware reset (R99). -/
def Assembler.reset : Assembler :=
  { queue := [], closeLimit := 0, contributing := [], opened := 0, closed := 0, forced := 0, gapped := 0, discarded := 0 }

/-- The geometry unit after hardware reset (R119). -/
def GeometryUnit.reset : GeometryUnit :=
  { spacing := 0, chord := 0, twist := 0, beamGauge := 0, nominalGauge := 0, railBase := 0, uncompensated := false
    ring := [], firstPoint := none, newest := none, cursor := none }

/-- A profile entry of all zeros (R141). -/
def ProfileEntry.zero : ProfileEntry := { alert := 0, limit := 0, minLength := 0, mark := false }

/-- The exceedance unit after hardware reset (R141). -/
def ExceedanceUnit.reset : ExceedanceUnit :=
  { profiles := List.replicate 8 (List.replicate 8 .zero), active := 0, overrideOn := false, cursor := 0, spacing := 0
    trackers := List.replicate 8 .clear, emitted := 0, short := 0 }

/-- A periodic trigger after hardware reset (R162). -/
def Periodic.reset : Periodic := { period := 0, pattern := 0, pulseLength := 0, next := none }

/-- The action unit after hardware reset (R162). -/
def ActionUnit.reset : ActionUnit :=
  { rest0 := 0, rest1 := 0, pulseLength := 0, markGroup := 0, markPattern := 0, markOffset := 0, periodic0 := .reset
    periodic1 := .reset, queue := [], pulses := [], holds := List.replicate 8 0, idCounter := 0, fired := 0, missed := 0
    cancelled := 0 }

/-- A ring after hardware reset (R181). -/
def RingState.reset : RingState :=
  { capacity := 0, writeIndex := 0, consumed := 0, lost := 0, last := .none, previous := .none }

/-- The write-back unit after hardware reset (R181). -/
def WriteBack.reset : WriteBack :=
  { geometryRing := .reset, exceedanceRing := .reset, actionRing := .reset, queue := [], slot := .empty }

/-- The part right after reset: RESET and PRST high again (log 7), every block at its reset values, no tag in flight,
no command waiting. -/
def State.reset : State :=
  { time := 0, phase := 0, resetLow := false, prstLow := false, transit := .reset, control := .reset, odometer := .reset
    tap := .reset, assembler := .reset, geometry := .reset, exceedance := .reset, action := .reset, writeBack := .reset
    freeCount := 0, pending := [] }

end Sys2Proof.Machine
end

