-- ==== Sys2Proof/Machine/Tables.lean ====
section
/-! DEFINITION. The operations on sparse tables: read, write and remove by key. A table is
canonical when its keys rise strictly. -/

namespace Sys2Proof

/-- What a table holds at a key. -/
def Table.read {α : Type} : Table α → Nat → Option α
  | [], _ => none
  | (j, a) :: rest, k => if j = k then some a else Table.read rest k

/-- The table with the value at the key replaced or added in key order. -/
def Table.write {α : Type} : Table α → Nat → α → Table α
  | [], k, a => [(k, a)]
  | (j, b) :: rest, k, a =>
    if k < j then (k, a) :: (j, b) :: rest
    else if k = j then (k, a) :: rest
    else (j, b) :: Table.write rest k a

/-- The table without the entry at the key. -/
def Table.remove {α : Type} (t : Table α) (k : Nat) : Table α :=
  t.filter (fun e => e.1 != k)

/-- The canonical form of a table: strictly rising keys. -/
abbrev Table.wf {α : Type} (t : Table α) : Prop := t.Pairwise (fun a b => a.1 < b.1)

/-- The word of a shadow at a window offset; a word not listed reads zero (R25). -/
def Shadow.read (t : Table Word64) (off : Nat) : Word64 := (Table.read t off).getD 0

/-- The shadow with a word stored; storing zero, what an unlisted word reads as, removes the entry. -/
def Shadow.write (t : Table Word64) (off : Nat) (w : Word64) : Table Word64 :=
  if w = 0 then Table.remove t off else Table.write t off w

/-- The canonical form of a shadow: strictly rising offsets and no zero word. -/
abbrev Shadow.wf (t : Table Word64) : Prop := Table.wf t ∧ ∀ e ∈ t, e.2 ≠ 0

end Sys2Proof
end

