-- ==== Sys2Proof/Machine/Operands.lean ====
section
/-! DEFINITION. The operand forms: ranges of requests, fields of words and setup records, arguments of command words, fields of
frames, and the signed fields of records. Bytes are little-endian throughout (00 Conventions). -/

namespace Sys2Proof.Machine

/-! ### Ranges (R1) -/

/-- Two ranges of bytes, each given by its first byte and length, share at least one byte (R1). -/
def rangesOverlap (a n b m : Nat) : Bool := decide (a < b + m) && decide (b < a + n)

/-- The range [a, a + n) lies within [b, b + m) (R11). -/
def rangeWithin (a n b m : Nat) : Bool := decide (b ≤ a) && decide (a + n ≤ b + m)

/-- A request's range crosses a 4 KiB boundary: its first and last bytes lie in different pages (R4). -/
def crossesPage (addr beats : Nat) : Bool := decide (addr / 4096 ≠ (addr + 8 * beats - 1) / 4096)

/-! ### Fields of words -/

/-- The field of `w` bits at byte `k` of an 8-byte word. -/
def fieldAt (w : Nat) (word : Word64) (k : Nat) : BitVec w := word.extractLsb' (8 * k) w

/-- Shadow fields: the field of `w` bits at a byte offset of the window (section 11.3); no field crosses a word. -/
def shadowField (w : Nat) (t : Table Word64) (off : Nat) : BitVec w :=
  fieldAt w (Shadow.read t (off / 8 * 8)) (off % 8)

/-- The signed value of a direction byte: 01h is +1, FFh is −1, any other value is out of range (section 11.3). -/
def directionOf (b : BitVec 8) : Option Direction :=
  if b = 0x01 then some .plus else if b = 0xFF then some .minus else none

/-- The sign of a direction (R70). -/
def Direction.sign : Direction → Int
  | .plus => 1
  | .minus => -1

/-! ### Arguments of command words (section 11.3) -/

/-- CHAINAGE_SET field 1: the signed 40-bit chainage in bits 0–39. -/
def chainageArg (w : Word64) : Int := (w.extractLsb' 0 40).toInt

/-- CHAINAGE_SET field 2: the direction in bits 40–47. -/
def directionArg (w : Word64) : Option Direction := directionOf (w.extractLsb' 40 8)

/-- PROFILE_SELECT field 1: the profile in bits 0–7, when in 0–7. -/
def profileArg (w : Word64) : Option (BitVec 3) :=
  if (w.extractLsb' 0 8).toNat ≤ 7 then some (w.extractLsb' 0 3) else none

/-- ACTION_POST field 1: the group in bits 0–7, when 0 or 1. -/
def groupArg (w : Word64) : Option (Fin 2) :=
  if w.extractLsb' 0 8 = 0 then some 0 else if w.extractLsb' 0 8 = 1 then some 1 else none

/-- ACTION_POST field 2: the pattern in bits 8–15, when in 1–15. -/
def patternArg (w : Word64) : Option (BitVec 4) :=
  if 1 ≤ (w.extractLsb' 8 8).toNat ∧ (w.extractLsb' 8 8).toNat ≤ 15 then some (w.extractLsb' 8 4) else none

/-- ACTION_POST field 3: the offset ahead in bits 16–39, when in 0–1,048,575 mm. -/
def offsetArg (w : Word64) : Option Nat :=
  if (w.extractLsb' 16 24).toNat ≤ 1048575 then some (w.extractLsb' 16 24).toNat else none

/-- ACTION_CANCEL field 1: the action id in bits 0–15. -/
def idArg (w : Word64) : BitVec 16 := w.extractLsb' 0 16

/-! ### Route entries (section 11.3) -/

/-- A route entry. -/
structure RouteEntry where
  chainage : Int
  profile : BitVec 8
  valid : Bool
  deriving DecidableEq, Repr

/-- The window offset of route entry i (section 11.3). -/
def routeOffset (i : Nat) : Nat := 0x0C00 + 0x10 * i

/-- Route entry i of a shadow. -/
def routeEntry (t : Table Word64) (i : Nat) : RouteEntry :=
  { chainage := (shadowField 64 t (routeOffset i)).toInt
    profile := shadowField 8 t (routeOffset i + 8)
    valid := (shadowField 8 t (routeOffset i + 9)).getLsbD 0 }

/-- The 64 route entries of a shadow. -/
def routeEntries (t : Table Word64) : List RouteEntry := (List.range 64).map (routeEntry t)

/-- The route list: the entries from entry 0 up to the first whose valid mark is clear (R144). -/
def routeList (t : Table Word64) : List RouteEntry := (routeEntries t).takeWhile (·.valid)

/-! ### Frames (section 11.1) -/

/-- The kind of a frame by its first byte. -/
inductive FrameKind where
  | sensor
  | marker
  | bad
  deriving DecidableEq, Repr

/-- A beat of a completed frame; a beat outside 0–7 reads zero. -/
def frameBeat (beats : List Word64) (b : Nat) : Word64 := beats.getD b 0

/-- The frame kind byte: 01h SENSOR, 02h MARKER, any other value is bad. -/
def frameKind (beats : List Word64) : FrameKind :=
  if fieldAt 8 (frameBeat beats 0) 0 = 0x01 then .sensor
  else if fieldAt 8 (frameBeat beats 0) 0 = 0x02 then .marker
  else .bad

/-- The health byte is OK (R85: any other code is INVALID). -/
def frameHealthy (beats : List Word64) : Bool := decide (fieldAt 8 (frameBeat beats 0) 1 = 0x00)

/-- The frame's sequence number. -/
def frameSequence (beats : List Word64) : BitVec 16 := fieldAt 16 (frameBeat beats 0) 2

/-- The frame's used slot count. -/
def frameUsed (beats : List Word64) : Nat := (fieldAt 8 (frameBeat beats 0) 4).toNat

/-- Slot value n of a SENSOR frame, at 08h + 4·n, signed 32 bits. -/
def frameSlot (beats : List Word64) (n : Nat) : Int := (fieldAt 32 (frameBeat beats (1 + n / 2)) (4 * (n % 2))).toInt

/-- The marker id of a MARKER frame, at 08h. -/
def frameMarkerId (beats : List Word64) : BitVec 32 := fieldAt 32 (frameBeat beats 1) 0

/-- The surveyed chainage of a MARKER frame, at 10h. -/
def frameChainage (beats : List Word64) : Int := (frameBeat beats 2).toInt

/-- Quantity codes 1–8 name LAT_L, LAT_R, VRT_L, VRT_R, ROLL, INR_Y, INR_Z, YAW_RATE; 0 is UNUSED (section 11.3). A code above
8 stands only in the map of a stream that is not enabled and maps nothing (log 21). -/
def mapsQuantity (code : BitVec 8) : Bool := decide (1 ≤ code.toNat) && decide (code.toNat ≤ 8)

/-- The slots of a map that carry a quantity, as (slot, quantity code), lowest slot first. -/
def mappedSlots (slotMap : List (BitVec 8)) : List (Nat × Nat) :=
  slotMap.zipIdx.filterMap (fun e => if mapsQuantity e.1 then some (e.2, e.1.toNat) else none)

/-- One more than the highest mapped slot; 0 when no slot is mapped (R88). -/
def slotsNeeded (slotMap : List (BitVec 8)) : Nat := (mappedSlots slotMap).foldl (fun m e => max m (e.1 + 1)) 0

/-- The value of each mapped quantity of a SENSOR frame, by its code (R89). -/
def frameValues (slotMap : List (BitVec 8)) (beats : List Word64) : Table Int :=
  (mappedSlots slotMap).foldl (fun t e => Table.write t e.2 (frameSlot beats e.1)) []

/-! ### Signed fields of records (section 11.1) -/

/-- A signed 64-bit record field; a value outside signed 64 bits is a free value (log 13). -/
def signed64 (x : Int) : BitVec 64 :=
  if -2 ^ 63 ≤ x ∧ x < 2 ^ 63 then BitVec.ofInt 64 x else Config.signed64OutOfRange x

/-- The low 32 bits of a point index (R199). -/
def low32 (x : Int) : BitVec 32 := BitVec.ofInt 32 x

/-- A value limited to a range: above the maximum the maximum, below the minimum the minimum (R126, R199). -/
def limitTo (lo hi x : Int) : Int := if hi < x then hi else if x < lo then lo else x

/-- A status field narrower than its source: limited to `w` signed bits (R199). -/
def limitedSigned (w : Nat) (x : Int) : BitVec w := BitVec.ofInt w (limitTo (-2 ^ (w - 1)) (2 ^ (w - 1) - 1) x)

end Sys2Proof.Machine
end

