-- ==== Sys2Proof/Machine/ArmChecks.lean ====
section
/-! DEFINITION. The configuration checks of ARM (R43–R47): every field of the setup shadows against its range, in the rule's order,
and the offset of the first record that fails. -/

namespace Sys2Proof.Machine

/-- A value lies in a range, both ends included. -/
def between (lo hi n : Nat) : Bool := decide (lo ≤ n) && decide (n ≤ hi)

/-! ### Area records (R44) -/

/-- The window offset of area record n (section 11.3). -/
def areaOffset (n : Nat) : Nat := 0x0200 + 0x20 * n

/-- The base field of area record n, all 64 bits. -/
def areaBaseField (t : Table Word64) (n : Nat) : Nat := (Shadow.read t (areaOffset n)).toNat

/-- The length field of area record n, in 4 KiB pages. -/
def areaPages (t : Table Word64) (n : Nat) : Nat := (shadowField 32 t (areaOffset n + 8)).toNat

/-- The enable mark of area record n. -/
def areaEnabled (t : Table Word64) (n : Nat) : Bool := (shadowField 8 t (areaOffset n + 0x0C)).getLsbD 0

/-- The records of two slots overlap. -/
def areasOverlap (t : Table Word64) (n k : Nat) : Bool :=
  rangesOverlap (areaBaseField t n) (areaPages t n * 4096) (areaBaseField t k) (areaPages t k * 4096)

/-- Area record n fails; `window` is the base of A0 (R44). -/
def areaFails (t : Table Word64) (window : Nat) (n : Nat) : Bool :=
  if areaEnabled t n then
    let base := areaBaseField t n
    let size := areaPages t n * 4096
    decide (base % 0x1000 ≠ 0) || !between 1 65536 (areaPages t n) || decide (2 ^ 36 < base + size)
      || rangesOverlap base size 0 0x1000 || rangesOverlap base size window 0x4000
      || (List.range n).any (fun k => decide (1 ≤ k) && areaEnabled t k && areasOverlap t n k)
  else decide (5 ≤ n)

/-- The checks of the area records, in order (R44). -/
def areaChecks (t : Table Word64) (window : Nat) : List (Bool × Nat) :=
  [1, 2, 3, 4, 5, 6, 7].map (fun n => (areaFails t window n, areaOffset n))
    ++ [([1, 2, 3, 4].all (fun n => !areaEnabled t n), areaOffset 1)]

/-! ### Odometry and geometry setups (R45) -/

/-- The odometry setup fails (R45). -/
def odometryFails (t : Table Word64) : Bool :=
  !between 2 15 (shadowField 8 t 0x0300).toNat
    || !between 13 5120 (shadowField 16 t 0x0308).toNat
    || !between 13 5120 (shadowField 16 t 0x030A).toNat
    || !between 0 1 (shadowField 8 t 0x0301).toNat
    || !between 0 1 (shadowField 8 t 0x0302).toNat
    || !between 0 1 (shadowField 8 t 0x0303).toNat
    || !between 0 1 (shadowField 8 t 0x0304).toNat
    || !between 1 255 (shadowField 8 t 0x0306).toNat
    || !between 100 10000 (shadowField 16 t 0x030C).toNat
    || !between 0 100000 (shadowField 32 t 0x0310).toNat
    || !between 1 1000 (shadowField 16 t 0x030E).toNat
    || !decide (-2 ^ 39 ≤ (shadowField 64 t 0x0318).toInt ∧ (shadowField 64 t 0x0318).toInt < 2 ^ 39)
    || (directionOf (shadowField 8 t 0x0305)).isNone

/-- The geometry setup fails (R45). -/
def geometryFails (t : Table Word64) : Bool :=
  !([125, 250, 500, 1000].contains (shadowField 16 t 0x0340).toNat)
    || !between 2 100 (shadowField 8 t 0x0342).toNat
    || !between 1 100 (shadowField 8 t 0x0343).toNat
    || !between 100 100000 (shadowField 32 t 0x0344).toNat
    || !between 1 15 (shadowField 8 t 0x0354).toNat

/-! ### Stream setups and the quantity map (R46) -/

/-- The window offset of the setup of stream i + 1 (section 11.3). -/
def streamOffset (i : Nat) : Nat := 0x0400 + 0x40 * i

/-- The slot map of stream i + 1 in the shadow. -/
def slotMapField (t : Table Word64) (i : Nat) : List (BitVec 8) :=
  (List.range 14).map (fun n => shadowField 8 t (streamOffset i + 8 + n))

/-- The setup of an enabled stream fails (R46). -/
def streamFails (t : Table Word64) (i : Nat) : Bool :=
  let limit := (shadowField 32 t (streamOffset i + 4)).toNat
  !between 0 65535 (shadowField 32 t (streamOffset i)).toNat
    || !(decide (limit = 0) || between 100 1000000 limit)
    || (slotMapField t i).any (fun c => decide (8 < c.toNat))

/-- The streams whose area record is enabled, as 0–3 (R46). -/
def enabledStreams (t : Table Word64) : List (Fin 4) :=
  [0, 1, 2, 3].filter (fun i : Fin 4 => areaEnabled t (i.val + 1))

/-- The quantity walk: every mapping of the enabled streams, as (stream, quantity code), in stream order and slot order (R46). -/
def quantityWalk (t : Table Word64) : List (Nat × Nat) :=
  (enabledStreams t).flatMap (fun i => (mappedSlots (slotMapField t i.val)).map (fun e => (i.val, e.2)))

/-- The stream of the first mapping of any quantity that is its second (R46). -/
def secondMapping : List Nat → List (Nat × Nat) → Option Nat
  | _, [] => none
  | seen, (i, q) :: rest => if seen.contains q then some i else secondMapping (q :: seen) rest

/-- A quantity is mapped in an enabled stream. -/
def quantityMapped (t : Table Word64) (q : Nat) : Bool := (quantityWalk t).any (fun e => e.2 == q)

/-- The check of the quantity map (R46): the five required quantities are codes 1–5. -/
def quantityCheck (t : Table Word64) : Bool × Nat :=
  match secondMapping [] (quantityWalk t) with
  | some i => (true, streamOffset i)
  | none => ([1, 2, 3, 4, 5].any (fun q => !quantityMapped t q), streamOffset 0)

/-- The checks of the stream setups, then of the quantity map (R46). -/
def streamChecks (t : Table Word64) : List (Bool × Nat) :=
  (enabledStreams t).map (fun i => (streamFails t i.val, streamOffset i.val)) ++ [quantityCheck t]

/-! ### Action setup, profiles and route list (R47) -/

/-- The periodic fields of group g fail (R47). -/
def periodicFails (t : Table Word64) (g : Nat) : Bool :=
  let off := 0x0510 + 0x10 * g
  let period := (shadowField 32 t off).toNat
  !decide (period = 0)
    && (!between 100 100000 period || !between 1 15 (shadowField 8 t (off + 8)).toNat
      || !between 1 1000000 (shadowField 32 t (off + 4)).toNat)

/-- The action setup fails (R47). -/
def actionFails (t : Table Word64) : Bool :=
  !between 1 1000000 (shadowField 32 t 0x0504).toNat
    || !between 0 1 (shadowField 8 t 0x0502).toNat
    || !between 1 15 (shadowField 8 t 0x0503).toNat
    || !between 0 1048575 (shadowField 32 t 0x0508).toNat
    || periodicFails t 0 || periodicFails t 1

/-- The window offset of profile p (section 11.3). -/
def profileOffset (p : Nat) : Nat := 0x0800 + 0x80 * p

/-- The entry of channel c of profile p as loaded (section 11.3). -/
def profileEntryField (t : Table Word64) (p c : Nat) : ProfileEntry :=
  let off := profileOffset p + 0x10 * c
  { alert := (shadowField 32 t off).toNat
    limit := (shadowField 32 t (off + 4)).toNat
    minLength := (shadowField 16 t (off + 8)).toNat
    mark := decide (shadowField 8 t (off + 0x0A) = 1) }

/-- An entry of a profile fails (R47). -/
def profileEntryFails (t : Table Word64) (p c : Nat) : Bool :=
  let e := profileEntryField t p c
  decide (e.limit < e.alert) || !between 1 4096 e.minLength
    || !between 0 1 (shadowField 8 t (profileOffset p + 0x10 * c + 0x0A)).toNat

/-- Profile p fails (R47). -/
def profileFails (t : Table Word64) (p : Nat) : Bool := (List.range 8).any (profileEntryFails t p)

/-- Two chainages stand in order along a direction: with +1 the first is at or below the second, with −1 at or above (R29, R47). -/
def inOrder (dir : Direction) (a b : Int) : Bool :=
  match dir with
  | .plus => decide (a ≤ b)
  | .minus => decide (b ≤ a)

/-- The checks of the route list from entry `i` on, with the chainage of the entry before (R47). -/
def routeChecks (dir : Direction) : Nat → Option Int → List RouteEntry → List (Bool × Nat)
  | _, _, [] => []
  | i, before, e :: rest =>
    let misplaced :=
      match before with
      | some c => !inOrder dir c e.chainage
      | none => false
    (decide (7 < e.profile.toNat) || misplaced, routeOffset i) :: routeChecks dir (i + 1) (some e.chainage) rest

/-- The start direction of the odometry setup; +1 where the field is out of range, which R45 has refused before. -/
def startDirection (t : Table Word64) : Direction := (directionOf (shadowField 8 t 0x0305)).getD .plus

/-- Every check of ARM, in order, each with the offset it reports (R43). -/
def armChecks (t : Table Word64) (window : Nat) : List (Bool × Nat) :=
  areaChecks t window ++ [(odometryFails t, 0x0300), (geometryFails t, 0x0340)] ++ streamChecks t
    ++ [(actionFails t, 0x0500)] ++ (List.range 8).map (fun p => (profileFails t p, profileOffset p))
    ++ routeChecks (startDirection t) 0 none (routeList t)

/-- The offset of the first record that fails; none when every check passes (R43). -/
def armFailure (t : Table Word64) (window : Nat) : Option Nat :=
  ((armChecks t window).find? (·.1)).map (·.2)

end Sys2Proof.Machine
end

