-- ==== Sys2Proof/Machine/Flags.lean ====
section
/-! DEFINITION. The event set: the 24 flags, raising them, acknowledging them, the interrupt line, the coalesced status
slot that they fill, and the flag codes of the records. -/

namespace Sys2Proof.Machine

/-- The 24 flags of the event set (section 2.7). -/
inductive EventFlag where
  | commandDone
  | runState
  | controlRefused
  | strayWrite
  | requestRefused
  | frameError
  | frameLoss
  | streamLost
  | streamBack
  | pointGap
  | pointForced
  | odoMismatch
  | odoStall
  | quadError
  | reversal
  | markerTaken
  | markerReject
  | profileChange
  | exceedAlert
  | exceedLimit
  | actionMissed
  | ringFull
  | writebackLag
  | writebackError
  deriving DecidableEq, Repr

/-- The bit of a flag in the event word (section 2.7). -/
def EventFlag.bit : EventFlag → Nat
  | .commandDone => 0
  | .runState => 1
  | .controlRefused => 2
  | .strayWrite => 3
  | .requestRefused => 4
  | .frameError => 5
  | .frameLoss => 6
  | .streamLost => 7
  | .streamBack => 8
  | .pointGap => 9
  | .pointForced => 10
  | .odoMismatch => 11
  | .odoStall => 12
  | .quadError => 13
  | .reversal => 14
  | .markerTaken => 15
  | .markerReject => 16
  | .profileChange => 17
  | .exceedAlert => 18
  | .exceedLimit => 19
  | .actionMissed => 20
  | .ringFull => 21
  | .writebackLag => 22
  | .writebackError => 23

/-- The event word of a live event set: bits 0–23 are the set flags, bits 24–63 zero (section 2.9). -/
def eventWord (events : Table (BitVec 32)) : Word64 :=
  events.foldr (fun e w => if e.1 < 24 then w ||| BitVec.twoPow 64 e.1 else w) 0

/-- INT is high while the live event set and the interrupt enable mask share a flag (R37). -/
def intLevel (events : Table (BitVec 32)) (mask : Word64) : Bool :=
  events.any (fun e => decide (e.1 < 24) && mask.getLsbD e.1)

/-- The control block with INT evaluated anew (R37). -/
def Control.evalInt (c : Control) : Control := { c with int := intLevel c.events c.mask }

/-- The control block with a flag set or renewed, the sequence in force recorded with it, and INT evaluated anew (R35). -/
def Control.raise (c : Control) (f : EventFlag) : Control :=
  { c with events := Table.write c.events f.bit c.statusSeq }.evalInt

/-- The status slot after a cause of R39: an empty slot is filled, a pending one keeps its place (R39, R187). -/
def StatusSlot.fill : StatusSlot → StatusSlot
  | .empty => .filling
  | .filling => .filling
  | .pending n => .pending n

/-- The write-back unit with a status write made pending (R39). -/
def WriteBack.markStatus (w : WriteBack) : WriteBack := { w with slot := w.slot.fill }

/-- A status write is made pending (R39). While the part is unanchored the control block publishes nothing (R25). -/
def State.markStatus (s : State) : State :=
  if s.control.runState = .unanchored then s else { s with writeBack := s.writeBack.markStatus }

/-- A block raises a flag: the flag is set or renewed, INT is evaluated and a status write is made pending (R35).
While the part is unanchored a raise is not recorded (R25). -/
def State.raise (s : State) (f : EventFlag) : State :=
  if s.control.runState = .unanchored then s
  else { s with control := s.control.raise f, writeBack := s.writeBack.markStatus }

/-- The place the status write takes at the end of the event that filled its slot: behind every record then queued (R187). -/
def WriteBack.settle (w : WriteBack) : WriteBack :=
  match w.slot with
  | .filling => { w with slot := .pending w.queue.length }
  | _ => w

/-- The end of an event (R187). -/
def State.settle (s : State) : State := { s with writeBack := s.writeBack.settle }

/-- A flag's last raise came at or after the presentation of the status write that carried sequence `carried`: the
recorded sequence is at or above it (R36), the difference taken modulo 2^32 (log 11). -/
def renewedSince (recorded carried : BitVec 32) : Bool := decide ((recorded - carried).toNat < 2 ^ 31)

/-- The live event set after an acknowledgement: a carried flag leaves unless it was renewed since that status write (R36). -/
def ackEvents (events : Table (BitVec 32)) (cap : Capture) : Table (BitVec 32) :=
  events.filter (fun e => !(decide (e.1 < 24) && cap.eventWord.getLsbD e.1) || renewedSince e.2 cap.seq)

/-- An acknowledgement is handed to the control block: if it removes a flag, INT is evaluated and a status write is made
pending; if it removes none it changes nothing (R36). -/
def State.acknowledge (s : State) (cap : Capture) : State :=
  let left := ackEvents s.control.events cap
  if left = s.control.events then s
  else { s with control := { s.control with events := left }.evalInt }.markStatus

/-- The coding of the run state in the status record (section 3.1). -/
def RunState.code : RunState → BitVec 3
  | .unanchored => 0
  | .idle => 1
  | .armed => 2
  | .running => 3
  | .draining => 4
  | .stopped => 5

/-- The coding of a result (section 11.2). -/
def ResultCode.code : ResultCode → BitVec 3
  | .none => 0
  | .done => 1
  | .refusedState => 2
  | .refusedConfig => 3
  | .refusedArg => 4
  | .refusedBusy => 5
  | .queueFull => 6
  | .notFound => 7

/-- The coding of a refusal reason (section 11.2). -/
def RefusalReason.code : RefusalReason → BitVec 8
  | .none => 0
  | .partialWord => 1
  | .owned => 2
  | .unassigned => 3
  | .locked => 4
  | .range => 5
  | .route => 6

/-- The coding of a stream state (R79). -/
def StreamState.code : StreamState → BitVec 2
  | .idle => 0
  | .silent => 1
  | .live => 2
  | .stale => 3

/-- The coding of the last marker outcome (section 11.2). -/
def MarkerOutcome.code : MarkerOutcome → BitVec 2
  | .none => 0
  | .taken => 1
  | .rejected => 2

/-- The coding of a ring outcome (R181). -/
def RingOutcome.code : RingOutcome → BitVec 2
  | .none => 0
  | .okay => 1
  | .error => 2

/-- The quality flags byte of a geometry record (section 11.1): bit 0 POINT_GAP to bit 7 SATURATED. -/
def qualityByte (f : PointFlags) (uncomp edge saturated : Bool) : BitVec 8 :=
  BitVec.ofBool saturated ++ BitVec.ofBool edge ++ BitVec.ofBool uncomp ++ BitVec.ofBool f.speedUnknown
    ++ BitVec.ofBool f.step ++ BitVec.ofBool f.mismatch ++ BitVec.ofBool f.forced ++ BitVec.ofBool f.gap

/-- The validity mask of a geometry record: bit c set when channel c is valid (section 11.1). -/
def validityMask (channels : List (Option Int)) : BitVec 8 :=
  let bit (c : Nat) : BitVec 1 := BitVec.ofBool ((channels.getD c none).isSome)
  bit 7 ++ bit 6 ++ bit 5 ++ bit 4 ++ bit 3 ++ bit 2 ++ bit 1 ++ bit 0

end Sys2Proof.Machine
end

