-- ==== Sys2Proof/Machine/Ops.lean ====
section
/-! DEFINITION. The operations that the blocks share: times and saturating counters, the register accessors of rings, streams and
channels, the in-flight table, the response channel, the change of run state, and the production of a record. -/

namespace Sys2Proof

/-- The record size of a ring in bytes (R181). -/
def Ring.recordBytes : Ring → Nat
  | .geometry => 64
  | .exceedance => 64
  | .action => 32

/-- The area of a ring in the area map: A5, A6, A7 (R10). -/
def Ring.area : Ring → Nat
  | .geometry => 5
  | .exceedance => 6
  | .action => 7

/-- The other channel. -/
def Channel.other : Channel → Channel
  | .a => .b
  | .b => .a

end Sys2Proof

namespace Sys2Proof.Machine

/-! ### Times and counters -/

/-- Time t lies at or above time u: (t − u) modulo 2^48 is below 2^47 (00 Conventions, Time). -/
def timeAtOrAbove (t u : Time) : Bool := decide ((t - u).toNat < 2 ^ 47)

/-- A deadline, release time or expiry is reached: the time base has come to equal it (00 Conventions, Time; log 6). -/
def State.reached (s : State) (t : Time) : Bool := decide (s.time = t)

/-- A time plus a number of µs, modulo 2^48 (00 Conventions). -/
def timeAfter (t : Time) (us : Nat) : Time := t + BitVec.ofNat 48 us

/-- A counter that stops at its greatest value, plus n (R59, R79, R181). -/
def satAdd {w : Nat} (x : BitVec w) (n : Nat) : BitVec w :=
  if x.toNat + n < 2 ^ w then x + BitVec.ofNat w n else BitVec.allOnes w

/-- A distance of 1/256 mm in whole mm, truncated toward minus infinity (00 Conventions, Units). -/
def mmOf (d : Int) : Int := d / 256

/-- D as a signed 64-bit count; a sum outside signed 64 bits is a free value (R57; log 13). -/
def fitDistance (x : Int) : Int :=
  if -2 ^ 63 ≤ x ∧ x < 2 ^ 63 then x else (Config.distanceOutOfRange x).toInt

/-! ### Rings (R181, R182) -/

/-- The state of a ring. -/
def WriteBack.ring (w : WriteBack) : Ring → RingState
  | .geometry => w.geometryRing
  | .exceedance => w.exceedanceRing
  | .action => w.actionRing

/-- The write-back unit with a ring's state replaced. -/
def WriteBack.setRing (w : WriteBack) (r : Ring) (x : RingState) : WriteBack :=
  match r with
  | .geometry => { w with geometryRing := x }
  | .exceedance => { w with exceedanceRing := x }
  | .action => { w with actionRing := x }

/-- The number of records a ring holds for software: write index minus consumed index, modulo 2^32 (R183). -/
def RingState.held (x : RingState) : Nat := (x.writeIndex - x.consumed).toNat

/-- The base of an area, 0 when the entry is empty. -/
def Transit.areaBase (t : Transit) (n : Nat) : Addr := ((Table.read t.areas n).map (·.base)).getD 0

/-- The address of the slot of the record with an index: slot i mod capacity (R182). -/
def slotAddr (base : Addr) (r : Ring) (capacity : Nat) (index : BitVec 32) : Addr :=
  base + BitVec.ofNat 36 (index.toNat % capacity * r.recordBytes)

/-! ### Production of a record (R184) -/

/-- A record of ring r is dropped: the ring's lost count rises by 1, saturating (R184). -/
def WriteBack.lose (w : WriteBack) (r : Ring) : WriteBack :=
  w.setRing r { w.ring r with lost := satAdd (w.ring r).lost 1 }

/-- A record of ring r is placed: it takes the write index, which advances by 1, and joins the tail of the queue (R184, R186). -/
def WriteBack.place (w : WriteBack) (r : Ring) (base : Addr) (content : List Word64) : WriteBack :=
  let x := w.ring r
  let entry : QueuedRecord :=
    { ring := r, index := x.writeIndex, addr := slotAddr base r x.capacity x.writeIndex
      beats := r.recordBytes / 8, content := content }
  { w.setRing r { x with writeIndex := x.writeIndex + 1 } with queue := w.queue ++ [entry] }

/-- A unit hands a record to write-back: it is dropped at a full ring, dropped at a full queue, or placed; a change of the
write index makes a status write pending (R184, R39). -/
def State.produce (s : State) (r : Ring) (content : List Word64) : State :=
  if (s.writeBack.ring r).held = (s.writeBack.ring r).capacity then
    { s with writeBack := s.writeBack.lose r }.raise .ringFull
  else if s.writeBack.queue.length = 16 then
    { s with writeBack := s.writeBack.lose r }.raise .writebackLag
  else
    { s with writeBack := s.writeBack.place r (s.transit.areaBase r.area) content }.markStatus

/-! ### The in-flight table and the response channel (R5, R7) -/

/-- The in-flight entry of a tag; none is FREE. -/
def Transit.entry (t : Transit) (tag : Nat) : Option Entry := Table.read t.inflight tag

/-- The transit unit with an in-flight entry set. -/
def Transit.setEntry (t : Transit) (tag : Nat) (e : Entry) : Transit :=
  { t with inflight := Table.write t.inflight tag e }

/-- The transit unit with an in-flight entry made FREE. -/
def Transit.freeEntry (t : Transit) (tag : Nat) : Transit := { t with inflight := Table.remove t.inflight tag }

/-- A response joins the system port response channel (R7). -/
def Transit.respond (t : Transit) (r : Response) : Transit := { t with responses := t.responses ++ [r] }

/-- The part itself answers ERROR, with the request's tag and no data (R4, R11, R13). -/
def Transit.answerError (t : Transit) (tag : SysTag) : Transit := t.respond { tag := tag, status := .error, data := [] }

/-- The lowest-numbered FREE inserted tag among 64–95 (R6). -/
def Transit.freeInsertedTag (t : Transit) : Option Nat :=
  ((List.range 32).map (· + 64)).find? (fun tag => (t.entry tag).isNone)

/-- The number of inserted entries not FREE (R6). -/
def Transit.insertedInFlight (t : Transit) : Nat :=
  (t.inflight.filter (fun e => decide (64 ≤ e.1))).length

/-! ### Streams and channels -/

/-- The context of stream i + 1. -/
def StreamTap.stream (t : StreamTap) : Fin 4 → StreamContext
  | 0 => t.s1
  | 1 => t.s2
  | 2 => t.s3
  | 3 => t.s4

/-- The stream tap with the context of stream i + 1 replaced. -/
def StreamTap.setStream (t : StreamTap) (i : Fin 4) (c : StreamContext) : StreamTap :=
  match i with
  | 0 => { t with s1 := c }
  | 1 => { t with s2 := c }
  | 2 => { t with s3 := c }
  | 3 => { t with s4 := c }

/-- The stream tap with every context passed through a function. -/
def StreamTap.mapStreams (t : StreamTap) (f : StreamContext → StreamContext) : StreamTap :=
  { t with s1 := f t.s1, s2 := f t.s2, s3 := f t.s3, s4 := f t.s4 }

/-- The state with the context of one stream replaced. -/
def State.setStream (s : State) (i : Fin 4) (c : StreamContext) : State := { s with tap := s.tap.setStream i c }

/-- A tachometer channel's state. -/
def Odometer.channel (o : Odometer) : Channel → ChannelState
  | .a => o.chanA
  | .b => o.chanB

/-- The odometer with a channel's state replaced. -/
def Odometer.setChannel (o : Odometer) (c : Channel) (x : ChannelState) : Odometer :=
  match c with
  | .a => { o with chanA := x }
  | .b => { o with chanB := x }

/-- The four run states in which counts take effect and passages are latched (R60, R73). -/
def RunState.counting : RunState → Bool
  | .armed | .running | .draining | .stopped => true
  | .unanchored | .idle => false

/-- The run states in which silence timers run and frames reach the point assembler: RUNNING and DRAINING (R91, R94). -/
def RunState.measuring : RunState → Bool
  | .running | .draining => true
  | .unanchored | .idle | .armed | .stopped => false

/-! ### The run state (R42) -/

/-- The run state changes: RUN_STATE is raised and a status write made pending (R42). When it becomes STOPPED every silence
timer stops (R94, R98). -/
def State.changeRunState (s : State) (r : RunState) : State :=
  let tap := if r = .stopped then s.tap.mapStreams (fun c => { c with timer := none }) else s.tap
  { s with control := { s.control with runState := r }, tap := tap }.raise .runState

/-- The completion of a command: the last-command record, COMMAND_DONE and a pending status write (R34). -/
def State.complete (s : State) (word : BitVec 4) (result : ResultCode) (detail : BitVec 32) : State :=
  { s with control := { s.control with lastCommand := ⟨word, result, detail⟩ } }.raise .commandDone

end Sys2Proof.Machine
end

