-- ==== Sys2Proof/Machine/Formats.lean ====
section
/-! DEFINITION. The records the part writes (chapter 11): each as its 8-byte words, every word the concatenation of its fields
from the highest byte down to the lowest. -/

namespace Sys2Proof.Machine

/-- A channel value in a record: the signed 32-bit value, 0 when not valid (R137). -/
def channelField (channels : List (Option Int)) (c : Nat) : BitVec 32 := BitVec.ofInt 32 ((channels.getD c none).getD 0)

/-- The words of a geometry record (section 11.1). -/
def geometryWords (g : GeometryRecord) : List Word64 :=
  let value (c : Nat) : BitVec 32 := channelField g.channels c
  [ (g.profile.setWidth 8 : BitVec 8) ++ BitVec.ofNat 24 g.speed ++ low32 g.index,
    signed64 g.dmm,
    signed64 g.chainage,
    qualityByte g.flags g.uncomp g.edge g.saturated ++ validityMask g.channels ++ g.time,
    value 1 ++ value 0,
    value 3 ++ value 2,
    value 5 ++ value 4,
    value 7 ++ value 6 ]

/-- The severity of an exceedance record (section 11.1). -/
inductive Severity where
  | alert
  | limit
  deriving DecidableEq, Repr

/-- The coding of a severity. -/
def Severity.code : Severity → BitVec 8
  | .alert => 1
  | .limit => 2

/-- The cause of a close (section 8.5). -/
inductive CloseCause where
  | cleared
  | invalid
  | profile
  | length
  | runEnd
  deriving DecidableEq, Repr

/-- The coding of a close cause (section 11.1). -/
def CloseCause.code : CloseCause → BitVec 8
  | .cleared => 1
  | .invalid => 2
  | .profile => 3
  | .length => 4
  | .runEnd => 5

/-- An exceedance record (R158). -/
structure ExceedanceRecord where
  channel : Nat
  severity : Severity
  run : OpenRun
  cause : CloseCause
  /-- The length in mm: (end − start + 1)·S. -/
  lengthMm : Int
  deriving DecidableEq, Repr

/-- The words of an exceedance record (section 11.1). -/
def exceedanceWords (e : ExceedanceRecord) : List Word64 :=
  [ (0 : BitVec 24) ++ (if e.run.markRequested then (1 : BitVec 8) else 0) ++ e.cause.code
      ++ (e.run.profile.setWidth 8 : BitVec 8) ++ e.severity.code ++ BitVec.ofNat 8 e.channel,
    low32 e.run.stop ++ low32 e.run.start,
    BitVec.ofInt 32 e.run.peakValue ++ low32 e.run.peak,
    signed64 e.run.startChainage,
    signed64 e.run.peakChainage,
    (0 : BitVec 32) ++ BitVec.ofInt 32 e.lengthMm,
    0,
    0 ]

/-- The outcome of an action (R176). -/
inductive ActionOutcome where
  | fired
  | missed
  deriving DecidableEq, Repr

/-- The coding of an action outcome (section 11.1). -/
def ActionOutcome.code : ActionOutcome → BitVec 8
  | .fired => 1
  | .missed => 2

/-- The coding of an origin (section 11.1). -/
def Origin.code : Origin → BitVec 8
  | .mark => 1
  | .posted => 2
  | .periodic => 3

/-- An action log record (R176). -/
structure ActionLogRecord where
  id : BitVec 16
  origin : Origin
  trigger : Int
  dmm : Int
  time : Time
  outcome : ActionOutcome
  deriving DecidableEq, Repr

/-- The words of an action log record (section 11.1). -/
def actionLogWords (a : ActionLogRecord) : List Word64 :=
  [ (0 : BitVec 32) ++ a.outcome.code ++ a.origin.code ++ a.id,
    signed64 a.trigger,
    signed64 a.dmm,
    (0 : BitVec 16) ++ a.time ]

/-- The chainage of a distance: Q + dir·D_mm (R70). R70 and R199 give it 64 bits and state no result outside them; it is the exact integer
there too: the model's choice (log 30). -/
def Odometer.chainageOf (o : Odometer) (dmm : Int) : Int := o.q + o.dir.sign * dmm

/-- The state word of the status record (section 11.2), from bits 31–30 down to bits 2–0. -/
def stateWord (s : State) : BitVec 32 :=
  s.odometer.lastMarker.outcome.code
    ++ s.tap.s4.state.code ++ s.tap.s3.state.code ++ s.tap.s2.state.code ++ s.tap.s1.state.code
    ++ BitVec.ofNat 4 s.assembler.queue.length
    ++ BitVec.ofNat 7 s.exceedance.cursor
    ++ s.exceedance.active
    ++ BitVec.ofBool s.exceedance.overrideOn
    ++ BitVec.ofBool s.odometer.highWaterPoint.isSome
    ++ BitVec.ofBool s.odometer.swapLock
    ++ BitVec.ofBool (decide (s.odometer.lead = .b))
    ++ (1 : BitVec 1)
    ++ s.control.runState.code

/-- The ring outcomes field of the status record (section 11.2). -/
def ringOutcomes (w : WriteBack) : BitVec 16 :=
  (0 : BitVec 4) ++ w.actionRing.previous.code ++ w.actionRing.last.code
    ++ w.exceedanceRing.previous.code ++ w.exceedanceRing.last.code
    ++ w.geometryRing.previous.code ++ w.geometryRing.last.code

/-- A quadrature error count in the status record, limited to FFFFh (R199). -/
def limitedErrors (n : BitVec 32) : BitVec 16 := if 0xFFFF < n.toNat then 0xFFFF else n.setWidth 16

/-- The words of the status record composed from the state (R38, section 11.2); points discarded shows its low 8 bits (log 24). The present
chainage is limited to 48 bits (R199) from its exact value, also where that lies outside signed 64 bits: the model's choice (log 30); so
is the marker error to 24 bits (log 28). -/
def statusWords (s : State) : List Word64 :=
  let c := s.control
  let o := s.odometer
  let a := s.assembler
  let w := s.writeBack
  [ stateWord s ++ c.statusSeq,
    eventWord c.events,
    c.lastCommand.detail ++ c.lastRefusal.offset ++ c.lastRefusal.reason.code
      ++ ((0 : BitVec 1) ++ c.lastCommand.result.code ++ c.lastCommand.word : BitVec 8),
    BitVec.ofNat 8 s.transit.insertedInFlight ++ BitVec.ofNat 8 w.queue.length ++ limitedSigned 48 (mmOf o.d),
    ringOutcomes w ++ limitedSigned 48 (o.chainageOf (mmOf o.d)),
    limitedErrors o.chanB.errors ++ limitedErrors o.chanA.errors ++ low32 ((o.highWaterPoint.map (·.index)).getD 0),
    (a.discarded.setWidth 8 : BitVec 8) ++ limitedSigned 24 o.lastMarker.error ++ o.lastMarker.id,
    s.tap.s4.errors ++ s.tap.s3.errors ++ s.tap.s2.errors ++ s.tap.s1.errors,
    a.opened ++ s.tap.framesLost,
    a.forced ++ a.closed,
    s.exceedance.emitted ++ a.gapped,
    s.action.fired ++ s.exceedance.short,
    s.action.cancelled ++ s.action.missed,
    w.exceedanceRing.writeIndex ++ w.geometryRing.writeIndex,
    w.geometryRing.lost ++ w.actionRing.writeIndex,
    w.actionRing.lost ++ w.exceedanceRing.lost ]

end Sys2Proof.Machine
end

