-- ==== Sys2Proof/Machine/Actions.lean ====
section
/-! DEFINITION. The action unit (spec 09): lines and hold counts, the action queue, firing and pulses, periodic triggers, and the
meaning of PULSE_RELEASE. -/

namespace Sys2Proof.Machine

/-! ### Lines and hold counts (R163) -/

/-- A group's pattern names line ACT(n): bit i of a pattern of group g is line ACT(4g + i). -/
def namesLine (group : Fin 2) (pattern : BitVec 4) (n : Nat) : Bool :=
  decide (n / 4 = group.val) && pattern.getLsbD (n % 4)

/-- The hold counts with each line that a pulse names passed through a function. -/
def adjustHolds (holds : List Nat) (p : Pulse) (f : Nat → Nat) : List Nat :=
  holds.zipIdx.map (fun e => if namesLine p.group p.pattern e.2 then f e.1 else e.1)

/-- The rest level of a line: high when its bit is set in its group's rest pattern (R163). -/
def ActionUnit.restLevel (a : ActionUnit) (line : Fin 8) : Bool :=
  if line.val < 4 then a.rest0.getLsbD line.val else a.rest1.getLsbD (line.val - 4)

/-- The level of a line: its rest level while its hold count is 0, its active level otherwise (R163). -/
def ActionUnit.lineLevel (a : ActionUnit) (line : Fin 8) : Bool :=
  if a.holds.getD line.val 0 = 0 then a.restLevel line else !a.restLevel line

/-- The level of action line ACT0–ACT7. -/
def State.lineLevel (s : State) (line : Fin 8) : Bool := s.action.lineLevel line

/-! ### The pulse table (R171, R172) -/

/-- The lowest-numbered free slot of the pulse table (R171). -/
def ActionUnit.freeSlot (a : ActionUnit) : Option Nat :=
  (List.range 32).find? (fun k => (Table.read a.pulses k).isNone)

/-- A firing takes a slot: the slot holds the pulse and the hold count of each line it names rises by 1 (R163, R171). -/
def ActionUnit.occupy (a : ActionUnit) (slot : Nat) (p : Pulse) : ActionUnit :=
  { a with pulses := Table.write a.pulses slot p, holds := adjustHolds a.holds p (· + 1) }

/-- A slot is freed: the hold count of each line its pulse names falls by 1 (R163, R172). -/
def ActionUnit.free (a : ActionUnit) (slot : Nat) (p : Pulse) : ActionUnit :=
  { a with pulses := Table.remove a.pulses slot, holds := adjustHolds a.holds p (· - 1) }

/-! ### Log records and missed actions (R176) -/

/-- The action unit hands write-back an action log record with the D and time of the event (R176). -/
def State.logAction (s : State) (id : BitVec 16) (origin : Origin) (trigger : Int) (outcome : ActionOutcome) : State :=
  s.produce .action (actionLogWords
    { id := id, origin := origin, trigger := trigger, dmm := mmOf s.odometer.d, time := s.time, outcome := outcome })

/-- An action is missed: it is logged as MISSED, ACTION_MISSED is raised and actions missed rises by 1 (R167, R171, R173). -/
def State.missAction (s : State) (id : BitVec 16) (origin : Origin) (trigger : Int) : State :=
  ({ s with action := { s.action with missed := s.action.missed + 1 } }.raise .actionMissed).logAction id origin trigger .missed

/-! ### The action queue (R165–R169) -/

/-- A new entry stands after every entry whose trigger is at or below its own and before every entry above it (R165). -/
def insertAction (e : ActionEntry) : List ActionEntry → List ActionEntry
  | [] => [e]
  | x :: rest => if x.trigger ≤ e.trigger then x :: insertAction e rest else e :: x :: rest

/-- The action unit with an id taken: the counter advances by 1, from FFFFh to 0 (R166). -/
def ActionUnit.takeId (a : ActionUnit) : ActionUnit := { a with idCounter := a.idCounter + 1 }

/-- The action unit with an entry placed in the queue (R165). -/
def ActionUnit.enqueue (a : ActionUnit) (e : ActionEntry) : ActionUnit := { a with queue := insertAction e a.queue }

/-- A mark request for a record's distance (R168): in RUNNING it is queued unless its trigger has passed or the queue is full;
otherwise, and in DRAINING, it is missed. It takes an id in every case (R166). -/
def State.markRequest (s : State) (dmm : Int) : State :=
  let id := s.action.idCounter
  let trigger := dmm + s.action.markOffset
  let s1 := { s with action := s.action.takeId }
  if s.control.runState = .running ∧ s.odometer.highWater < trigger ∧ s.action.queue.length ≠ 32 then
    let e : ActionEntry :=
      { id := id, trigger := trigger, group := s.action.markGroup, pattern := s.action.markPattern, origin := .mark }
    { s1 with action := s1.action.enqueue e }
  else s1.missAction id .mark trigger

/-- The outcome of an ACTION_POST: its result code and detail (R169). -/
structure PostResult where
  state : State
  result : ResultCode
  detail : BitVec 32

/-- ACTION_POST handed to the action unit (R167, R169): missed at once when its trigger has passed, QUEUE_FULL at a full queue,
else queued. -/
def State.post (s : State) (group : Fin 2) (pattern : BitVec 4) (offset : Nat) : PostResult :=
  let id := s.action.idCounter
  let trigger := mmOf s.odometer.d + offset
  let s1 := { s with action := s.action.takeId }
  if trigger ≤ s.odometer.highWater then ⟨s1.missAction id .posted trigger, .done, id.setWidth 32⟩
  else if s.action.queue.length = 32 then ⟨s, .queueFull, 0⟩
  else
    let e : ActionEntry := { id := id, trigger := trigger, group := group, pattern := pattern, origin := .posted }
    ⟨{ s1 with action := s1.action.enqueue e }, .done, id.setWidth 32⟩

/-- The action queue without the first entry of an id, from the head (R175). -/
def cancelAction (id : BitVec 16) : List ActionEntry → List ActionEntry
  | [] => []
  | e :: rest => if e.id = id then rest else e :: cancelAction id rest

/-! ### Firing (R170, R171, R173) -/

/-- An entry that has left the queue fires (R171): the lowest free slot takes its pulse, it is logged FIRED and counted; at a
full table it is missed. -/
def State.fireAction (s : State) (e : ActionEntry) : State :=
  match s.action.freeSlot with
  | some slot =>
    let p : Pulse := { group := e.group, pattern := e.pattern, release := timeAfter s.time s.action.pulseLength }
    { s with action := { s.action.occupy slot p with fired := s.action.fired + 1 } }.logAction e.id e.origin e.trigger .fired
  | none => s.missAction e.id e.origin e.trigger

/-- While the head of the queue is due, it leaves the queue and fires; `n` bounds the number of firings (R170). -/
def State.fireDue : Nat → State → State
  | 0, s => s
  | n + 1, s =>
    match s.action.queue with
    | [] => s
    | e :: rest =>
      if e.trigger ≤ s.odometer.highWater then
        State.fireDue n ({ s with action := { s.action with queue := rest } }.fireAction e)
      else s

/-- The smallest multiple of a period strictly above a distance (R50, R173, R174). -/
def nextMultiple (period : Nat) (x : Int) : Int := (x / period + 1) * period

/-- A group's periodic trigger. -/
def ActionUnit.periodic (a : ActionUnit) : Fin 2 → Periodic
  | 0 => a.periodic0
  | 1 => a.periodic1

/-- The action unit with a group's periodic trigger replaced. -/
def ActionUnit.setPeriodic (a : ActionUnit) (g : Fin 2) (p : Periodic) : ActionUnit :=
  match g with
  | 0 => { a with periodic0 := p }
  | 1 => { a with periodic1 := p }

/-- The id field of a PERIODIC log record: the group number (R173). -/
def periodicId (g : Fin 2) : BitVec 16 := BitVec.ofNat 16 g.val

/-- A periodic trigger due at the high-water distance fires or is missed at a full table, and its next position advances past the
high-water distance (R173). Called in RUNNING only. -/
def State.firePeriodic (s : State) (g : Fin 2) : State :=
  let t := s.action.periodic g
  match t.next with
  | none => s
  | some pos =>
    if pos ≤ s.odometer.highWater then
      let moved : Periodic := { t with next := some (nextMultiple t.period s.odometer.highWater) }
      let s1 := { s with action := s.action.setPeriodic g moved }
      match s.action.freeSlot with
      | some slot =>
        let p : Pulse := { group := g, pattern := t.pattern, release := timeAfter s.time t.pulseLength }
        { s1 with action := { s1.action.occupy slot p with fired := s1.action.fired + 1 } }
      | none => s1.missAction (periodicId g) .periodic pos
    else s

/-- A rise of the high-water distance reaches the action unit (R170): due queue entries, then in RUNNING the periodic triggers. -/
def State.rise (s : State) : State :=
  let s1 := State.fireDue s.action.queue.length s
  if s1.control.runState = .running then (s1.firePeriodic 0).firePeriodic 1 else s1

/-! ### Run transitions of the action unit -/

/-- Both periodic triggers become off (R174). -/
def ActionUnit.periodicOff (a : ActionUnit) : ActionUnit :=
  { a with periodic0 := { a.periodic0 with next := none }, periodic1 := { a.periodic1 with next := none } }

/-- A trigger whose period is not 0 is armed at the next multiple of its period above D_mm; one whose period is 0 is off (R174). -/
def Periodic.armAt (p : Periodic) (dmm : Int) : Periodic :=
  { p with next := if p.period = 0 then none else some (nextMultiple p.period dmm) }

/-- START arms the periodic triggers (R174). -/
def ActionUnit.start (a : ActionUnit) (dmm : Int) : ActionUnit :=
  { a with periodic0 := a.periodic0.armAt dmm, periodic1 := a.periodic1.armAt dmm }

/-- The queue is emptied and its entries are counted as cancelled (R179, R180). -/
def ActionUnit.cancelAll (a : ActionUnit) : ActionUnit :=
  { a with queue := [], cancelled := a.cancelled + BitVec.ofNat 32 a.queue.length }

/-- ABORT in the action unit (R179). -/
def ActionUnit.abort (a : ActionUnit) : ActionUnit := a.cancelAll.periodicOff

/-- RELEASE in the action unit (R180): every slot is freed and every hold count is 0, so every line goes to rest. -/
def ActionUnit.release (a : ActionUnit) : ActionUnit :=
  { a.cancelAll with pulses := [], holds := List.replicate 8 0 }

/-- PULSE_RELEASE: an occupied slot whose release time the time base equals is freed (R172). A slot that is free or whose time
it is not has no release event: nothing changes (log 5, log 6). -/
def execPulseRelease (slot : Fin 32) (s : State) : Host.Outcome State Fault Refusal :=
  match Table.read s.action.pulses slot.val with
  | some p =>
    if s.reached p.release then .next { s with action := s.action.free slot.val p }
    else .next s
  | none => .next s

end Sys2Proof.Machine
end

