-- ==== Sys2Proof/Machine/Exceedance.lean ====
section
/-! DEFINITION. The exceedance unit (spec 08): the route list and the active profile, the classification of a geometry record, the
channel trackers, and the closing of runs. -/

namespace Sys2Proof.Machine

/-! ### Profiles and classes (R142, R143) -/

/-- The entry of a channel in a profile. -/
def ExceedanceUnit.entry (x : ExceedanceUnit) (profile : BitVec 3) (ch : Nat) : ProfileEntry :=
  (x.profiles.getD profile.toNat []).getD ch .zero

/-- The class of a channel value (R143). -/
inductive ValueClass where
  | none
  | alert
  | limit
  | invalid
  deriving DecidableEq, Repr

/-- The class of a channel value under a profile entry, the conditions taken in the rule's order (R143). A value saturated to +2,147,483,647
under a limit of exactly 2,147,483,647 follows the rule's table, against its last sentence: the model's choice (log 29). -/
def classify (e : ProfileEntry) : Option Int → ValueClass
  | Option.none => .invalid
  | some v =>
    if 0 < e.limit ∧ e.limit < v.natAbs then .limit
    else if 0 < e.alert ∧ e.alert < v.natAbs then .alert
    else .none

/-- A channel's tracker. -/
def ExceedanceUnit.tracker (x : ExceedanceUnit) (ch : Nat) : Tracker := x.trackers.getD ch .clear

/-- The exceedance unit with a channel's tracker replaced. -/
def ExceedanceUnit.setTracker (x : ExceedanceUnit) (ch : Nat) (t : Tracker) : ExceedanceUnit :=
  { x with trackers := x.trackers.set ch t }

/-- The open run of a tracker. -/
def Tracker.run : Tracker → Option OpenRun
  | .clear => none
  | .alertRun r => some r
  | .limitRun r => some r

/-! ### The route (R144, R145) -/

/-- A route entry's chainage lies, along dir, at or behind a record's chainage (R145). -/
def routeReached (dir : Direction) (recordChainage : Int) (e : RouteEntry) : Bool :=
  match dir with
  | .plus => decide (e.chainage ≤ recordChainage)
  | .minus => decide (recordChainage ≤ e.chainage)

/-- The active profile that a consumed entry gives; outside 0–7 it is a free value (log 14). -/
def routeProfile (p : BitVec 8) : BitVec 3 := if p.toNat ≤ 7 then p.setWidth 3 else Config.routeProfileOutOfRange p

/-- The entries a record has reached, from the cursor on (R145). -/
def State.reachedEntries (s : State) (chainage : Int) : List RouteEntry :=
  ((routeList s.control.shadow).drop s.exceedance.cursor).takeWhile (routeReached s.odometer.dir chainage)

/-- A record consumes the route entries it has reached (R145). -/
def State.consumeRoute (s : State) (chainage : Int) : State :=
  match (s.reachedEntries chainage).getLast? with
  | none => s
  | some e =>
    { s with exceedance :=
        { s.exceedance with
          active := routeProfile e.profile
          overrideOn := false
          cursor := s.exceedance.cursor + (s.reachedEntries chainage).length } }.raise .profileChange

/-! ### Closing a run (R153, R158) -/

/-- The severity flag of an emitted record (R158). -/
def Severity.flag : Severity → EventFlag
  | .alert => .exceedAlert
  | .limit => .exceedLimit

/-- An exceedance record is emitted: handed to write-back, its flag raised, exceedances emitted counted (R158). -/
def State.emitExceedance (s : State) (ch : Nat) (sev : Severity) (r : OpenRun) (cause : CloseCause) : State :=
  let rec1 : ExceedanceRecord :=
    { channel := ch, severity := sev, run := r, cause := cause, lengthMm := (r.stop - r.start + 1) * s.exceedance.spacing }
  let s1 := (s.produce .exceedance (exceedanceWords rec1)).raise sev.flag
  { s1 with exceedance := { s1.exceedance with emitted := s1.exceedance.emitted + 1 } }

/-- A channel's open run closes (R153): a LIMIT run, or an ALERT run of at least the minimum length of its own profile, is
reported; a shorter ALERT run is counted short. The tracker becomes CLEAR. -/
def State.closeRun (s : State) (ch : Nat) (cause : CloseCause) : State :=
  let cleared := { s with exceedance := s.exceedance.setTracker ch .clear }
  match s.exceedance.tracker ch with
  | .clear => s
  | .limitRun r => cleared.emitExceedance ch .limit r cause
  | .alertRun r =>
    if (s.exceedance.entry r.profile ch).minLength ≤ r.length then cleared.emitExceedance ch .alert r cause
    else { cleared with exceedance := { cleared.exceedance with short := cleared.exceedance.short + 1 } }

/-! ### Opening and extending (R151, R152, R159) -/

/-- A run as it opens at a record (R151). -/
def newRun (g : GeometryRecord) (v : Int) : OpenRun :=
  { profile := g.profile, start := g.index, startChainage := g.chainage, stop := g.index, length := 1
    peak := g.index, peakChainage := g.chainage, peakValue := v, markRequested := false }

/-- A run extended by a record (R152): the peak moves only to a greater magnitude. -/
def OpenRun.extend (r : OpenRun) (g : GeometryRecord) (v : Int) : OpenRun :=
  let longer := { r with stop := g.index, length := r.length + 1 }
  if r.peakValue.natAbs < v.natAbs then { longer with peak := g.index, peakChainage := g.chainage, peakValue := v }
  else longer

/-- A tracker enters LIMIT_RUN on a record: a mark request is made when the channel's mark flag in the profile applied is 1 and
the run has made none (R159). -/
def State.enterLimit (s : State) (g : GeometryRecord) (ch : Nat) (r : OpenRun) : State :=
  if (s.exceedance.entry g.profile ch).mark = true ∧ r.markRequested = false then
    { s with exceedance := s.exceedance.setTracker ch (.limitRun { r with markRequested := true }) }.markRequest g.dmm
  else { s with exceedance := s.exceedance.setTracker ch (.limitRun r) }

/-- A CLEAR tracker takes a record's class (R150): ALERT opens an ALERT run, LIMIT a LIMIT run. -/
def State.trackClear (s : State) (g : GeometryRecord) (ch : Nat) (c : ValueClass) (v : Int) : State :=
  match c with
  | .none | .invalid => s
  | .alert => { s with exceedance := s.exceedance.setTracker ch (.alertRun (newRun g v)) }
  | .limit => s.enterLimit g ch (newRun g v)

/-- A tracker takes a record's class (R150); an extension past 4096 records is the close of R156, after which the record is acted
on from CLEAR. -/
def State.trackClass (s : State) (g : GeometryRecord) (ch : Nat) (c : ValueClass) (v : Int) : State :=
  match s.exceedance.tracker ch with
  | .clear => s.trackClear g ch c v
  | .alertRun r =>
    match c with
    | .none => s.closeRun ch .cleared
    | .invalid => s.closeRun ch .invalid
    | .alert =>
      if r.length = 4096 then (s.closeRun ch .length).trackClear g ch c v
      else { s with exceedance := s.exceedance.setTracker ch (.alertRun (r.extend g v)) }
    | .limit =>
      if r.length = 4096 then (s.closeRun ch .length).trackClear g ch c v
      else s.enterLimit g ch (r.extend g v)
  | .limitRun r =>
    match c with
    | .none => s.closeRun ch .cleared
    | .invalid => s.closeRun ch .invalid
    | .alert | .limit =>
      if r.length = 4096 then (s.closeRun ch .length).trackClear g ch c v
      else { s with exceedance := s.exceedance.setTracker ch (.limitRun (r.extend g v)) }

/-- The profile check before a class is acted on (R155): an open run of another profile closes with cause PROFILE. -/
def State.profileCheck (s : State) (g : GeometryRecord) (ch : Nat) : State :=
  match (s.exceedance.tracker ch).run with
  | none => s
  | some r => if r.profile = g.profile then s else s.closeRun ch .profile

/-- One channel of a record is classified and tracked (R143, R150, R155). -/
def State.trackChannel (s : State) (g : GeometryRecord) (ch : Nat) : State :=
  let value := g.channels.getD ch none
  (s.profileCheck g ch).trackClass g ch (classify (s.exceedance.entry g.profile ch) value) (value.getD 0)

/-- The eight channels of a record, from 0 to 7 (R148). -/
def State.trackChannels (s : State) (g : GeometryRecord) : State :=
  (List.range 8).foldl (fun s ch => s.trackChannel g ch) s

/-- A geometry record handed to the exceedance unit (R148): route, profile, channels, hand-off to write-back. -/
def State.classifyRecord (s : State) (g : GeometryRecord) : State :=
  let s1 := s.consumeRoute g.chainage
  let applied := { g with profile := s1.exceedance.active }
  (s1.trackChannels applied).produce .geometry (geometryWords applied)

/-- The end of the run's records (R157): every open run closes with cause RUN_END, in channel order. -/
def State.endRecords (s : State) : State :=
  (List.range 8).foldl (fun s ch => s.closeRun ch .runEnd) s

end Sys2Proof.Machine
end

