-- ==== Sys2Proof/Machine/Geometry.lean ====
section
/-! DEFINITION. The geometry unit (spec 07): the history ring, the eight channels of a centre, the emission of records and the tail. -/

namespace Sys2Proof.Machine

/-! ### The history ring (R121, R122) -/

/-- The position of point k: the remainder of k by 256, 0 to 255 (R121). -/
def ringPosition (k : Int) : Nat := (k % 256).toNat

/-- The sample of point j; none when j lies outside the run (R122). -/
def GeometryUnit.pointAt (g : GeometryUnit) (j : Int) : Option Sample :=
  match Table.read g.ring (ringPosition j) with
  | some x => if x.index = j then some x else none
  | none => none

/-! ### Quantities (R127) -/

/-- The value of a quantity at a point; none when not valid. The codes 6 and 7, INR_Y and INR_Z, count as 0 when unmapped (R127). -/
def Sample.quantity (x : Sample) (code : Nat) : Option Int :=
  match x.readings.getD (code - 1) .missing with
  | .valid v => some v
  | .missing => none
  | .unmapped => if code = 6 ∨ code = 7 then some 0 else none

/-! ### Channels (R126, R128–R135) -/

/-- A computed channel: its exact value, none when not valid, and whether it is invalid with EDGE (R135). -/
structure Computed where
  value : Option Int
  edge : Bool
  deriving DecidableEq, Repr

/-- A channel that needs the centre only. -/
def Computed.atCentre (v : Option Int) : Computed := { value := v, edge := false }

/-- GAUGE: G_B + LAT_L + LAT_R − G_N (R128). -/
def GeometryUnit.gauge (g : GeometryUnit) (x : Sample) : Option Int :=
  match x.quantity 1, x.quantity 2 with
  | some latL, some latR => some (g.beamGauge + latL + latR - g.nominalGauge)
  | _, _ => none

/-- XLEVEL: trunc(ROLL·B / 1,000,000) + VRT_L − VRT_R, exact (R129). -/
def GeometryUnit.xlevel (g : GeometryUnit) (x : Sample) : Option Int :=
  match x.quantity 5, x.quantity 3, x.quantity 4 with
  | some roll, some vrtL, some vrtR => some ((roll * g.railBase).tdiv 1000000 + vrtL - vrtR)
  | _, _, _ => none

/-- TWIST: XLEVEL(c) − XLEVEL(c − b) of the exact values (R130). -/
def GeometryUnit.twistAt (g : GeometryUnit) (x : Sample) : Computed :=
  match g.pointAt (x.index - g.twist) with
  | none => { value := none, edge := true }
  | some behind =>
    match g.xlevel x, g.xlevel behind with
    | some here, some there => { value := some (here - there), edge := false }
    | _, _ => { value := none, edge := false }

/-- The mid-chord offset of a series: V(c) − trunc((V(c − m) + V(c + m)) / 2) (R132). -/
def GeometryUnit.chordAt (g : GeometryUnit) (series : Sample → Option Int) (x : Sample) : Computed :=
  match g.pointAt (x.index - g.chord), g.pointAt (x.index + g.chord) with
  | some back, some ahead =>
    match series back, series x, series ahead with
    | some v0, some v, some v1 => { value := some (v - (v0 + v1).tdiv 2), edge := false }
    | _, _, _ => { value := none, edge := false }
  | _, _ => { value := none, edge := true }

/-- A series that is the sum of two quantities (R133, R134). -/
def sumSeries (q1 q2 : Nat) (x : Sample) : Option Int :=
  match x.quantity q1, x.quantity q2 with
  | some a, some b => some (a + b)
  | _, _ => none

/-- A series that is the difference of two quantities (R134). -/
def diffSeries (q1 q2 : Nat) (x : Sample) : Option Int :=
  match x.quantity q1, x.quantity q2 with
  | some a, some b => some (a - b)
  | _, _ => none

/-- CURV: trunc(YAW_RATE·1000 / speed), invalid below 1,000 mm/s (R131). -/
def curvature (x : Sample) : Option Int :=
  match x.quantity 8 with
  | some yaw => if x.speed < 1000 then none else some ((yaw * 1000).tdiv x.speed)
  | none => none

/-- The eight channels of a centre, in channel number order (section 7.1). -/
def GeometryUnit.channels (g : GeometryUnit) (x : Sample) : List Computed :=
  [ .atCentre (g.gauge x),
    .atCentre (g.xlevel x),
    g.twistAt x,
    g.chordAt (sumSeries 7 3) x,
    g.chordAt (sumSeries 7 4) x,
    g.chordAt (sumSeries 6 1) x,
    g.chordAt (diffSeries 6 2) x,
    .atCentre (curvature x) ]

/-- The final value of a channel: limited to signed 32 bits (R126). -/
def channelLimit (x : Int) : Int := limitTo (-2147483648) 2147483647 x

/-- A valid channel was limited (R126). -/
def Computed.limited (c : Computed) : Bool :=
  match c.value with
  | some v => decide (channelLimit v ≠ v)
  | none => false

/-- The geometry record of a centre (R136, R137); its profile is filled by the exceedance unit. -/
def GeometryUnit.record (g : GeometryUnit) (x : Sample) : GeometryRecord :=
  let cs := g.channels x
  { index := x.index, speed := x.speed, dmm := x.dmm, chainage := x.chainage, time := x.time, profile := 0
    channels := cs.map (fun c => c.value.map channelLimit), flags := x.flags, uncomp := g.uncompensated
    edge := cs.any (·.edge), saturated := cs.any (·.limited) }

/-! ### Emission (R124, R125) -/

/-- The record of centre c is computed and handed on, and the cursor advances past it (R124, R138). A centre with no sample has no
record (it cannot arise in a run, R122; log 25). -/
def State.emitCentre (s : State) (c : Int) : State :=
  let moved := { s with geometry := { s.geometry with cursor := some (c + 1) } }
  match s.geometry.pointAt c with
  | none => moved
  | some x => moved.classifyRecord (s.geometry.record x)

/-- The geometry unit with a sample placed in the history ring (R121). -/
def GeometryUnit.place (g : GeometryUnit) (x : Sample) : GeometryUnit :=
  { g with ring := Table.write g.ring (ringPosition x.index) x, newest := some x.index }

/-- A sample is placed; then the centre m points behind it is emitted if it is not below the first point of the run (R121, R124). -/
def State.placeSample (s : State) (x : Sample) : State :=
  let placed := { s with geometry := s.geometry.place x }
  match s.geometry.firstPoint with
  | none => placed
  | some first =>
    if first ≤ x.index - s.geometry.chord then placed.emitCentre (x.index - s.geometry.chord) else placed

/-- The next n centres are emitted from the cursor on (R125). -/
def State.emitCentres : Nat → State → State
  | 0, s => s
  | n + 1, s =>
    match s.geometry.cursor with
    | none => s
    | some c => State.emitCentres n (s.emitCentre c)

/-- The number of centres of the tail: from the cursor up to the newest closed point (R125). -/
def GeometryUnit.tailLength (g : GeometryUnit) : Nat :=
  match g.cursor, g.newest with
  | some c, some last => (last + 1 - c).toNat
  | _, _ => 0

/-- The end-of-points notice: the tail is emitted, then the end of the run's records is passed to the exceedance unit (R125, R157). -/
def State.endOfPoints (s : State) : State := (State.emitCentres s.geometry.tailLength s).endRecords

/-! ### Run transitions of the geometry unit -/

/-- ARM in the geometry unit (R120): the setup at 0340h is loaded and the ring and its marks are emptied. -/
def GeometryUnit.load (t : Table Word64) (uncomp : Bool) : GeometryUnit :=
  { spacing := (shadowField 16 t 0x0340).toNat
    chord := (shadowField 8 t 0x0342).toNat
    twist := (shadowField 8 t 0x0343).toNat
    beamGauge := (shadowField 32 t 0x0348).toInt
    nominalGauge := (shadowField 32 t 0x034C).toInt
    railBase := (shadowField 32 t 0x0350).toInt
    uncompensated := uncomp, ring := [], firstPoint := none, newest := none, cursor := none }

/-- START in the geometry unit (R123). -/
def GeometryUnit.start (g : GeometryUnit) (first : Int) : GeometryUnit :=
  { g with firstPoint := some first, cursor := some first }

end Sys2Proof.Machine
end

