-- ==== Sys2Proof/Machine/Points.lean ====
section
/-! DEFINITION. The point assembler (spec 06): openings, frames reaching pending points, streams given up, the closing cascade, the
drain completion, and the meanings of POINT_DEADLINE_EXPIRY and SILENCE_TIMER_EXPIRY. -/

namespace Sys2Proof.Machine

/-! ### Entries and points -/

/-- An entry in state WAITING. -/
def EntryState.isWaiting : EntryState → Bool
  | .waiting _ => true
  | .filled _ => false
  | .missing => false

/-- A WAITING entry becomes MISSING; FILLED and MISSING are final (R101). -/
def EntryState.giveUp : EntryState → EntryState
  | .waiting _ => .missing
  | .filled v => .filled v
  | .missing => .missing

/-- A point holds at least one WAITING entry. -/
def PendingPoint.hasWaiting (p : PendingPoint) : Bool := p.entries.any (·.state.isWaiting)

/-- Every WAITING entry of a point becomes MISSING (R104, R109). -/
def PendingPoint.giveUpAll (p : PendingPoint) : PendingPoint :=
  { p with entries := p.entries.map (fun e => { e with state := e.state.giveUp }) }

/-- The WAITING entry of one stream becomes MISSING (R107, R108). -/
def PendingPoint.giveUpStream (i : Fin 4) (p : PendingPoint) : PendingPoint :=
  { p with entries := p.entries.map (fun e => if e.stream = i then { e with state := e.state.giveUp } else e) }

/-! ### Interpolation (R106) -/

/-- v0 + trunc((v1 − v0)·(t_k − t0) / (t1 − t0)); v1 itself when t1 = t0 (R106). -/
def interpolate (v0 : Int) (t0 : Time) (v1 : Int) (t1 tk : Time) : Int :=
  if t1 = t0 then v1 else v0 + ((v1 - v0) * ((tk - t0).toNat : Int)).tdiv ((t1 - t0).toNat : Int)

/-- The value of one quantity of a filling frame at the crossing time; v1 when there is no before-frame (R106). -/
def filledValue (before : Option BeforeFrame) (tk t1 : Time) (q : Nat) (v1 : Int) : Int :=
  match before with
  | none => v1
  | some b =>
    match Table.read b.values q with
    | none => v1
    | some v0 => interpolate v0 b.time v1 t1 tk

/-- A healthy frame applied to a WAITING entry of a point crossed at `tk` (R105). -/
def applyHealthy (f : Frame) (tk : Time) (before : Option BeforeFrame) : EntryState :=
  if timeAtOrAbove f.time tk then .filled (f.values.map (fun e => (e.1, filledValue before tk f.time e.1 e.2)))
  else .waiting (some { time := f.time, values := f.values })

/-- A handed frame applied to an entry of its stream (R105, R107). -/
def applyFrame (f : Frame) (tk : Time) : EntryState → EntryState
  | .waiting before => if f.healthy then applyHealthy f tk before else .missing
  | .filled v => .filled v
  | .missing => .missing

/-- A handed frame of stream i applied to a point. -/
def PendingPoint.takeFrame (i : Fin 4) (f : Frame) (p : PendingPoint) : PendingPoint :=
  { p with entries := p.entries.map (fun e => if e.stream = i then { e with state := applyFrame f p.time e.state } else e) }

/-! ### The sample (R111) -/

/-- The validity and value of a quantity in the sample of a closed point (R111). -/
def Assembler.reading (a : Assembler) (p : PendingPoint) (q : Nat) : Reading :=
  match a.contributing.find? (fun c => c.quantities.contains q) with
  | none => .unmapped
  | some c =>
    match p.entries.find? (fun e => decide (e.stream = c.stream)) with
    | none => .missing
    | some e =>
      match e.state with
      | .filled values =>
        match Table.read values q with
        | some v => .valid v
        | none => .missing
      | .waiting _ | .missing => .missing

/-- The sample of a closed point (R111). -/
def Assembler.sample (a : Assembler) (p : PendingPoint) : Sample :=
  { index := p.index, dmm := p.dmm, chainage := p.chainage, time := p.time, speed := p.speed, flags := p.flags
    readings := [1, 2, 3, 4, 5, 6, 7, 8].map (a.reading p) }

/-! ### Closing (R110) and drain completion (R52) -/

/-- The closing cascade: while the head has no WAITING entry it leaves the queue, is counted and is handed to the geometry unit; `n`
bounds the number of points closed (R110). -/
def State.closePoints : Nat → State → State
  | 0, s => s
  | n + 1, s =>
    match s.assembler.queue with
    | [] => s
    | p :: rest =>
      if p.hasWaiting then s
      else
        State.closePoints n
          ({ s with assembler := { s.assembler with queue := rest, closed := s.assembler.closed + 1 } }.placeSample
            (s.assembler.sample p))

/-- The drain completes in the event that leaves the queue empty in DRAINING: the end-of-points notice, the tail, the end of records,
then STOPPED (R52, R114). -/
def State.completeDrain (s : State) : State :=
  if s.control.runState = .draining ∧ s.assembler.queue = [] then s.endOfPoints.changeRunState .stopped else s

/-- The closing of R110 and what follows it in DRAINING. -/
def State.close (s : State) : State := (State.closePoints s.assembler.queue.length s).completeDrain

/-- The queue with every pending point passed through a function, then the closing (R105, R107, R108). -/
def State.updatePoints (s : State) (f : PendingPoint → PendingPoint) : State :=
  { s with assembler := { s.assembler with queue := s.assembler.queue.map f } }.close

/-- A frame of stream i is handed to the point assembler (R105, R107). -/
def State.handFrame (s : State) (i : Fin 4) (f : Frame) : State := s.updatePoints (PendingPoint.takeFrame i f)

/-- The point assembler is told that stream i has gone STALE (R108). -/
def State.giveUpStream (s : State) (i : Fin 4) : State := s.updatePoints (PendingPoint.giveUpStream i)

/-! ### Opening (R102–R104) -/

/-- The flags of a point that is forced (R104). -/
def PointFlags.withForced (f : PointFlags) : PointFlags := { f with forced := true }

/-- The flags of a point that gaps (R109). -/
def PointFlags.withGap (f : PointFlags) : PointFlags := { f with gap := true }

/-- The before-frame of an entry built at an opening: the last frame, when its health is OK (R103). -/
def StreamContext.beforeFrame (c : StreamContext) : Option BeforeFrame :=
  match c.lastFrame with
  | some f => if f.healthy then some { time := f.time, values := f.values } else none
  | none => none

/-- The entry of a contributing stream in a new point (R102). -/
def newEntry (tap : StreamTap) (c : Contributor) : StreamEntry :=
  let ctx := tap.stream c.stream
  { stream := c.stream, state := if ctx.state = .stale then .missing else .waiting ctx.beforeFrame }

/-- A full queue: the head is force-closed, and the closing follows (R102, R104). -/
def State.makeRoom (s : State) : State :=
  match s.assembler.queue with
  | [] => s
  | p :: rest =>
    if s.assembler.queue.length < 8 then s
    else
      let forced := { p.giveUpAll with flags := p.flags.withForced }
      let s1 := { s with assembler := { s.assembler with queue := forced :: rest, forced := s.assembler.forced + 1 } }
      State.closePoints s1.assembler.queue.length (s1.raise .pointForced)

/-- What the odometer hands over at an opening (R66). -/
structure Opening where
  index : Int
  dmm : Int
  chainage : Int
  time : Time
  speed : Nat
  flags : PointFlags
  deriving DecidableEq, Repr

/-- The pending point built at an opening (R102). -/
def State.newPoint (s : State) (o : Opening) : PendingPoint :=
  { index := o.index, dmm := o.dmm, chainage := o.chainage, time := o.time, speed := o.speed, flags := o.flags
    deadline := timeAfter o.time s.assembler.closeLimit, entries := s.assembler.contributing.map (newEntry s.tap) }

/-- The point assembler takes an opening: room, count, entry, tail, close check (R102). -/
def State.openPoint (s : State) (o : Opening) : State :=
  let s1 := s.makeRoom
  let queue := s1.assembler.queue ++ [s1.newPoint o]
  State.closePoints queue.length
    { s1 with assembler := { s1.assembler with queue := queue, opened := s1.assembler.opened + 1 } }

/-! ### Deadlines (R109) -/

/-- The deadline of a pending point expires: its WAITING entries, if any, are given up with POINT_GAP (R109). -/
def State.gapPoint (s : State) (p : PendingPoint) : State :=
  if p.hasWaiting then
    let gapped := { p.giveUpAll with flags := p.flags.withGap }
    let queue := s.assembler.queue.map (fun x => if x.index = p.index then gapped else x)
    { s with assembler := { s.assembler with queue := queue, gapped := s.assembler.gapped + 1 } }.raise .pointGap
  else s

/-- POINT_DEADLINE_EXPIRY (R109): a pending point whose deadline the time base equals; otherwise there is no such expiry and
nothing changes (log 5, log 6). -/
def execPointDeadlineExpiry (index : Int) (s : State) : Host.Outcome State Fault Refusal :=
  match s.assembler.queue.find? (fun p => decide (p.index = index)) with
  | none => .next s
  | some p => if s.reached p.deadline then .next (s.gapPoint p).close.settle else .next s

/-- SILENCE_TIMER_EXPIRY (R94): a running timer whose expiry the time base equals stops, the stream becomes STALE, STREAM_LOST
is raised and the point assembler gives up the stream (R108); otherwise nothing changes (log 5, log 6). -/
def execSilenceTimerExpiry (stream : Fin 4) (s : State) : Host.Outcome State Fault Refusal :=
  let ctx := s.tap.stream stream
  match ctx.timer with
  | none => .next s
  | some expiry =>
    if s.reached expiry then
      .next (((s.setStream stream { ctx with timer := none, state := .stale }).raise .streamLost).giveUpStream stream).settle
    else .next s

/-! ### Run transitions of the point assembler -/

/-- ARM in the point assembler (R117). -/
def Assembler.load (t : Table Word64) (contributing : List Contributor) : Assembler :=
  { queue := [], closeLimit := (shadowField 32 t 0x0344).toNat, contributing := contributing
    opened := 0, closed := 0, forced := 0, gapped := 0, discarded := 0 }

/-- ABORT in the point assembler: every pending point is discarded and counted (R116). -/
def Assembler.abort (a : Assembler) : Assembler :=
  { a with queue := [], discarded := a.discarded + BitVec.ofNat 32 a.queue.length }

end Sys2Proof.Machine
end

