-- ==== Sys2Proof/Machine/Odometry.lean ====
section
/-! DEFINITION. The odometer (spec 04): line filters and decoders, counts, stall and swap, point openings, reversal, chainage, marker
latches and pairing, and the meanings of the odometer's events. -/

namespace Sys2Proof.Machine

/-! ### Counts of the channel that is not the lead (R62–R64) -/

/-- A signed count of a channel: its count length with the sign of the count (R61). -/
def ChannelState.signedCount (c : ChannelState) (forward : Bool) : Int :=
  if forward then c.countLength else -(c.countLength : Int)

/-- The stall check after a count of the non-lead channel: at the stall distance ODO_STALL is raised once, and with swap lock off the
lead is swapped (R63, R64). -/
def State.checkStall (s : State) : State :=
  let o := s.odometer
  if o.stallDistance * 256 ≤ o.stallTravel ∧ o.stallReported = false then
    if o.swapLock then { s with odometer := { o with stallReported := true } }.raise .odoStall
    else
      let watched := o.lead
      let swapped := { o with lead := o.lead.other, stallTravel := 0, stallReported := false }
      { s with odometer := swapped.setChannel watched { swapped.channel watched with net := 0 } }.raise .odoStall
  else s

/-- One count of the channel that is not the lead (R62). -/
def State.nonLeadCount (s : State) (forward : Bool) : State :=
  let o := s.odometer
  let c := o.channel o.lead.other
  let x := c.signedCount forward
  let moved := o.setChannel o.lead.other { c with travel := c.travel + x, net := c.net + x }
  { s with odometer := { moved with stallTravel := (c.net + x).natAbs } }.checkStall

/-! ### Openings (R65–R68, R75) -/

/-- The speed of an opening: S·1,000,000 / (t_k − t_{k−1}) rounded down and limited to 1,000,000; 0 for the first point of the run
(R67). -/
def Odometer.openingSpeed (o : Odometer) (tk : Time) : Nat :=
  match o.highWaterPoint with
  | none => 0
  | some p => if tk = p.time then 1000000 else min 1000000 (o.spacing * 1000000 / (tk - p.time).toNat)

/-- The cross-check of an opening finds a mismatch (R68). -/
def Odometer.mismatched (o : Odometer) : Bool :=
  decide (o.mismatchTolerance * 256 < (o.chanA.travel - o.chanB.travel).natAbs)

/-- A latch lies more than the orphan distance behind the present D (R75). -/
def Odometer.orphaned (o : Odometer) (l : Latch) : Bool := decide ((o.orphanDistance : Int) * 1000 * 256 < o.d - l.d)

/-- What is handed over when point k opens (R66). -/
def Odometer.opening (o : Odometer) (k : Int) (tk : Time) : Opening :=
  let flags : PointFlags :=
    { gap := false, forced := false, mismatch := o.mismatched, step := o.chainageStep
      speedUnknown := o.highWaterPoint.isNone }
  { index := k, dmm := mmOf o.d, chainage := o.chainageOf (mmOf o.d), time := tk, speed := o.openingSpeed tk, flags := flags }

/-- The odometer after point k has opened (R65, R66, R68, R75). -/
def Odometer.opened (o : Odometer) (k : Int) (tk : Time) : Odometer :=
  { o with
    nextPoint := some (k + 1)
    highWaterPoint := some { index := k, time := tk, boundary := k * o.spacing }
    prevMismatch := o.mismatched
    chainageStep := false
    chanA := { o.chanA with travel := 0 }
    chanB := { o.chanB with travel := 0 }
    latches := o.latches.filter (fun l => !o.orphaned l) }

/-- A flag is raised when a condition holds. -/
def State.raiseIf (s : State) (b : Bool) (f : EventFlag) : State := if b then s.raise f else s

/-- Point k opens (R65, R66): the odometer's own changes and flags, a pending status write, and the opening handed to the point
assembler. -/
def State.openAt (s : State) (k : Int) : State :=
  let o := s.odometer
  let moved := { s with odometer := o.opened k s.time }
  (((moved.raiseIf (o.mismatched && !o.prevMismatch) .odoMismatch).raiseIf (o.latches.any o.orphaned) .markerReject).markStatus).openPoint
    (o.opening k s.time)

/-- In RUNNING, a lead count that carried D from below the boundary of the next point to at or above it opens that point (R65). -/
def State.maybeOpen (s : State) (before : Int) : State :=
  match s.odometer.nextPoint with
  | none => s
  | some k =>
    let boundary := k * s.odometer.spacing * 256
    if s.control.runState = .running ∧ before < boundary ∧ boundary ≤ s.odometer.d then s.openAt k else s

/-! ### Reversal (R69) -/

/-- The run states in which excursions are watched (R69). -/
def RunState.watchesReversal : RunState → Bool
  | .running | .draining | .stopped => true
  | .unanchored | .idle | .armed => false

/-- A lead count may begin or end a reversal excursion (R69). -/
def State.watchReversal (s : State) : State :=
  match s.odometer.highWaterPoint with
  | none => s
  | some p =>
    if s.control.runState.watchesReversal then
      if s.odometer.d < (p.boundary - 1000) * 256 ∧ s.odometer.reversal = false then
        { s with odometer := { s.odometer with reversal := true } }.raise .reversal
      else if p.boundary * 256 ≤ s.odometer.d then { s with odometer := { s.odometer with reversal := false } }
      else s
    else s

/-! ### Counts of the lead (R61) -/

/-- D, the lead's cross-check travel and the stall figures after a count of the lead (R61). -/
def Odometer.advance (o : Odometer) (forward : Bool) : Odometer :=
  let c := o.channel o.lead
  let x := c.signedCount forward
  let moved := o.setChannel o.lead { c with travel := c.travel + x }
  { moved with
    d := fitDistance (o.d + x), stallTravel := 0, stallReported := false
    chanA := { moved.chanA with net := 0 }, chanB := { moved.chanB with net := 0 } }

/-- The high-water distance takes a greater D_mm, and the rise is handed to the action unit (R61, R170). -/
def State.raiseHighWater (s : State) : State :=
  if s.odometer.highWater < mmOf s.odometer.d then
    { s with odometer := { s.odometer with highWater := mmOf s.odometer.d } }.rise
  else s

/-- One count of the lead channel (R61): travel and stall, high-water distance, opening, reversal, in this order. -/
def State.leadCount (s : State) (forward : Bool) : State :=
  (({ s with odometer := s.odometer.advance forward }.raiseHighWater).maybeOpen s.odometer.d).watchReversal

/-! ### Quadrature errors and passages (R59, R73) -/

/-- A quadrature error of a channel (R59). -/
def State.quadError (s : State) (c : Channel) : State :=
  let x := s.odometer.channel c
  { s with odometer := s.odometer.setChannel c { x with errors := satAdd x.errors 1 } }.raise .quadError

/-- A marker passage (R73): a latch joins the queue, or the passage is dropped with MARKER_REJECT at a full queue. -/
def State.passage (s : State) : State :=
  if s.odometer.latches.length < 4 then
    { s with odometer := { s.odometer with latches := s.odometer.latches ++ [{ d := s.odometer.d, time := s.time }] } }
  else s.raise .markerReject

/-- An event of the odometer takes effect in the four counting states only (R60, R73). -/
def State.whileCounting (s : State) (f : State → State) : State := if s.control.runState.counting then f s else s

/-! ### Marker pairing (R74, R76) -/

/-- A MARKER frame is rejected: MARKER_REJECT and the last marker record (R74). -/
def State.rejectMarker (s : State) (id : BitVec 32) (e : Int) : State :=
  { s with odometer := { s.odometer with lastMarker := { id := id, error := e, outcome := .rejected } } }.raise .markerReject

/-- A MARKER frame handed to the odometer pairs with the oldest latch (R74). An error e outside signed 64 bits, for which R74 and R199
state no result, is kept exactly: the model's choice (log 28). -/
def State.pairMarker (s : State) (id : BitVec 32) (surveyed : Int) : State :=
  match s.odometer.latches with
  | [] => s.rejectMarker id 0
  | l :: rest =>
    let e := surveyed - s.odometer.chainageOf (mmOf l.d)
    let s1 := { s with odometer := { s.odometer with latches := rest } }
    if e.natAbs ≤ s.odometer.acceptWindow then
      let o := s1.odometer
      { s1 with odometer :=
          { o with
            q := o.q + e
            chainageStep := o.chainageStep || decide (e ≠ 0)
            lastMarker := { id := id, error := e, outcome := .taken } } }.raise .markerTaken
    else s1.rejectMarker id e

/-! ### The five lines (R58, R59) -/

/-- A line filter after a sample, and whether it accepted a change (R58). -/
def LineFilter.sample (f : LineFilter) (depth : Nat) (level : Bool) : LineFilter × Bool :=
  if level = f.accepted then ({ f with count := 0 }, false)
  else if depth ≤ f.count + 1 then ({ accepted := level, count := 0 }, true)
  else ({ f with count := f.count + 1 }, false)

/-- An event that one sample brings to the odometer. -/
inductive SampleEvent where
  | count (channel : Channel) (forward : Bool)
  | quadError (channel : Channel)
  | passage
  deriving DecidableEq, Repr

/-- A channel's decoder at one sample: the accepted changes of its two lines and the levels after them (R59). -/
def decodeChannel (c : Channel) (invert : Bool) (line0 line1 : LineFilter × Bool) : List SampleEvent :=
  match line0.2, line1.2 with
  | false, false => []
  | true, true => [.quadError c]
  | true, false => [.count c ((line0.1.accepted != line1.1.accepted) != invert)]
  | false, true => [.count c ((line0.1.accepted == line1.1.accepted) != invert)]

/-- The filters of the five lines after a sample, and the events it brings: channel A, channel B, MARK (R58, R59, R73). -/
def Odometer.sampleLines (o : Odometer) (l : LineLevels) : LineFilters × List SampleEvent :=
  let a0 := o.filters.ta0.sample o.filterDepth l.ta0
  let a1 := o.filters.ta1.sample o.filterDepth l.ta1
  let b0 := o.filters.tb0.sample o.filterDepth l.tb0
  let b1 := o.filters.tb1.sample o.filterDepth l.tb1
  let m := o.filters.mark.sample o.filterDepth l.mark
  ({ ta0 := a0.1, ta1 := a1.1, tb0 := b0.1, tb1 := b1.1, mark := m.1 },
    decodeChannel .a o.chanA.invert a0 a1 ++ decodeChannel .b o.chanB.invert b0 b1
      ++ (if m.2 && m.1.accepted then [.passage] else []))

/-- The list in the order that a number picks: the position of the first among the list, then of the next among the rest, and so
on. -/
def pickOrder {α : Type} : Nat → Nat → List α → List α
  | 0, _, _ => []
  | n + 1, r, l =>
    match l[r % l.length]? with
    | none => []
    | some a => a :: pickOrder n (r / l.length) (l.eraseIdx (r % l.length))

/-- What an event of a sample does at the odometer. A count is the lead's or not by the lead in force then (R61–R63). -/
def State.sampleEffect (s : State) (e : SampleEvent) : State :=
  match e with
  | .count c forward => if c = s.odometer.lead then s.leadCount forward else s.nonLeadCount forward
  | .quadError c => s.quadError c
  | .passage => s.passage

/-- An event of a sample reaches the odometer. Each is an event of its own, so a status write that one fills has its place before the
next (00 Events, R187). -/
def State.sampleEvent (s : State) (e : SampleEvent) : State := (s.sampleEffect e).settle

/-- The events of one sample take effect. The spec gives no order among several; the order is a free value (log 2). -/
def State.sampleEvents (s : State) (events : List SampleEvent) : State :=
  if events.length ≤ 1 then events.foldl State.sampleEvent s
  else
    (pickOrder events.length (Config.sampleOrder s.freeCount) events).foldl State.sampleEvent
      { s with freeCount := s.freeCount + 1 }

/-- The time base after a sample: ten samples make one µs (00 Conventions; log 3). -/
def State.tick (s : State) : State :=
  if s.phase + 1 < 10 then { s with phase := s.phase + 1 } else { s with phase := 0, time := s.time + 1 }

/-! ### Meanings -/

/-- LEAD_COUNT (R61), in the counting states (R60). -/
def execLeadCount (forward : Bool) (s : State) : Host.Outcome State Fault Refusal :=
  .next (s.whileCounting (fun s => s.leadCount forward)).settle

/-- NON_LEAD_COUNT (R62), in the counting states (R60). -/
def execNonLeadCount (forward : Bool) (s : State) : Host.Outcome State Fault Refusal :=
  .next (s.whileCounting (fun s => s.nonLeadCount forward)).settle

/-- QUADRATURE_ERROR (R59), in the counting states (R60). -/
def execQuadratureError (channel : Channel) (s : State) : Host.Outcome State Fault Refusal :=
  .next (s.whileCounting (fun s => s.quadError channel)).settle

/-- MARK_PASSAGE (R73), in the counting states. -/
def execMarkPassage (s : State) : Host.Outcome State Fault Refusal := .next (s.whileCounting State.passage).settle

/-- LINE_FILTER_SAMPLE (R58): the filters take the sample in every state, its events take effect in the counting states, and the
time base moves on. While RESET is low no sample is taken (R24, R57; log 7). -/
def execLineFilterSample (levels : LineLevels) (s : State) : Host.Outcome State Fault Refusal :=
  if s.resetLow then .next s
  else
    let r := s.odometer.sampleLines levels
    let s1 := { s with odometer := { s.odometer with filters := r.1 } }
    .next (s1.whileCounting (fun s => s.sampleEvents r.2)).tick.settle

/-! ### Run transitions of the odometer -/

/-- ARM in the odometer (R77): the setup at 0300h, S of the geometry setup, and the run's figures cleared. The filters keep their
levels and counts. -/
def Odometer.load (o : Odometer) (t : Table Word64) : Odometer :=
  let chan (invertOff lengthOff : Nat) : ChannelState :=
    { countLength := (shadowField 16 t lengthOff).toNat, invert := decide (shadowField 8 t invertOff = 1), errors := 0
      travel := 0, net := 0 }
  { filters := o.filters
    filterDepth := (shadowField 8 t 0x0300).toNat
    chanA := chan 0x0301 0x0308
    chanB := chan 0x0302 0x030A
    lead := if shadowField 8 t 0x0303 = 1 then .b else .a
    swapLock := decide (shadowField 8 t 0x0304 = 1)
    stallTravel := 0, stallReported := false, d := 0, highWater := 0, nextPoint := none, highWaterPoint := none
    prevMismatch := false, reversal := false
    q := (shadowField 64 t 0x0318).toInt
    dir := (directionOf (shadowField 8 t 0x0305)).getD .plus
    chainageStep := false, latches := [], lastMarker := { id := 0, error := 0, outcome := .none }
    mismatchTolerance := (shadowField 8 t 0x0306).toNat
    stallDistance := (shadowField 16 t 0x030C).toNat
    acceptWindow := (shadowField 32 t 0x0310).toNat
    orphanDistance := (shadowField 16 t 0x030E).toNat
    spacing := (shadowField 16 t 0x0340).toNat }

/-- The index of the next point to open that START sets: floor(D_mm / S) + 1 (R50). -/
def Odometer.firstIndex (o : Odometer) : Int := mmOf o.d / o.spacing + 1

/-- START in the odometer (R77). -/
def Odometer.start (o : Odometer) : Odometer :=
  { o with
    nextPoint := some o.firstIndex
    chanA := { o.chanA with travel := 0 }
    chanB := { o.chanB with travel := 0 } }

/-- CHAINAGE_SET in the odometer (R71). -/
def Odometer.setChainage (o : Odometer) (chainage : Int) (dir : Direction) : Odometer :=
  { o with dir := dir, q := chainage - dir.sign * mmOf o.d, chainageStep := true }

end Sys2Proof.Machine
end

