-- ==== Sys2Proof/Machine/Streams.lean ====
section
/-! DEFINITION. The stream tap (spec 05): rebuilding frames from capture writes, the checks of a completed frame, taking and handing
on, and the run transitions of the contexts. -/

namespace Sys2Proof.Machine

/-! ### Errors and times -/

/-- A cause of FRAME_ERROR in a stream: its count rises, saturating, and the flag is raised (R95). -/
def State.frameError (s : State) (i : Fin 4) : State :=
  let c := s.tap.stream i
  (s.setStream i { c with errors := satAdd c.errors 1 }).raise .frameError

/-- The time of a frame: arrival minus latency, modulo 2^48 (R87). -/
def StreamContext.frameTime (c : StreamContext) (arrival : Time) : Time := arrival - BitVec.ofNat 48 c.latency

/-- A frame time below the last frame's time is out of order (R87). -/
def StreamContext.outOfOrder (c : StreamContext) (t : Time) : Bool :=
  match c.lastFrame with
  | some f => !timeAtOrAbove t f.time
  | none => false

/-! ### Taking a frame (R89–R94) -/

/-- The stream state after a taken SENSOR frame (R93). -/
def StreamState.taken : StreamState → StreamState
  | .silent | .live | .stale => .live
  | .idle => .idle

/-- The silence timer set running from a time, when the stream has a limit (R94). -/
def StreamContext.runTimer (c : StreamContext) (t : Time) : StreamContext :=
  if c.silenceLimit = 0 then c else { c with timer := some (timeAfter t c.silenceLimit) }

/-- A stream contributes to the run (R90). -/
def Assembler.contributes (a : Assembler) (i : Fin 4) : Bool := a.contributing.any (fun c => decide (c.stream = i))

/-- A SENSOR frame is taken (R91): handed on in RUNNING and DRAINING when the stream contributes, kept as the last frame, then the
stream state and the silence timer follow. -/
def State.takeSensor (s : State) (i : Fin 4) (arrival : Time) (f : Frame) : State :=
  let s1 := if s.control.runState.measuring && s.assembler.contributes i then s.handFrame i f else s
  let c := s1.tap.stream i
  let kept := { c with lastFrame := some f, state := c.state.taken }
  let timed := if s1.control.runState.measuring then kept.runTimer arrival else kept
  (s1.setStream i timed).raiseIf (decide (c.state = .stale)) .streamBack

/-! ### Checks of a completed frame (R85–R88, R92) -/

/-- The header check fails: a bad kind, or a SENSOR frame with a used slot count above 14 (R85). -/
def headerFails (beats : List Word64) : Bool :=
  match frameKind beats with
  | .bad => true
  | .sensor => decide (14 < frameUsed beats)
  | .marker => false

/-- The number of frames missing before a sequence (R86). -/
def missingCount (last seq : BitVec 16) : Nat := (seq - last - 1).toNat

/-- The sequence check (R86): a gap raises FRAME_LOSS and is counted; the sequence becomes the last sequence. -/
def State.checkSequence (s : State) (i : Fin 4) (seq : BitVec 16) : State :=
  let c := s.tap.stream i
  let kept := s.setStream i { c with lastSequence := some seq }
  match c.lastSequence with
  | none => kept
  | some last =>
    if seq = last + 1 then kept
    else { kept with tap := { kept.tap with framesLost := satAdd kept.tap.framesLost (missingCount last seq) } }.raise .frameLoss

/-- The order and short checks of a SENSOR frame, and its take (R87, R88, R89, R91). -/
def State.checkSensor (s : State) (i : Fin 4) (arrival : Time) (beats : List Word64) : State :=
  let c := s.tap.stream i
  if c.outOfOrder (c.frameTime arrival) then s.frameError i
  else if frameUsed beats < slotsNeeded c.slotMap then s.frameError i
  else
    s.takeSensor i arrival
      { time := c.frameTime arrival, healthy := frameHealthy beats, values := frameValues c.slotMap beats }

/-- A completed frame passes its checks in turn and is taken, or is discarded by the first that fails (R84–R88, R92). -/
def State.checkFrame (s : State) (i : Fin 4) (arrival : Time) (beats : List Word64) : State :=
  if headerFails beats then s.frameError i
  else
    let s1 := s.checkSequence i (frameSequence beats)
    match frameKind beats with
    | .marker => s1.whileCounting (fun s => s.pairMarker (frameMarkerId beats) (frameChainage beats))
    | .sensor => s1.checkSensor i arrival beats
    | .bad => s1

/-! ### Rebuilding frames (R80–R84) -/

/-- The slot after the expected one, from the last slot back to slot 0 (R84; log 19). -/
def StreamContext.nextSlot (c : StreamContext) : Nat :=
  if c.expectedSlot + 1 = c.slotCount then 0 else c.expectedSlot + 1

/-- A beat of a slot other than the expected one tears the partial frame (R82) or resynchronises (R83): in both cases no beat
remains present, FRAME_ERROR is raised and counted, and the slot becomes the expected slot. -/
def State.alignSlot (s : State) (i : Fin 4) (slot : Nat) : State :=
  let c := s.tap.stream i
  if slot = c.expectedSlot then s
  else (s.setStream i { c with buffer := emptyBuffer, expectedSlot := slot }).frameError i

/-- A beat is stored and marked present; when all 8 are present the frame is complete, leaves the buffer and is checked (R81, R84). -/
def State.storeBeat (s : State) (i : Fin 4) (arrival : Time) (b : Nat) (data : Word64) : State :=
  let c := s.tap.stream i
  let buffer := c.buffer.set b (some data)
  if buffer.all (·.isSome) then
    (s.setStream i { c with buffer := emptyBuffer, expectedSlot := c.nextSlot }).checkFrame i arrival
      (buffer.map (·.getD 0))
  else s.setStream i { c with buffer := buffer }

/-- One beat of a capture write, at an offset in the area (R80): a beat with a clear strobe and a beat of an IDLE stream have no
effect. -/
def State.tapBeat (i : Fin 4) (arrival : Time) (s : State) (offset : Nat) (b : Beat) : State :=
  if b.strobes = BitVec.allOnes 8 ∧ (s.tap.stream i).state ≠ .idle then
    (s.alignSlot i (offset / 64)).storeBeat i arrival (offset % 64 / 8) b.data
  else s

/-- A capture write is handed to the stream tap: its beats are examined one at a time, in ascending address order (R80). -/
def State.tapWrite (s : State) (i : Fin 4) (offset : Nat) (beats : List Beat) (arrival : Time) : State :=
  beats.zipIdx.foldl (fun s e => s.tapBeat i arrival (offset + 8 * e.2) e.1) s

/-! ### Run transitions of the stream tap -/

/-- A context as ARM loads it from its stream setup and area record (R97). -/
def StreamContext.load (t : Table Word64) (i : Nat) (pages : Nat) (enabled : Bool) : StreamContext :=
  let off := 0x0400 + 0x40 * i
  { state := if enabled then .silent else .idle
    slotCount := pages * 64
    latency := (shadowField 32 t off).toNat
    silenceLimit := (shadowField 32 t (off + 4)).toNat
    slotMap := (List.range 14).map (fun n => shadowField 8 t (off + 8 + n))
    expectedSlot := 0, buffer := emptyBuffer, lastSequence := none, lastFrame := none, timer := none, errors := 0 }

/-- START in a context: the timer of an enabled stream with a limit runs from the START event (R94, R97). -/
def StreamContext.start (c : StreamContext) (t : Time) : StreamContext := if c.state = .idle then c else c.runTimer t

/-- RELEASE in a context: IDLE, with the assembly buffer emptied (R98). -/
def StreamContext.release (c : StreamContext) : StreamContext := { c with state := .idle, buffer := emptyBuffer }

/-- A port reset in a context: the assembly buffer is emptied (R96). -/
def StreamContext.clearBuffer (c : StreamContext) : StreamContext := { c with buffer := emptyBuffer }

end Sys2Proof.Machine
end

