-- ==== Sys2Proof/Machine/Runs.lean ====
section
/-! DEFINITION. The nine commands (spec 02 section 2.6, spec 03): acceptance, effect and completion of each, as the control block
executes it when its word is taken. -/

namespace Sys2Proof.Machine

/-! ### Results (R33, R34) -/

/-- A command completes DONE with detail zero. -/
def State.done (s : State) (word : BitVec 4) : State := s.complete word .done 0

/-- A command is not accepted in the run state in force, which is the detail (R33, R34). -/
def State.refuseState (s : State) (word : BitVec 4) : State :=
  s.complete word .refusedState (s.control.runState.code.setWidth 32)

/-- An argument field is out of range; the detail is its number (R33, R34). -/
def State.refuseArg (s : State) (word : BitVec 4) (field : Nat) : State :=
  s.complete word .refusedArg (BitVec.ofNat 32 field)

/-- A window offset as the detail of a result (R34). -/
def offsetDetail (off : Nat) : BitVec 32 := BitVec.ofNat 32 off

/-! ### ARM (R43, R48) -/

/-- A filled entry of the area map from its area record (R10). -/
def areaOf (t : Table Word64) (n : Nat) : Area := { base := BitVec.ofNat 36 (areaBaseField t n), pages := areaPages t n }

/-- The area map with A1–A7 loaded from the area records; a slot not enabled stays empty (R10). -/
def loadAreas (areas : Table Area) (t : Table Word64) : Table Area :=
  ([1, 2, 3, 4, 5, 6, 7].filter (areaEnabled t)).foldl (fun m n => Table.write m n (areaOf t n))
    (areas.filter (fun e => decide (e.1 = 0)))

/-- ARM in the transit unit (R10, R18). -/
def Transit.load (x : Transit) (t : Table Word64) : Transit :=
  { x with areas := loadAreas x.areas t, drainThreshold := (shadowField 8 t 0x0354).toNat }

/-- The contributing streams with the quantities each maps (R90). -/
def contributors (t : Table Word64) : List Contributor :=
  (enabledStreams t).filterMap (fun i =>
    let quantities := (mappedSlots (slotMapField t i.val)).map (·.2)
    if quantities = [] then none else some { stream := i, quantities := quantities })

/-- ARM in the stream tap (R97). -/
def StreamTap.load (t : Table Word64) : StreamTap :=
  let ctx (i : Nat) : StreamContext := StreamContext.load t i (areaPages t (i + 1)) (areaEnabled t (i + 1))
  { s1 := ctx 0, s2 := ctx 1, s3 := ctx 2, s4 := ctx 3, framesLost := 0 }

/-- ARM in the exceedance unit (R160). -/
def ExceedanceUnit.load (t : Table Word64) : ExceedanceUnit :=
  { profiles := (List.range 8).map (fun p => (List.range 8).map (profileEntryField t p))
    active := 0, overrideOn := false, cursor := 0
    spacing := (shadowField 16 t 0x0340).toNat
    trackers := List.replicate 8 .clear, emitted := 0, short := 0 }

/-- A periodic trigger as ARM loads it, off (R177); its pattern is the low 4 bits of the field (log 20). -/
def Periodic.load (t : Table Word64) (g : Nat) : Periodic :=
  let off := 0x0510 + 0x10 * g
  { period := (shadowField 32 t off).toNat, pattern := shadowField 4 t (off + 8)
    pulseLength := (shadowField 32 t (off + 4)).toNat, next := none }

/-- ARM in the action unit; the id counter is kept (R177). -/
def ActionUnit.load (a : ActionUnit) (t : Table Word64) : ActionUnit :=
  { rest0 := shadowField 4 t 0x0500
    rest1 := shadowField 4 t 0x0501
    pulseLength := (shadowField 32 t 0x0504).toNat
    markGroup := if shadowField 8 t 0x0502 = 1 then 1 else 0
    markPattern := shadowField 4 t 0x0503
    markOffset := (shadowField 32 t 0x0508).toNat
    periodic0 := Periodic.load t 0, periodic1 := Periodic.load t 1
    queue := [], pulses := [], holds := List.replicate 8 0
    idCounter := a.idCounter, fired := 0, missed := 0, cancelled := 0 }

/-- A ring as ARM sets it: its capacity is its area's length in bytes divided by its record size (R182, R195). -/
def RingState.load (t : Table Word64) (r : Ring) : RingState :=
  { capacity := areaPages t r.area * 4096 / r.recordBytes, writeIndex := 0, consumed := 0, lost := 0, last := .none
    previous := .none }

/-- ARM in the write-back unit; the queue and the status slot are not touched (R195). -/
def WriteBack.load (w : WriteBack) (t : Table Word64) : WriteBack :=
  { w with
    geometryRing := .load t .geometry
    exceedanceRing := .load t .exceedance
    actionRing := .load t .action }

/-- An ARM that passes every check loads the setup into the blocks, clears the run's state and moves to ARMED (R48). -/
def State.arm (s : State) : State :=
  let t := s.control.shadow
  let uncompensated := !(quantityMapped t 6 && quantityMapped t 7)
  { s with
    transit := s.transit.load t
    odometer := s.odometer.load t
    tap := .load t
    assembler := .load t (contributors t)
    geometry := .load t uncompensated
    exceedance := .load t
    action := s.action.load t
    writeBack := s.writeBack.load t }.changeRunState .armed

/-- The base of the control window as a number. -/
def State.windowBase (s : State) : Nat := (s.transit.base.getD 0).toNat

/-- ARM, command word 0 (R43). -/
def State.commandArm (s : State) : State :=
  if s.control.runState = .idle then
    match armFailure s.control.shadow s.windowBase with
    | some off => s.complete 0 .refusedConfig (offsetDetail off)
    | none => s.arm.done 0
  else s.refuseState 0

/-! ### START, STOP, ABORT, RELEASE (R50–R55) -/

/-- START in the blocks (R50). -/
def State.startRun (s : State) : State :=
  { s with
    odometer := s.odometer.start
    geometry := s.geometry.start s.odometer.firstIndex
    tap := s.tap.mapStreams (fun c => c.start s.time)
    action := s.action.start (mmOf s.odometer.d) }.changeRunState .running

/-- START, command word 1 (R50). -/
def State.commandStart (s : State) : State :=
  if s.control.runState = .armed then s.startRun.done 1 else s.refuseState 1

/-- STOP from RUNNING: DRAINING with the periodic triggers off, then the drain completion when no point is pending (R51, R52). -/
def State.stopRun (s : State) : State :=
  ({ s with action := s.action.periodicOff }.changeRunState .draining).completeDrain

/-- STOP, command word 2 (R51). -/
def State.commandStop (s : State) : State :=
  match s.control.runState with
  | .armed => (s.changeRunState .stopped).done 2
  | .running => s.stopRun.done 2
  | .unanchored | .idle | .draining | .stopped => s.refuseState 2

/-- ABORT in the blocks (R53, R116, R161, R179). -/
def State.abortRun (s : State) : State :=
  { s with
    assembler := s.assembler.abort
    exceedance := { s.exceedance with trackers := s.exceedance.trackers.map (fun _ => .clear) }
    action := s.action.abort }.changeRunState .stopped

/-- ABORT, command word 3 (R53). -/
def State.commandAbort (s : State) : State :=
  match s.control.runState with
  | .armed | .running | .draining => s.abortRun.done 3
  | .unanchored | .idle | .stopped => s.refuseState 3

/-- Write-back is busy for RELEASE: a queued record, a pending status write, or an inserted tag in use (R55, R193). -/
def State.writeBackBusy (s : State) : Bool :=
  decide (s.writeBack.queue ≠ []) || decide (s.writeBack.slot ≠ .empty) || decide (s.transit.insertedInFlight ≠ 0)

/-- RELEASE in the blocks (R55, R98, R180): A1–A7 are emptied and A0 stays, every stream becomes IDLE, the actions end. -/
def State.releaseRun (s : State) : State :=
  { s with
    transit := { s.transit with areas := s.transit.areas.filter (fun e => decide (e.1 = 0)) }
    tap := s.tap.mapStreams StreamContext.release
    action := s.action.release }.changeRunState .idle

/-- RELEASE, command word 4 (R55). -/
def State.commandRelease (s : State) : State :=
  if s.control.runState = .stopped then
    if s.writeBackBusy then s.complete 4 .refusedBusy 0 else s.releaseRun.done 4
  else s.refuseState 4

/-! ### CHAINAGE_SET and PROFILE_SELECT (R71, R147) -/

/-- The run states in which CHAINAGE_SET and PROFILE_SELECT are accepted (R33). -/
def RunState.steering : RunState → Bool
  | .armed | .running | .draining => true
  | .unanchored | .idle | .stopped => false

/-- CHAINAGE_SET, command word 5 (R33, R71). -/
def State.commandChainageSet (s : State) (w : Word64) : State :=
  if s.control.runState.steering then
    match directionArg w with
    | none => s.refuseArg 5 2
    | some dir => { s with odometer := s.odometer.setChainage (chainageArg w) dir }.done 5
  else s.refuseState 5

/-- PROFILE_SELECT, command word 6 (R33, R147). -/
def State.commandProfileSelect (s : State) (w : Word64) : State :=
  if s.control.runState.steering then
    match profileArg w with
    | none => s.refuseArg 6 1
    | some p => { s with exceedance := { s.exceedance with active := p, overrideOn := true } }.done 6
  else s.refuseState 6

/-! ### ACTION_POST and ACTION_CANCEL (R169, R175) -/

/-- ACTION_POST, command word 7 (R33, R169): the first argument out of range is the detail of REFUSED_ARG. -/
def State.commandActionPost (s : State) (w : Word64) : State :=
  if s.control.runState = .running then
    match groupArg w, patternArg w, offsetArg w with
    | none, _, _ => s.refuseArg 7 1
    | some _, none, _ => s.refuseArg 7 2
    | some _, some _, none => s.refuseArg 7 3
    | some g, some p, some off =>
      let r := s.post g p off
      r.state.complete 7 r.result r.detail
  else s.refuseState 7

/-- The run states in which ACTION_CANCEL is accepted (R33). -/
def RunState.cancelling : RunState → Bool
  | .running | .draining | .stopped => true
  | .unanchored | .idle | .armed => false

/-- ACTION_CANCEL, command word 8 (R33, R175). -/
def State.commandActionCancel (s : State) (w : Word64) : State :=
  if s.control.runState.cancelling then
    if s.action.queue.any (fun e => decide (e.id = idArg w)) then
      { s with action :=
          { s.action with
            queue := cancelAction (idArg w) s.action.queue
            cancelled := s.action.cancelled + 1 } }.done 8
    else s.complete 8 .notFound ((idArg w).setWidth 32)
  else s.refuseState 8

/-! ### Meanings -/

/-- The control block takes no write while the part is unanchored (R25). -/
def State.whileAnchored (s : State) (f : State → State) : State := if s.control.runState = .unanchored then s else f s

/-- ARM (R43–R48). -/
def execArm (s : State) : Host.Outcome State Fault Refusal := .next (s.whileAnchored State.commandArm).settle

/-- START (R50). -/
def execStart (s : State) : Host.Outcome State Fault Refusal := .next (s.whileAnchored State.commandStart).settle

/-- STOP (R51). -/
def execStop (s : State) : Host.Outcome State Fault Refusal := .next (s.whileAnchored State.commandStop).settle

/-- ABORT (R53). -/
def execAbort (s : State) : Host.Outcome State Fault Refusal := .next (s.whileAnchored State.commandAbort).settle

/-- RELEASE (R55). -/
def execRelease (s : State) : Host.Outcome State Fault Refusal := .next (s.whileAnchored State.commandRelease).settle

/-- CHAINAGE_SET (R71). -/
def execChainageSet (word : Word64) (s : State) : Host.Outcome State Fault Refusal :=
  .next (s.whileAnchored (fun s => s.commandChainageSet word)).settle

/-- PROFILE_SELECT (R147). -/
def execProfileSelect (word : Word64) (s : State) : Host.Outcome State Fault Refusal :=
  .next (s.whileAnchored (fun s => s.commandProfileSelect word)).settle

/-- ACTION_POST (R169). -/
def execActionPost (word : Word64) (s : State) : Host.Outcome State Fault Refusal :=
  .next (s.whileAnchored (fun s => s.commandActionPost word)).settle

/-- ACTION_CANCEL (R175). -/
def execActionCancel (word : Word64) (s : State) : Host.Outcome State Fault Refusal :=
  .next (s.whileAnchored (fun s => s.commandActionCancel word)).settle

end Sys2Proof.Machine
end

