-- ==== Sys2Proof/Machine/ControlWindow.lean ====
section
/-! DEFINITION. The control window (spec 02): its regions, the word checks, the route and range checks, taking and refusing a burst,
and the meanings of ROUTE_ENTRY_WRITE, CONSUMED_INDEX_WRITE and INTERRUPT_ENABLE_MASK_WRITE. -/

namespace Sys2Proof.Machine

/-! ### Regions (section 2.2) -/

/-- The regions of the window, by their rule for taking words. -/
inductive Region where
  | command (word : Nat)
  | consumed (ring : Ring)
  | mask
  | owned
  | setup
  | route
  | unassigned
  deriving DecidableEq, Repr

/-- The region of a word at a window offset (section 2.2). -/
def regionOf (off : Nat) : Region :=
  if off < 0x0048 then .command (off / 8)
  else if off < 0x0080 then .unassigned
  else if off < 0x0088 then .consumed .geometry
  else if off < 0x0090 then .consumed .exceedance
  else if off < 0x0098 then .consumed .action
  else if off < 0x00A0 then .mask
  else if off < 0x0100 then .unassigned
  else if off < 0x0180 then .owned
  else if off < 0x0220 then .unassigned
  else if off < 0x0380 then .setup
  else if off < 0x0400 then .unassigned
  else if off < 0x0580 then .setup
  else if off < 0x0800 then .unassigned
  else if off < 0x0C00 then .setup
  else if off < 0x1000 then .route
  else .unassigned

/-- A word of a control write: its window offset and its beat. -/
structure ControlWord where
  off : Nat
  beat : Beat
  deriving DecidableEq, Repr

/-- The words of a burst from a window offset, in ascending offset (R26). -/
def burstWords (off : Nat) (beats : List Beat) : List ControlWord :=
  beats.zipIdx.map (fun e => { off := off + 8 * e.2, beat := e.1 })

/-- A beat with every strobe set. -/
def fullBeat (w : Word64) : Beat := { data := w, strobes := BitVec.allOnes 8 }

/-! ### Word checks (R27, R30) -/

/-- The new consumed index that a word carries: its low 32 bits (R30). -/
def newConsumed (w : Word64) : BitVec 32 := w.extractLsb' 0 32

/-- A consumed index passes RANGE: (c′ − c) modulo 2^32 is at or below (w − c) modulo 2^32 (R30). -/
def RingState.inRange (x : RingState) (c : BitVec 32) : Bool :=
  decide ((c - x.consumed).toNat ≤ (x.writeIndex - x.consumed).toNat)

/-- The reason of the first check that a word fails (R27). -/
def State.wordReason (s : State) (w : ControlWord) : Option RefusalReason :=
  if w.beat.strobes ≠ BitVec.allOnes 8 then some .partialWord
  else
    match regionOf w.off with
    | .owned => some .owned
    | .unassigned => some .unassigned
    | .setup => if s.control.runState = .idle then none else some .locked
    | .route => if s.control.runState = .stopped then some .locked else none
    | .consumed r => if (s.writeBack.ring r).inRange (newConsumed w.beat.data) then none else some .range
    | .command _ | .mask => none

/-- The first word of a burst that fails R27, with its reason. -/
def State.wordRefusal (s : State) : List ControlWord → Option (Nat × RefusalReason)
  | [] => none
  | w :: rest =>
    match s.wordReason w with
    | some reason => some (w.off, reason)
    | none => s.wordRefusal rest

/-! ### The route check (R29) -/

/-- A word lies in the route region. -/
def ControlWord.inRoute (w : ControlWord) : Bool := decide (regionOf w.off = .route)

/-- The candidate list's shadow: the route shadow with every route word of the burst applied (R29). -/
def candidateShadow (t : Table Word64) (burst : List ControlWord) : Table Word64 :=
  (burst.filter ControlWord.inRoute).foldl (fun t w => Shadow.write t w.off w.beat.data) t

/-- The route entry that a word of the route region belongs to. -/
def routeIndex (off : Nat) : Nat := (off - 0x0C00) / 16

/-- An entry of a list is out of order against its neighbours in the list; a missing neighbour imposes nothing (R29). -/
def misordered (dir : Direction) (l : List RouteEntry) (i : Nat) : Bool :=
  match l[i]? with
  | none => false
  | some e =>
    let afterOk :=
      match l[i + 1]? with
      | none => true
      | some n => inOrder dir e.chainage n.chainage
    let beforeOk :=
      match i with
      | 0 => true
      | j + 1 =>
        match l[j]? with
        | none => true
        | some p => inOrder dir p.chainage e.chainage
    !(beforeOk && afterOk)

/-- A touched entry of the candidate list breaks the route rule (R29). The profile is checked within the candidate list only
(log 16). -/
def State.routeOffends (s : State) (l : List RouteEntry) (i : Nat) : Bool :=
  decide (i < s.exceedance.cursor)
    || (match l[i]? with
        | none => false
        | some e => decide (7 < e.profile.toNat))
    || misordered s.odometer.dir l i

/-- The lowest word of a burst whose route entry breaks the route rule, in ARMED, RUNNING and DRAINING (R29). -/
def State.routeRefusal (s : State) (burst : List ControlWord) : Option Nat :=
  if s.control.runState.steering then
    let l := routeList (candidateShadow s.control.shadow burst)
    ((burst.filter ControlWord.inRoute).find? (fun w => s.routeOffends l (routeIndex w.off))).map (·.off)
  else none

/-! ### Refusing and taking a burst (R26, R28) -/

/-- A refusal with reason ROUTE for a word of an offending entry: the reported word is the entry's first (R29; log 15). -/
def routeReport (off : Nat) : LastRefusal := { offset := BitVec.ofNat 16 (routeOffset (routeIndex off)), reason := .route }

/-- The decision for a burst: none when every word passes, else the lowest failing word of the burst decides; at one word the check of
R27 comes before that of R29 (R26). -/
def State.refusalOf (s : State) (burst : List ControlWord) : Option LastRefusal :=
  match s.wordRefusal burst, s.routeRefusal burst with
  | none, none => none
  | some (off, reason), none => some { offset := BitVec.ofNat 16 off, reason := reason }
  | none, some off => some (routeReport off)
  | some (off, reason), some roff =>
    if off ≤ roff then some { offset := BitVec.ofNat 16 off, reason := reason } else some (routeReport roff)

/-- A refused burst in the control block (R28): the last-refusal record, CONTROL_REFUSED and a pending status write. -/
def State.refuseControl (s : State) (r : LastRefusal) : State :=
  { s with control := { s.control with lastRefusal := r } }.raise .controlRefused

/-- A command word is executed (R32). -/
def State.runCommand (s : State) (word : Nat) (w : Word64) : State :=
  match word with
  | 0 => s.commandArm
  | 1 => s.commandStart
  | 2 => s.commandStop
  | 3 => s.commandAbort
  | 4 => s.commandRelease
  | 5 => s.commandChainageSet w
  | 6 => s.commandProfileSelect w
  | 7 => s.commandActionPost w
  | 8 => s.commandActionCancel w
  | _ => s

/-- A taken consumed index becomes the ring's (R30, R183). -/
def State.takeConsumed (s : State) (r : Ring) (w : Word64) : State :=
  { s with writeBack := s.writeBack.setRing r { s.writeBack.ring r with consumed := newConsumed w } }

/-- The taken interrupt enable mask, and INT evaluated anew (R31). -/
def State.takeMask (s : State) (w : Word64) : State := { s with control := { s.control with mask := w }.evalInt }

/-- A taken word is stored in the setup shadow (R29). -/
def State.storeWord (s : State) (off : Nat) (w : Word64) : State :=
  { s with control := { s.control with shadow := Shadow.write s.control.shadow off w } }

/-- The effect of one taken word (R26, R29–R32). -/
def State.takeWord (s : State) (w : ControlWord) : State :=
  match regionOf w.off with
  | .command n => s.runCommand n w.beat.data
  | .consumed r => s.takeConsumed r w.beat.data
  | .mask => s.takeMask w.beat.data
  | .setup | .route => s.storeWord w.off w.beat.data
  | .owned | .unassigned => s

/-- A taken burst: its words take effect in ascending offset (R26). -/
def State.takeBurst (s : State) (burst : List ControlWord) : State := burst.foldl State.takeWord s

/-- A burst of whole words offered to the control block: refused under R28, or taken (R26). -/
def State.offerBurst (s : State) (burst : List ControlWord) : State :=
  match s.refusalOf burst with
  | some r => s.refuseControl r
  | none => s.takeBurst burst

/-! ### Meanings -/

/-- The window offset of the consumed-index word of a ring (R30). -/
def consumedOffset : Ring → Nat
  | .geometry => 0x0080
  | .exceedance => 0x0088
  | .action => 0x0090

/-- ROUTE_ENTRY_WRITE (R29): the burst of route words is taken, or refused under R28. -/
def execRouteEntryWrite (firstWord : Nat) (words : List Word64) (s : State) : Host.Outcome State Fault Refusal :=
  .next (s.whileAnchored (fun s => s.offerBurst (burstWords (0x0C00 + 8 * firstWord) (words.map fullBeat)))).settle

/-- CONSUMED_INDEX_WRITE (R30). -/
def execConsumedIndexWrite (ring : Ring) (word : Word64) (s : State) : Host.Outcome State Fault Refusal :=
  .next (s.whileAnchored (fun s => s.offerBurst [{ off := consumedOffset ring, beat := fullBeat word }])).settle

/-- INTERRUPT_ENABLE_MASK_WRITE (R31). -/
def execInterruptEnableMaskWrite (word : Word64) (s : State) : Host.Outcome State Fault Refusal :=
  .next (s.whileAnchored (fun s => s.offerBurst [{ off := 0x0098, beat := fullBeat word }])).settle

end Sys2Proof.Machine
end

