-- ==== Sys2Proof/Machine/Transit.lean ====
section
/-! DEFINITION. The transit unit (spec 01): taking requests, classification and holds, the arbiter, presentation of the system head with
its taps, memory responses, and the meanings of the bus events. -/

namespace Sys2Proof.Machine

/-! ### Taking a request (R2, R4) -/

/-- The system port can take a request with a tag: PRST and RESET are high, the forwarding stage is empty, the hold list has room and
the tag's entry is not ABSORBING (R2, R24). -/
def State.canTake (s : State) (tag : SysTag) : Bool :=
  !s.prstLow && !s.resetLow && decide (s.transit.stage = []) && decide (s.transit.holds.length < 8)
    && decide ((s.transit.entry tag.toNat).map (·.phase) ≠ some .absorbing)

/-- A request is behind another one that waits untaken at the system port (R23; log 26). -/
def Transit.behind (t : Transit) (w : WaitingRequest) : Bool :=
  match t.waiting with
  | some first => decide (first ≠ w)
  | none => false

/-- The beats of a request that completes now: none while the port is in the middle of another burst, or while beats of this one are
missing (R2). -/
def Transit.completeData (t : Transit) (req : RequestFields) (last : Option Beat) : Option (List Beat) :=
  match t.partialBurst, req.kind with
  | none, .read => some []
  | some _, .read => none
  | none, .write => if last.toList.length = req.beats then some last.toList else none
  | some p, .write =>
    if p.fields = req ∧ (p.received ++ last.toList).length = req.beats then some (p.received ++ last.toList) else none

/-- The part refuses a taken request itself (R4): misaligned address, beats outside 1–16, a 4 KiB crossing, or a tag in flight. -/
def Transit.busRefuses (t : Transit) (req : RequestFields) : Bool :=
  decide (req.addr.toNat % 8 ≠ 0) || decide (req.beats < 1 ∨ 16 < req.beats)
    || crossesPage req.addr.toNat req.beats || (t.entry req.tag.toNat).isSome

/-! ### Classification and holds (R11, R14) -/

/-- The area a range lies in, and its offset there (R11). -/
def classifyRange (areas : Table Area) (addr beats : Nat) : Option AreaHit :=
  (areas.find? (fun e => rangeWithin addr (8 * beats) e.2.base.toNat (4096 * e.2.pages))).map
    (fun e => { area := e.1, offset := addr - e.2.base.toNat })

/-- A WRITE in A5, A6 or A7 (R11). -/
def strayWrite (kind : AccessKind) (hit : Option AreaHit) : Bool :=
  match kind, hit with
  | .write, some h => decide (5 ≤ h.area)
  | _, _ => false

/-- The base of the status area as a number (R9). -/
def State.statusBase (s : State) : Nat := s.windowBase + 0x100

/-- A status write is queued: pending and not yet presented (section 1.6). -/
def StatusSlot.queued : StatusSlot → Bool
  | .pending _ | .filling => true
  | .empty => false

/-- The queued inserted writes that a range overlaps (R14). -/
def State.overlappedWrites (s : State) (addr beats : Nat) : List OwnWrite :=
  ((s.writeBack.queue.filter (fun e => rangesOverlap addr (8 * beats) e.addr.toNat (8 * e.beats))).map
      (fun e => OwnWrite.record e.ring e.index))
    ++ (if s.writeBack.slot.queued && rangesOverlap addr (8 * beats) s.statusBase 128 then [.status] else [])

/-- The held requests that a range overlaps, by tag (R14). -/
def Transit.overlappedHolds (t : Transit) (addr beats : Nat) : List SysTag :=
  (t.holds.filter (fun h =>
      rangesOverlap addr (8 * beats) h.request.addr.toNat (8 * h.request.beats))).map (·.request.tag)

/-- What a request waits on when it is taken: queued inserted writes, for a READ only, and held requests (R14). -/
def State.waitsOf (s : State) (req : RequestFields) : List OwnWrite × List SysTag :=
  let writes :=
    match req.kind with
    | .read => s.overlappedWrites req.addr.toNat req.beats
    | .write => []
  (writes, s.transit.overlappedHolds req.addr.toNat req.beats)

/-- The in-flight entry of a system request (R5). -/
def Request.entry (r : Request) (phase : Phase) (capture : Option Capture) : Entry :=
  { phase := phase, kind := r.kind, addr := r.addr, beats := r.beats, capture := capture, carried := none }

/-- A request joins the forwarding stage in the order of taking (R16). -/
def insertStage (r : Request) : List Request → List Request
  | [] => [r]
  | x :: rest => if x.order < r.order then x :: insertStage r rest else r :: x :: rest

/-- A request joins the forwarding stage and its entry becomes STAGED (R5, R16). -/
def Transit.stageRequest (t : Transit) (r : Request) : Transit :=
  { t with stage := insertStage r t.stage }.setEntry r.tag.toNat (r.entry .staged none)

/-- A request joins the hold list and its entry becomes HELD (R5, R14). -/
def Transit.holdRequest (t : Transit) (r : Request) (writes : List OwnWrite) (held : List SysTag) : Transit :=
  let h : Held := { request := r, waitsWrites := writes, waitsHeld := held }
  { t with holds := t.holds ++ [h] }.setEntry r.tag.toNat (r.entry .held none)

/-- A request that passed R4: refused under R11, held under R14, or staged. -/
def State.classifyRequest (s : State) (req : RequestFields) (data : List Beat) : State :=
  let hit := classifyRange s.transit.areas req.addr.toNat req.beats
  if strayWrite req.kind hit then { s with transit := s.transit.answerError req.tag }.raise .strayWrite
  else
    let r : Request :=
      { kind := req.kind, addr := req.addr, beats := req.beats, tag := req.tag, data := data, arrival := s.time
        hit := hit, order := s.transit.takenCount }
    let waits := s.waitsOf req
    let counted := { s.transit with takenCount := s.transit.takenCount + 1 }
    if waits.1 = [] ∧ waits.2 = [] then { s with transit := counted.stageRequest r }
    else { s with transit := counted.holdRequest r waits.1 waits.2 }

/-- A request is taken whole (R2): the bus checks of R4, then R11 and R14. -/
def State.takeRequest (s : State) (req : RequestFields) (data : List Beat) : State :=
  let s1 := { s with transit := { s.transit with partialBurst := none, waiting := none } }
  if s.transit.busRefuses req then { s1 with transit := s1.transit.answerError req.tag }.raise .requestRefused
  else s1.classifyRequest req data

/-- A request waits untaken at the system port (R2, R23; log 26). -/
def State.waitUntaken (s : State) (w : WaitingRequest) : State :=
  { s with transit := { s.transit with waiting := some w } }

/-- A complete request at the system port: it is taken when the port can take it, and waits untaken otherwise (R2). -/
def State.offerRequest (s : State) (w : WaitingRequest) (data : List Beat) : State :=
  if s.canTake w.fields.tag then (s.takeRequest w.fields data).settle else s.waitUntaken w

/-- REQUEST_TAKEN (R2, R23): a complete request is taken, or waits untaken with every other request behind it. A request behind a
waiting one, an incomplete one, and any request while RESET is low change nothing (log 5, log 10, log 26). -/
def execRequestTaken (req : RequestFields) (lastBeat : Option Beat) (s : State) : Host.Outcome State Fault Refusal :=
  match s.transit.completeData req lastBeat with
  | some data =>
    if s.resetLow || s.transit.behind ⟨req, lastBeat⟩ then .next s else .next (s.offerRequest ⟨req, lastBeat⟩ data)
  | none => .next s

/-! ### Partial bursts (R2) -/

/-- The transit unit with a data beat received (R2): it opens a burst, or follows the burst in progress of the same fields, while
the burst has a later beat. -/
def Transit.receiveBeat (t : Transit) (req : RequestFields) (b : Beat) : Transit :=
  match t.partialBurst with
  | none => if 2 ≤ req.beats then { t with partialBurst := some { fields := req, received := [b] } } else t
  | some p =>
    if p.fields = req ∧ p.received.length + 1 < req.beats then
      { t with partialBurst := some { p with received := p.received ++ [b] } }
    else t

/-- DATA_BEAT_RECEIVED (R2): a beat of a WRITE other than its last, while PRST and RESET are high and no request waits untaken
(log 10, log 26). -/
def execDataBeatReceived (req : RequestFields) (beat : Beat) (s : State) : Host.Outcome State Fault Refusal :=
  if s.prstLow || s.resetLow || s.transit.waiting.isSome || decide (req.kind = .read) then .next s
  else .next { s with transit := s.transit.receiveBeat req beat }

/-! ### The arbiter (R17) -/

/-- The inserted write that write-back offers next. -/
inductive WriteBackHead where
  | record (e : QueuedRecord)
  | status
  deriving DecidableEq, Repr

/-- The write-back head: whichever of the oldest queue entry and the pending status write has the earlier place (R187). -/
def WriteBack.head (w : WriteBack) : Option WriteBackHead :=
  match w.slot, w.queue with
  | .pending 0, _ => some .status
  | .pending _, [] => some .status
  | _, e :: _ => some (.record e)
  | _, [] => none

/-- A held request waits on a queued inserted write (R17). -/
def Transit.promotion (t : Transit) : Bool := t.holds.any (fun h => decide (h.waitsWrites ≠ []))

/-- To whom the arbiter gives the port. -/
inductive Grant where
  | idle
  | system
  | writeBack
  deriving DecidableEq, Repr

/-- The arbiter's choice (R17). -/
def State.grant (s : State) : Grant :=
  if s.writeBack.head.isSome && s.transit.freeInsertedTag.isSome
      && (s.transit.promotion || decide (s.transit.drainThreshold ≤ s.writeBack.queue.length)
        || decide (s.transit.stage = [])) then .writeBack
  else if s.transit.stage = [] then .idle
  else .system

/-! ### Presentation of the system head (R5, R8, R9, R12, R13, R20) -/

/-- The request as it stands on the memory port. -/
def Request.presentation (r : Request) : Presentation :=
  { tag := r.tag.setWidth 7, kind := r.kind, addr := r.addr, beats := r.beats, data := r.data }

/-- The system head is presented: it leaves the stage and its entry becomes PRESENTED (R5). -/
def Transit.present (t : Transit) (r : Request) (rest : List Request) (capture : Option Capture) : Transit :=
  { t with stage := rest, memoryPort := some r.presentation }.setEntry r.tag.toNat (r.entry .presented capture)

/-- A READ covers all 8 bytes of the event word in A0 (R20). -/
def State.coversEventWord (s : State) (r : Request) : Bool :=
  s.transit.base.isSome && rangeWithin (s.windowBase + 0x108) 8 r.addr.toNat (8 * r.beats)

/-- The acknowledgement capture of a presented READ (R20). -/
def State.captureFor (s : State) (r : Request) : Option Capture :=
  if s.coversEventWord r then
    s.transit.statusRecords.getLast?.map (fun w => { eventWord := w.eventWord, seq := w.seq })
  else none

/-- The base that a forwarded WRITE proposes, when it is an anchor observation (R8). -/
def Request.anchorValue (r : Request) : Option Word64 :=
  match r.data with
  | [b] => if r.addr = 0xFF8 ∧ r.beats = 1 ∧ b.strobes = BitVec.allOnes 8 then some b.data else none
  | _ => none

/-- A proposed base is valid (R8). -/
def validBase (w : Word64) : Bool :=
  decide (w ≠ 0) && decide (w.toNat % 0x4000 = 0) && decide (w.toNat ≤ 0xFFFFFC000)

/-- The part is anchored at a base (R9, R25). -/
def State.anchor (s : State) (base : Addr) : State :=
  { s with
    transit := { s.transit with base := some base, areas := Table.write s.transit.areas 0 { base := base, pages := 4 } }
    control := { Control.reset with runState := .idle } }.markStatus

/-- A WRITE forwarded while the part is unanchored is examined for an anchor observation (R8). -/
def State.observe (s : State) (r : Request) : State :=
  match r.anchorValue with
  | none => s
  | some w => if validBase w then s.anchor (w.setWidth 36) else s

/-- The stream of a capture area A1–A4. -/
def captureStream (area : Nat) : Option (Fin 4) :=
  match area with
  | 1 => some 0
  | 2 => some 1
  | 3 => some 2
  | 4 => some 3
  | _ => none

/-- The taps of a forwarded WRITE: a capture write goes to the stream tap (R12), a WRITE of an unanchored part is examined for the
anchor (R8). -/
def State.tapForwarded (s : State) (r : Request) : State :=
  if s.transit.base.isNone then s.observe r
  else
    match r.hit with
    | none => s
    | some h =>
      match captureStream h.area with
      | some i => s.tapWrite i h.offset r.data r.arrival
      | none => s

/-- The system head is a control write (R11). -/
def Request.isControl (r : Request) : Bool :=
  match r.kind, r.hit with
  | .write, some h => decide (h.area = 0)
  | _, _ => false

/-- The words of a control write. -/
def Request.words (r : Request) : List ControlWord := burstWords ((r.hit.map (·.offset)).getD 0) r.data

/-- A control write is offered at its presentation (R13): taken and presented, or refused, answered ERROR and its entry made FREE. -/
def State.offerControl (s : State) (r : Request) (rest : List Request) : State :=
  match s.refusalOf r.words with
  | some reason =>
    { s with transit := ({ s.transit with stage := rest }.freeEntry r.tag.toNat).answerError r.tag }.refuseControl reason
  | none => { s with transit := s.transit.present r rest none }.takeBurst r.words

/-- The system head has the port (R5, R12, R13, R20). -/
def State.presentHead (s : State) (r : Request) (rest : List Request) : State :=
  match r.kind with
  | .read => { s with transit := s.transit.present r rest (s.captureFor r) }
  | .write =>
    if r.isControl then s.offerControl r rest
    else { s with transit := s.transit.present r rest none }.tapForwarded r

/-- SYSTEM_HEAD_PRESENTED (R16): the arbiter gives the port to the system head; when it does not, nothing changes (log 5). -/
def execSystemHeadPresented (s : State) : Host.Outcome State Fault Refusal :=
  match s.transit.stage with
  | [] => .next s
  | r :: rest => if s.grant = .system then .next (s.presentHead r rest).settle else .next s

/-- CONTROL_WRITE (R13, R26): the system head is a control write and has the port; otherwise nothing changes (log 5). -/
def execControlWrite (s : State) : Host.Outcome State Fault Refusal :=
  match s.transit.stage with
  | [] => .next s
  | r :: rest =>
    if r.isControl = true ∧ s.grant = .system then .next (s.offerControl r rest).settle else .next s

/-! ### Release of held requests (R15) -/

/-- One pass over the hold list, oldest first: the requests that stay, and those that leave in order; `gone` are the tags that have
left in this event (R15). -/
def releasePass : List SysTag → List Held → List Held × List Request
  | _, [] => ([], [])
  | gone, h :: rest =>
    let h1 := { h with waitsHeld := h.waitsHeld.filter (fun tag => !gone.contains tag) }
    if h1.waitsWrites = [] ∧ h1.waitsHeld = [] then
      let r := releasePass (h.request.tag :: gone) rest
      (r.1, h.request :: r.2)
    else
      let r := releasePass gone rest
      (h1 :: r.1, r.2)

/-- The presentation of an inserted write is an event for the hold list: no request waits on it any more, and those that wait on
nothing are released to the forwarding stage (R15). -/
def Transit.releaseHolds (t : Transit) (w : OwnWrite) : Transit :=
  let waiting := t.holds.map (fun h => { h with waitsWrites := h.waitsWrites.filter (fun x => decide (x ≠ w)) })
  let r := releasePass [] waiting
  r.2.foldl Transit.stageRequest { t with holds := r.1 }

/-! ### Records of presented status writes (R19, R21) -/

/-- An in-flight capture refers to the status write of a sequence (R20). -/
def Transit.referred (t : Transit) (seq : BitVec 32) : Bool :=
  t.inflight.any (fun e => decide (e.2.capture.map (·.seq) = some seq))

/-- Records that are still needed: not answered, waited on, referred to by a capture in flight, or the last (R19; log 12). -/
def Transit.collect (t : Transit) : Transit :=
  let last := t.statusRecords.getLast?.map (·.seq)
  { t with statusRecords := t.statusRecords.filter (fun w =>
      decide (w.outcome = .pending) || decide (w.waiting ≠ []) || t.referred w.seq || decide (last = some w.seq)) }

/-- The records with the one of a sequence passed through a function. -/
def updateRecord (l : List StatusWriteRecord) (seq : BitVec 32) (f : StatusWriteRecord → StatusWriteRecord) :
    List StatusWriteRecord :=
  l.map (fun w => if w.seq = seq then f w else w)

/-- The OKAY response of a READ with a capture (R21): handed over at once when the status write was OKAY, waiting while it is
pending, dropped when it was ERROR. -/
def State.readAnswered (s : State) (cap : Capture) : State :=
  match s.transit.statusRecords.find? (fun w => decide (w.seq = cap.seq)) with
  | none => s
  | some w =>
    match w.outcome with
    | .okay => s.acknowledge cap
    | .error => s
    | .pending =>
      { s with transit :=
          { s.transit with
            statusRecords :=
              updateRecord s.transit.statusRecords cap.seq (fun w => { w with waiting := w.waiting ++ [cap] }) } }

/-- The response of a status write (R21, R40): OKAY hands over each waiting capture in turn, ERROR drops them and raises
WRITEBACK_ERROR. -/
def State.statusAnswered (s : State) (seq : BitVec 32) (status : BusStatus) : State :=
  let waiting := ((s.transit.statusRecords.find? (fun w => decide (w.seq = seq))).map (·.waiting)).getD []
  let outcome : WriteOutcome :=
    match status with
    | .okay => .okay
    | .error => .error
  let records := updateRecord s.transit.statusRecords seq (fun w => { w with outcome := outcome, waiting := [] })
  let s1 := { s with transit := { s.transit with statusRecords := records } }
  match status with
  | .okay => waiting.foldl State.acknowledge s1
  | .error => s1.raise .writebackError

/-- The response of a ring record (R191, R192): the ring's outcomes move, and ERROR raises WRITEBACK_ERROR. -/
def State.recordAnswered (s : State) (r : Ring) (status : BusStatus) : State :=
  let x := s.writeBack.ring r
  let moved (o : RingOutcome) : State :=
    { s with writeBack := s.writeBack.setRing r { x with previous := x.last, last := o } }
  match status with
  | .okay => moved .okay
  | .error => (moved .error).raise .writebackError

/-! ### Responses (R7) -/

/-- The response of a PRESENTED entry (R7): an inserted write's goes to write-back; a system request's is relayed, and a capture is
acted on when the READ is OKAY (R21). -/
def State.answered (s : State) (tag : PortTag) (e : Entry) (status : BusStatus) (data : List Word64) : State :=
  let freed := { s with transit := s.transit.freeEntry tag.toNat }
  match e.carried with
  | some (.ring r) => freed.recordAnswered r status
  | some (.status seq) => freed.statusAnswered seq status
  | none =>
    let relayed :=
      { freed with transit := freed.transit.respond { tag := tag.setWidth 6, status := status, data := data } }
    match e.capture, status with
    | some cap, .okay => relayed.readAnswered cap
    | _, _ => relayed

/-- Records no longer needed are discarded (R19). -/
def State.collect (s : State) : State := { s with transit := s.transit.collect }

/-- MEMORY_RESPONSE (R7): routed by its tag. FREE, HELD and STAGED entries drop it; an ABSORBING entry drops it and becomes FREE. -/
def execMemoryResponse (tag : PortTag) (status : BusStatus) (data : List Word64) (s : State) :
    Host.Outcome State Fault Refusal :=
  match s.transit.entry tag.toNat with
  | none => .next s
  | some e =>
    match e.phase with
    | .held | .staged => .next s
    | .absorbing => .next { s with transit := s.transit.freeEntry tag.toNat }
    | .presented => .next (s.answered tag e status data).collect.settle

/-- SYSTEM_RESPONSE_DELIVERED (R7, R22): the oldest waiting response leaves the channel while PRST is high. -/
def execSystemResponseDelivered (s : State) : Host.Outcome State Fault Refusal :=
  if s.prstLow then .next s
  else .next { s with transit := { s.transit with responses := s.transit.responses.tail } }

end Sys2Proof.Machine
end

