-- ==== Sys2Proof/Machine/WriteBackUnit.lean ====
section
/-! DEFINITION. Presentation of the part's own writes (spec 10): the records of the queue and the status write, and the meaning of
WRITEBACK_HEAD_PRESENTED. -/

namespace Sys2Proof.Machine

/-- The data of an inserted write: every strobe of every beat set (R189, R199). -/
def ownData (words : List Word64) : List Beat := words.map fullBeat

/-- The in-flight entry of an inserted write (R6). -/
def insertedEntry (addr : Addr) (beats : Nat) (carried : Carried) : Entry :=
  { phase := .presented, kind := .write, addr := addr, beats := beats, capture := none, carried := some carried }

/-- The transit unit presents an inserted write with a tag (R6, R19). -/
def Transit.presentOwn (t : Transit) (tag : Nat) (addr : Addr) (words : List Word64) (carried : Carried) : Transit :=
  { t with
    memoryPort := some { tag := BitVec.ofNat 7 tag, kind := .write, addr := addr, beats := words.length
                         data := ownData words } }.setEntry tag (insertedEntry addr words.length carried)

/-- The place of the status write after the head record has left the queue (R187). -/
def StatusSlot.advance : StatusSlot → StatusSlot
  | .pending n => .pending (n - 1)
  | .filling => .filling
  | .empty => .empty

/-- The head record is presented (R189): it leaves the queue, and held requests that waited on it may be released. -/
def State.presentRecord (s : State) (tag : Nat) (e : QueuedRecord) : State :=
  { s with
    transit := (s.transit.presentOwn tag e.addr e.content (.ring e.ring)).releaseHolds (.record e.ring e.index)
    writeBack := { s.writeBack with queue := s.writeBack.queue.tail, slot := s.writeBack.slot.advance } }

/-- The address of the status area (R9). -/
def State.statusAddr (s : State) : Addr := BitVec.ofNat 36 s.statusBase

/-- The status sequence advances and the slot becomes empty, before the content is composed (R38, R187). -/
def State.beginStatus (s : State) : State :=
  { s with
    control := { s.control with statusSeq := s.control.statusSeq + 1 }
    writeBack := { s.writeBack with slot := .empty } }

/-- The status write is presented (R38, R189): the sequence advances, the tag is assigned, the content is composed with the values in
force, and the transit unit records the write (R19). -/
def State.presentStatus (s : State) (tag : Nat) : State :=
  let s1 := s.beginStatus
  let seq := s1.control.statusSeq
  let tagged := { s1 with transit := s1.transit.setEntry tag (insertedEntry s.statusAddr 16 (.status seq)) }
  let words := statusWords tagged
  let made : StatusWriteRecord :=
    { seq := seq, eventWord := eventWord s1.control.events, tag := BitVec.ofNat 7 tag, outcome := .pending, waiting := [] }
  let t := tagged.transit.presentOwn tag s.statusAddr words (.status seq)
  { tagged with transit := ({ t with statusRecords := t.statusRecords ++ [made] }.releaseHolds .status).collect }

/-- The write-back head is presented with a tag. -/
def State.presentOwnHead (s : State) (tag : Nat) (h : WriteBackHead) : State :=
  match h with
  | .record e => s.presentRecord tag e
  | .status => s.presentStatus tag

/-- WRITEBACK_HEAD_PRESENTED (R189): the arbiter gives the port to the write-back head, which takes the lowest free inserted tag;
when it does not, nothing changes (log 5). -/
def execWritebackHeadPresented (s : State) : Host.Outcome State Fault Refusal :=
  match s.writeBack.head, s.transit.freeInsertedTag with
  | some h, some tag => if s.grant = .writeBack then .next (s.presentOwnHead tag h).settle else .next s
  | _, _ => .next s

end Sys2Proof.Machine
end

