-- ==== Sys2Proof/Machine/Resets.lean ====
section
/-! DEFINITION. The resets (spec 01 sections 1.9 and 1.10): the meanings of PORT_RESET, PORT_RESET_RELEASE, HARDWARE_RESET and
HARDWARE_RESET_RELEASE. -/

namespace Sys2Proof.Machine

/-! ### Port reset (R22, R23, R96) -/

/-- An in-flight entry after a port reset: a system entry HELD or STAGED becomes FREE, one PRESENTED becomes ABSORBING and keeps no
capture; inserted entries are kept (R5, R22). -/
def Entry.afterPortReset (tag : Nat) (e : Entry) : Option Entry :=
  if 64 ≤ tag then some e
  else
    match e.phase with
    | .held | .staged => none
    | .presented | .absorbing => some { e with phase := .absorbing, capture := none }

/-- The in-flight table with every entry passed through a function that may free it. -/
def filterEntries (t : Table Entry) (f : Nat → Entry → Option Entry) : Table Entry :=
  t.filterMap (fun x => (f x.1 x.2).map (fun e => (x.1, e)))

/-- The transit unit after a port reset (R22). The acquisition complex resets its side of the port, so a request that waits untaken is
gone (log 26). -/
def Transit.portReset (t : Transit) : Transit :=
  { t with
    partialBurst := none, waiting := none, responses := [], holds := [], stage := []
    inflight := filterEntries t.inflight Entry.afterPortReset }

/-- PORT_RESET (R22): PRST is driven low. The transit unit and the assembly buffers are reached, nothing else. -/
def execPortReset (s : State) : Host.Outcome State Fault Refusal :=
  .next
    { s with
      prstLow := true
      transit := s.transit.portReset
      tap := s.tap.mapStreams StreamContext.clearBuffer }

/-- PORT_RESET_RELEASE (R23): PRST returns high. -/
def execPortResetRelease (s : State) : Host.Outcome State Fault Refusal := .next { s with prstLow := false }

/-! ### Hardware reset (R24, R56, R57) -/

/-- An in-flight entry after a hardware reset: PRESENTED, ABSORBING or carrying an inserted write stays as ABSORBING, every other
becomes FREE; no captures (R24). -/
def Entry.afterHardwareReset (_tag : Nat) (e : Entry) : Option Entry :=
  match e.phase with
  | .held | .staged => if e.carried.isSome then some { e with phase := .absorbing, capture := none } else none
  | .presented | .absorbing => some { e with phase := .absorbing, capture := none }

/-- The transit unit after a hardware reset (R24). -/
def Transit.hardwareReset (t : Transit) : Transit :=
  { Transit.reset with inflight := filterEntries t.inflight Entry.afterHardwareReset }

/-- HARDWARE_RESET (R24, R25, R56, R57, R79, R99, R119, R141, R162, R181): RESET is driven low. Every block takes its reset values and
the time base restarts at zero; tags in flight stay ABSORBING. The PRST pin is an input and is not changed. -/
def execHardwareReset (s : State) : Host.Outcome State Fault Refusal :=
  .next
    { State.reset with
      resetLow := true
      prstLow := s.prstLow
      transit := s.transit.hardwareReset
      freeCount := s.freeCount
      pending := s.pending }

/-- A line filter whose accepted level is taken from the first sample (R57). -/
def LineFilter.first (level : Bool) : LineFilter := { accepted := level, count := 0 }

/-- The filters after the first sample (R57). -/
def LineFilters.first (l : LineLevels) : LineFilters :=
  { ta0 := .first l.ta0, ta1 := .first l.ta1, tb0 := .first l.tb0, tb1 := .first l.tb1, mark := .first l.mark }

/-- HARDWARE_RESET_RELEASE (R57): RESET returns high, and the first sample gives each filter its accepted level. While RESET is high
already there is no such event and nothing changes (log 5). The first sample counts in the time base (log 3). -/
def execHardwareResetRelease (levels : LineLevels) (s : State) : Host.Outcome State Fault Refusal :=
  if s.resetLow then
    .next { s with resetLow := false, odometer := { s.odometer with filters := .first levels } }.tick
  else .next s

end Sys2Proof.Machine
end

