-- ==== Sys2Proof/Machine/Dispatch.lean ====
section
/-! DEFINITION. The dispatch of commands: one arm for each constructor of Instr, each one direct call of its meaning. -/

namespace Sys2Proof.Machine

def exec (i : Instr) (s : State) : Host.Outcome State Fault Refusal :=
  match i with
  | .requestTaken req lastBeat => Sys2Proof.Machine.execRequestTaken req lastBeat s
  | .systemHeadPresented => Sys2Proof.Machine.execSystemHeadPresented s
  | .controlWrite => Sys2Proof.Machine.execControlWrite s
  | .routeEntryWrite firstWord words => Sys2Proof.Machine.execRouteEntryWrite firstWord words s
  | .consumedIndexWrite ring word => Sys2Proof.Machine.execConsumedIndexWrite ring word s
  | .interruptEnableMaskWrite word => Sys2Proof.Machine.execInterruptEnableMaskWrite word s
  | .arm => Sys2Proof.Machine.execArm s
  | .start => Sys2Proof.Machine.execStart s
  | .stop => Sys2Proof.Machine.execStop s
  | .abort => Sys2Proof.Machine.execAbort s
  | .release => Sys2Proof.Machine.execRelease s
  | .chainageSet word => Sys2Proof.Machine.execChainageSet word s
  | .profileSelect word => Sys2Proof.Machine.execProfileSelect word s
  | .actionPost word => Sys2Proof.Machine.execActionPost word s
  | .actionCancel word => Sys2Proof.Machine.execActionCancel word s
  | .writebackHeadPresented => Sys2Proof.Machine.execWritebackHeadPresented s
  | .memoryResponse tag status data => Sys2Proof.Machine.execMemoryResponse tag status data s
  | .portReset => Sys2Proof.Machine.execPortReset s
  | .portResetRelease => Sys2Proof.Machine.execPortResetRelease s
  | .hardwareReset => Sys2Proof.Machine.execHardwareReset s
  | .leadCount forward => Sys2Proof.Machine.execLeadCount forward s
  | .nonLeadCount forward => Sys2Proof.Machine.execNonLeadCount forward s
  | .quadratureError channel => Sys2Proof.Machine.execQuadratureError channel s
  | .markPassage => Sys2Proof.Machine.execMarkPassage s
  | .silenceTimerExpiry stream => Sys2Proof.Machine.execSilenceTimerExpiry stream s
  | .pointDeadlineExpiry index => Sys2Proof.Machine.execPointDeadlineExpiry index s
  | .pulseRelease slot => Sys2Proof.Machine.execPulseRelease slot s
  | .lineFilterSample levels => Sys2Proof.Machine.execLineFilterSample levels s
  | .hardwareResetRelease levels => Sys2Proof.Machine.execHardwareResetRelease levels s
  | .systemResponseDelivered => Sys2Proof.Machine.execSystemResponseDelivered s
  | .dataBeatReceived req beat => Sys2Proof.Machine.execDataBeatReceived req beat s

end Sys2Proof.Machine
end

