-- ==== Sys2Proof/WellFormed.lean ====
section
/-! DEFINITION. Which commands are well formed: what the store bus and the window's layout say of a command's operands alone,
whatever the state. -/

namespace Sys2Proof

/-- A READ carries no data beat; a WRITE is taken at the last of its beats, so it carries that beat unless its beats
field is 0 (R2). -/
def wfRequest (req : RequestFields) (last : Option Beat) : Bool :=
  match req.kind with
  | .read => last.isNone
  | .write => last.isSome == decide (0 < req.beats)

/-- A data beat belongs to a WRITE that has a later beat (R2). -/
def wfDataBeat (req : RequestFields) : Bool :=
  decide (req.kind = .write) && decide (2 ≤ req.beats)

/-- A burst of route words: 1–16 words inside the 128 words of the route region (section 2.2, section 1.1). -/
def wfRouteBurst (firstWord : Nat) (words : List Word64) : Bool :=
  decide (1 ≤ words.length) && decide (words.length ≤ 16) && decide (firstWord + words.length ≤ 128)

/-- A response of the memory port: tag 0–95 and at most 16 data beats (section 1.1). -/
def wfResponse (tag : PortTag) (data : List Word64) : Bool :=
  decide (tag.toNat < 96) && decide (data.length ≤ 16)

/-- A command is well formed. -/
def Instr.wellFormed : Instr → Bool
  | .requestTaken req last => wfRequest req last
  | .dataBeatReceived req _ => wfDataBeat req
  | .routeEntryWrite firstWord words => wfRouteBurst firstWord words
  | .memoryResponse tag _ data => wfResponse tag data
  | .systemHeadPresented | .controlWrite | .consumedIndexWrite _ _ | .interruptEnableMaskWrite _
  | .arm | .start | .stop | .abort | .release
  | .chainageSet _ | .profileSelect _ | .actionPost _ | .actionCancel _
  | .writebackHeadPresented | .portReset | .portResetRelease | .hardwareReset | .hardwareResetRelease _
  | .leadCount _ | .nonLeadCount _ | .quadratureError _ | .markPassage
  | .silenceTimerExpiry _ | .pointDeadlineExpiry _ | .pulseRelease _ | .lineFilterSample _
  | .systemResponseDelivered => true

end Sys2Proof
end

