-- ==== Sys2Proof/Safety.lean ====
section
/-! DEFINITION. What the claims say of a state and of an event: the sound states of each block, and the effect of an event on the event
set, the INT line and the status slot. -/

namespace Sys2Proof.Machine

/-! ### The control block -/

/-- A flag is in the live event set (R35). -/
def State.flagSet (s : State) (f : EventFlag) : Bool := (Table.read s.control.events f.bit).isSome

/-- INT is high exactly while the live event set and the interrupt enable mask share a flag (R37). -/
def IntAgrees (s : State) : Prop :=
  s.control.int = true ↔ ∃ f : EventFlag, s.flagSet f = true ∧ s.control.mask.getLsbD f.bit = true

/-- An event raised these flags, with the status sequence in force, and left every other flag as it was (R35). -/
def Raised (s t : State) (flags : List EventFlag) : Prop :=
  ∀ k, Table.read t.control.events k =
    if k ∈ flags.map EventFlag.bit then some s.control.statusSeq else Table.read s.control.events k

/-- The status slot after an event that made a status write pending: a pending one keeps its place, an empty one takes its place
behind the records then queued (R39, R187). -/
def StatusSlot.afterMark (slot : StatusSlot) (depth : Nat) : StatusSlot :=
  match slot with
  | .pending n => .pending n
  | .empty | .filling => .pending depth

/-- An event that raised these flags: the event set, INT evaluated anew, and a pending status write (R35, R37, R39). -/
def Publishes (s t : State) (flags : List EventFlag) : Prop :=
  Raised s t flags ∧ IntAgrees t ∧ t.writeBack.slot = s.writeBack.slot.afterMark t.writeBack.queue.length

/-- The control block changed only in its event set and INT. -/
def ControlEventsOnly (s t : State) : Prop :=
  t.control = { s.control with events := t.control.events, int := t.control.int }

/-- A command completed (R34): the last-command record, the run state it leaves, the flags it raised, a pending status write; the
rest of the control block is unchanged. -/
def Completes (s t : State) (word : BitVec 4) (result : ResultCode) (detail : BitVec 32) (run : RunState)
    (flags : List EventFlag) : Prop :=
  t.control =
      { s.control with
        events := t.control.events, int := t.control.int, lastCommand := ⟨word, result, detail⟩, runState := run }
    ∧ Publishes s t flags

/-- Write-back changed only in its status slot. -/
def WriteBackSlotOnly (s t : State) : Prop := t.writeBack = { s.writeBack with slot := t.writeBack.slot }

/-- The nine commands by their word number (section 2.6). -/
def commandOf (n : Fin 9) (w : Word64) : Instr :=
  match n with
  | 0 => .arm
  | 1 => .start
  | 2 => .stop
  | 3 => .abort
  | 4 => .release
  | 5 => .chainageSet w
  | 6 => .profileSelect w
  | 7 => .actionPost w
  | 8 => .actionCancel w

/-- The run states in which each command is accepted (R33). -/
def acceptedIn (n : Fin 9) : List RunState :=
  match n with
  | 0 => [.idle]
  | 1 => [.armed]
  | 2 => [.armed, .running]
  | 3 => [.armed, .running, .draining]
  | 4 => [.stopped]
  | 5 => [.armed, .running, .draining]
  | 6 => [.armed, .running, .draining]
  | 7 => [.running]
  | 8 => [.running, .draining, .stopped]

/-! ### Sound states -/

/-- No ring holds more records for software than its capacity (R184). -/
def RingsSound (s : State) : Prop := ∀ r : Ring, (s.writeBack.ring r).held ≤ (s.writeBack.ring r).capacity

/-- The action queue holds at most 32 entries in non-decreasing trigger distance (R165). -/
def ActionQueueSound (s : State) : Prop :=
  s.action.queue.length ≤ 32 ∧ s.action.queue.Pairwise (fun a b => a.trigger ≤ b.trigger)

/-- The bounds of the queues (R2, R15, R73, R104, R186), and the place of a pending status write (R187). The forwarding stage and the
hold list together hold at most 8 requests, within the 9 of R16. -/
def QueuesSound (s : State) : Prop :=
  s.writeBack.queue.length ≤ 16 ∧ s.transit.stage.length + s.transit.holds.length ≤ 8
    ∧ s.odometer.latches.length ≤ 4 ∧ s.assembler.queue.length ≤ 8
    ∧ (match s.writeBack.slot with
      | .empty => True
      | .filling => False
      | .pending n => n ≤ s.writeBack.queue.length)

/-- The hold count of each line is the number of occupied slots that name it (R163). -/
def HoldsSound (s : State) : Prop :=
  Table.wf s.action.pulses ∧ s.action.holds.length = 8
    ∧ ∀ n, n < 8 → s.action.holds.getD n 0 = (s.action.pulses.filter (fun e => namesLine e.2.group e.2.pattern n)).length

/-- There are eight trackers, and an open run holds 1 to 4096 records (R149, R156). -/
def RunsSound (s : State) : Prop :=
  s.exceedance.trackers.length = 8
    ∧ ∀ t ∈ s.exceedance.trackers, ∀ r, t.run = some r → 1 ≤ r.length ∧ r.length ≤ 4096

/-- The route cursor lies in 0 to 64 (R141). -/
def CursorSound (s : State) : Prop := s.exceedance.cursor ≤ 64

/-- The part is anchored exactly when it has a control window base, and area A0 is then the window of 4 pages at that base (R9, R10). -/
def AnchorSound (s : State) : Prop :=
  match s.transit.base with
  | none => s.control.runState = .unanchored ∧ Table.read s.transit.areas 0 = none
  | some b => s.control.runState ≠ .unanchored ∧ Table.read s.transit.areas 0 = some { base := b, pages := 4 }

/-- A held request waits on something, and every inserted write it waits on is queued (R14, R15). -/
def WaitsSound (s : State) : Prop :=
  ∀ h ∈ s.transit.holds,
    (h.waitsWrites ≠ [] ∨ h.waitsHeld ≠ [])
      ∧ ∀ w ∈ h.waitsWrites,
          match w with
          | .record r i => ∃ e ∈ s.writeBack.queue, e.ring = r ∧ e.index = i
          | .status => s.writeBack.slot.queued = true

/-- The requests that are staged or held have different tags, and their entries say STAGED and HELD (R5). -/
def TagsSound (s : State) : Prop :=
  (s.transit.stage.map (·.tag) ++ s.transit.holds.map (·.request.tag)).Nodup
    ∧ (∀ r ∈ s.transit.stage, (s.transit.entry r.tag.toNat).map (·.phase) = some .staged)
    ∧ (∀ h ∈ s.transit.holds, (s.transit.entry h.request.tag.toNat).map (·.phase) = some .held)

/-- The setup shadow, the event set, the area map, the in-flight table, the history ring and the pulse table are in the canonical form of
their representation, keys rising strictly and no zero word in the shadow (log 27), and no listed flag lies outside the 24. -/
def TablesSound (s : State) : Prop :=
  Shadow.wf s.control.shadow ∧ Table.wf s.control.events ∧ Table.wf s.transit.areas ∧ Table.wf s.transit.inflight
    ∧ Table.wf s.geometry.ring ∧ Table.wf s.action.pulses ∧ ∀ e ∈ s.control.events, e.1 < 24

/-! ### Requests -/

/-- No event is in progress: a status write that is pending has its place (R187). -/
def Settled (s : State) : Prop := s.writeBack.slot ≠ .filling

/-- A request stands first at the system port: no other request waits there untaken (R23; log 26). -/
def FirstAtPort (t : Transit) (req : RequestFields) (last : Option Beat) : Prop :=
  ∀ w, t.waiting = some w → w = { fields := req, lastBeat := last }

/-- The system port takes a request (R2): RESET and PRST are high, the forwarding stage is empty, the hold list has room, the tag is not
ABSORBING; and the request stands first at the port (R23). -/
def PortOpen (s : State) (req : RequestFields) (last : Option Beat) : Prop :=
  s.resetLow = false ∧ s.prstLow = false ∧ s.transit.stage = [] ∧ s.transit.holds.length < 8
    ∧ (s.transit.entry req.tag.toNat).map (·.phase) ≠ some .absorbing ∧ FirstAtPort s.transit req last

/-- One of the conditions of R2 fails for a tag: PRST is low, the forwarding stage holds a request, the hold list is full, or the tag is
ABSORBING. -/
def PortBlocked (s : State) (tag : SysTag) : Prop :=
  s.prstLow = true ∨ s.transit.stage ≠ [] ∨ 8 ≤ s.transit.holds.length
    ∨ (s.transit.entry tag.toNat).map (·.phase) = some .absorbing

/-- A request is received whole with this data (R2): a READ with its fields, a WRITE with the last of its beats, in one piece or behind
the beats received before. -/
def WholeRequest (t : Transit) (req : RequestFields) (last : Option Beat) (data : List Beat) : Prop :=
  match req.kind with
  | .read => t.partialBurst = none ∧ data = []
  | .write =>
    data.length = req.beats
      ∧ ((t.partialBurst = none ∧ data = last.toList)
        ∨ ∃ p, t.partialBurst = some p ∧ p.fields = req ∧ data = p.received ++ last.toList)

/-- A request passes the bus checks (R4). -/
def PassesBus (t : Transit) (req : RequestFields) : Prop :=
  req.addr.toNat % 8 = 0 ∧ 1 ≤ req.beats ∧ req.beats ≤ 16
    ∧ req.addr.toNat / 4096 = (req.addr.toNat + 8 * req.beats - 1) / 4096 ∧ t.entry req.tag.toNat = none

/-- The range of 8·beats bytes at an address lies within an area (R11). -/
def Within (a : Area) (addr beats : Nat) : Prop := a.base.toNat ≤ addr ∧ addr + 8 * beats ≤ a.base.toNat + 4096 * a.pages

/-- A range lies in area n of the map at an offset, and in no other entry (R11). -/
def LiesIn (t : Transit) (addr beats n off : Nat) : Prop :=
  ∃ a, (n, a) ∈ t.areas ∧ Within a addr beats ∧ off = addr - a.base.toNat ∧ ∀ e ∈ t.areas, Within e.2 addr beats → e = (n, a)

/-- A range lies in no area (R11). -/
def LiesNowhere (t : Transit) (addr beats : Nat) : Prop := ∀ e ∈ t.areas, ¬Within e.2 addr beats

/-- Two ranges of bytes share at least one byte (R1). -/
def Share (a n b m : Nat) : Prop := a < b + m ∧ b < a + n

/-- A queued inserted write whose range shares a byte with a range of 8·beats bytes at an address (R14). -/
def OverlapsQueued (s : State) (addr beats : Nat) (w : OwnWrite) : Prop :=
  match w with
  | .record r i => ∃ e ∈ s.writeBack.queue, e.ring = r ∧ e.index = i ∧ Share addr (8 * beats) e.addr.toNat (8 * e.beats)
  | .status => s.writeBack.slot.queued = true ∧ Share addr (8 * beats) (s.windowBase + 0x100) 128

/-- A held request, by its tag, whose range shares a byte with a range (R14). -/
def OverlapsHeld (s : State) (addr beats : Nat) (tag : SysTag) : Prop :=
  ∃ h ∈ s.transit.holds, h.request.tag = tag ∧ Share addr (8 * beats) h.request.addr.toNat (8 * h.request.beats)

/-- The transit unit changed only where a taken request goes: stage, hold list, its own entry, the burst in progress, the request that
waited, the number of requests taken. -/
def TransitTakes (s t : State) (tag : SysTag) : Prop :=
  t.transit =
      { s.transit with
        stage := t.transit.stage, holds := t.transit.holds, inflight := t.transit.inflight, partialBurst := none
        waiting := none, takenCount := s.transit.takenCount + 1 }
    ∧ ∀ k, k ≠ tag.toNat → t.transit.entry k = s.transit.entry k

/-- The part answered ERROR with a tag and no data; besides that only the burst in progress, the request that waited, the control
block and the status slot may have changed (R4, R11). -/
def AnsweredError (s t : State) (tag : SysTag) : Prop :=
  t.transit =
      { s.transit with
        partialBurst := none, waiting := none
        responses := s.transit.responses ++ [{ tag := tag, status := .error, data := [] }] }
    ∧ t = { s with transit := t.transit, control := t.control, writeBack := t.writeBack } ∧ WriteBackSlotOnly s t

/-! ### The arbiter and presentation -/

/-- Write-back has a head: a queued record, or a status write with its place (R187). -/
def HasHead (s : State) : Prop := s.writeBack.queue ≠ [] ∨ ∃ n, s.writeBack.slot = .pending n

/-- An inserted tag is FREE (R6). -/
def InsertedTagFree (t : Transit) : Prop := ∃ tag, 64 ≤ tag ∧ tag < 96 ∧ t.entry tag = none

/-- A tag is the lowest FREE inserted tag (R6). -/
def LowestInsertedTag (t : Transit) (tag : Nat) : Prop :=
  64 ≤ tag ∧ tag < 96 ∧ t.entry tag = none ∧ ∀ k, 64 ≤ k → k < tag → t.entry k ≠ none

/-- The write-back head wins the port (R17). -/
def WriteBackWins (s : State) : Prop :=
  HasHead s ∧ InsertedTagFree s.transit
    ∧ ((∃ h ∈ s.transit.holds, h.waitsWrites ≠ []) ∨ s.transit.drainThreshold ≤ s.writeBack.queue.length
      ∨ s.transit.stage = [])

/-- The system head wins the port (R17). -/
def SystemWins (s : State) : Prop := s.transit.stage ≠ [] ∧ ¬WriteBackWins s

/-- A WRITE is an anchor observation with a valid base (R8). -/
def AnchorWrite (r : Request) (base : Addr) : Prop :=
  r.addr = 0xFF8 ∧ r.beats = 1
    ∧ ∃ b : Beat, r.data = [b] ∧ b.strobes = BitVec.allOnes 8 ∧ b.data ≠ 0 ∧ b.data.toNat % 0x4000 = 0
        ∧ b.data.toNat ≤ 0xFFFFFC000 ∧ base = b.data.setWidth 36

/-- The system head is on the memory port: it left the stage, the port holds it unchanged, its entry is PRESENTED, no other entry and
nothing else of the transit unit changed. -/
def HeadOnPort (s t : State) (r : Request) (rest : List Request) (capture : Option Capture) : Prop :=
  t.transit =
      { s.transit with
        stage := rest, inflight := t.transit.inflight
        memoryPort :=
          some { tag := r.tag.setWidth 7, kind := r.kind, addr := r.addr, beats := r.beats, data := r.data } }
    ∧ t.transit.entry r.tag.toNat =
        some { phase := .presented, kind := r.kind, addr := r.addr, beats := r.beats, capture := capture, carried := none }
    ∧ ∀ k, k ≠ r.tag.toNat → t.transit.entry k = s.transit.entry k

/-- What the presentation of an inserted write does to the hold list, from its head on (R15): a request leaves when it waits on no other
queued write and on no held request but those that have left ahead of it in the same event (`gone`, by tag); the others stay, in their
order, and wait on what is left. -/
def HoldsReleased (w : OwnWrite) : List SysTag → List Held → List Held → List Request → Prop
  | _, [], kept, freed => kept = [] ∧ freed = []
  | gone, h :: rest, kept, freed =>
    ((∀ x ∈ h.waitsWrites, x = w) ∧ (∀ tag ∈ h.waitsHeld, tag ∈ gone)
      ∧ ∃ later, freed = h.request :: later ∧ HoldsReleased w (h.request.tag :: gone) rest kept later)
    ∨ (((∃ x ∈ h.waitsWrites, x ≠ w) ∨ ∃ tag ∈ h.waitsHeld, tag ∉ gone)
      ∧ ∃ h' later, kept = h' :: later ∧ h'.request = h.request
          ∧ (∀ x, x ∈ h'.waitsWrites ↔ x ∈ h.waitsWrites ∧ x ≠ w) ∧ (∀ tag, tag ∈ h'.waitsHeld ↔ tag ∈ h.waitsHeld ∧ tag ∉ gone)
          ∧ HoldsReleased w gone rest later freed)

/-- The hold list and the forwarding stage after an inserted write was presented (R15, R16): the freed requests are STAGED, and stand with
those staged before in the order of taking. -/
def ReleasedBy (s t : State) (w : OwnWrite) (freed : List Request) : Prop :=
  HoldsReleased w [] s.transit.holds t.transit.holds freed
    ∧ t.transit.stage.Perm (s.transit.stage ++ freed)
    ∧ (s.transit.stage.Pairwise (fun a b => a.order ≤ b.order) → t.transit.stage.Pairwise (fun a b => a.order ≤ b.order))
    ∧ ∀ r ∈ freed, (t.transit.entry r.tag.toNat).map (·.phase) = some .staged

/-- What acknowledgements leave of the live event set (R36): a flag that one of them carries, and that was not raised since that status
write was presented, is gone; every other flag is as it was. -/
def Acknowledged (s t : State) (captures : List Capture) : Prop :=
  ∀ k, Table.read t.control.events k =
    (Table.read s.control.events k).filter (fun recorded =>
      !(captures.any (fun cap => decide (k < 24) && cap.eventWord.getLsbD k && !renewedSince recorded cap.seq)))

/-- A value limited to the range of a signed field of w bits (R199). -/
def limitedTo (w : Nat) (v : Int) : BitVec w := BitVec.ofInt w (max (-2 ^ (w - 1)) (min (2 ^ (w - 1) - 1) v))

/-- Bits of a word of a record, from a bit on. -/
def field (words : List Word64) (word bit width : Nat) : BitVec width := (words.getD word 0).extractLsb' bit width

/-- The state word of the status record (section 11.2), in word 0 from bit 32 on. -/
def StateWordIs (s : State) (words : List Word64) : Prop :=
  field words 0 32 3 = s.control.runState.code ∧ field words 0 35 1 = 1
    ∧ field words 0 36 1 = BitVec.ofBool (decide (s.odometer.lead = .b)) ∧ field words 0 37 1 = BitVec.ofBool s.odometer.swapLock
    ∧ field words 0 38 1 = BitVec.ofBool s.odometer.highWaterPoint.isSome
    ∧ field words 0 39 1 = BitVec.ofBool s.exceedance.overrideOn ∧ field words 0 40 3 = s.exceedance.active
    ∧ field words 0 43 7 = BitVec.ofNat 7 s.exceedance.cursor ∧ field words 0 50 4 = BitVec.ofNat 4 s.assembler.queue.length
    ∧ (∀ i : Fin 4, field words 0 (54 + 2 * i.val) 2 = (s.tap.stream i).state.code)
    ∧ field words 0 62 2 = s.odometer.lastMarker.outcome.code

/-- The ring outcomes field of the status record (section 11.2), in word 4 from bit 48 on. -/
def RingOutcomesAre (w : WriteBack) (words : List Word64) : Prop :=
  field words 4 48 2 = w.geometryRing.last.code ∧ field words 4 50 2 = w.geometryRing.previous.code
    ∧ field words 4 52 2 = w.exceedanceRing.last.code ∧ field words 4 54 2 = w.exceedanceRing.previous.code
    ∧ field words 4 56 2 = w.actionRing.last.code ∧ field words 4 58 2 = w.actionRing.previous.code ∧ field words 4 60 4 = 0

/-- The content of a status record composed from a state, with a status sequence and a number of inserted writes in flight (section 11.2).
Points discarded is the low byte of its counter (log 24); the marker error and the present chainage are limited from their exact values,
also outside signed 64 bits (log 28, log 30). -/
def StatusContent (s : State) (seq : BitVec 32) (inFlight : Nat) (words : List Word64) : Prop :=
  words.length = 16 ∧ field words 0 0 32 = seq ∧ StateWordIs s words ∧ words.getD 1 0 = eventWord s.control.events
    ∧ field words 2 0 4 = s.control.lastCommand.word ∧ field words 2 4 3 = s.control.lastCommand.result.code
    ∧ field words 2 7 1 = 0 ∧ field words 2 8 8 = s.control.lastRefusal.reason.code
    ∧ field words 2 16 16 = s.control.lastRefusal.offset ∧ field words 2 32 32 = s.control.lastCommand.detail
    ∧ field words 3 0 48 = limitedTo 48 (s.odometer.d / 256) ∧ field words 3 48 8 = BitVec.ofNat 8 s.writeBack.queue.length
    ∧ field words 3 56 8 = BitVec.ofNat 8 inFlight
    ∧ field words 4 0 48 = limitedTo 48 (s.odometer.q + s.odometer.dir.sign * (s.odometer.d / 256))
    ∧ RingOutcomesAre s.writeBack words
    ∧ field words 5 0 32 = BitVec.ofInt 32 ((s.odometer.highWaterPoint.map (·.index)).getD 0)
    ∧ (field words 5 32 16).toNat = min 0xFFFF s.odometer.chanA.errors.toNat
    ∧ (field words 5 48 16).toNat = min 0xFFFF s.odometer.chanB.errors.toNat
    ∧ field words 6 0 32 = s.odometer.lastMarker.id ∧ field words 6 32 24 = limitedTo 24 s.odometer.lastMarker.error
    ∧ field words 6 56 8 = s.assembler.discarded.extractLsb' 0 8
    ∧ (∀ i : Fin 4, field words 7 (16 * i.val) 16 = (s.tap.stream i).errors)
    ∧ field words 8 0 32 = s.tap.framesLost ∧ field words 8 32 32 = s.assembler.opened
    ∧ field words 9 0 32 = s.assembler.closed ∧ field words 9 32 32 = s.assembler.forced
    ∧ field words 10 0 32 = s.assembler.gapped ∧ field words 10 32 32 = s.exceedance.emitted
    ∧ field words 11 0 32 = s.exceedance.short ∧ field words 11 32 32 = s.action.fired
    ∧ field words 12 0 32 = s.action.missed ∧ field words 12 32 32 = s.action.cancelled
    ∧ field words 13 0 32 = s.writeBack.geometryRing.writeIndex ∧ field words 13 32 32 = s.writeBack.exceedanceRing.writeIndex
    ∧ field words 14 0 32 = s.writeBack.actionRing.writeIndex ∧ field words 14 32 32 = s.writeBack.geometryRing.lost
    ∧ field words 15 0 32 = s.writeBack.exceedanceRing.lost ∧ field words 15 32 32 = s.writeBack.actionRing.lost

/-- Records of presented status writes that still wait for their response are kept, and no other record appears (R19). -/
def RecordsKept (s t : State) : Prop :=
  (∀ w ∈ s.transit.statusRecords, w.outcome = .pending → w ∈ t.transit.statusRecords)
    ∧ ∀ w ∈ t.transit.statusRecords, w ∈ s.transit.statusRecords

/-- The acknowledgement capture that a presented READ takes (R20): when its range covers the 8 bytes of the event word in A0, the event
word and the sequence of the last presented status write. -/
def CaptureTaken (s : State) (r : Request) : Option Capture :=
  match s.transit.base, s.transit.statusRecords.getLast? with
  | some b, some w =>
    if r.addr.toNat ≤ b.toNat + 0x108 ∧ b.toNat + 0x110 ≤ r.addr.toNat + 8 * r.beats then
      some { eventWord := w.eventWord, seq := w.seq }
    else none
  | _, _ => none

/-- The system head is a capture write of stream i + 1 with these beats, from an offset in its area on; the part is anchored, and the head
wins the port. -/
def CaptureHead (s : State) (r : Request) (rest : List Request) (i : Fin 4) (off : Nat) (beats : List Beat) : Prop :=
  Settled s ∧ s.control.runState ≠ .unanchored ∧ s.transit.base ≠ none ∧ s.transit.stage = r :: rest ∧ SystemWins s
    ∧ r.kind = .write ∧ r.hit = some { area := i.val + 1, offset := off } ∧ r.data = beats

/-- The beats of a capture write are tapped one at a time, in ascending address order, each at its own offset (R80). -/
def BeatsTapped (i : Fin 4) (arrival : Time) : Nat → List Beat → State → State → Prop
  | _, [], s, t => t = s
  | off, b :: rest, s, t => BeatsTapped i arrival (off + 8) rest (s.tapBeat i arrival off b) t

/-- The beats of a burst are whole, and all of them lie in the slot of the first (R80). -/
def WholeInSlot (off : Nat) (beats : List Beat) : Prop :=
  beats ≠ [] ∧ (∀ b ∈ beats, b.strobes = BitVec.allOnes 8) ∧ off % 64 / 8 + beats.length ≤ 8

/-- An assembly buffer with beats stored from a position on (R81). -/
def withBeats (buffer : List (Option Word64)) (pos : Nat) : List Beat → List (Option Word64)
  | [] => buffer
  | b :: rest => withBeats (buffer.set pos (some b.data)) (pos + 1) rest

/-- Whole beats of an enabled stream's expected slot, of which the last completes a frame of these eight words (R81, R84). -/
def FrameComplete (c : StreamContext) (off : Nat) (beats : List Beat) (words : List Word64) : Prop :=
  WholeInSlot off beats ∧ c.state ≠ .idle ∧ off / 64 = c.expectedSlot
    ∧ (1 < beats.length → c.buffer[off % 64 / 8 + (beats.length - 1)]? = some none)
    ∧ withBeats c.buffer (off % 64 / 8) beats = words.map some

/-- The frame kind byte. -/
def kindByte (words : List Word64) : BitVec 8 := (words.getD 0 0).extractLsb' 0 8

/-- A context after its frame has left the buffer (R84). -/
def StreamContext.emptied (c : StreamContext) : StreamContext :=
  { c with
    buffer := emptyBuffer
    expectedSlot := if c.expectedSlot + 1 = c.slotCount then 0 else c.expectedSlot + 1 }

/-- The sequence check of a frame (R86): no last sequence or no gap, and nothing is lost; or a gap, whose missing frames are added to the
frames lost counter, saturating, with FRAME_LOSS. -/
def SequenceChecked (s : State) (c : StreamContext) (seq : BitVec 16) (lost : BitVec 32) (flags : List EventFlag) : Prop :=
  ((∀ last, c.lastSequence = some last → seq = last + 1) ∧ lost = s.tap.framesLost ∧ flags = [])
    ∨ ∃ last, c.lastSequence = some last ∧ seq ≠ last + 1 ∧ flags = [.frameLoss]
        ∧ lost.toNat = min 0xFFFFFFFF (s.tap.framesLost.toNat + (seq - last - 1).toNat)

/-- A frame time lies at or above the time of the last frame, if there is one (R87). -/
def FrameInOrder (c : StreamContext) (time : Time) : Prop := ∀ f, c.lastFrame = some f → (time - f.time).toNat < 2 ^ 47

/-- The flags an event raised; with none, the control block and the status slot are as they were. -/
def Flagged (s t : State) (flags : List EventFlag) : Prop :=
  (flags = [] → t.control = s.control ∧ t.writeBack = s.writeBack)
    ∧ (flags ≠ [] → WriteBackSlotOnly s t ∧ ControlEventsOnly s t ∧ Publishes s t flags)

/-- The run state lets silence timers run and hands frames on: RUNNING or DRAINING (R91, R94). -/
def RunState.Measures (r : RunState) : Prop := r = .running ∨ r = .draining

/-- The silence timer after a taken SENSOR frame (R94): restarted from the arrival in RUNNING and DRAINING, when the stream has a limit;
left as it was otherwise. -/
def TimerAfter (run : RunState) (c : StreamContext) (arrival : Time) (timer : Option Time) : Prop :=
  (run.Measures → c.silenceLimit ≠ 0 → timer = some (arrival + BitVec.ofNat 48 c.silenceLimit))
    ∧ (¬run.Measures ∨ c.silenceLimit = 0 → timer = c.timer)

/-! ### Commands -/

/-- A live word of the control window, a command word, a consumed index or the mask, as the command of its own row; `n` is the number of the window's word. -/
def wordCommand (n : Nat) (w : Word64) : Option Instr :=
  if h : n < 9 then some (commandOf ⟨n, h⟩ w)
  else if n = 16 then some (.consumedIndexWrite .geometry w)
  else if n = 17 then some (.consumedIndexWrite .exceedance w)
  else if n = 18 then some (.consumedIndexWrite .action w)
  else if n = 19 then some (.interruptEnableMaskWrite w)
  else none

/-- The words of a burst from word `n` of the window run one after the other, each as the command of its own row (R26). -/
def WordsRun : Nat → List Word64 → State → State → Prop
  | _, [], s, t => t = s
  | n, w :: rest, s, t => ∃ c m, wordCommand n w = some c ∧ exec c s = .next m ∧ WordsRun (n + 1) rest m t

/-- Nothing but the control block and the status slot changed. -/
def ControlAndSlotOnly (s t : State) : Prop :=
  t = { s with control := t.control, writeBack := t.writeBack } ∧ WriteBackSlotOnly s t

/-- The run states ARMED, RUNNING and DRAINING. -/
def InRun (s : State) : Prop := s.control.runState ∈ [.armed, .running, .draining]

/-- The stream contexts with their timers stopped. -/
def TimersStopped (s t : State) : Prop :=
  (∀ i, t.tap.stream i = { s.tap.stream i with timer := none }) ∧ t.tap.framesLost = s.tap.framesLost

/-- An enabled stream i + 1 maps a quantity in its slot map (R46, R90). -/
def MapsQuantity (sh : Table Word64) (i : Fin 4) (q : Nat) : Prop :=
  areaEnabled sh (i.val + 1) = true ∧ 1 ≤ q ∧ q ≤ 8
    ∧ ∃ n, n < 14 ∧ (shadowField 8 sh (0x0400 + 0x40 * i.val + 8 + n)).toNat = q

/-- The contributing streams with their quantities: each enabled stream that maps one, once, with exactly what it maps (R90, R117). -/
def ContributorsLoaded (sh : Table Word64) (l : List Contributor) : Prop :=
  (l.map (·.stream)).Nodup ∧ (∀ c ∈ l, c.quantities ≠ [])
    ∧ ∀ i q, (∃ c ∈ l, c.stream = i ∧ q ∈ c.quantities) ↔ MapsQuantity sh i q

/-- An entry of a candidate route list breaks the route rule (R29): below the cursor, a profile outside 0–7, or out of order against the
entry before or after it. -/
def RouteBroken (s : State) (l : List RouteEntry) (i : Nat) : Prop :=
  i < s.exceedance.cursor
    ∨ ∃ e, l[i]? = some e
        ∧ (7 < e.profile.toNat
          ∨ (∃ p, 0 < i ∧ l[i - 1]? = some p ∧ inOrder s.odometer.dir p.chainage e.chainage = false)
          ∨ ∃ n, l[i + 1]? = some n ∧ inOrder s.odometer.dir e.chainage n.chainage = false)

/-- The words of a shadow after a burst of route words from word `first` of the route region. -/
def RouteStored (old new : Table Word64) (first : Nat) (words : List Word64) : Prop :=
  (∀ k w, words[k]? = some w → Shadow.read new (0x0C00 + 8 * (first + k)) = w)
    ∧ ∀ off, (∀ k, k < words.length → off ≠ 0x0C00 + 8 * (first + k)) → Shadow.read new off = Shadow.read old off

/-! ### The odometer -/

/-- A line filter takes a sample (R58): an equal level returns the count to 0; a differing one adds 1, and at the filter depth the level
is accepted. -/
def Filtered (f f' : LineFilter) (depth : Nat) (level : Bool) : Prop :=
  f' = if level = f.accepted then { f with count := 0 }
    else if f.count + 1 < depth then { f with count := f.count + 1 }
    else { accepted := level, count := 0 }

/-- The time base moved by one sample: ten samples make one µs. -/
def Ticked (s t : State) : Prop :=
  (s.phase + 1 < 10 → t.phase = s.phase + 1 ∧ t.time = s.time) ∧ (¬s.phase + 1 < 10 → t.phase = 0 ∧ t.time = s.time + 1)

/-- The signed count length of a channel (R61, R62). -/
def countOf (c : ChannelState) (forward : Bool) : Int := if forward then c.countLength else -(c.countLength : Int)

/-- The run state lets counts take effect (R60). -/
def Counting (s : State) : Prop := s.control.runState ∈ [.armed, .running, .draining, .stopped]

/-- A distance carries D to the boundary of the next point k in RUNNING (R65). -/
def OpensPoint (s : State) (d k : Int) : Prop :=
  s.control.runState = .running ∧ s.odometer.nextPoint = some k ∧ s.odometer.d < k * s.odometer.spacing * 256
    ∧ k * s.odometer.spacing * 256 ≤ d

/-- A distance begins a reversal excursion (R69). -/
def BeginsReversal (s : State) (d : Int) : Prop :=
  s.control.runState ∈ [.running, .draining, .stopped] ∧ s.odometer.reversal = false
    ∧ ∃ p, s.odometer.highWaterPoint = some p ∧ d < (p.boundary - 1000) * 256

/-- A distance ends a reversal excursion (R69). -/
def EndsReversal (s : State) (d : Int) : Prop :=
  s.control.runState ∈ [.running, .draining, .stopped] ∧ ∃ p, s.odometer.highWaterPoint = some p ∧ p.boundary * 256 ≤ d

/-- No queued action and no periodic trigger is due at a high-water distance (R170). -/
def NothingDue (s : State) (h : Int) : Prop :=
  (∀ e ∈ s.action.queue, h < e.trigger) ∧ ∀ g p, (s.action.periodic g).next = some p → h < p

/-- A channel after a count of the lead: the lead's travel moves, both net travels return to 0 (R61). -/
def ChannelState.afterLead (c : ChannelState) (isLead : Bool) (x : Int) : ChannelState :=
  { c with travel := if isLead then c.travel + x else c.travel, net := 0 }

/-- The odometer after a lead count of x, but for an opening (R61). -/
def Odometer.afterLead (o : Odometer) (x : Int) (reversal : Bool) : Odometer :=
  { o with
    d := o.d + x, highWater := max o.highWater ((o.d + x) / 256), stallTravel := 0, stallReported := false
    chanA := o.chanA.afterLead (decide (o.lead = .a)) x, chanB := o.chanB.afterLead (decide (o.lead = .b)) x
    reversal := reversal }

/-- A lead count takes D by the lead's count length to a distance that fits signed 64 bits (R57, R61). -/
def LeadMove (s : State) (forward : Bool) (d : Int) : Prop :=
  d = s.odometer.d + countOf (s.odometer.channel s.odometer.lead) forward ∧ -2 ^ 63 ≤ d ∧ d < 2 ^ 63

/-- The odometer after a count x of the channel that is not the lead (R62). -/
def Odometer.afterNonLead (o : Odometer) (x : Int) : Odometer :=
  let c := o.channel o.lead.other
  { o.setChannel o.lead.other { c with travel := c.travel + x, net := c.net + x } with stallTravel := (c.net + x).natAbs }

/-- The lines that accept a change at a sample: TA0, TA1, TB0, TB1, MARK (R58). -/
def acceptedChanges (o : Odometer) (l : LineLevels) : List Bool :=
  let at_ (f : LineFilter) (level : Bool) : Bool := decide (level ≠ f.accepted) && decide (o.filterDepth ≤ f.count + 1)
  [at_ o.filters.ta0 l.ta0, at_ o.filters.ta1 l.ta1, at_ o.filters.tb0 l.tb0, at_ o.filters.tb1 l.tb1,
    at_ o.filters.mark l.mark]

/-- The count of a channel as the event that it is by the lead in force (R61, R62). -/
def countEvent (o : Odometer) (c : Channel) (forward : Bool) : Instr :=
  if c = o.lead then .leadCount forward else .nonLeadCount forward

/-- A sample brings exactly one event to the odometer (R59, R73): a count of one channel, its sign by the two levels after the change and
the channel's invert; a quadrature error; or a passage. -/
def SampleBrings (o : Odometer) (l : LineLevels) (e : Instr) : Prop :=
  (acceptedChanges o l = [true, false, false, false, false]
      ∧ e = countEvent o .a ((l.ta0 != o.filters.ta1.accepted) != o.chanA.invert))
    ∨ (acceptedChanges o l = [false, true, false, false, false]
      ∧ e = countEvent o .a ((o.filters.ta0.accepted == l.ta1) != o.chanA.invert))
    ∨ (acceptedChanges o l = [false, false, true, false, false]
      ∧ e = countEvent o .b ((l.tb0 != o.filters.tb1.accepted) != o.chanB.invert))
    ∨ (acceptedChanges o l = [false, false, false, true, false]
      ∧ e = countEvent o .b ((o.filters.tb0.accepted == l.tb1) != o.chanB.invert))
    ∨ (acceptedChanges o l = [true, true, false, false, false] ∧ e = .quadratureError .a)
    ∨ (acceptedChanges o l = [false, false, true, true, false] ∧ e = .quadratureError .b)
    ∨ (acceptedChanges o l = [false, false, false, false, true] ∧ l.mark = true ∧ e = .markPassage)

/-- Each of the five line filters took its sample (R58). -/
def AllFiltered (o : Odometer) (l : LineLevels) (f : LineFilters) : Prop :=
  Filtered o.filters.ta0 f.ta0 o.filterDepth l.ta0 ∧ Filtered o.filters.ta1 f.ta1 o.filterDepth l.ta1
    ∧ Filtered o.filters.tb0 f.tb0 o.filterDepth l.tb0 ∧ Filtered o.filters.tb1 f.tb1 o.filterDepth l.tb1
    ∧ Filtered o.filters.mark f.mark o.filterDepth l.mark

/-- The time base has reached a time: it has come to equal it (00 Conventions; log 6). -/
def Reached (s : State) (t : Time) : Prop := s.time = t

/-! ### Points -/

/-- A point waits on a stream (R100). -/
def PendingPoint.WaitsOn (p : PendingPoint) (i : Fin 4) : Prop := ∃ e ∈ p.entries, e.stream = i ∧ ∃ b, e.state = .waiting b

/-- The head of the queue of points, if there is one, waits on a stream, not counting stream `i` when one is named. -/
def HeadWaits (queue : List PendingPoint) (i : Option (Fin 4)) : Prop :=
  ∀ p rest, queue = p :: rest → ∃ j, p.WaitsOn j ∧ some j ≠ i

/-- An entry of a point whose stream is given up (R108, R109). -/
def StreamEntry.givenUp (e : StreamEntry) : StreamEntry :=
  match e.state with
  | .waiting _ => { e with state := .missing }
  | _ => e

/-- An entry of the stream of a handed frame, in a point crossed at `tk` (R105, R107): WAITING, it takes the frame as its before-frame, is
FILLED by it, or is given up when the frame is INVALID; otherwise it is final. -/
def StreamEntry.took (e : StreamEntry) (f : Frame) (tk : Time) : StreamEntry :=
  match e.state with
  | .waiting before =>
    if f.healthy = false then { e with state := .missing }
    else if (f.time - tk).toNat < 2 ^ 47 then { e with state := applyFrame f tk (.waiting before) }
    else { e with state := .waiting (some { time := f.time, values := f.values }) }
  | _ => e

/-- A pending point that a frame of stream i + 1 has been handed to. -/
def PendingPoint.took (i : Fin 4) (f : Frame) (p : PendingPoint) : PendingPoint :=
  { p with entries := p.entries.map (fun e => if e.stream = i then e.took f p.time else e) }

/-- A closing of a queue (R110): the points up to the first that waits have left it and are counted closed. -/
def ClosingOf (queue : List PendingPoint) (a a' : Assembler) : Prop :=
  ∃ n, n ≤ queue.length ∧ a' = { a with queue := queue.drop n, closed := a.closed + BitVec.ofNat 32 n }
    ∧ (∀ p ∈ queue.take n, ∀ j, ¬p.WaitsOn j) ∧ HeadWaits a'.queue none

/-- The entry of a contributing stream in a point that opens (R102, R103). -/
def NewEntry (s : State) (c : Contributor) (e : StreamEntry) : Prop :=
  e.stream = c.stream
    ∧ ((s.tap.stream c.stream).state = .stale → e.state = .missing)
    ∧ ((s.tap.stream c.stream).state ≠ .stale →
      (∀ f, (s.tap.stream c.stream).lastFrame = some f → f.healthy = true → e.state = .waiting (some ⟨f.time, f.values⟩))
        ∧ ((∀ f, (s.tap.stream c.stream).lastFrame = some f → f.healthy = false) → e.state = .waiting none))

/-- The point that a count to distance d opens (R66, R67, R102). Its chainage is the exact integer, also outside signed 64 bits (log 30). -/
def OpenedPoint (s : State) (d k : Int) (mismatch : Bool) (p : PendingPoint) : Prop :=
  p.index = k ∧ p.dmm = d / 256 ∧ p.chainage = s.odometer.q + s.odometer.dir.sign * (d / 256) ∧ p.time = s.time
    ∧ p.deadline = s.time + BitVec.ofNat 48 s.assembler.closeLimit
    ∧ (s.odometer.highWaterPoint = none → p.speed = 0)
    ∧ (∀ h, s.odometer.highWaterPoint = some h →
        (s.time = h.time → p.speed = 1000000)
          ∧ (s.time ≠ h.time → p.speed = min 1000000 (s.odometer.spacing * 1000000 / (s.time - h.time).toNat)))
    ∧ p.flags =
        { gap := false, forced := false, mismatch := mismatch, step := s.odometer.chainageStep
          speedUnknown := s.odometer.highWaterPoint.isNone }
    ∧ p.entries.length = s.assembler.contributing.length
    ∧ ∀ (n : Nat) (c : Contributor) (e : StreamEntry), s.assembler.contributing[n]? = some c → p.entries[n]? = some e →
        NewEntry s c e

/-- The odometer after a lead count of x to distance d that opened point k, but for the reversal mark (R61, R65, R66, R68, R75). -/
def Odometer.afterOpening (o : Odometer) (x d k : Int) (time : Time) (mismatch : Bool) : Odometer :=
  { o.afterLead x o.reversal with
    nextPoint := some (k + 1), highWaterPoint := some ⟨k, time, k * o.spacing⟩
    prevMismatch := mismatch, chainageStep := false
    chanA := { o.chanA with travel := 0, net := 0 }, chanB := { o.chanB with travel := 0, net := 0 }
    latches := o.latches.filter (fun l => decide (d - l.d ≤ (o.orphanDistance : Int) * 1000 * 256)) }

/-- The flags that an opening raises in the odometer: a new mismatch, and orphaned latches (R68, R75). -/
def OpeningFlags (o : Odometer) (d : Int) (mismatch : Bool) (flags : List EventFlag) : Prop :=
  ∀ f, f ∈ flags ↔
    (f = .odoMismatch ∧ mismatch = true ∧ o.prevMismatch = false)
      ∨ (f = .markerReject ∧ ∃ l ∈ o.latches, (o.orphanDistance : Int) * 1000 * 256 < d - l.d)

/-- The event raised these flags, one after the other. -/
def State.raises (s : State) (flags : List EventFlag) : State := flags.foldl State.raise s

/-- A point whose entries are all given up, with other flags (R104, R109). -/
def PendingPoint.givenUp (p : PendingPoint) (flags : PointFlags) : PendingPoint :=
  { p with entries := p.entries.map (·.givenUp), flags := flags }

/-! ### Records -/

/-- The value of a quantity at a point counts as valid (R127): VALID in the sample, or INR_Y or INR_Z unmapped, as 0. -/
def Valid (x : Sample) (code : Nat) (v : Int) : Prop :=
  x.readings[code - 1]? = some (.valid v) ∨ (x.readings[code - 1]? = some .unmapped ∧ (code = 6 ∨ code = 7) ∧ v = 0)

/-- A point of the run, by its sample in the history ring (R122). -/
def PointOf (g : GeometryUnit) (j : Int) (y : Sample) : Prop := Table.read g.ring (j % 256).toNat = some y ∧ y.index = j

/-- GAUGE (R128). -/
def Gauge (g : GeometryUnit) (x : Sample) (v : Int) : Prop :=
  ∃ latL latR, Valid x 1 latL ∧ Valid x 2 latR ∧ v = g.beamGauge + latL + latR - g.nominalGauge

/-- XLEVEL, exact (R129). -/
def Xlevel (g : GeometryUnit) (x : Sample) (v : Int) : Prop :=
  ∃ roll vrtL vrtR, Valid x 5 roll ∧ Valid x 3 vrtL ∧ Valid x 4 vrtR ∧ v = (roll * g.railBase).tdiv 1000000 + vrtL - vrtR

/-- TWIST (R130). -/
def Twist (g : GeometryUnit) (x : Sample) (v : Int) : Prop :=
  ∃ y here there, PointOf g (x.index - g.twist) y ∧ Xlevel g x here ∧ Xlevel g y there ∧ v = here - there

/-- The mid-chord offset of a series (R132). -/
def Chord (g : GeometryUnit) (series : Sample → Int → Prop) (x : Sample) (v : Int) : Prop :=
  ∃ y z back here ahead, PointOf g (x.index - g.chord) y ∧ PointOf g (x.index + g.chord) z ∧ series y back ∧ series x here
    ∧ series z ahead ∧ v = here - (back + ahead).tdiv 2

/-- The sum of an inertial quantity and a rail quantity (R133, R134). -/
def SumOf (q1 q2 : Nat) (x : Sample) (v : Int) : Prop := ∃ a b, Valid x q1 a ∧ Valid x q2 b ∧ v = a + b

/-- The difference of an inertial quantity and a rail quantity (R134). -/
def DiffOf (q1 q2 : Nat) (x : Sample) (v : Int) : Prop := ∃ a b, Valid x q1 a ∧ Valid x q2 b ∧ v = a - b

/-- CURV (R131). -/
def Curv (x : Sample) (v : Int) : Prop := ∃ yaw, Valid x 8 yaw ∧ 1000 ≤ x.speed ∧ v = (yaw * 1000).tdiv x.speed

/-- A channel of a record carries its value limited to signed 32 bits, or is not valid when it has none (R126, R135). -/
def ChannelIs (r : GeometryRecord) (ch : Nat) (value : Int → Prop) : Prop :=
  (∀ v, value v → r.channels[ch]? = some (some (max (-2147483648) (min 2147483647 v))))
    ∧ ((¬∃ v, value v) → r.channels[ch]? = some none)

/-- A run extended by a record (R152). -/
def Extends (r r' : OpenRun) (g : GeometryRecord) (v : Int) : Prop :=
  r' = { r with stop := g.index, length := r.length + 1, peak := r'.peak, peakChainage := r'.peakChainage, peakValue := r'.peakValue }
    ∧ (r.peakValue.natAbs < v.natAbs → r'.peak = g.index ∧ r'.peakChainage = g.chainage ∧ r'.peakValue = v)
    ∧ (v.natAbs ≤ r.peakValue.natAbs → r'.peak = r.peak ∧ r'.peakChainage = r.peakChainage ∧ r'.peakValue = r.peakValue)

/-- The severity flag of an exceedance record (R158). -/
def severityFlag : Severity → EventFlag
  | .alert => .exceedAlert
  | .limit => .exceedLimit

/-- The exceedance unit with a channel's tracker CLEAR. -/
def ExceedanceUnit.cleared (x : ExceedanceUnit) (ch : Nat) : ExceedanceUnit := { x with trackers := x.trackers.set ch .clear }

/-- The tracker of a channel becomes CLEAR and its run is reported: the record goes to write-back, the severity flag is raised, exceedances
emitted rises by 1 (R153, R158). -/
def RunReported (s t : State) (ch : Nat) (sev : Severity) (r : OpenRun) (cause : CloseCause) : Prop :=
  t =
    (({ s with exceedance := { s.exceedance.cleared ch with emitted := s.exceedance.emitted + 1 } }).produce .exceedance
        (exceedanceWords
          { channel := ch, severity := sev, run := r, cause := cause
            lengthMm := (r.stop - r.start + 1) * (s.exceedance.spacing : Int) })).raise
      (severityFlag sev)

/-- A channel's open run closes with a cause (R153): a LIMIT run, or an ALERT run of at least the minimum length of its own profile, is
reported; a shorter ALERT run is counted short. A CLEAR tracker closes nothing. -/
def RunCloses (s t : State) (ch : Nat) (cause : CloseCause) : Prop :=
  match s.exceedance.tracker ch with
  | .clear => t = s
  | .limitRun r => RunReported s t ch .limit r cause
  | .alertRun r =>
    ((s.exceedance.entry r.profile ch).minLength ≤ r.length → RunReported s t ch .alert r cause)
      ∧ (r.length < (s.exceedance.entry r.profile ch).minLength →
        t = { s with exceedance := { s.exceedance.cleared ch with short := s.exceedance.short + 1 } })

/-- The open runs of these channels close one after the other, with one cause (R157). -/
def RunsClose (cause : CloseCause) : List Nat → State → State → Prop
  | [], s, t => t = s
  | ch :: rest, s, t => ∃ m, RunCloses s m ch cause ∧ RunsClose cause rest m t

/-- A route entry lies, along dir, at or behind a chainage (R145). -/
def EntryReached (s : State) (chainage : Int) (e : RouteEntry) : Prop :=
  (s.odometer.dir = .plus → e.chainage ≤ chainage) ∧ (s.odometer.dir = .minus → chainage ≤ e.chainage)

/-- The entries of the route list from the cursor on that a chainage has reached, up to the first that it has not (R145). -/
def ReachedFromCursor (s : State) (chainage : Int) (reached : List RouteEntry) : Prop :=
  ∃ ahead, (routeList s.control.shadow).drop s.exceedance.cursor = reached ++ ahead
    ∧ (∀ e ∈ reached, EntryReached s chainage e) ∧ ∀ e, ahead.head? = some e → ¬EntryReached s chainage e

/-! ### Closing points and emitting records -/

/-- The sample of a closed point (R111). -/
def SampleOf (a : Assembler) (p : PendingPoint) (x : Sample) : Prop :=
  x.index = p.index ∧ x.dmm = p.dmm ∧ x.chainage = p.chainage ∧ x.time = p.time ∧ x.speed = p.speed ∧ x.flags = p.flags
    ∧ x.readings.length = 8
    ∧ ∀ q, 1 ≤ q → q ≤ 8 →
        ((∀ c ∈ a.contributing, q ∉ c.quantities) → x.readings[q - 1]? = some .unmapped)
        ∧ ∀ c, a.contributing.find? (fun c => c.quantities.contains q) = some c →
          ∀ e, p.entries.find? (fun e => decide (e.stream = c.stream)) = some e →
            match e.state with
            | .waiting _ | .missing => x.readings[q - 1]? = some .missing
            | .filled values => ∀ v, Table.read values q = some v → x.readings[q - 1]? = some (.valid v)

/-- A centre is emitted (R124, R138): the cursor moves past it, and its record is handed to the exceedance unit. Of a centre with no sample
there is no record, which no run reaches (log 25). -/
def CentreEmitted (c : Int) (s t : State) : Prop :=
  ∃ u, u = { s with geometry := { s.geometry with cursor := some (c + 1) } }
    ∧ (∀ y, PointOf s.geometry c y → t = u.classifyRecord (s.geometry.record y))
    ∧ ((¬∃ y, PointOf s.geometry c y) → t = u)

/-- These centres are emitted one after the other. -/
def CentresEmitted : List Int → State → State → Prop
  | [], s, t => t = s
  | c :: rest, s, t => ∃ m, CentreEmitted c s m ∧ CentresEmitted rest m t

/-- A sample is placed in the history ring; then the centre half a chord behind it is emitted, if it is not below the first point of the run
(R121, R124). -/
def SamplePlaced (x : Sample) (s t : State) : Prop :=
  ∃ u, u =
      { s with
        geometry := { s.geometry with ring := Table.write s.geometry.ring (x.index % 256).toNat x, newest := some x.index } }
    ∧ ((∀ first, s.geometry.firstPoint = some first → x.index - s.geometry.chord < first) → t = u)
    ∧ ∀ first, s.geometry.firstPoint = some first → first ≤ x.index - s.geometry.chord →
        CentreEmitted (x.index - s.geometry.chord) u t

/-- These points close one after the other (R110): each, the head in its turn, waits on no stream, leaves the queue, is counted, and is
handed to the geometry unit as a sample. -/
def PointsClose : List PendingPoint → State → State → Prop
  | [], s, t => t = s
  | p :: rest, s, t =>
    ∃ behind x m, s.assembler.queue = p :: behind ∧ (∀ j, ¬p.WaitsOn j) ∧ SampleOf s.assembler p x
      ∧ SamplePlaced x { s with assembler := { s.assembler with queue := behind, closed := s.assembler.closed + 1 } } m
      ∧ PointsClose rest m t

/-- A closing (R110): the points of the queue up to the first that waits close. -/
def Closing (s t : State) : Prop :=
  ∃ closed behind, s.assembler.queue = closed ++ behind ∧ HeadWaits behind none ∧ PointsClose closed s t

/-- The end-of-points notice (R125, R157): the tail is emitted, the centres from the cursor up to the newest closed point in increasing
order, and then every open run closes with cause RUN_END. -/
def RecordsEnd (s t : State) : Prop :=
  ∃ centres m, CentresEmitted centres s m ∧ RunsClose .runEnd [0, 1, 2, 3, 4, 5, 6, 7] m t
    ∧ (s.geometry.cursor = none ∨ s.geometry.newest = none → centres = [])
    ∧ ∀ c last, s.geometry.cursor = some c → s.geometry.newest = some last →
        centres = (List.range (last + 1 - c).toNat).map (fun (n : Nat) => c + n)

/-- The drain completes where the closing has left the queue empty in DRAINING (R52, R114): the end-of-points notice, then STOPPED with
every timer stopped. -/
def DrainEnds (s t : State) : Prop :=
  (¬(s.control.runState = .draining ∧ s.assembler.queue = []) → t = s)
    ∧ (s.control.runState = .draining → s.assembler.queue = [] →
      ∃ m tap, RecordsEnd s m ∧ (∀ i, tap.stream i = { m.tap.stream i with timer := none })
        ∧ tap.framesLost = m.tap.framesLost
        ∧ t = { m with control := { m.control with runState := .stopped }, tap := tap }.raise .runState)

/-! ### Firing -/

/-- A pulse pattern names an action line: bit i of group g names line 4g + i (R163). -/
def Names (group : Fin 2) (pattern : BitVec 4) (line : Fin 8) : Prop :=
  line.val / 4 = group.val ∧ pattern.getLsbD (line.val % 4) = true

/-- The lowest-numbered free slot of the pulse table (R171). -/
def LowestFreeSlot (a : ActionUnit) (slot : Nat) : Prop :=
  slot < 32 ∧ Table.read a.pulses slot = none ∧ ∀ k, k < slot → Table.read a.pulses k ≠ none

/-- Every slot of the pulse table is occupied. -/
def TableFull (a : ActionUnit) : Prop := ∀ slot, slot < 32 → Table.read a.pulses slot ≠ none

/-- A pulse takes the lowest free slot: the hold count of each line it names rises by 1, and actions fired rises by 1 (R163, R171). -/
def PulseTaken (a a' : ActionUnit) (p : Pulse) : Prop :=
  ∃ slot, LowestFreeSlot a slot
    ∧ a' = { a with pulses := Table.write a.pulses slot p, holds := a'.holds, fired := a.fired + 1 }
    ∧ a'.holds.length = a.holds.length
    ∧ ∀ line : Fin 8,
        (Names p.group p.pattern line → a'.holds.getD line.val 0 = a.holds.getD line.val 0 + 1)
          ∧ (¬Names p.group p.pattern line → a'.holds.getD line.val 0 = a.holds.getD line.val 0)

/-- The action log record of an event at the present D and time (R176). -/
def logWords (s : State) (id : BitVec 16) (origin : Origin) (trigger : Int) (outcome : ActionOutcome) : List Word64 :=
  actionLogWords
    { id := id, origin := origin, trigger := trigger, dmm := s.odometer.d / 256, time := s.time, outcome := outcome }

/-- An action is missed (R171, R173): counted, ACTION_MISSED raised, logged MISSED. -/
def MissedAction (s t : State) (id : BitVec 16) (origin : Origin) (trigger : Int) : Prop :=
  t =
    ({ s with action := { s.action with missed := s.action.missed + 1 } }.raise .actionMissed).produce .action
      (logWords s id origin trigger .missed)

/-- The head of the action queue leaves it and fires, or is missed at a full table (R171). -/
def HeadFires (s t : State) (e : ActionEntry) : Prop :=
  ∃ rest u, s.action.queue = e :: rest ∧ u = { s with action := { s.action with queue := rest } }
    ∧ ((∃ a, PulseTaken u.action a ⟨e.group, e.pattern, s.time + BitVec.ofNat 48 s.action.pulseLength⟩
        ∧ t = { u with action := a }.produce .action (logWords s e.id e.origin e.trigger .fired))
      ∨ (TableFull s.action ∧ MissedAction u t e.id e.origin e.trigger))

/-- These entries fire one after the other, each the head of the queue in its turn (R170). -/
def HeadsFire : List ActionEntry → State → State → Prop
  | [], s, t => t = s
  | e :: rest, s, t => ∃ m, HeadFires s m e ∧ HeadsFire rest m t

/-- The periodic trigger of a group at a rise (R173). Off, or with its next position above the high-water distance, it does nothing. Due,
it fires without a log record, or is missed at a full table; its next position advances to the smallest multiple of its period above
the high-water distance. An armed trigger has a period, so of a period of 0 nothing is said. -/
def PeriodicActs (s t : State) (g : Fin 2) : Prop :=
  ((∀ pos, (s.action.periodic g).next = some pos → s.odometer.highWater < pos) → t = s)
    ∧ ∀ pos, (s.action.periodic g).next = some pos → pos ≤ s.odometer.highWater → (s.action.periodic g).period ≠ 0 →
      ∃ next u, next % ((s.action.periodic g).period : Int) = 0 ∧ s.odometer.highWater < next
        ∧ next - ((s.action.periodic g).period : Int) ≤ s.odometer.highWater
        ∧ u = { s with action := s.action.setPeriodic g { s.action.periodic g with next := some next } }
        ∧ ((∃ a,
            PulseTaken u.action a
              ⟨g, (s.action.periodic g).pattern, s.time + BitVec.ofNat 48 (s.action.periodic g).pulseLength⟩
            ∧ t = { u with action := a })
          ∨ (TableFull s.action ∧ MissedAction u t (BitVec.ofNat 16 g.val) .periodic pos))

/-- A rise of the high-water distance in the action unit (R170): the due entries at the head of the queue fire in turn, then in RUNNING the
periodic triggers act, group 0 first. -/
def RiseActs (s t : State) : Prop :=
  ∃ due rest v, s.action.queue = due ++ rest ∧ (∀ e ∈ due, e.trigger ≤ s.odometer.highWater)
    ∧ (∀ e, rest.head? = some e → s.odometer.highWater < e.trigger) ∧ HeadsFire due s v
    ∧ (s.control.runState = .running → ∃ w, PeriodicActs v w 0 ∧ PeriodicActs w t 1)
    ∧ (s.control.runState ≠ .running → t = v)

/-- The reversal mark after a lead count that begins no excursion (R69): clear where the count ends one, as it was otherwise. -/
def MarkAfter (s : State) (d : Int) (mark : Bool) : Prop :=
  (EndsReversal s d → mark = false) ∧ (¬EndsReversal s d → mark = s.odometer.reversal)

end Sys2Proof.Machine
end

