-- ==== Sys2Proof/Certificates/Slice0/Obligations.lean ====
section
/-! DEFINITION. The statements for the provers. Each says in Lean what a rule of the spec, or several read together, says the part
does; a statement that an event answers a next state names all that the event changes. -/

section

open Sys2Proof Sys2Proof.Machine

/-! ### The queue of commands and the reset state -/

/-- A step takes the command at the front of the queue and runs it on the state with the queue's rest. An empty queue idles, which is
the model's choice (log 4). -/
def Obligations.StepRunsFrontCommand : Prop :=
  (∀ (c : Instr) (rest : List Instr) (s : State), s.pending = c :: rest → step s = exec c { s with pending := rest })
    ∧ ∀ s : State, s.pending = [] → step s = .next s

/-- The part after reset holds the values that the reset columns of R24, R25, R57, R79, R99, R119, R141, R162 and R181 give, block by
block. The accepted levels of the line filters, which R57 takes from the first sample, are left out (log 7). That a table with nothing
in it is the empty list is the model's representation (log 27). -/
def Obligations.ResetValues : Prop :=
  State.reset.time = 0
    ∧ State.reset.transit =
        { State.reset.transit with
          base := none, areas := [], inflight := [], stage := [], holds := [], partialBurst := none, drainThreshold := 8
          statusRecords := [], memoryPort := none }
    ∧ (∀ n, Table.read State.reset.transit.areas n = none) ∧ (∀ tag, State.reset.transit.entry tag = none)
    ∧ State.reset.control =
        { runState := .unanchored, shadow := [], mask := 0, events := [], lastCommand := ⟨0, .none, 0⟩
          lastRefusal := ⟨0, .none⟩, statusSeq := 0, int := false }
    ∧ (∀ f : EventFlag, State.reset.flagSet f = false) ∧ (∀ off, Shadow.read State.reset.control.shadow off = 0)
    ∧ State.reset.odometer =
        { filters := State.reset.odometer.filters, filterDepth := 4
          chanA := { countLength := 256, invert := false, errors := 0, travel := 0, net := 0 }
          chanB := { countLength := 256, invert := false, errors := 0, travel := 0, net := 0 }
          lead := .a, swapLock := false, stallTravel := 0, stallReported := false, d := 0, highWater := 0
          nextPoint := none, highWaterPoint := none, prevMismatch := false, reversal := false, q := 0, dir := .plus
          chainageStep := false, latches := [], lastMarker := { id := 0, error := 0, outcome := .none }
          mismatchTolerance := 0, stallDistance := 0, acceptWindow := 0, orphanDistance := 0, spacing := 0 }
    ∧ State.reset.odometer.filters.ta0.count = 0 ∧ State.reset.odometer.filters.ta1.count = 0
    ∧ State.reset.odometer.filters.tb0.count = 0 ∧ State.reset.odometer.filters.tb1.count = 0
    ∧ State.reset.odometer.filters.mark.count = 0
    ∧ (∀ i : Fin 4, State.reset.tap.stream i =
        { state := .idle, slotCount := 0, latency := 0, silenceLimit := 0, slotMap := List.replicate 14 0, expectedSlot := 0
          buffer := List.replicate 8 none, lastSequence := none, lastFrame := none, timer := none, errors := 0 })
    ∧ State.reset.tap.framesLost = 0
    ∧ State.reset.assembler =
        { queue := [], closeLimit := 0, contributing := [], opened := 0, closed := 0, forced := 0, gapped := 0
          discarded := 0 }
    ∧ State.reset.geometry =
        { spacing := 0, chord := 0, twist := 0, beamGauge := 0, nominalGauge := 0, railBase := 0, uncompensated := false
          ring := [], firstPoint := none, newest := none, cursor := none }
    ∧ (∀ k, State.reset.geometry.pointAt k = none)
    ∧ State.reset.exceedance =
        { profiles := State.reset.exceedance.profiles, active := 0, overrideOn := false, cursor := 0, spacing := 0
          trackers := List.replicate 8 .clear, emitted := 0, short := 0 }
    ∧ (∀ (p : BitVec 3) (ch : Nat), State.reset.exceedance.entry p ch =
        { alert := 0, limit := 0, minLength := 0, mark := false })
    ∧ State.reset.action =
        { rest0 := 0, rest1 := 0, pulseLength := 0, markGroup := 0, markPattern := 0, markOffset := 0
          periodic0 := { period := 0, pattern := 0, pulseLength := 0, next := none }
          periodic1 := { period := 0, pattern := 0, pulseLength := 0, next := none }
          queue := [], pulses := [], holds := List.replicate 8 0, idCounter := 0, fired := 0, missed := 0, cancelled := 0 }
    ∧ (∀ line : Fin 8, State.reset.lineLevel line = false)
    ∧ (∀ r : Ring, State.reset.writeBack.ring r =
        { capacity := 0, writeIndex := 0, consumed := 0, lost := 0, last := .none, previous := .none })
    ∧ State.reset.writeBack.queue = [] ∧ State.reset.writeBack.slot = .empty

/-- The reset state is sound in every way that the statements of this file call an invariant. -/
def Obligations.ResetIsSound : Prop :=
  IntAgrees State.reset ∧ RingsSound State.reset ∧ ActionQueueSound State.reset ∧ QueuesSound State.reset
    ∧ HoldsSound State.reset ∧ RunsSound State.reset ∧ CursorSound State.reset ∧ AnchorSound State.reset
    ∧ WaitsSound State.reset ∧ TagsSound State.reset ∧ TablesSound State.reset

/-! ### Invariants that every step keeps -/

/-- Every step keeps INT high exactly while the live event set and the mask share a flag. -/
def Obligations.IntFollowsFlags : Prop := ∀ s t : State, IntAgrees s → step s = .next t → IntAgrees t

/-- Every step keeps the action queue at 32 entries or fewer, in non-decreasing trigger distance, and every step keeps each line's hold
count equal to the number of occupied slots that name the line. -/
def Obligations.ActionQueueAndHoldsStaySound : Prop :=
  ∀ s t : State, step s = .next t → (ActionQueueSound s → ActionQueueSound t) ∧ (HoldsSound s → HoldsSound t)

/-- Every step keeps the bounds of the queues and the place of the status write. -/
def Obligations.QueuesStayBounded : Prop := ∀ s t : State, QueuesSound s → step s = .next t → QueuesSound t

/-- Every step keeps each ring's held records within its capacity; and every step keeps each open run at 1 to 4096 records and the route
cursor within 0 to 64. -/
def Obligations.RingsRunsAndCursorStayBounded : Prop :=
  ∀ s t : State, step s = .next t →
    (RingsSound s → RingsSound t) ∧ (RunsSound s → CursorSound s → RunsSound t ∧ CursorSound t)

/-- Every step keeps the part anchored exactly when it has a control window, with area A0 that window. -/
def Obligations.AnchorStaysSound : Prop := ∀ s t : State, AnchorSound s → step s = .next t → AnchorSound t

/-- Every step keeps each held request waiting on something, and on queued inserted writes only; and every step keeps the tags of staged
and held requests different and their in-flight entries STAGED and HELD. -/
def Obligations.TransitStaysSound : Prop :=
  ∀ s t : State, step s = .next t → (WaitsSound s → WaitsSound t) ∧ (TagsSound s → TagsSound t)

/-- Every step keeps six sparse tables in the canonical form of the model's representation (log 27): the setup shadow, the live event
set, the area map, the in-flight table, the history ring and the pulse table. It keeps every listed flag among the 24. -/
def Obligations.TablesStayCanonical : Prop := ∀ s t : State, TablesSound s → step s = .next t → TablesSound t

/-! ### Taking requests -/

/-- What waits changes nothing else. A whole request, first at the system port, waits there untaken while PRST is low, the forwarding stage
is not empty, the hold list is full or the tag is ABSORBING; the port remembers it, which is the model's form of R23 (log 26). A request
behind one that waits, one that is not whole, and any request while RESET is low, change nothing. A head that does not win the port is
not presented, and a control write that does not win is not offered: such a command changes nothing, which is the model's choice
(log 5). -/
def Obligations.WaitingChangesNothing : Prop :=
  (∀ (req : RequestFields) (last : Option Beat) (s : State),
    (s.resetLow = true ∨ ¬FirstAtPort s.transit req last ∨ (∀ data, ¬WholeRequest s.transit req last data) →
      exec (.requestTaken req last) s = .next s)
    ∧ ∀ data, WholeRequest s.transit req last data → s.resetLow = false → FirstAtPort s.transit req last →
      PortBlocked s req.tag →
      exec (.requestTaken req last) s =
        .next { s with transit := { s.transit with waiting := some { fields := req, lastBeat := last } } })
    ∧ ∀ s : State,
      (¬SystemWins s → exec .systemHeadPresented s = .next s ∧ exec .controlWrite s = .next s)
        ∧ (¬WriteBackWins s → exec .writebackHeadPresented s = .next s)

/-- A taken request that fails a bus check is answered ERROR with its own tag and no data; while the part is anchored REQUEST_REFUSED is
raised; its tag's entry keeps its state. A WRITE that passes the checks and lies in A5, A6 or A7 is answered ERROR and raises STRAY_WRITE;
it is not forwarded. Nothing else changes. -/
def Obligations.RequestRefusedAtOnce : Prop :=
  ∀ (req : RequestFields) (last : Option Beat) (data : List Beat) (s : State),
    Settled s → PortOpen s req last → WholeRequest s.transit req last data →
    (¬PassesBus s.transit req →
      ∃ t, exec (.requestTaken req last) s = .next t ∧ AnsweredError s t req.tag
        ∧ (s.control.runState = .unanchored → t.control = s.control ∧ t.writeBack = s.writeBack)
        ∧ (s.control.runState ≠ .unanchored → ControlEventsOnly s t ∧ Publishes s t [.requestRefused]))
    ∧ ∀ n off, s.control.runState ≠ .unanchored → PassesBus s.transit req → req.kind = .write →
      LiesIn s.transit req.addr.toNat req.beats n off → 5 ≤ n →
      ∃ t, exec (.requestTaken req last) s = .next t ∧ AnsweredError s t req.tag ∧ ControlEventsOnly s t
        ∧ Publishes s t [.strayWrite]

/-- A request that passes the bus checks, is no stray write, and overlaps no queued inserted write (if a READ) and no held request is
staged with its arrival time and classification. -/
def Obligations.RequestStaged : Prop :=
  ∀ (req : RequestFields) (last : Option Beat) (data : List Beat) (hit : Option AreaHit) (s : State),
    Settled s → PortOpen s req last → WholeRequest s.transit req last data → PassesBus s.transit req →
    (match hit with
      | none => LiesNowhere s.transit req.addr.toNat req.beats
      | some h => LiesIn s.transit req.addr.toNat req.beats h.area h.offset ∧ (req.kind = .write → h.area < 5)) →
    (req.kind = .read → ∀ w, ¬OverlapsQueued s req.addr.toNat req.beats w) →
    (∀ tag, ¬OverlapsHeld s req.addr.toNat req.beats tag) →
    ∃ t, exec (.requestTaken req last) s = .next t
      ∧ t = { s with transit := t.transit } ∧ TransitTakes s t req.tag ∧ t.transit.holds = s.transit.holds
      ∧ t.transit.stage =
          [{ kind := req.kind, addr := req.addr, beats := req.beats, tag := req.tag, data := data, arrival := s.time
             hit := hit, order := s.transit.takenCount }]
      ∧ t.transit.entry req.tag.toNat =
          some { phase := .staged, kind := req.kind, addr := req.addr, beats := req.beats, capture := none, carried := none }

/-- A READ that overlaps a queued inserted write, or a request that overlaps a held request, joins the tail of the hold list with
exactly what it overlaps. -/
def Obligations.RequestHeld : Prop :=
  ∀ (req : RequestFields) (last : Option Beat) (data : List Beat) (hit : Option AreaHit) (s : State),
    Settled s → PortOpen s req last → WholeRequest s.transit req last data → PassesBus s.transit req →
    (match hit with
      | none => LiesNowhere s.transit req.addr.toNat req.beats
      | some h => LiesIn s.transit req.addr.toNat req.beats h.area h.offset ∧ (req.kind = .write → h.area < 5)) →
    ((req.kind = .read ∧ ∃ w, OverlapsQueued s req.addr.toNat req.beats w)
      ∨ ∃ tag, OverlapsHeld s req.addr.toNat req.beats tag) →
    ∃ t h, exec (.requestTaken req last) s = .next t
      ∧ t = { s with transit := t.transit } ∧ TransitTakes s t req.tag ∧ t.transit.stage = s.transit.stage
      ∧ t.transit.holds = s.transit.holds ++ [h]
      ∧ h.request =
          { kind := req.kind, addr := req.addr, beats := req.beats, tag := req.tag, data := data, arrival := s.time
            hit := hit, order := s.transit.takenCount }
      ∧ (∀ w, w ∈ h.waitsWrites ↔ req.kind = .read ∧ OverlapsQueued s req.addr.toNat req.beats w)
      ∧ (∀ tag, tag ∈ h.waitsHeld ↔ OverlapsHeld s req.addr.toNat req.beats tag)
      ∧ t.transit.entry req.tag.toNat =
          some { phase := .held, kind := req.kind, addr := req.addr, beats := req.beats, capture := none, carried := none }

/-- A beat of a WRITE before its last, while RESET and PRST are high and no request waits untaken: the first opens the burst in progress, a
later one joins it. A beat of another request, or one past the burst's length, changes nothing (the model's choice, log 10), nor does a
beat behind a request that waits (log 26). -/
def Obligations.DataBeatReceived : Prop :=
  ∀ (req : RequestFields) (b : Beat) (s : State),
    s.resetLow = false → s.prstLow = false → req.kind = .write → 2 ≤ req.beats →
    (s.transit.waiting ≠ none → exec (.dataBeatReceived req b) s = .next s)
    ∧ (s.transit.waiting = none → s.transit.partialBurst = none →
      exec (.dataBeatReceived req b) s =
        .next { s with transit := { s.transit with partialBurst := some { fields := req, received := [b] } } })
    ∧ ∀ p, s.transit.waiting = none → s.transit.partialBurst = some p →
      exec (.dataBeatReceived req b) s =
        .next
          (if p.fields = req ∧ p.received.length + 1 < req.beats then
            { s with transit := { s.transit with partialBurst := some { fields := req, received := p.received ++ [b] } } }
          else s)

/-! ### The arbiter and presentation -/

/-- A READ that has the port is presented; when its range covers the 8 bytes of the event word in A0, its entry captures the event word
and the sequence of the last presented status write. That the port is left showing the request is the model's choice (log 8). -/
def Obligations.ReadPresented : Prop :=
  ∀ (r : Request) (rest : List Request) (s : State),
    Settled s → s.transit.stage = r :: rest → SystemWins s → r.kind = .read →
    ∃ t, exec .systemHeadPresented s = .next t ∧ t = { s with transit := t.transit }
      ∧ HeadOnPort s t r rest (CaptureTaken s r)

/-- A WRITE in no area that has the port is forwarded untouched and changes no block, unless it anchors the part. -/
def Obligations.PlainWriteForwarded : Prop :=
  ∀ (r : Request) (rest : List Request) (s : State),
    Settled s → s.transit.stage = r :: rest → SystemWins s → r.kind = .write → r.hit = none →
    (s.transit.base = none → ∀ base, ¬AnchorWrite r base) →
    ∃ t, exec .systemHeadPresented s = .next t ∧ t = { s with transit := t.transit } ∧ HeadOnPort s t r rest none

/-- An anchor observation with a valid base, forwarded while the part is unanchored, anchors the part: the base and area A0 are set, the
control block enters IDLE with an empty event set and zero shadows, and a status write is pending. -/
def Obligations.AnchorWriteAnchors : Prop :=
  ∀ (r : Request) (rest : List Request) (base : Addr) (s : State),
    s.transit.stage = r :: rest → SystemWins s → r.kind = .write → r.hit = none → s.transit.base = none →
    AnchorWrite r base →
    ∃ t, exec .systemHeadPresented s = .next t
      ∧ t = { s with transit := t.transit, control := t.control, writeBack := t.writeBack }
      ∧ t.transit.base = some base ∧ Table.read t.transit.areas 0 = some { base := base, pages := 4 }
      ∧ (∀ n, n ≠ 0 → Table.read t.transit.areas n = Table.read s.transit.areas n)
      ∧ HeadOnPort { s with transit := { s.transit with base := t.transit.base, areas := t.transit.areas } } t r rest none
      ∧ t.control = { Control.reset with runState := .idle }
      ∧ WriteBackSlotOnly s t ∧ t.writeBack.slot = s.writeBack.slot.afterMark s.writeBack.queue.length

/-- A capture write is forwarded, and its beats are tapped one at a time in ascending address order: the first at its offset, the next 8
bytes on, and so on. Whole beats in the expected slot that leave the frame incomplete are stored and marked present. Fewer than 8 whole
beats in another slot discard what the buffer held, raise and count FRAME_ERROR, and start assembly at that slot. Beats with a clear
strobe, or of an IDLE stream, have no effect. Nothing else changes. -/
def Obligations.CaptureBeatTapped : Prop :=
  ∀ (r : Request) (rest : List Request) (i : Fin 4) (off : Nat) (beats : List Beat) (c : StreamContext) (s : State),
    CaptureHead s r rest i off beats → s.tap.stream i = c →
    (∃ u v, HeadOnPort s u r rest none ∧ u = { s with transit := u.transit } ∧ BeatsTapped i r.arrival off beats u v
      ∧ exec .systemHeadPresented s = .next v.settle)
    ∧ ((∀ b ∈ beats, b.strobes ≠ BitVec.allOnes 8) ∨ c.state = .idle →
      ∃ t, exec .systemHeadPresented s = .next t ∧ HeadOnPort s t r rest none ∧ t = { s with transit := t.transit })
    ∧ (WholeInSlot off beats → c.state ≠ .idle → off / 64 = c.expectedSlot →
      (∃ k, (k < off % 64 / 8 ∨ off % 64 / 8 + beats.length ≤ k) ∧ c.buffer[k]? = some none) →
      ∃ t, exec .systemHeadPresented s = .next t ∧ HeadOnPort s t r rest none
        ∧ t =
            { s with
              transit := t.transit
              tap := s.tap.setStream i { c with buffer := withBeats c.buffer (off % 64 / 8) beats } })
    ∧ (WholeInSlot off beats → c.state ≠ .idle → off / 64 ≠ c.expectedSlot → beats.length < 8 →
      ∃ t, exec .systemHeadPresented s = .next t ∧ HeadOnPort s t r rest none
        ∧ t =
            { s with
              transit := t.transit, control := t.control, writeBack := t.writeBack
              tap := s.tap.setStream i
                { c with
                  buffer := withBeats emptyBuffer (off % 64 / 8) beats, expectedSlot := off / 64
                  errors := satAdd c.errors 1 } }
        ∧ WriteBackSlotOnly s t ∧ ControlEventsOnly s t ∧ Publishes s t [.frameError])

/-- A frame that a capture write of one or more beats completes, with a bad kind, or a SENSOR frame with a used slot count above 14, is
discarded: it leaves the buffer, FRAME_ERROR is raised and counted, and the last sequence, the last frame, the stream state and the timer
are as they were. -/
def Obligations.BadFrameDiscarded : Prop :=
  ∀ (r : Request) (rest : List Request) (i : Fin 4) (off : Nat) (beats : List Beat) (c : StreamContext) (words : List Word64)
    (s : State),
    CaptureHead s r rest i off beats → s.tap.stream i = c → FrameComplete c off beats words →
    (kindByte words ≠ 0x01 ∧ kindByte words ≠ 0x02)
        ∨ (kindByte words = 0x01 ∧ 14 < ((words.getD 0 0).extractLsb' 32 8).toNat) →
    ∃ t, exec .systemHeadPresented s = .next t ∧ HeadOnPort s t r rest none
      ∧ t =
          { s with
            transit := t.transit, control := t.control, writeBack := t.writeBack
            tap := s.tap.setStream i { c.emptied with errors := satAdd c.errors 1 } }
      ∧ WriteBackSlotOnly s t ∧ ControlEventsOnly s t ∧ Publishes s t [.frameError]

/-- A SENSOR frame with a good header. The sequence check comes first: a gap raises FRAME_LOSS and adds the missing frames to the frames lost
counter, and the frame's sequence becomes the last sequence. A frame out of order or too short is then discarded with FRAME_ERROR,
counted. A frame that passes is taken: it becomes the last frame, with its time (arrival minus latency), health and mapped values; the
stream becomes LIVE, with STREAM_BACK when it was STALE; in RUNNING and DRAINING its silence timer restarts from the arrival. Where it is
handed on, in RUNNING and DRAINING from a contributing stream, every pending point takes it; the points up to the first that waits close,
each placed in the history ring and the centre half a chord behind it emitted before the next closes; and a drain whose last point has
closed emits the tail, ends the records and stops the timers. Only then is it the last frame. Where no point closes, nothing else
changes. -/
def Obligations.SensorFrameKept : Prop :=
  ∀ (r : Request) (rest : List Request) (i : Fin 4) (off : Nat) (beats : List Beat) (c : StreamContext) (words : List Word64)
    (seq : BitVec 16) (lost : BitVec 32) (loss back : List EventFlag) (f : Frame) (s : State),
    CaptureHead s r rest i off beats → s.tap.stream i = c → FrameComplete c off beats words →
    kindByte words = 0x01 → ((words.getD 0 0).extractLsb' 32 8).toNat ≤ 14 → seq = (words.getD 0 0).extractLsb' 16 16 →
    SequenceChecked s c seq lost loss →
    f.time = r.arrival - BitVec.ofNat 48 c.latency → f.healthy = decide ((words.getD 0 0).extractLsb' 8 8 = 0) →
    f.values = frameValues c.slotMap words →
    ((c.state = .stale ∧ back = [.streamBack]) ∨ (c.state ≠ .stale ∧ back = [])) →
    (¬FrameInOrder c f.time ∨ ((words.getD 0 0).extractLsb' 32 8).toNat < slotsNeeded c.slotMap →
      ∃ t, exec .systemHeadPresented s = .next t ∧ HeadOnPort s t r rest none
        ∧ t =
            { s with
              transit := t.transit, control := t.control, writeBack := t.writeBack
              tap :=
                { s.tap.setStream i { c.emptied with lastSequence := some seq, errors := satAdd c.errors 1 } with
                  framesLost := lost } }
        ∧ Flagged s t (loss ++ [.frameError]))
    ∧ (FrameInOrder c f.time → slotsNeeded c.slotMap ≤ ((words.getD 0 0).extractLsb' 32 8).toNat →
      (¬(s.control.runState.Measures ∧ ∃ x ∈ s.assembler.contributing, x.stream = i) →
        ∃ t timer, exec .systemHeadPresented s = .next t ∧ HeadOnPort s t r rest none
          ∧ TimerAfter s.control.runState c r.arrival timer
          ∧ t =
              { s with
                transit := t.transit, control := t.control, writeBack := t.writeBack
                tap :=
                  { s.tap.setStream i
                      { c.emptied with lastSequence := some seq, lastFrame := some f, state := .live, timer := timer } with
                    framesLost := lost } }
          ∧ Flagged s t (loss ++ back))
      ∧ (s.control.runState.Measures → (∃ x ∈ s.assembler.contributing, x.stream = i) →
        ∃ p u v w timer, HeadOnPort s p r rest none
          ∧ u =
              { s with
                transit := p.transit
                tap := { s.tap.setStream i { c.emptied with lastSequence := some seq } with framesLost := lost }
                assembler := { s.assembler with queue := s.assembler.queue.map (PendingPoint.took i f) } }.raises loss
          ∧ Closing u v ∧ DrainEnds v w ∧ TimerAfter w.control.runState (w.tap.stream i) r.arrival timer
          ∧ exec .systemHeadPresented s =
              .next
                ({ w with
                    tap :=
                      w.tap.setStream i
                        { w.tap.stream i with lastFrame := some f, state := .live, timer := timer } }.raises back).settle)
      ∧ (s.control.runState.Measures → (∃ x ∈ s.assembler.contributing, x.stream = i) →
        s.control.runState = .running ∨ s.assembler.queue ≠ [] →
        ∃ t timer, exec .systemHeadPresented s = .next t ∧ HeadOnPort s t r rest none
          ∧ t.odometer = s.odometer ∧ t.tap.framesLost = lost
          ∧ ClosingOf (s.assembler.queue.map (PendingPoint.took i f)) s.assembler t.assembler
          ∧ t.tap.stream i =
              { c.emptied with lastSequence := some seq, lastFrame := some f, state := .live, timer := timer }
          ∧ (t.control.runState = s.control.runState → TimerAfter s.control.runState c r.arrival timer)
          ∧ (t.control.runState ≠ s.control.runState →
              s.control.runState = .draining ∧ t.assembler.queue = [] ∧ t.control.runState = .stopped ∧ timer = none)
          ∧ (∀ x ∈ loss ++ back, t.flagSet x = true)
          ∧ (HeadWaits (s.assembler.queue.map (PendingPoint.took i f)) none →
            t =
                { s with
                  transit := t.transit, control := t.control, writeBack := t.writeBack
                  tap :=
                    { s.tap.setStream i
                        { c.emptied with lastSequence := some seq, lastFrame := some f, state := .live, timer := timer } with
                      framesLost := lost }
                  assembler := { s.assembler with queue := s.assembler.queue.map (PendingPoint.took i f) } }
              ∧ Flagged s t (loss ++ back))))

/-- A MARKER frame in sequence, taken while passages are latched, pairs with the oldest latch: the latch leaves; within the accept window
Q moves by the error and MARKER_TAKEN is raised, outside it Q is unchanged and MARKER_REJECT is raised; with no latch the frame is
rejected with error 0. The last marker record takes the frame's id, the error and the outcome. That an error outside signed 64 bits is
kept exactly is the model's choice (log 28), as is an exact chainage outside signed 64 bits (log 30). -/
def Obligations.MarkerFramePaired : Prop :=
  ∀ (r : Request) (rest : List Request) (i : Fin 4) (off : Nat) (beats : List Beat) (c : StreamContext) (words : List Word64)
    (s : State),
    CaptureHead s r rest i off beats → s.tap.stream i = c → FrameComplete c off beats words → s.control.runState ≠ .idle →
    kindByte words = 0x02 →
    (∀ last, c.lastSequence = some last → (words.getD 0 0).extractLsb' 16 16 = last + 1) →
    ∃ t, exec .systemHeadPresented s = .next t ∧ HeadOnPort s t r rest none
      ∧ t =
          { s with
            transit := t.transit, control := t.control, writeBack := t.writeBack, odometer := t.odometer
            tap := s.tap.setStream i { c.emptied with lastSequence := some ((words.getD 0 0).extractLsb' 16 16) } }
      ∧ WriteBackSlotOnly s t ∧ ControlEventsOnly s t
      ∧ (s.odometer.latches = [] →
          t.odometer =
              { s.odometer with
                lastMarker := { id := (words.getD 1 0).extractLsb' 0 32, error := 0, outcome := .rejected } }
            ∧ Publishes s t [.markerReject])
      ∧ ∀ l latches e, s.odometer.latches = l :: latches →
          e = (words.getD 2 0).toInt - (s.odometer.q + s.odometer.dir.sign * (l.d / 256)) →
          ((e.natAbs ≤ s.odometer.acceptWindow →
            t.odometer =
                { s.odometer with
                  latches := latches, q := s.odometer.q + e
                  chainageStep := s.odometer.chainageStep || decide (e ≠ 0)
                  lastMarker := { id := (words.getD 1 0).extractLsb' 0 32, error := e, outcome := .taken } }
              ∧ Publishes s t [.markerTaken])
          ∧ (s.odometer.acceptWindow < e.natAbs →
            t.odometer =
                { s.odometer with
                  latches := latches
                  lastMarker := { id := (words.getD 1 0).extractLsb' 0 32, error := e, outcome := .rejected } }
              ∧ Publishes s t [.markerReject]))

/-- A control write that has the port and fails a check is answered ERROR and not presented; its entry becomes FREE, the last-refusal
record takes its lowest failing word and that word's reason, CONTROL_REFUSED is raised, and nothing else changes. Where a word fails a
word check and no word before it fails a word check or the route check, the record holds that word and its reason. -/
def Obligations.ControlWriteRefused : Prop :=
  ∀ (r : Request) (rest : List Request) (off : Nat) (reason : LastRefusal) (s : State),
    s.control.runState ≠ .unanchored → s.transit.stage = r :: rest → SystemWins s → r.kind = .write →
    r.hit = some { area := 0, offset := off } → s.refusalOf (burstWords off r.data) = some reason →
    ∃ t, exec .controlWrite s = .next t ∧ exec .systemHeadPresented s = .next t
      ∧ t = { s with transit := t.transit, control := t.control, writeBack := t.writeBack }
      ∧ t.transit =
          { s.transit with
            stage := rest, inflight := t.transit.inflight
            responses := s.transit.responses ++ [{ tag := r.tag, status := .error, data := [] }] }
      ∧ t.transit.entry r.tag.toNat = none ∧ (∀ k, k ≠ r.tag.toNat → t.transit.entry k = s.transit.entry k)
      ∧ t.control =
          { s.control with events := t.control.events, int := t.control.int, lastRefusal := reason }
      ∧ WriteBackSlotOnly s t ∧ Publishes s t [.controlRefused]
      ∧ ∀ before w behind why, burstWords off r.data = before ++ w :: behind → s.wordReason w = some why →
          (∀ x ∈ before, s.wordReason x = none
            ∧ ¬(InRun s ∧ regionOf x.off = .route
              ∧ RouteBroken s (routeList (candidateShadow s.control.shadow (burstWords off r.data))) ((x.off - 0x0C00) / 16))) →
          reason = { offset := BitVec.ofNat 16 w.off, reason := why }

/-- A control write of setup or route words that passes every check is presented, and each word is stored in the setup shadow at its
offset; nothing else changes. -/
def Obligations.SetupWriteTaken : Prop :=
  ∀ (r : Request) (rest : List Request) (off : Nat) (s : State),
    Settled s → s.transit.stage = r :: rest → SystemWins s → r.kind = .write →
    r.hit = some { area := 0, offset := off } → s.refusalOf (burstWords off r.data) = none →
    (∀ w ∈ burstWords off r.data, regionOf w.off = .setup ∨ regionOf w.off = .route) →
    ∃ t, exec .controlWrite s = .next t ∧ exec .systemHeadPresented s = .next t
      ∧ t = { s with transit := t.transit, control := { s.control with shadow := t.control.shadow } }
      ∧ HeadOnPort s t r rest none
      ∧ (∀ w ∈ burstWords off r.data, Shadow.read t.control.shadow w.off = w.beat.data)
      ∧ ∀ o, (∀ w ∈ burstWords off r.data, w.off ≠ o) → Shadow.read t.control.shadow o = Shadow.read s.control.shadow o

/-- A taken control write of live words is presented, and its words do, in ascending order, what the commands of their own rows do: command
words, of which a later one meets the state that an earlier one leaves; consumed indices and the mask word, which are checked at the
offer. After command words the status write stands behind every record of the event. That each such row is the effect of its word at the
control block alone is the model's choice (log 1). -/
def Obligations.CommandWordRunsCommand : Prop :=
  ∀ (r : Request) (rest : List Request) (n : Nat) (s : State),
    s.control.runState ≠ .unanchored → s.transit.stage = r :: rest → SystemWins s → r.kind = .write →
    r.hit = some { area := 0, offset := 8 * n } → r.data ≠ [] → (∀ b ∈ r.data, b.strobes = BitVec.allOnes 8) →
    (n + r.data.length ≤ 9 →
      ∃ u v t, HeadOnPort s u r rest none ∧ u = { s with transit := u.transit } ∧ WordsRun n (r.data.map (·.data)) u v
        ∧ t = { v with writeBack := { v.writeBack with slot := s.writeBack.slot.afterMark v.writeBack.queue.length } }
        ∧ exec .controlWrite s = .next t ∧ exec .systemHeadPresented s = .next t
        ∧ (r.data.length = 1 → t = v))
    ∧ (16 ≤ n → n + r.data.length ≤ 20 → s.refusalOf (burstWords (8 * n) r.data) = none →
      ∃ u t, HeadOnPort s u r rest none ∧ u = { s with transit := u.transit } ∧ WordsRun n (r.data.map (·.data)) u t
        ∧ exec .controlWrite s = .next t ∧ exec .systemHeadPresented s = .next t)

/-- The oldest record that has the port leaves the queue with the lowest FREE inserted tag: it is presented at its slot with its fixed
content, and the status write moves up one place. Held requests that waited on it alone leave the hold list, with those that waited on
them alone, and are staged in the order of taking. -/
def Obligations.RecordPresented : Prop :=
  ∀ (e : QueuedRecord) (rest : List QueuedRecord) (tag : Nat) (s : State),
    Settled s → s.writeBack.queue = e :: rest → s.writeBack.slot ≠ .pending 0 → WriteBackWins s →
    LowestInsertedTag s.transit tag →
    ∃ t freed, exec .writebackHeadPresented s = .next t
      ∧ t = { s with transit := t.transit, writeBack := t.writeBack }
      ∧ t.writeBack =
          { s.writeBack with
            queue := rest
            slot := (match s.writeBack.slot with
              | .pending n => .pending (n - 1)
              | x => x) }
      ∧ t.transit =
          { s.transit with
            stage := t.transit.stage, holds := t.transit.holds, inflight := t.transit.inflight
            memoryPort := t.transit.memoryPort }
      ∧ (t.transit.memoryPort =
          some { tag := BitVec.ofNat 7 tag, kind := .write, addr := e.addr, beats := e.content.length
                 data := e.content.map (fun w => { data := w, strobes := BitVec.allOnes 8 }) })
      ∧ ((t.transit.entry tag).map (·.carried) = some (some (.ring e.ring)))
      ∧ (∀ k, k ≠ tag → (∀ r ∈ freed, k ≠ r.tag.toNat) → t.transit.entry k = s.transit.entry k)
      ∧ ReleasedBy s t (.record e.ring e.index) freed

/-- The status write that has the port is composed and presented in that event: the status sequence advances by 1, and the record carries
every field of section 11.2 with the values in force, its own write counted among those in flight; the slot becomes empty and the transit
unit records the write as its last. Held requests that waited on it are released as on any inserted write. That points discarded shows its
low byte, and that the marker error and the present chainage are limited from their exact values, is the model's choice (log 24, log 28,
log 30). -/
def Obligations.StatusPresented : Prop :=
  ∀ (n tag : Nat) (base : Addr) (s : State),
    s.transit.base = some base → s.writeBack.slot = .pending n → (n = 0 ∨ s.writeBack.queue = []) → WriteBackWins s →
    LowestInsertedTag s.transit tag →
    ∃ (t : State) (words : List Word64) (freed : List Request), exec .writebackHeadPresented s = .next t
      ∧ t =
          { s with
            transit := t.transit, control := { s.control with statusSeq := s.control.statusSeq + 1 }
            writeBack := { s.writeBack with slot := .empty } }
      ∧ t.transit =
          { s.transit with
            stage := t.transit.stage, holds := t.transit.holds, inflight := t.transit.inflight
            memoryPort := t.transit.memoryPort, statusRecords := t.transit.statusRecords }
      ∧ (t.transit.memoryPort =
          some { tag := BitVec.ofNat 7 tag, kind := .write, addr := BitVec.ofNat 36 (base.toNat + 0x100), beats := 16
                 data := words.map (fun w => { data := w, strobes := BitVec.allOnes 8 }) })
      ∧ StatusContent s (s.control.statusSeq + 1) (t.transit.inflight.filter (fun e => decide (64 ≤ e.1))).length words
      ∧ ((t.transit.entry tag).map (·.carried) = some (some (.status (s.control.statusSeq + 1))))
      ∧ t.transit.statusRecords.getLast? =
          some { seq := s.control.statusSeq + 1, eventWord := eventWord s.control.events, tag := BitVec.ofNat 7 tag
                 outcome := .pending, waiting := [] }
      ∧ (∀ w ∈ s.transit.statusRecords, w.outcome = .pending → w ∈ t.transit.statusRecords)
      ∧ (∀ k, k ≠ tag → (∀ r ∈ freed, k ≠ r.tag.toNat) → t.transit.entry k = s.transit.entry k)
      ∧ ReleasedBy s t .status freed

/-! ### Responses -/

/-- A response is routed by its tag. To a PRESENTED system request it is relayed with the same tag, status and data, and the entry becomes
FREE; with no acknowledgement capture, or with status ERROR, nothing reaches the event set. Where the entry is FREE, HELD or STAGED the
response changes nothing; where it is ABSORBING the entry becomes FREE and nothing else
changes. While PRST is high the oldest waiting response leaves the response channel; while it is low none does. -/
def Obligations.ResponsesRoutedAndDelivered : Prop :=
  (∀ s : State,
    (s.prstLow = true → exec .systemResponseDelivered s = .next s)
      ∧ (s.prstLow = false → ∀ r rest, s.transit.responses = r :: rest →
        exec .systemResponseDelivered s = .next { s with transit := { s.transit with responses := rest } }))
  ∧ ∀ (tag : PortTag) (status : BusStatus) (data : List Word64) (s : State),
    (s.transit.entry tag.toNat = none → exec (.memoryResponse tag status data) s = .next s)
      ∧ ∀ e, s.transit.entry tag.toNat = some e →
        (e.phase = .held ∨ e.phase = .staged → exec (.memoryResponse tag status data) s = .next s)
          ∧ (e.phase = .absorbing →
            ∃ t, exec (.memoryResponse tag status data) s = .next t
              ∧ t = { s with transit := { s.transit with inflight := t.transit.inflight } }
              ∧ t.transit.entry tag.toNat = none ∧ ∀ k, k ≠ tag.toNat → t.transit.entry k = s.transit.entry k)
          ∧ (Settled s → e.phase = .presented → e.carried = none → e.capture = none ∨ status = .error →
            ∃ t, exec (.memoryResponse tag status data) s = .next t ∧ t = { s with transit := t.transit }
              ∧ t.transit =
                  { s.transit with
                    inflight := t.transit.inflight, statusRecords := t.transit.statusRecords
                    responses := s.transit.responses ++ [{ tag := tag.setWidth 6, status := status, data := data }] }
              ∧ t.transit.entry tag.toNat = none ∧ (∀ k, k ≠ tag.toNat → t.transit.entry k = s.transit.entry k)
              ∧ RecordsKept s t)

/-- The OKAY response of a READ with a capture: when the captured status write was answered OKAY, its flags leave the live event set
unless raised since (sequences compared modulo 2^32, the model's choice, log 11); when it is still pending, the capture waits on its record
and the event set is unchanged; when it was answered ERROR, nothing is removed. -/
def Obligations.CapturedReadAnswered : Prop :=
  ∀ (tag : PortTag) (data : List Word64) (e : Entry) (cap : Capture) (w : StatusWriteRecord) (s : State),
    Settled s → TablesSound s → s.control.runState ≠ .unanchored → IntAgrees s → s.transit.entry tag.toNat = some e →
    e.phase = .presented → e.carried = none → e.capture = some cap →
    s.transit.statusRecords.find? (fun x => decide (x.seq = cap.seq)) = some w →
    ∃ t, exec (.memoryResponse tag .okay data) s = .next t
      ∧ t = { s with transit := t.transit, control := t.control, writeBack := t.writeBack }
      ∧ t.transit =
          { s.transit with
            inflight := t.transit.inflight, statusRecords := t.transit.statusRecords
            responses := s.transit.responses ++ [{ tag := tag.setWidth 6, status := .okay, data := data }] }
      ∧ t.transit.entry tag.toNat = none ∧ (∀ k, k ≠ tag.toNat → t.transit.entry k = s.transit.entry k)
      ∧ WriteBackSlotOnly s t ∧ ControlEventsOnly s t ∧ IntAgrees t
      ∧ (w.outcome = .okay → Acknowledged s t [cap]
          ∧ (t.control.events ≠ s.control.events →
              t.writeBack.slot = s.writeBack.slot.afterMark s.writeBack.queue.length)
          ∧ (t.control.events = s.control.events → t.control = s.control ∧ t.writeBack = s.writeBack))
      ∧ (w.outcome ≠ .okay → t.control = s.control ∧ t.writeBack = s.writeBack)
      ∧ (w.outcome = .pending →
          ∃ w' ∈ t.transit.statusRecords, w' = { w with waiting := w.waiting ++ [cap] })

/-- The response to a ring record frees its tag and moves the ring's outcomes; ERROR raises WRITEBACK_ERROR; the write index and the
lost count do not change. -/
def Obligations.RecordCompleted : Prop :=
  ∀ (tag : PortTag) (status : BusStatus) (data : List Word64) (e : Entry) (r : Ring) (s : State),
    Settled s → s.control.runState ≠ .unanchored → s.transit.entry tag.toNat = some e → e.phase = .presented →
    e.carried = some (.ring r) →
    ∃ t, exec (.memoryResponse tag status data) s = .next t
      ∧ t = { s with transit := t.transit, control := t.control, writeBack := t.writeBack }
      ∧ t.transit =
          { s.transit with inflight := t.transit.inflight, statusRecords := t.transit.statusRecords }
      ∧ t.transit.entry tag.toNat = none ∧ (∀ k, k ≠ tag.toNat → t.transit.entry k = s.transit.entry k)
      ∧ RecordsKept s t
      ∧ t.writeBack.ring r =
          { s.writeBack.ring r with
            previous := (s.writeBack.ring r).last
            last := (match status with
              | .okay => .okay
              | .error => .error) }
      ∧ (∀ x, x ≠ r → t.writeBack.ring x = s.writeBack.ring x) ∧ t.writeBack.queue = s.writeBack.queue
      ∧ (status = .okay → t.control = s.control ∧ t.writeBack.slot = s.writeBack.slot)
      ∧ (status = .error → ControlEventsOnly s t ∧ Publishes s t [.writebackError])

/-- The response to a status write frees its tag, and its record takes the response's status as its outcome. OKAY hands over every capture
that waits on the record, which removes their flags unless raised since (sequences compared modulo 2^32, the model's choice, log 11); a
status write is then pending exactly where a flag left. ERROR raises WRITEBACK_ERROR and removes nothing. No capture waits on the record
afterwards. -/
def Obligations.StatusCompleted : Prop :=
  ∀ (tag : PortTag) (status : BusStatus) (data : List Word64) (e : Entry) (seq : BitVec 32) (w : StatusWriteRecord)
    (s : State),
    Settled s → TablesSound s → s.control.runState ≠ .unanchored → IntAgrees s → s.transit.entry tag.toNat = some e →
    e.phase = .presented → e.carried = some (.status seq) →
    s.transit.statusRecords.find? (fun x => decide (x.seq = seq)) = some w →
    ∃ t, exec (.memoryResponse tag status data) s = .next t
      ∧ t = { s with transit := t.transit, control := t.control, writeBack := t.writeBack }
      ∧ t.transit =
          { s.transit with inflight := t.transit.inflight, statusRecords := t.transit.statusRecords }
      ∧ t.transit.entry tag.toNat = none ∧ (∀ k, k ≠ tag.toNat → t.transit.entry k = s.transit.entry k)
      ∧ (∀ x ∈ t.transit.statusRecords, x.seq = seq → x.waiting = []
          ∧ x.outcome = (match status with
            | .okay => .okay
            | .error => .error))
      ∧ (∀ x ∈ s.transit.statusRecords, x.seq ≠ seq → x.outcome = .pending → x ∈ t.transit.statusRecords)
      ∧ WriteBackSlotOnly s t ∧ ControlEventsOnly s t ∧ IntAgrees t
      ∧ (status = .okay → Acknowledged s t w.waiting
          ∧ (t.control.events ≠ s.control.events →
              t.writeBack.slot = s.writeBack.slot.afterMark s.writeBack.queue.length)
          ∧ (t.control.events = s.control.events → t.control = s.control ∧ t.writeBack = s.writeBack))
      ∧ (status = .error → Publishes s t [.writebackError])

/-! ### Resets -/

/-- PRST driven low discards the burst in progress, the waiting responses, the hold list and the forwarding stage; HELD and STAGED
entries become FREE, PRESENTED system entries ABSORBING without capture, inserted entries are kept; the assembly buffers are cleared;
nothing else changes. That a request waiting untaken is withdrawn is the model's choice (log 26). PRST returning high changes
nothing but the pin. -/
def Obligations.PortResetDiscards : Prop :=
  (∀ s : State, exec .portResetRelease s = .next { s with prstLow := false })
  ∧ ∀ s : State, Table.wf s.transit.inflight →
    ∃ t, exec .portReset s = .next t
      ∧ t = { s with prstLow := true, transit := t.transit, tap := t.tap }
      ∧ t.transit =
          { s.transit with
            partialBurst := none, waiting := none, responses := [], holds := [], stage := [], inflight := t.transit.inflight }
      ∧ (∀ k, 64 ≤ k → t.transit.entry k = s.transit.entry k)
      ∧ (∀ k, k < 64 → t.transit.entry k =
          match s.transit.entry k with
          | none => none
          | some e =>
            if e.phase = .presented ∨ e.phase = .absorbing then some { e with phase := .absorbing, capture := none }
            else none)
      ∧ (∀ i, t.tap.stream i = { s.tap.stream i with buffer := emptyBuffer }) ∧ t.tap.framesLost = s.tap.framesLost

/-- RESET driven low gives every block its reset values and restarts the time base, in any state; each tag presented, absorbing or
carrying an inserted write stays ABSORBING and every other entry becomes FREE. The model's choice is: that the accepted levels of the line
filters read low while RESET is low, and the PRST pin keeps its level (log 7); that a request waiting untaken at the system port is
withdrawn (log 26); that the response channel is emptied (log 18); that tables with nothing in them are empty lists (log 27). The model's
own fields, the free-value counter (log 2) and the queue of commands, are kept. RESET returning high: the first sample gives each line
filter its accepted level and count 0; that the sample counts in the time base is the model's choice (log 3), and while RESET is high there is no such event
(log 5). -/
def Obligations.HardwareResetClears : Prop :=
  (∀ (l : LineLevels) (s : State),
    (s.resetLow = false → exec (.hardwareResetRelease l) s = .next s)
      ∧ (s.resetLow = true →
        ∃ t, exec (.hardwareResetRelease l) s = .next t ∧ Ticked s t
          ∧ t =
              { s with
                resetLow := false, phase := t.phase, time := t.time
                odometer :=
                  { s.odometer with
                    filters :=
                      { ta0 := ⟨l.ta0, 0⟩, ta1 := ⟨l.ta1, 0⟩, tb0 := ⟨l.tb0, 0⟩, tb1 := ⟨l.tb1, 0⟩, mark := ⟨l.mark, 0⟩ } } }))
  ∧ ∀ s : State, Table.wf s.transit.inflight →
    ∃ t, exec .hardwareReset s = .next t
      ∧ t =
          { State.reset with
            resetLow := true, prstLow := s.prstLow, freeCount := s.freeCount, pending := s.pending
            transit := { Transit.reset with inflight := t.transit.inflight } }
      ∧ ∀ k, t.transit.entry k =
          match s.transit.entry k with
          | none => none
          | some e =>
            if e.phase = .presented ∨ e.phase = .absorbing ∨ e.carried ≠ none then
              some { e with phase := .absorbing, capture := none }
            else none

/-! ### Commands -/

/-- A command refused by the control block's own checks completes with its result and has no other effect: REFUSED_STATE with the run
state in force where the run state does not accept it; REFUSED_ARG with the number of the first argument out of range where it does.
While the part is unanchored no control word is taken. -/
def Obligations.CommandsRefused : Prop :=
  (∀ (n : Fin 9) (w : Word64) (s : State),
    (s.control.runState = .unanchored → Settled s → exec (commandOf n w) s = .next s)
    ∧ (s.control.runState ≠ .unanchored → s.control.runState ∉ acceptedIn n →
      ∃ t, exec (commandOf n w) s = .next t ∧ ControlAndSlotOnly s t
        ∧ Completes s t (BitVec.ofNat 4 n.val) .refusedState (s.control.runState.code.setWidth 32) s.control.runState
            [.commandDone]))
  ∧ (∀ (w : Word64) (s : State), InRun s → w.extractLsb' 40 8 ≠ 0x01 → w.extractLsb' 40 8 ≠ 0xFF →
      ∃ t, exec (.chainageSet w) s = .next t ∧ ControlAndSlotOnly s t
        ∧ Completes s t 5 .refusedArg 2 s.control.runState [.commandDone])
  ∧ (∀ (w : Word64) (s : State), InRun s → 7 < (w.extractLsb' 0 8).toNat →
      ∃ t, exec (.profileSelect w) s = .next t ∧ ControlAndSlotOnly s t
        ∧ Completes s t 6 .refusedArg 1 s.control.runState [.commandDone])
  ∧ (∀ (w : Word64) (field : BitVec 32) (s : State), s.control.runState = .running →
      (1 < (w.extractLsb' 0 8).toNat ∧ field = 1)
        ∨ ((w.extractLsb' 0 8).toNat ≤ 1
          ∧ ((w.extractLsb' 8 8).toNat = 0 ∨ 15 < (w.extractLsb' 8 8).toNat) ∧ field = 2)
        ∨ ((w.extractLsb' 0 8).toNat ≤ 1 ∧ 1 ≤ (w.extractLsb' 8 8).toNat ∧ (w.extractLsb' 8 8).toNat ≤ 15
          ∧ 1048575 < (w.extractLsb' 16 24).toNat ∧ field = 3) →
      ∃ t, exec (.actionPost w) s = .next t ∧ ControlAndSlotOnly s t
        ∧ Completes s t 7 .refusedArg field s.control.runState [.commandDone])

/-- ARM in IDLE. When a check fails, the result is REFUSED_CONFIG with the offset of the first record that fails, and nothing else
changes. When every check passes, the result is DONE and the run state ARMED, and each block is loaded from the setup shadows and cleared
as R48 says: the areas and the drain threshold; the odometer setup, Q and dir, with D and the high-water distance 0 and no point opened;
each stream context, SILENT or IDLE, with an empty buffer and no history; the close limit and the contributing streams with an empty
queue; the geometry constants with an empty history; the profiles, with profile 0 active and every tracker CLEAR; the action setup, with
the queue and the pulses empty and every line at its new rest level; the ring capacities with indices, counts and outcomes cleared. The
run counters return to 0. The line filters, the action id counter, the write-back queue and the shadows are kept. -/
def Obligations.ArmChecksAndLoads : Prop :=
  ∀ (sh : Table Word64) (s : State), s.control.runState = .idle → sh = s.control.shadow →
    (∀ off, armFailure sh s.windowBase = some off →
      ∃ t, exec .arm s = .next t ∧ ControlAndSlotOnly s t
        ∧ Completes s t 0 .refusedConfig (BitVec.ofNat 32 off) .idle [.commandDone])
    ∧ (armFailure sh s.windowBase = none →
      ∃ (t : State) (dir : Direction), exec .arm s = .next t ∧ Completes s t 0 .done 0 .armed [.commandDone, .runState]
        ∧ t =
            { s with
              transit := { s.transit with areas := t.transit.areas, drainThreshold := (shadowField 8 sh 0x0354).toNat }
              control := t.control, odometer := t.odometer, tap := t.tap, assembler := t.assembler
              geometry := t.geometry, exceedance := t.exceedance, action := t.action, writeBack := t.writeBack }
        ∧ Table.read t.transit.areas 0 = Table.read s.transit.areas 0
        ∧ (∀ n, 1 ≤ n → n ≤ 7 → Table.read t.transit.areas n =
            if areaEnabled sh n then
              some { base := BitVec.ofNat 36 (Shadow.read sh (0x0200 + 0x20 * n)).toNat
                     pages := (shadowField 32 sh (0x0200 + 0x20 * n + 8)).toNat }
            else none)
        ∧ dir.sign = (shadowField 8 sh 0x0305).toInt
        ∧ t.odometer =
            { filters := s.odometer.filters, filterDepth := (shadowField 8 sh 0x0300).toNat
              chanA :=
                { countLength := (shadowField 16 sh 0x0308).toNat, invert := decide (shadowField 8 sh 0x0301 = 1)
                  errors := 0, travel := 0, net := 0 }
              chanB :=
                { countLength := (shadowField 16 sh 0x030A).toNat, invert := decide (shadowField 8 sh 0x0302 = 1)
                  errors := 0, travel := 0, net := 0 }
              lead := if shadowField 8 sh 0x0303 = 1 then .b else .a
              swapLock := decide (shadowField 8 sh 0x0304 = 1)
              stallTravel := 0, stallReported := false, d := 0, highWater := 0, nextPoint := none, highWaterPoint := none
              prevMismatch := false, reversal := false, q := (shadowField 64 sh 0x0318).toInt, dir := dir
              chainageStep := false, latches := [], lastMarker := { id := 0, error := 0, outcome := .none }
              mismatchTolerance := (shadowField 8 sh 0x0306).toNat, stallDistance := (shadowField 16 sh 0x030C).toNat
              acceptWindow := (shadowField 32 sh 0x0310).toNat, orphanDistance := (shadowField 16 sh 0x030E).toNat
              spacing := (shadowField 16 sh 0x0340).toNat }
        ∧ (∀ i : Fin 4, t.tap.stream i =
            { state := if areaEnabled sh (i.val + 1) then .silent else .idle
              slotCount := (shadowField 32 sh (0x0200 + 0x20 * (i.val + 1) + 8)).toNat * 64
              latency := (shadowField 32 sh (0x0400 + 0x40 * i.val)).toNat
              silenceLimit := (shadowField 32 sh (0x0400 + 0x40 * i.val + 4)).toNat
              slotMap := (List.range 14).map (fun n => shadowField 8 sh (0x0400 + 0x40 * i.val + 8 + n))
              expectedSlot := 0, buffer := List.replicate 8 none, lastSequence := none, lastFrame := none, timer := none
              errors := 0 })
        ∧ t.tap.framesLost = 0
        ∧ ContributorsLoaded sh t.assembler.contributing
        ∧ t.assembler =
            { queue := [], closeLimit := (shadowField 32 sh 0x0344).toNat, contributing := t.assembler.contributing
              opened := 0, closed := 0, forced := 0, gapped := 0, discarded := 0 }
        ∧ (t.geometry.uncompensated = true ↔ (∀ i, ¬MapsQuantity sh i 6) ∨ ∀ i, ¬MapsQuantity sh i 7)
        ∧ t.geometry =
            { spacing := (shadowField 16 sh 0x0340).toNat, chord := (shadowField 8 sh 0x0342).toNat
              twist := (shadowField 8 sh 0x0343).toNat, beamGauge := (shadowField 32 sh 0x0348).toInt
              nominalGauge := (shadowField 32 sh 0x034C).toInt, railBase := (shadowField 32 sh 0x0350).toInt
              uncompensated := t.geometry.uncompensated, ring := [], firstPoint := none, newest := none, cursor := none }
        ∧ t.exceedance =
            { profiles := t.exceedance.profiles, active := 0, overrideOn := false, cursor := 0
              spacing := (shadowField 16 sh 0x0340).toNat, trackers := List.replicate 8 .clear, emitted := 0, short := 0 }
        ∧ (∀ (p : BitVec 3) (ch : Nat), ch < 8 → t.exceedance.entry p ch =
            { alert := (shadowField 32 sh (0x0800 + 0x80 * p.toNat + 0x10 * ch)).toNat
              limit := (shadowField 32 sh (0x0800 + 0x80 * p.toNat + 0x10 * ch + 4)).toNat
              minLength := (shadowField 16 sh (0x0800 + 0x80 * p.toNat + 0x10 * ch + 8)).toNat
              mark := decide (shadowField 8 sh (0x0800 + 0x80 * p.toNat + 0x10 * ch + 0x0A) = 1) })
        ∧ t.action.markGroup.val = (shadowField 8 sh 0x0502).toNat
        ∧ t.action =
            { rest0 := shadowField 4 sh 0x0500, rest1 := shadowField 4 sh 0x0501
              pulseLength := (shadowField 32 sh 0x0504).toNat, markGroup := t.action.markGroup
              markPattern := shadowField 4 sh 0x0503, markOffset := (shadowField 32 sh 0x0508).toNat
              periodic0 :=
                { period := (shadowField 32 sh 0x0510).toNat, pattern := shadowField 4 sh 0x0518
                  pulseLength := (shadowField 32 sh 0x0514).toNat, next := none }
              periodic1 :=
                { period := (shadowField 32 sh 0x0520).toNat, pattern := shadowField 4 sh 0x0528
                  pulseLength := (shadowField 32 sh 0x0524).toNat, next := none }
              queue := [], pulses := [], holds := List.replicate 8 0, idCounter := s.action.idCounter
              fired := 0, missed := 0, cancelled := 0 }
        ∧ (∀ line : Fin 8, t.lineLevel line =
            if line.val < 4 then (shadowField 4 sh 0x0500).getLsbD line.val
            else (shadowField 4 sh 0x0501).getLsbD (line.val - 4))
        ∧ (∀ r : Ring, t.writeBack.ring r =
            { capacity := (shadowField 32 sh (0x0200 + 0x20 * r.area + 8)).toNat * 4096 / r.recordBytes
              writeIndex := 0, consumed := 0, lost := 0, last := .none, previous := .none })
        ∧ t.writeBack.queue = s.writeBack.queue)

/-- START in ARMED: the next point and the first point of the run are floor(D_mm / S) + 1, the cross-check travels return to 0, the
timer of each enabled stream with a limit runs, each periodic trigger with a period is placed at the next multiple above D_mm, the run
state is RUNNING and the result DONE. -/
def Obligations.StartBeginsRun : Prop :=
  ∀ s : State, s.control.runState = .armed →
    ∃ t k, exec .start s = .next t ∧ Completes s t 1 .done 0 .running [.commandDone, .runState]
      ∧ k = s.odometer.d / 256 / (s.odometer.spacing : Int) + 1
      ∧ t =
          { s with
            control := t.control, writeBack := t.writeBack, tap := t.tap
            odometer :=
              { s.odometer with
                nextPoint := some k
                chanA := { s.odometer.chanA with travel := 0 }
                chanB := { s.odometer.chanB with travel := 0 } }
            geometry := { s.geometry with firstPoint := some k, cursor := some k }
            action := { s.action with periodic0 := t.action.periodic0, periodic1 := t.action.periodic1 } }
      ∧ WriteBackSlotOnly s t
      ∧ (∀ i : Fin 4, t.tap.stream i =
          if (s.tap.stream i).state = .idle ∨ (s.tap.stream i).silenceLimit = 0 then s.tap.stream i
          else { s.tap.stream i with timer := some (s.time + BitVec.ofNat 48 (s.tap.stream i).silenceLimit) })
      ∧ t.tap.framesLost = s.tap.framesLost
      ∧ ∀ g : Fin 2,
          t.action.periodic g = { s.action.periodic g with next := (t.action.periodic g).next }
            ∧ ((s.action.periodic g).period = 0 → (t.action.periodic g).next = none)
            ∧ ((s.action.periodic g).period ≠ 0 →
                ∃ p : Int, (t.action.periodic g).next = some p ∧ p % ((s.action.periodic g).period : Int) = 0
                  ∧ s.odometer.d / 256 < p ∧ p - ((s.action.periodic g).period : Int) ≤ s.odometer.d / 256)

/-- STOP, with result DONE. In ARMED the run state becomes STOPPED and every timer stops. In RUNNING with a point pending it becomes
DRAINING and the periodic triggers are off. In RUNNING with no point pending the drain completes in the same event: the tail centres are
emitted in increasing order, every open run closes with RUN_END, and the part is STOPPED, with every timer stopped and every tracker
CLEAR. -/
def Obligations.StopEndsOrDrains : Prop :=
  ∀ s : State,
    (s.control.runState = .armed →
      ∃ t, exec .stop s = .next t ∧ Completes s t 2 .done 0 .stopped [.commandDone, .runState]
        ∧ t = { s with control := t.control, writeBack := t.writeBack, tap := t.tap } ∧ WriteBackSlotOnly s t
        ∧ TimersStopped s t)
    ∧ (s.control.runState = .running → s.assembler.queue ≠ [] →
      ∃ t, exec .stop s = .next t ∧ Completes s t 2 .done 0 .draining [.commandDone, .runState]
        ∧ t =
            { s with
              control := t.control, writeBack := t.writeBack
              action :=
                { s.action with
                  periodic0 := { s.action.periodic0 with next := none }
                  periodic1 := { s.action.periodic1 with next := none } } }
        ∧ WriteBackSlotOnly s t)
    ∧ (s.control.runState = .running →
      ∃ u v, u =
            { s with
              control := { s.control with runState := .draining }
              action :=
                { s.action with
                  periodic0 := { s.action.periodic0 with next := none }
                  periodic1 := { s.action.periodic1 with next := none } } }.raise .runState
        ∧ DrainEnds u v
        ∧ exec .stop s =
            .next ({ v with control := { v.control with lastCommand := ⟨2, .done, 0⟩ } }.raise .commandDone).settle)
    ∧ (s.control.runState = .running → s.assembler.queue = [] → RunsSound s →
      ∃ t, exec .stop s = .next t ∧ t.control.runState = .stopped ∧ t.control.lastCommand = ⟨2, .done, 0⟩
        ∧ t.flagSet .commandDone = true ∧ t.flagSet .runState = true ∧ IntAgrees t ∧ t.writeBack.slot.queued = true
        ∧ TimersStopped s t ∧ (∀ x ∈ t.exceedance.trackers, x = .clear)
        ∧ t.odometer = s.odometer ∧ t.assembler = s.assembler ∧ t.transit = s.transit
        ∧ ∀ g, (t.action.periodic g).next = none)

/-- ABORT in ARMED, RUNNING or DRAINING: STOPPED with result DONE. Every pending point is discarded and counted, every open run is
discarded without a record, the action queue is emptied and its entries counted as cancelled without a log record, the periodic triggers
are off, every timer stops; the pulse table and the write-back queue are untouched. -/
def Obligations.AbortEndsRun : Prop :=
  ∀ s : State, InRun s →
    ∃ t, exec .abort s = .next t ∧ Completes s t 3 .done 0 .stopped [.commandDone, .runState]
      ∧ t =
          { s with
            control := t.control, writeBack := t.writeBack, tap := t.tap
            assembler :=
              { s.assembler with
                queue := [], discarded := s.assembler.discarded + BitVec.ofNat 32 s.assembler.queue.length }
            exceedance := { s.exceedance with trackers := s.exceedance.trackers.map (fun _ => .clear) }
            action :=
              { s.action with
                queue := [], cancelled := s.action.cancelled + BitVec.ofNat 32 s.action.queue.length
                periodic0 := { s.action.periodic0 with next := none }
                periodic1 := { s.action.periodic1 with next := none } } }
      ∧ WriteBackSlotOnly s t ∧ TimersStopped s t

/-- RELEASE in STOPPED. While write-back holds a record or a status write, or an inserted tag is in use, the result is REFUSED_BUSY and
nothing else changes. Otherwise the run state becomes IDLE with result DONE: A1–A7 are emptied and A0 stays, every stream is IDLE with
an empty buffer, the action queue is emptied and counted as cancelled, every pulse ends and every line is at its rest level. -/
def Obligations.ReleaseReturnsToIdle : Prop :=
  ∀ s : State, s.control.runState = .stopped →
    (s.writeBack.queue ≠ [] ∨ s.writeBack.slot ≠ .empty ∨ (∃ tag, 64 ≤ tag ∧ s.transit.entry tag ≠ none) →
      ∃ t, exec .release s = .next t ∧ ControlAndSlotOnly s t
        ∧ Completes s t 4 .refusedBusy 0 .stopped [.commandDone])
    ∧ (s.writeBack.queue = [] → s.writeBack.slot = .empty → (∀ tag, 64 ≤ tag → s.transit.entry tag = none) →
      ∃ t, exec .release s = .next t ∧ Completes s t 4 .done 0 .idle [.commandDone, .runState]
        ∧ t =
            { s with
              transit := { s.transit with areas := t.transit.areas }
              control := t.control, writeBack := t.writeBack, tap := t.tap
              action :=
                { s.action with
                  queue := [], cancelled := s.action.cancelled + BitVec.ofNat 32 s.action.queue.length, pulses := []
                  holds := List.replicate 8 0 } }
        ∧ WriteBackSlotOnly s t
        ∧ Table.read t.transit.areas 0 = Table.read s.transit.areas 0
        ∧ (∀ n, n ≠ 0 → Table.read t.transit.areas n = none)
        ∧ (∀ i, t.tap.stream i = { s.tap.stream i with state := .idle, buffer := emptyBuffer })
        ∧ t.tap.framesLost = s.tap.framesLost
        ∧ ∀ line : Fin 8, t.lineLevel line = s.action.restLevel line)

/-- CHAINAGE_SET in ARMED, RUNNING or DRAINING with a direction of +1 or −1: dir takes the direction, Q is set so that the present D maps
to the given chainage, the chainage step is pending, the result is DONE, and nothing else changes. -/
def Obligations.ChainageSetMapsPresentDistance : Prop :=
  ∀ (w : Word64) (dir : Direction) (s : State), InRun s →
    (w.extractLsb' 40 8 = 0x01 ∧ dir = .plus) ∨ (w.extractLsb' 40 8 = 0xFF ∧ dir = .minus) →
    ∃ t, exec (.chainageSet w) s = .next t ∧ Completes s t 5 .done 0 s.control.runState [.commandDone]
      ∧ t =
          { s with
            control := t.control, writeBack := t.writeBack
            odometer :=
              { s.odometer with
                dir := dir, q := (w.extractLsb' 0 40).toInt - dir.sign * (s.odometer.d / 256), chainageStep := true } }
      ∧ WriteBackSlotOnly s t
      ∧ t.odometer.q + t.odometer.dir.sign * (t.odometer.d / 256) = (w.extractLsb' 0 40).toInt

/-- PROFILE_SELECT in ARMED, RUNNING or DRAINING with a profile in 0–7: the active profile becomes it and the override is set, with
result DONE; the route cursor stays, PROFILE_CHANGE is not raised, and nothing else changes. -/
def Obligations.ProfileSelectOverrides : Prop :=
  ∀ (w : Word64) (s : State), InRun s → (w.extractLsb' 0 8).toNat ≤ 7 →
    ∃ t, exec (.profileSelect w) s = .next t ∧ Completes s t 6 .done 0 s.control.runState [.commandDone]
      ∧ t =
          { s with
            control := t.control, writeBack := t.writeBack
            exceedance := { s.exceedance with active := w.extractLsb' 0 3, overrideOn := true } }
      ∧ WriteBackSlotOnly s t

/-- ACTION_POST in RUNNING with its arguments in range, T the present D_mm plus the offset. T above the high-water distance and the queue
not full: the action takes an id and its place in the queue, DONE with the id. The queue full: QUEUE_FULL and nothing else. T at or
below the high-water distance: the action takes an id and is missed at once with ACTION_MISSED and a MISSED log record, DONE with the id. A
mark request for a record's distance takes an id in every case: in RUNNING, with T above the high-water distance and room, it takes its
place in the queue with the mark group and pattern; otherwise, and in every other run state, it is missed. -/
def Obligations.ActionPostQueuesOrMisses : Prop :=
  (∀ (w : Word64) (T : Int) (s : State), s.control.runState = .running → ActionQueueSound s →
    (w.extractLsb' 0 8).toNat ≤ 1 → 1 ≤ (w.extractLsb' 8 8).toNat → (w.extractLsb' 8 8).toNat ≤ 15 →
    (w.extractLsb' 16 24).toNat ≤ 1048575 → T = s.odometer.d / 256 + ((w.extractLsb' 16 24).toNat : Int) →
    (s.odometer.highWater < T → s.action.queue.length < 32 →
      ∃ t before behind e, exec (.actionPost w) s = .next t
        ∧ Completes s t 7 .done (s.action.idCounter.setWidth 32) .running [.commandDone]
        ∧ s.action.queue = before ++ behind ∧ (∀ x ∈ before, x.trigger ≤ T) ∧ (∀ x ∈ behind, T < x.trigger)
        ∧ e.id = s.action.idCounter ∧ e.trigger = T ∧ e.group.val = (w.extractLsb' 0 8).toNat
        ∧ e.pattern = w.extractLsb' 8 4 ∧ e.origin = .posted
        ∧ t =
            { s with
              control := t.control, writeBack := t.writeBack
              action := { s.action with idCounter := s.action.idCounter + 1, queue := before ++ e :: behind } }
        ∧ WriteBackSlotOnly s t)
    ∧ (s.odometer.highWater < T → s.action.queue.length = 32 →
      ∃ t, exec (.actionPost w) s = .next t ∧ ControlAndSlotOnly s t ∧ Completes s t 7 .queueFull 0 .running [.commandDone])
    ∧ (T ≤ s.odometer.highWater →
      ∃ t, exec (.actionPost w) s = .next t
        ∧ t =
            { s with
              control := t.control, writeBack := t.writeBack
              action := { s.action with idCounter := s.action.idCounter + 1, missed := s.action.missed + 1 } }
        ∧ t.control.lastCommand = ⟨7, .done, s.action.idCounter.setWidth 32⟩ ∧ t.control.runState = .running
        ∧ t.control.mask = s.control.mask ∧ t.control.shadow = s.control.shadow ∧ IntAgrees t
        ∧ t.flagSet .commandDone = true ∧ t.flagSet .actionMissed = true ∧ t.writeBack.slot.queued = true
        ∧ ∃ m, MissedAction { s with action := { s.action with idCounter := s.action.idCounter + 1 } } m s.action.idCounter .posted T
          ∧ t =
              ({ m with
                  control :=
                    { m.control with
                      lastCommand := ⟨7, .done, s.action.idCounter.setWidth 32⟩ } }.raise .commandDone).settle))
  ∧ ∀ (dmm T : Int) (s : State), ActionQueueSound s → T = dmm + (s.action.markOffset : Int) →
    (s.control.runState = .running → s.odometer.highWater < T → s.action.queue.length < 32 →
      ∃ before behind e, s.action.queue = before ++ behind ∧ (∀ x ∈ before, x.trigger ≤ T) ∧ (∀ x ∈ behind, T < x.trigger)
        ∧ e =
            { id := s.action.idCounter, trigger := T, group := s.action.markGroup, pattern := s.action.markPattern
              origin := .mark }
        ∧ s.markRequest dmm =
            { s with action := { s.action with idCounter := s.action.idCounter + 1, queue := before ++ e :: behind } })
    ∧ (s.control.runState ≠ .running ∨ T ≤ s.odometer.highWater ∨ s.action.queue.length = 32 →
      MissedAction { s with action := { s.action with idCounter := s.action.idCounter + 1 } } (s.markRequest dmm)
        s.action.idCounter .mark T)

/-- ACTION_CANCEL. In RUNNING, DRAINING and STOPPED the first entry of the queue with the id, from the head, leaves it, the others keep
their order, actions cancelled rises by 1 and the result is DONE; with no such entry the result is NOT_FOUND with the id and nothing
changes. In any other anchored state the result is REFUSED_STATE. -/
def Obligations.ActionCancelRemovesFirst : Prop :=
  ∀ (w : Word64) (id : BitVec 16) (s : State), id = w.extractLsb' 0 16 →
    (s.control.runState ∈ [.running, .draining, .stopped] →
      (∀ before e behind, s.action.queue = before ++ e :: behind → e.id = id → (∀ x ∈ before, x.id ≠ id) →
        ∃ t, exec (.actionCancel w) s = .next t ∧ Completes s t 8 .done 0 s.control.runState [.commandDone]
          ∧ t =
              { s with
                control := t.control, writeBack := t.writeBack
                action := { s.action with queue := before ++ behind, cancelled := s.action.cancelled + 1 } }
          ∧ WriteBackSlotOnly s t)
      ∧ ((∀ x ∈ s.action.queue, x.id ≠ id) →
        ∃ t, exec (.actionCancel w) s = .next t ∧ ControlAndSlotOnly s t
          ∧ Completes s t 8 .notFound (id.setWidth 32) s.control.runState [.commandDone]))
    ∧ (s.control.runState ∈ [.idle, .armed] →
      ∃ t, exec (.actionCancel w) s = .next t ∧ ControlAndSlotOnly s t
        ∧ Completes s t 8 .refusedState (s.control.runState.code.setWidth 32) s.control.runState [.commandDone])

/-! ### The live words of the control window -/

/-- A burst of route words. In IDLE it is stored. In STOPPED it is refused LOCKED at its first word. In ARMED, RUNNING and DRAINING it
is stored when no entry it touches breaks the route rule in the candidate list, and refused with reason ROUTE otherwise, at the first
word of the lowest such entry (log 15). Stored, it changes the setup shadow alone; refused, the last-refusal record and CONTROL_REFUSED. -/
def Obligations.RouteWriteTakenOrRefused : Prop :=
  ∀ (first : Nat) (words : List Word64) (new : Table Word64) (s : State),
    Settled s → (Instr.routeEntryWrite first words).wellFormed = true → RouteStored s.control.shadow new first words →
    Shadow.wf s.control.shadow → Shadow.wf new →
    (s.control.runState = .idle
        ∨ (InRun s ∧ ∀ k, k < words.length → ¬RouteBroken s (routeList new) ((first + k) / 2)) →
      exec (.routeEntryWrite first words) s = .next { s with control := { s.control with shadow := new } })
    ∧ (∀ refusal : LastRefusal,
      (s.control.runState = .stopped ∧ refusal = ⟨BitVec.ofNat 16 (0x0C00 + 8 * first), .locked⟩)
        ∨ (InRun s ∧ ∃ k, k < words.length ∧ RouteBroken s (routeList new) ((first + k) / 2)
          ∧ (∀ j, j < k → ¬RouteBroken s (routeList new) ((first + j) / 2))
          ∧ refusal = ⟨BitVec.ofNat 16 (0x0C00 + 16 * ((first + k) / 2)), .route⟩) →
      ∃ t, exec (.routeEntryWrite first words) s = .next t ∧ ControlAndSlotOnly s t
        ∧ t.control = { s.control with events := t.control.events, int := t.control.int, lastRefusal := refusal }
        ∧ Publishes s t [.controlRefused])

/-- A consumed-index word, in any anchored state: when c′ − c is at or below w − c, modulo 2^32, the ring's consumed index becomes c′ and
nothing else changes; otherwise it is refused with RANGE at the ring's word offset. Its high 32 bits have no effect. -/
def Obligations.ConsumedIndexTakenOrRefused : Prop :=
  ∀ (r : Ring) (word : Word64) (c w new : BitVec 32) (s : State),
    Settled s → s.control.runState ≠ .unanchored → c = (s.writeBack.ring r).consumed → w = (s.writeBack.ring r).writeIndex →
    new = word.extractLsb' 0 32 →
    ((new - c).toNat ≤ (w - c).toNat →
      ∃ t, exec (.consumedIndexWrite r word) s = .next t ∧ t = { s with writeBack := t.writeBack }
        ∧ t.writeBack.ring r = { s.writeBack.ring r with consumed := new }
        ∧ (∀ x, x ≠ r → t.writeBack.ring x = s.writeBack.ring x) ∧ t.writeBack.queue = s.writeBack.queue
        ∧ t.writeBack.slot = s.writeBack.slot)
    ∧ ((w - c).toNat < (new - c).toNat →
      ∃ t, exec (.consumedIndexWrite r word) s = .next t ∧ ControlAndSlotOnly s t
        ∧ t.control =
            { s.control with
              events := t.control.events, int := t.control.int
              lastRefusal :=
                ⟨match r with
                  | .geometry => 0x0080
                  | .exceedance => 0x0088
                  | .action => 0x0090, .range⟩ }
        ∧ Publishes s t [.controlRefused])

/-- The interrupt enable mask is taken as written in any anchored state and INT is evaluated anew: bits 0–23 enable the flags at the same
positions, and bits 24–63 have no effect. No other command changes the mask: hardware reset sets it to zero, and a control write moves
it only by a word of its own, to that word when it is taken. -/
def Obligations.MaskTakenAsWritten : Prop :=
  (∀ (w : Word64) (s : State), Settled s → s.control.runState ≠ .unanchored →
    ∃ t, exec (.interruptEnableMaskWrite w) s = .next t
      ∧ t = { s with control := { s.control with mask := w, int := t.control.int } } ∧ IntAgrees t
      ∧ ∀ (w' : Word64) (t' : State), w'.extractLsb' 0 24 = w.extractLsb' 0 24 →
        exec (.interruptEnableMaskWrite w') s = .next t' → t'.control.int = t.control.int)
  ∧ (∀ (c : Instr) (s t : State), (∀ w, c ≠ .interruptEnableMaskWrite w) → c ≠ .hardwareReset → c ≠ .systemHeadPresented →
      c ≠ .controlWrite → exec c s = .next t → t.control.mask = s.control.mask)
  ∧ (∀ (c : Instr) (r : Request) (rest : List Request) (s t : State), c = .systemHeadPresented ∨ c = .controlWrite →
      s.transit.base ≠ none → s.transit.stage = r :: rest →
      (∀ w ∈ burstWords ((r.hit.map (·.offset)).getD 0) r.data, regionOf w.off ≠ .mask) →
      exec c s = .next t → t.control.mask = s.control.mask)
  ∧ (∀ (r : Request) (rest : List Request) (off : Nat) (w : ControlWord) (s : State), s.control.runState ≠ .unanchored →
      s.transit.stage = r :: rest → SystemWins s → r.kind = .write → r.hit = some { area := 0, offset := off } →
      s.refusalOf (burstWords off r.data) = none → w ∈ burstWords off r.data → regionOf w.off = .mask →
      ∃ t, exec .controlWrite s = .next t ∧ exec .systemHeadPresented s = .next t ∧ t.control.mask = w.beat.data ∧ IntAgrees t)
  ∧ ∀ s t : State, exec .hardwareReset s = .next t → t.control.mask = 0

/-! ### The odometer -/

/-- In UNANCHORED and IDLE a count, a quadrature error or a passage changes nothing; a sample of the lines moves only the line filters and
the time base. That a sample moves the time base, ten samples to one µs, is the model's choice (log 3). -/
def Obligations.CountsHaveNoEffectOutsideARun : Prop :=
  ∀ s : State, Settled s → s.control.runState = .unanchored ∨ s.control.runState = .idle →
    (∀ (forward : Bool) (c : Channel),
      exec (.leadCount forward) s = .next s ∧ exec (.nonLeadCount forward) s = .next s
        ∧ exec (.quadratureError c) s = .next s ∧ exec .markPassage s = .next s)
    ∧ ∀ l : LineLevels, s.resetLow = false →
      ∃ t, exec (.lineFilterSample l) s = .next t ∧ Ticked s t ∧ AllFiltered s.odometer l t.odometer.filters
        ∧ t = { s with time := t.time, phase := t.phase, odometer := { s.odometer with filters := t.odometer.filters } }

/-- A count of the lead that opens no point and makes no action due: D and the lead's travel move by the signed count length, the stall
figures return to 0, the high-water distance takes a greater D_mm. A count that begins a reversal excursion marks it and raises
REVERSAL; one that ends it clears the mark; nothing else changes. -/
def Obligations.LeadCountMovesDistance : Prop :=
  ∀ (forward : Bool) (d x : Int) (s : State),
    Settled s → Counting s → LeadMove s forward d → x = countOf (s.odometer.channel s.odometer.lead) forward →
    (d / 256 ≤ s.odometer.highWater ∨ NothingDue s (d / 256)) → (∀ k, ¬OpensPoint s d k) →
    (¬BeginsReversal s d → ∃ mark : Bool,
      exec (.leadCount forward) s = .next { s with odometer := s.odometer.afterLead x mark }
        ∧ (EndsReversal s d → mark = false) ∧ (¬EndsReversal s d → mark = s.odometer.reversal))
    ∧ (BeginsReversal s d →
      ∃ t, exec (.leadCount forward) s = .next t
        ∧ t =
            { s with control := t.control, writeBack := t.writeBack, odometer := s.odometer.afterLead x true }
        ∧ WriteBackSlotOnly s t ∧ ControlEventsOnly s t ∧ Publishes s t [.reversal])

/-- A lead count in RUNNING that carries D to the boundary of the next point opens it: the odometer moves to the next index, both travels
return to 0, orphaned latches leave with MARKER_REJECT, a new mismatch raises ODO_MISMATCH, and a status write is pending. At a queue of 8
the head is first forced: its waiting entries are given up, POINT_FORCED is raised and counted, and it closes with the points behind it
that wait on nothing. The point then joins the queue with its index, distance, chainage, time, speed, flags, deadline and an entry for each
contributing stream; where it is the head and waits on nothing, every stream being STALE, it closes in the same event. With room, and a
head that waits, nothing closes. That a chainage outside signed 64 bits is the exact integer is the model's choice (log 30). -/
def Obligations.LeadCountOpensPoint : Prop :=
  ∀ (forward mismatch : Bool) (d x k : Int) (travelA travelB : Int) (s : State),
    Settled s → LeadMove s forward d → OpensPoint s d k →
    x = countOf (s.odometer.channel s.odometer.lead) forward →
    (d / 256 ≤ s.odometer.highWater ∨ NothingDue s (d / 256)) →
    travelA = s.odometer.chanA.travel + (if s.odometer.lead = .a then x else 0) →
    travelB = s.odometer.chanB.travel + (if s.odometer.lead = .b then x else 0) →
    (mismatch = true ↔ ((s.odometer.mismatchTolerance * 256 : Nat) : Int) < (travelA - travelB).natAbs) →
    (∃ u v w p flags, OpeningFlags s.odometer d mismatch flags ∧ OpenedPoint s d k mismatch p
      ∧ u = ({ s with odometer := s.odometer.afterOpening x d k s.time mismatch }.raises flags).markStatus
      ∧ (s.assembler.queue.length < 8 → v = u)
      ∧ (∀ q behind, s.assembler.queue = q :: behind → 8 ≤ s.assembler.queue.length →
          Closing
            ({ u with
                assembler :=
                  { u.assembler with
                    queue := q.givenUp { q.flags with forced := true } :: behind
                    forced := u.assembler.forced + 1 } }.raise .pointForced) v)
      ∧ Closing
          { v with
            assembler := { v.assembler with queue := v.assembler.queue ++ [p], opened := v.assembler.opened + 1 } } w
      ∧ exec (.leadCount forward) s = .next ({ w with odometer := { w.odometer with reversal := false } }.settle))
    ∧ (IntAgrees s → HeadWaits s.assembler.queue none → s.assembler.queue.length < 8 →
      (s.assembler.queue = [] → ∃ c ∈ s.assembler.contributing, (s.tap.stream c.stream).state ≠ .stale) →
      ∃ t p flags, exec (.leadCount forward) s = .next t
        ∧ t =
            { s with
              control := t.control, writeBack := t.writeBack
              odometer := { s.odometer.afterOpening x d k s.time mismatch with reversal := false }
              assembler :=
                { s.assembler with queue := s.assembler.queue ++ [p], opened := s.assembler.opened + 1 } }
        ∧ WriteBackSlotOnly s t ∧ ControlEventsOnly s t ∧ Publishes s t flags
        ∧ OpeningFlags s.odometer d mismatch flags ∧ OpenedPoint s d k mismatch p)

/-- A lead count that raises the high-water distance makes actions due. In any case the rise acts before the rest of the count, with the new
D and high-water distance: the due entries at the head of the queue fire in turn, each taking the lowest free slot and logged FIRED, or
MISSED with ACTION_MISSED at a full table; then in RUNNING the periodic triggers act, fired without a record or missed with one, their
next positions advanced. What follows is what the count does to the part with that rise made. Where the count opens no point and begins no
reversal excursion, nothing follows but the reversal mark. With one entry due and no periodic trigger, the lines the entry names are
active and held once more. -/
def Obligations.LeadCountFiresAction : Prop :=
  ∀ (forward : Bool) (d x : Int) (s : State),
    Settled s → Counting s → HoldsSound s → LeadMove s forward d →
    x = countOf (s.odometer.channel s.odometer.lead) forward → s.odometer.highWater < d / 256 →
    (∃ u v, u = { s with odometer := s.odometer.afterLead x s.odometer.reversal } ∧ RiseActs u v
      ∧ exec (.leadCount forward) s =
          exec (.leadCount forward)
            { s with
              control := v.control, writeBack := v.writeBack, action := v.action
              odometer := { s.odometer with highWater := d / 256 } }
      ∧ ((∀ k, ¬OpensPoint s d k) → ¬BeginsReversal s d → ∃ mark, MarkAfter s d mark
        ∧ exec (.leadCount forward) s = .next ({ v with odometer := s.odometer.afterLead x mark }.settle)))
    ∧ ∀ (e : ActionEntry) (rest : List ActionEntry), s.action.queue = e :: rest → e.trigger ≤ d / 256 →
      (∀ y ∈ rest, d / 256 < y.trigger) → (∀ g p, (s.action.periodic g).next = some p → d / 256 < p) →
      (∀ k, ¬OpensPoint s d k) → ¬BeginsReversal s d →
      (∀ slot, LowestFreeSlot s.action slot →
        ∃ t u mark, exec (.leadCount forward) s = .next t ∧ MarkAfter s d mark
          ∧ u =
              (s.produce .action
                (actionLogWords
                  { id := e.id, origin := e.origin, trigger := e.trigger, dmm := d / 256, time := s.time
                    outcome := .fired })).settle
          ∧ t =
              { s with
                control := u.control, writeBack := u.writeBack
                odometer := s.odometer.afterLead x mark
                action :=
                  { s.action with
                    queue := rest
                    pulses := Table.write s.action.pulses slot
                      ⟨e.group, e.pattern, s.time + BitVec.ofNat 48 s.action.pulseLength⟩
                    holds := t.action.holds, fired := s.action.fired + 1 } }
          ∧ ∀ line : Fin 8,
              (Names e.group e.pattern line → t.lineLevel line = !s.action.restLevel line
                ∧ t.action.holds.getD line.val 0 = s.action.holds.getD line.val 0 + 1)
              ∧ (¬Names e.group e.pattern line → t.lineLevel line = s.lineLevel line
                ∧ t.action.holds.getD line.val 0 = s.action.holds.getD line.val 0))
      ∧ (TableFull s.action →
        ∃ t u mark, exec (.leadCount forward) s = .next t ∧ MarkAfter s d mark
          ∧ u =
              ((s.raise .actionMissed).produce .action
                (actionLogWords
                  { id := e.id, origin := e.origin, trigger := e.trigger, dmm := d / 256, time := s.time
                    outcome := .missed })).settle
          ∧ t =
              { s with
                control := u.control, writeBack := u.writeBack
                odometer := s.odometer.afterLead x mark
                action := { s.action with queue := rest, missed := s.action.missed + 1 } })

/-- A count x of the channel that is not the lead moves its travels and leaves D. At the stall distance, with the mark clear, ODO_STALL is
raised; with swap lock on the mark is set and the lead stays; with it off the lead is swapped, and the old lead is watched from zero. -/
def Obligations.NonLeadCountWatchesStall : Prop :=
  ∀ (forward : Bool) (x net : Int) (s : State),
    Settled s → Counting s → x = countOf (s.odometer.channel s.odometer.lead.other) forward →
    net = (s.odometer.channel s.odometer.lead.other).net + x →
    (net.natAbs < s.odometer.stallDistance * 256 ∨ s.odometer.stallReported = true →
      exec (.nonLeadCount forward) s = .next { s with odometer := s.odometer.afterNonLead x })
    ∧ (s.odometer.stallDistance * 256 ≤ net.natAbs → s.odometer.stallReported = false →
      ∃ t, exec (.nonLeadCount forward) s = .next t
        ∧ t = { s with control := t.control, writeBack := t.writeBack, odometer := t.odometer }
        ∧ WriteBackSlotOnly s t ∧ ControlEventsOnly s t ∧ Publishes s t [.odoStall]
        ∧ (s.odometer.swapLock = true → t.odometer = { s.odometer.afterNonLead x with stallReported := true })
        ∧ (s.odometer.swapLock = false →
          t.odometer =
            { (s.odometer.afterNonLead x).setChannel s.odometer.lead
                { s.odometer.channel s.odometer.lead with net := 0 } with
              lead := s.odometer.lead.other, stallTravel := 0, stallReported := false }))

/-- In the counting states, a quadrature error adds 1 to its channel's count, which stops at its greatest value, and raises QUAD_ERROR. A
passage latches D and the time behind the latches there; at 4 latches it is dropped with MARKER_REJECT. -/
def Obligations.QuadratureErrorsAndPassages : Prop :=
  ∀ s : State, Settled s → Counting s →
    (∀ c : Channel, ∃ t errors, exec (.quadratureError c) s = .next t
      ∧ t =
          { s with
            control := t.control, writeBack := t.writeBack
            odometer := s.odometer.setChannel c { s.odometer.channel c with errors := errors } }
      ∧ errors.toNat = min 0xFFFFFFFF ((s.odometer.channel c).errors.toNat + 1)
      ∧ WriteBackSlotOnly s t ∧ ControlEventsOnly s t ∧ Publishes s t [.quadError])
    ∧ (s.odometer.latches.length < 4 →
      exec .markPassage s =
        .next { s with odometer := { s.odometer with latches := s.odometer.latches ++ [⟨s.odometer.d, s.time⟩] } })
    ∧ (4 ≤ s.odometer.latches.length →
      ∃ t, exec .markPassage s = .next t ∧ t = { s with control := t.control, writeBack := t.writeBack }
        ∧ WriteBackSlotOnly s t ∧ ControlEventsOnly s t ∧ Publishes s t [.markerReject])

/-- A sample of the five lines while RESET is high: each filter takes its level and the time base moves. With no accepted change, or a
falling change of MARK alone, nothing else happens; with the changes of one event, that event happens, as the event of its own does. With
several events each takes effect once, as an event of its own, in an order that nothing constrains (log 2).
While RESET is low no sample is taken. That ten samples make one µs is the model's choice (log 3). -/
def Obligations.SampleFiltersAndDecodes : Prop :=
  ∀ (l : LineLevels) (s : State), Settled s →
    (s.resetLow = true → exec (.lineFilterSample l) s = .next s)
    ∧ (s.resetLow = false →
      ∃ u : State, u = { s with odometer := { s.odometer with filters := u.odometer.filters } }
        ∧ AllFiltered s.odometer l u.odometer.filters
        ∧ ((acceptedChanges s.odometer l = [false, false, false, false, false]
              ∨ (acceptedChanges s.odometer l = [false, false, false, false, true] ∧ l.mark = false)) →
            ∃ t, exec (.lineFilterSample l) s = .next t ∧ Ticked u t ∧ t = { u with time := t.time, phase := t.phase })
        ∧ (∀ e, SampleBrings s.odometer l e →
            ∃ v t, exec e u = .next v ∧ exec (.lineFilterSample l) s = .next t ∧ Ticked v t
              ∧ t = { v with time := t.time, phase := t.phase })
        ∧ (Counting s →
            ∃ es : List SampleEvent, es.Perm (s.odometer.sampleLines l).2
              ∧ exec (.lineFilterSample l) s =
                  .next
                    (es.foldl State.sampleEvent
                        { u with freeCount := if 2 ≤ es.length then s.freeCount + 1 else s.freeCount }).tick.settle))

/-! ### Timers, deadlines and pulses -/

/-- A running silence timer whose expiry time is reached stops; the stream becomes STALE, STREAM_LOST is raised, and in the same event no
pending point waits on the stream any more; the points up to the first that waits on another stream close, with the records that this
emits, and a drain completes with its last point. Where the head of the queue waits on another stream, nothing else changes. A timer that is
stopped or not due has no expiry (log 5); it is due while the time base equals its expiry time (log 6). -/
def Obligations.SilenceTimerExpires : Prop :=
  ∀ (i : Fin 4) (s : State), Settled s → Counting s →
    ((∀ expiry, (s.tap.stream i).timer = some expiry → ¬Reached s expiry) → exec (.silenceTimerExpiry i) s = .next s)
    ∧ ∀ expiry, (s.tap.stream i).timer = some expiry → Reached s expiry →
      ∃ t, exec (.silenceTimerExpiry i) s = .next t
        ∧ (∀ p ∈ t.assembler.queue, ¬p.WaitsOn i)
        ∧ (∃ q u v w : State,
            q =
                { s with
                  tap := s.tap.setStream i { s.tap.stream i with state := .stale, timer := none }
                  assembler :=
                    { s.assembler with
                      queue := s.assembler.queue.map
                        (fun p =>
                          { p with entries := p.entries.map (fun e => if e.stream = i then e.givenUp else e) }) } }
            ∧ u = q.raise .streamLost
            ∧ Closing u v ∧ DrainEnds v w ∧ t = w.settle)
        ∧ t.tap.stream i = { s.tap.stream i with state := .stale, timer := none } ∧ t.flagSet .streamLost = true
        ∧ (s.control.runState ≠ .draining ∨ s.assembler.queue ≠ [] → HeadWaits s.assembler.queue (some i) →
          t =
              { s with
                control := t.control, writeBack := t.writeBack
                tap := s.tap.setStream i { s.tap.stream i with state := .stale, timer := none }
                assembler :=
                  { s.assembler with
                    queue := s.assembler.queue.map
                      (fun p =>
                        { p with entries := p.entries.map (fun e => if e.stream = i then e.givenUp else e) }) } }
            ∧ WriteBackSlotOnly s t ∧ ControlEventsOnly s t ∧ Publishes s t [.streamLost])

/-- The deadline of a pending point is reached. Each WAITING entry is given up, the point carries POINT_GAP, POINT_GAP is raised and counted;
with no WAITING entry nothing of this happens. The points up to the first that waits then close, each placed in the history ring and the
centre half a chord behind it emitted before the next closes; a drain whose last point has closed emits the tail in increasing order, ends
the records and is STOPPED. Behind a head that waits nothing closes; and a head with a waiting point behind it and no centre due is counted
closed and joins the history ring as a sample with POINT_GAP. Away from its deadline, or for an index that is not pending, there is no
expiry (log 5); it is reached while the time base equals it (log 6). -/
def Obligations.PointDeadlineExpires : Prop :=
  ∀ (k : Int) (s : State), Settled s → Counting s →
    ((∀ p ∈ s.assembler.queue, p.index = k → ¬Reached s p.deadline) → exec (.pointDeadlineExpiry k) s = .next s)
    ∧ (∀ before p behind, s.assembler.queue = before ++ p :: behind → p.index = k → Reached s p.deadline →
      (∀ x ∈ before ++ behind, x.index ≠ k) →
      ∃ u v w, ((∀ i, ¬p.WaitsOn i) → u = s)
        ∧ ((∃ i, p.WaitsOn i) →
          u =
            { s with
              assembler :=
                { s.assembler with
                  queue := before ++ p.givenUp { p.flags with gap := true } :: behind
                  gapped := s.assembler.gapped + 1 } }.raise .pointGap)
        ∧ Closing u v ∧ DrainEnds v w ∧ exec (.pointDeadlineExpiry k) s = .next w.settle)
    ∧ (∀ before p behind, s.assembler.queue = before ++ p :: behind → before ≠ [] → p.index = k → Reached s p.deadline →
      (∀ x ∈ before ++ behind, x.index ≠ k) → HeadWaits before none →
      ((∀ i, ¬p.WaitsOn i) → exec (.pointDeadlineExpiry k) s = .next s)
      ∧ ((∃ i, p.WaitsOn i) →
        ∃ t, exec (.pointDeadlineExpiry k) s = .next t
          ∧ t =
              { s with
                control := t.control, writeBack := t.writeBack
                assembler :=
                  { s.assembler with
                    queue := before ++ p.givenUp { p.flags with gap := true } :: behind
                    gapped := s.assembler.gapped + 1 } }
          ∧ WriteBackSlotOnly s t ∧ ControlEventsOnly s t ∧ Publishes s t [.pointGap]))
    ∧ ∀ p behind, s.assembler.queue = p :: behind → p.index = k → Reached s p.deadline → (∀ x ∈ behind, x.index ≠ k) →
      (∃ i, p.WaitsOn i) → behind ≠ [] → HeadWaits behind none →
      (∀ first, s.geometry.firstPoint = some first → k - s.geometry.chord < first) →
      ∃ t x, exec (.pointDeadlineExpiry k) s = .next t
        ∧ t =
            { s with
              control := t.control, writeBack := t.writeBack
              assembler :=
                { s.assembler with
                  queue := behind, closed := s.assembler.closed + 1, gapped := s.assembler.gapped + 1 }
              geometry :=
                { s.geometry with ring := Table.write s.geometry.ring (k % 256).toNat x, newest := some k } }
        ∧ WriteBackSlotOnly s t ∧ ControlEventsOnly s t ∧ Publishes s t [.pointGap]
        ∧ SampleOf s.assembler (p.givenUp { p.flags with gap := true }) x

/-- When the time base reaches the release time of an occupied slot, the slot is freed and each line its pulse names is held once
less; a line whose hold count reaches 0 is at its rest level, a line held by another slot stays active. Releases commute. A slot that is
free or not due has no release (log 5); it is due while the time base equals its release time (log 6). -/
def Obligations.PulseReleased : Prop :=
  (∀ (slot : Fin 32) (s : State),
    ((∀ p, Table.read s.action.pulses slot.val = some p → ¬Reached s p.release) → exec (.pulseRelease slot) s = .next s)
    ∧ ∀ p, Table.read s.action.pulses slot.val = some p → Reached s p.release → HoldsSound s →
      ∃ t, exec (.pulseRelease slot) s = .next t
        ∧ t = { s with action := { s.action with pulses := t.action.pulses, holds := t.action.holds } }
        ∧ Table.read t.action.pulses slot.val = none
        ∧ (∀ k, k ≠ slot.val → Table.read t.action.pulses k = Table.read s.action.pulses k)
        ∧ ∀ line : Fin 8,
            (Names p.group p.pattern line →
              t.action.holds.getD line.val 0 + 1 = s.action.holds.getD line.val 0
                ∧ (s.action.holds.getD line.val 0 = 1 → t.lineLevel line = s.action.restLevel line)
                ∧ (1 < s.action.holds.getD line.val 0 → t.lineLevel line = !s.action.restLevel line))
            ∧ (¬Names p.group p.pattern line →
              t.action.holds.getD line.val 0 = s.action.holds.getD line.val 0 ∧ t.lineLevel line = s.lineLevel line))
  ∧ ∀ (a b : Fin 32) (s u v : State), exec (.pulseRelease a) s = .next u → exec (.pulseRelease b) s = .next v →
      exec (.pulseRelease b) u = exec (.pulseRelease a) v

/-! ### Points, records and runs -/

/-- A healthy frame at or above a point's crossing time fills a waiting entry: each quantity takes v0 + trunc((v1 − v0)·(t_k − t0) /
(t1 − t0)), exact and truncated toward zero; v1 with no before-frame or with t1 = t0. With t0 at or below t_k and t_k at or below t1 the
value lies between v0 and v1, is v0 for a before-frame at t_k, and v1 for a frame at t_k. -/
def Obligations.FilledValueIsInterpolated : Prop :=
  ∀ (f : Frame) (tk : Time) (before : Option BeforeFrame), f.healthy = true → (f.time - tk).toNat < 2 ^ 47 →
    ∃ values, applyFrame f tk (.waiting before) = .filled values ∧ values.map (·.1) = f.values.map (·.1)
      ∧ ∀ q v1, Table.read f.values q = some v1 →
        ∃ v, Table.read values q = some v
          ∧ (before = none → v = v1)
          ∧ ∀ b v0, before = some b → Table.read b.values q = some v0 →
              (f.time = b.time → v = v1)
                ∧ (f.time ≠ b.time →
                  v = v0 + ((v1 - v0) * ((tk - b.time).toNat : Int)).tdiv ((f.time - b.time).toNat : Int))
                ∧ (tk = b.time → f.time ≠ b.time → v = v0) ∧ (tk = f.time → v = v1)
                ∧ ((tk - b.time).toNat ≤ (f.time - b.time).toNat → min v0 v1 ≤ v ∧ v ≤ max v0 v1)

/-- The geometry record of a centre: each of the eight channels is computed from the valid quantities at the points that it needs, exact,
with divisions truncated toward zero, and limited to signed 32 bits at the end; a channel with an input that is not valid is not valid.
EDGE says that the twist point or an end of the chord lies outside the run. -/
def Obligations.GeometryChannelsComputed : Prop :=
  ∀ (g : GeometryUnit) (x : Sample),
    ChannelIs (g.record x) 0 (Gauge g x) ∧ ChannelIs (g.record x) 1 (Xlevel g x) ∧ ChannelIs (g.record x) 2 (Twist g x)
      ∧ ChannelIs (g.record x) 3 (Chord g (SumOf 7 3) x) ∧ ChannelIs (g.record x) 4 (Chord g (SumOf 7 4) x)
      ∧ ChannelIs (g.record x) 5 (Chord g (SumOf 6 1) x) ∧ ChannelIs (g.record x) 6 (Chord g (DiffOf 6 2) x)
      ∧ ChannelIs (g.record x) 7 (Curv x) ∧ (g.record x).channels.length = 8
      ∧ ((g.record x).edge = true ↔
          (¬∃ y, PointOf g (x.index - g.twist) y) ∨ (¬∃ y, PointOf g (x.index - g.chord) y)
            ∨ ¬∃ y, PointOf g (x.index + g.chord) y)
      ∧ (g.record x).index = x.index ∧ (g.record x).speed = x.speed ∧ (g.record x).dmm = x.dmm
      ∧ (g.record x).chainage = x.chainage ∧ (g.record x).time = x.time ∧ (g.record x).flags = x.flags
      ∧ (g.record x).uncomp = g.uncompensated

/-- The class of a channel value (a value saturated to +2,147,483,647 under a limit of just that value is not beyond it, the model's choice,
log 29), and what a record does to a tracker whose run, if open, is of the profile applied and holds fewer than 4096 records: NONE and
INVALID leave a CLEAR tracker; ALERT and LIMIT open a run of length 1 at the record, or extend the open run, whose peak moves only to a
greater magnitude. A tracker that enters LIMIT_RUN on a channel with its mark flag set makes the run's mark request, for the record's
distance (what that does is stated in ActionPostQueuesOrMisses). Opening and extending change nothing else. NONE and INVALID close an open
run, with cause CLEARED and INVALID; an open run of another profile closes with cause PROFILE, and one of 4096 records that would be
extended with cause LENGTH, the record then acting from CLEAR; the end of the records closes every open run in channel order with cause
RUN_END. A closing LIMIT run, or an ALERT run of the minimum length, is reported; a shorter ALERT run is counted short. Before its channels
a record consumes the route entries from the cursor on that it has reached: the last gives the active profile (a profile outside 0–7 is a
free value, log 14), the override is cleared and PROFILE_CHANGE raised once; with none reached nothing changes. After its channels the
record is handed to write-back with the profile applied. -/
def Obligations.RunsOpenAndExtend : Prop :=
  (∀ (e : ProfileEntry) (v : Int),
    classify e none = .invalid
      ∧ (0 < e.limit → e.limit < v.natAbs → classify e (some v) = .limit)
      ∧ (¬(0 < e.limit ∧ e.limit < v.natAbs) → 0 < e.alert → e.alert < v.natAbs → classify e (some v) = .alert)
      ∧ (¬(0 < e.limit ∧ e.limit < v.natAbs) → ¬(0 < e.alert ∧ e.alert < v.natAbs) → classify e (some v) = .none))
  ∧ (∀ (g : GeometryRecord) (ch : Nat) (s : State) (e : ProfileEntry) (value : Option Int) (v : Int),
    ch < 8 → s.exceedance.trackers.length = 8 → e = s.exceedance.entry g.profile ch → g.channels[ch]? = some value →
    (value = some v ∨ value = none) →
    (s.exceedance.trackers[ch]? = some .clear →
      (classify e value = .none ∨ classify e value = .invalid → s.trackChannel g ch = s)
      ∧ ∀ r, r =
            { profile := g.profile, start := g.index, startChainage := g.chainage, stop := g.index, length := 1
              peak := g.index, peakChainage := g.chainage, peakValue := v, markRequested := false } →
        (classify e value = .alert → s.trackChannel g ch = { s with exceedance := s.exceedance.setTracker ch (.alertRun r) })
        ∧ (classify e value = .limit → e.mark = false →
          s.trackChannel g ch = { s with exceedance := s.exceedance.setTracker ch (.limitRun r) })
        ∧ (classify e value = .limit → e.mark = true →
          s.trackChannel g ch =
            { s with exceedance := s.exceedance.setTracker ch (.limitRun { r with markRequested := true }) }.markRequest g.dmm))
    ∧ (∀ r, s.exceedance.trackers[ch]? = some (.alertRun r) → r.profile = g.profile → r.length < 4096 →
      (classify e value = .alert → ∃ r', Extends r r' g v
        ∧ s.trackChannel g ch = { s with exceedance := s.exceedance.setTracker ch (.alertRun r') })
      ∧ (classify e value = .limit → ∃ r', Extends r r' g v
        ∧ (e.mark = false ∨ r.markRequested = true →
          s.trackChannel g ch = { s with exceedance := s.exceedance.setTracker ch (.limitRun r') })
        ∧ (e.mark = true → r.markRequested = false →
          s.trackChannel g ch =
            { s with exceedance := s.exceedance.setTracker ch (.limitRun { r' with markRequested := true }) }.markRequest
              g.dmm)))
    ∧ (∀ r, s.exceedance.trackers[ch]? = some (.limitRun r) → r.profile = g.profile → r.length < 4096 →
      classify e value = .alert ∨ classify e value = .limit →
      ∃ r', Extends r r' g v ∧ s.trackChannel g ch = { s with exceedance := s.exceedance.setTracker ch (.limitRun r') })
    ∧ ∀ r, s.exceedance.trackers[ch]? = some (.alertRun r) ∨ s.exceedance.trackers[ch]? = some (.limitRun r) →
      (r.profile = g.profile → classify e value = .none → RunCloses s (s.trackChannel g ch) ch .cleared)
      ∧ (r.profile = g.profile → classify e value = .invalid → RunCloses s (s.trackChannel g ch) ch .invalid)
      ∧ (r.profile = g.profile → r.length = 4096 → classify e value = .alert ∨ classify e value = .limit →
        ∃ m, RunCloses s m ch .length ∧ m.exceedance.trackers[ch]? = some .clear ∧ s.trackChannel g ch = m.trackChannel g ch)
      ∧ (r.profile ≠ g.profile →
        ∃ m, RunCloses s m ch .profile ∧ m.exceedance.trackers[ch]? = some .clear ∧ s.trackChannel g ch = m.trackChannel g ch))
  ∧ (∀ s : State, RunsClose .runEnd [0, 1, 2, 3, 4, 5, 6, 7] s s.endRecords)
  ∧ ∀ (g : GeometryRecord) (reached : List RouteEntry) (s : State), ReachedFromCursor s g.chainage reached →
    ∃ m v applied, (reached = [] → m = s)
      ∧ (∀ e, reached.getLast? = some e →
        ∃ p : BitVec 3, (e.profile.toNat ≤ 7 → p = e.profile.setWidth 3)
          ∧ m =
              { s with
                exceedance :=
                  { s.exceedance with
                    active := p, overrideOn := false, cursor := s.exceedance.cursor + reached.length } }.raise
                .profileChange)
      ∧ applied = { g with profile := m.exceedance.active }
      ∧ v = [0, 1, 2, 3, 4, 5, 6, 7].foldl (fun u ch => u.trackChannel applied ch) m
      ∧ s.classifyRecord g = v.produce .geometry (geometryWords applied)

/-- The fate of a record that a unit hands to write-back. At a full ring it is dropped, the lost count rises and RING_FULL is raised; else,
at 16 queued records, it is dropped, the lost count rises and WRITEBACK_LAG is raised; else it takes the write index, which advances by
1, its slot's address and its content are fixed, it joins the tail of the queue, and a status write is pending behind it. The records a
ring holds never exceed its capacity. -/
def Obligations.RecordProduced : Prop :=
  ∀ (r : Ring) (content : List Word64) (area : Area) (lost : BitVec 32) (x : RingState) (s t : State),
    Settled s → s.control.runState ≠ .unanchored → Table.read s.transit.areas r.area = some area → x = s.writeBack.ring r →
    lost.toNat = min 0xFFFFFFFF (x.lost.toNat + 1) → t = (s.produce r content).settle →
    ((x.writeIndex - x.consumed).toNat = x.capacity ∨ s.writeBack.queue.length = 16 →
      t = { s with control := t.control, writeBack := { s.writeBack.setRing r { x with lost := lost } with slot := t.writeBack.slot } }
        ∧ ControlEventsOnly s t
        ∧ ((x.writeIndex - x.consumed).toNat = x.capacity → Publishes s t [.ringFull])
        ∧ ((x.writeIndex - x.consumed).toNat ≠ x.capacity → Publishes s t [.writebackLag]))
    ∧ ((x.writeIndex - x.consumed).toNat ≠ x.capacity → s.writeBack.queue.length ≠ 16 →
      ∃ e, t =
            { s with
              writeBack :=
                { s.writeBack.setRing r { x with writeIndex := x.writeIndex + 1 } with
                  queue := s.writeBack.queue ++ [e], slot := t.writeBack.slot } }
        ∧ t.writeBack.slot = s.writeBack.slot.afterMark (s.writeBack.queue.length + 1)
        ∧ e.ring = r ∧ e.index = x.writeIndex ∧ e.content = content
        ∧ e.addr = area.base + BitVec.ofNat 36 (x.writeIndex.toNat % x.capacity * r.recordBytes)
        ∧ e.beats = (match r with
          | .geometry | .exceedance => 8
          | .action => 4))
    ∧ ((x.writeIndex - x.consumed).toNat ≤ x.capacity →
      ((t.writeBack.ring r).writeIndex - (t.writeBack.ring r).consumed).toNat ≤ (t.writeBack.ring r).capacity)

end
end

