-- ==== Sys2Proof/Laws/State.lean ====
section
/-! SUPPORT. What the shared updates of State leave alone and what they set, one lemma a field, so that no later proof unfolds them. -/

namespace Sys2Proof.Machine

/-! ### Raising a flag -/

@[simp] theorem State.raise_time (s : State) (f : EventFlag) : (s.raise f).time = s.time := by unfold State.raise; split <;> rfl

@[simp] theorem State.raise_phase (s : State) (f : EventFlag) : (s.raise f).phase = s.phase := by unfold State.raise; split <;> rfl

@[simp] theorem State.raise_resetLow (s : State) (f : EventFlag) : (s.raise f).resetLow = s.resetLow := by unfold State.raise; split <;> rfl

@[simp] theorem State.raise_prstLow (s : State) (f : EventFlag) : (s.raise f).prstLow = s.prstLow := by unfold State.raise; split <;> rfl

@[simp] theorem State.raise_transit (s : State) (f : EventFlag) : (s.raise f).transit = s.transit := by unfold State.raise; split <;> rfl

@[simp] theorem State.raise_odometer (s : State) (f : EventFlag) : (s.raise f).odometer = s.odometer := by unfold State.raise; split <;> rfl

@[simp] theorem State.raise_tap (s : State) (f : EventFlag) : (s.raise f).tap = s.tap := by unfold State.raise; split <;> rfl

@[simp] theorem State.raise_assembler (s : State) (f : EventFlag) : (s.raise f).assembler = s.assembler := by unfold State.raise; split <;> rfl

@[simp] theorem State.raise_geometry (s : State) (f : EventFlag) : (s.raise f).geometry = s.geometry := by unfold State.raise; split <;> rfl

@[simp] theorem State.raise_exceedance (s : State) (f : EventFlag) : (s.raise f).exceedance = s.exceedance := by unfold State.raise; split <;> rfl

@[simp] theorem State.raise_action (s : State) (f : EventFlag) : (s.raise f).action = s.action := by unfold State.raise; split <;> rfl

@[simp] theorem State.raise_freeCount (s : State) (f : EventFlag) : (s.raise f).freeCount = s.freeCount := by unfold State.raise; split <;> rfl

@[simp] theorem State.raise_pending (s : State) (f : EventFlag) : (s.raise f).pending = s.pending := by unfold State.raise; split <;> rfl

@[simp] theorem State.raise_control_runState (s : State) (f : EventFlag) : (s.raise f).control.runState = s.control.runState := by
  unfold State.raise; split <;> rfl

@[simp] theorem State.raise_control_shadow (s : State) (f : EventFlag) : (s.raise f).control.shadow = s.control.shadow := by
  unfold State.raise; split <;> rfl

@[simp] theorem State.raise_control_mask (s : State) (f : EventFlag) : (s.raise f).control.mask = s.control.mask := by
  unfold State.raise; split <;> rfl

@[simp] theorem State.raise_control_lastCommand (s : State) (f : EventFlag) : (s.raise f).control.lastCommand = s.control.lastCommand := by
  unfold State.raise; split <;> rfl

@[simp] theorem State.raise_control_lastRefusal (s : State) (f : EventFlag) : (s.raise f).control.lastRefusal = s.control.lastRefusal := by
  unfold State.raise; split <;> rfl

@[simp] theorem State.raise_control_statusSeq (s : State) (f : EventFlag) : (s.raise f).control.statusSeq = s.control.statusSeq := by
  unfold State.raise; split <;> rfl

@[simp] theorem State.raise_writeBack_geometryRing (s : State) (f : EventFlag) : (s.raise f).writeBack.geometryRing = s.writeBack.geometryRing := by
  unfold State.raise; split <;> rfl

@[simp] theorem State.raise_writeBack_exceedanceRing (s : State) (f : EventFlag) : (s.raise f).writeBack.exceedanceRing = s.writeBack.exceedanceRing := by
  unfold State.raise; split <;> rfl

@[simp] theorem State.raise_writeBack_actionRing (s : State) (f : EventFlag) : (s.raise f).writeBack.actionRing = s.writeBack.actionRing := by
  unfold State.raise; split <;> rfl

@[simp] theorem State.raise_writeBack_queue (s : State) (f : EventFlag) : (s.raise f).writeBack.queue = s.writeBack.queue := by
  unfold State.raise; split <;> rfl

/-! ### A pending status write -/

@[simp] theorem State.markStatus_time (s : State) : (s.markStatus).time = s.time := by unfold State.markStatus; split <;> rfl

@[simp] theorem State.markStatus_phase (s : State) : (s.markStatus).phase = s.phase := by unfold State.markStatus; split <;> rfl

@[simp] theorem State.markStatus_resetLow (s : State) : (s.markStatus).resetLow = s.resetLow := by unfold State.markStatus; split <;> rfl

@[simp] theorem State.markStatus_prstLow (s : State) : (s.markStatus).prstLow = s.prstLow := by unfold State.markStatus; split <;> rfl

@[simp] theorem State.markStatus_transit (s : State) : (s.markStatus).transit = s.transit := by unfold State.markStatus; split <;> rfl

@[simp] theorem State.markStatus_control (s : State) : (s.markStatus).control = s.control := by unfold State.markStatus; split <;> rfl

@[simp] theorem State.markStatus_odometer (s : State) : (s.markStatus).odometer = s.odometer := by unfold State.markStatus; split <;> rfl

@[simp] theorem State.markStatus_tap (s : State) : (s.markStatus).tap = s.tap := by unfold State.markStatus; split <;> rfl

@[simp] theorem State.markStatus_assembler (s : State) : (s.markStatus).assembler = s.assembler := by unfold State.markStatus; split <;> rfl

@[simp] theorem State.markStatus_geometry (s : State) : (s.markStatus).geometry = s.geometry := by unfold State.markStatus; split <;> rfl

@[simp] theorem State.markStatus_exceedance (s : State) : (s.markStatus).exceedance = s.exceedance := by unfold State.markStatus; split <;> rfl

@[simp] theorem State.markStatus_action (s : State) : (s.markStatus).action = s.action := by unfold State.markStatus; split <;> rfl

@[simp] theorem State.markStatus_freeCount (s : State) : (s.markStatus).freeCount = s.freeCount := by unfold State.markStatus; split <;> rfl

@[simp] theorem State.markStatus_pending (s : State) : (s.markStatus).pending = s.pending := by unfold State.markStatus; split <;> rfl

@[simp] theorem State.markStatus_writeBack_geometryRing (s : State) : s.markStatus.writeBack.geometryRing = s.writeBack.geometryRing := by
  unfold State.markStatus; split <;> rfl

@[simp] theorem State.markStatus_writeBack_exceedanceRing (s : State) : s.markStatus.writeBack.exceedanceRing = s.writeBack.exceedanceRing := by
  unfold State.markStatus; split <;> rfl

@[simp] theorem State.markStatus_writeBack_actionRing (s : State) : s.markStatus.writeBack.actionRing = s.writeBack.actionRing := by
  unfold State.markStatus; split <;> rfl

@[simp] theorem State.markStatus_writeBack_queue (s : State) : s.markStatus.writeBack.queue = s.writeBack.queue := by
  unfold State.markStatus; split <;> rfl

/-! ### The end of an event -/

@[simp] theorem State.settle_time (s : State) : (s.settle).time = s.time := rfl

@[simp] theorem State.settle_phase (s : State) : (s.settle).phase = s.phase := rfl

@[simp] theorem State.settle_resetLow (s : State) : (s.settle).resetLow = s.resetLow := rfl

@[simp] theorem State.settle_prstLow (s : State) : (s.settle).prstLow = s.prstLow := rfl

@[simp] theorem State.settle_transit (s : State) : (s.settle).transit = s.transit := rfl

@[simp] theorem State.settle_control (s : State) : (s.settle).control = s.control := rfl

@[simp] theorem State.settle_odometer (s : State) : (s.settle).odometer = s.odometer := rfl

@[simp] theorem State.settle_tap (s : State) : (s.settle).tap = s.tap := rfl

@[simp] theorem State.settle_assembler (s : State) : (s.settle).assembler = s.assembler := rfl

@[simp] theorem State.settle_geometry (s : State) : (s.settle).geometry = s.geometry := rfl

@[simp] theorem State.settle_exceedance (s : State) : (s.settle).exceedance = s.exceedance := rfl

@[simp] theorem State.settle_action (s : State) : (s.settle).action = s.action := rfl

@[simp] theorem State.settle_freeCount (s : State) : (s.settle).freeCount = s.freeCount := rfl

@[simp] theorem State.settle_pending (s : State) : (s.settle).pending = s.pending := rfl

@[simp] theorem State.settle_writeBack_geometryRing (s : State) : s.settle.writeBack.geometryRing = s.writeBack.geometryRing := by
  unfold State.settle WriteBack.settle; dsimp only; split <;> rfl

@[simp] theorem State.settle_writeBack_exceedanceRing (s : State) : s.settle.writeBack.exceedanceRing = s.writeBack.exceedanceRing := by
  unfold State.settle WriteBack.settle; dsimp only; split <;> rfl

@[simp] theorem State.settle_writeBack_actionRing (s : State) : s.settle.writeBack.actionRing = s.writeBack.actionRing := by
  unfold State.settle WriteBack.settle; dsimp only; split <;> rfl

@[simp] theorem State.settle_writeBack_queue (s : State) : s.settle.writeBack.queue = s.writeBack.queue := by
  unfold State.settle WriteBack.settle; dsimp only; split <;> rfl

/-! ### Production of a record -/

@[simp] theorem State.produce_time (s : State) (r : Ring) (c : List Word64) : (s.produce r c).time = s.time := by
  unfold State.produce; (repeat' split) <;> simp

@[simp] theorem State.produce_phase (s : State) (r : Ring) (c : List Word64) : (s.produce r c).phase = s.phase := by
  unfold State.produce; (repeat' split) <;> simp

@[simp] theorem State.produce_resetLow (s : State) (r : Ring) (c : List Word64) : (s.produce r c).resetLow = s.resetLow := by
  unfold State.produce; (repeat' split) <;> simp

@[simp] theorem State.produce_prstLow (s : State) (r : Ring) (c : List Word64) : (s.produce r c).prstLow = s.prstLow := by
  unfold State.produce; (repeat' split) <;> simp

@[simp] theorem State.produce_transit (s : State) (r : Ring) (c : List Word64) : (s.produce r c).transit = s.transit := by
  unfold State.produce; (repeat' split) <;> simp

@[simp] theorem State.produce_odometer (s : State) (r : Ring) (c : List Word64) : (s.produce r c).odometer = s.odometer := by
  unfold State.produce; (repeat' split) <;> simp

@[simp] theorem State.produce_tap (s : State) (r : Ring) (c : List Word64) : (s.produce r c).tap = s.tap := by
  unfold State.produce; (repeat' split) <;> simp

@[simp] theorem State.produce_assembler (s : State) (r : Ring) (c : List Word64) : (s.produce r c).assembler = s.assembler := by
  unfold State.produce; (repeat' split) <;> simp

@[simp] theorem State.produce_geometry (s : State) (r : Ring) (c : List Word64) : (s.produce r c).geometry = s.geometry := by
  unfold State.produce; (repeat' split) <;> simp

@[simp] theorem State.produce_exceedance (s : State) (r : Ring) (c : List Word64) : (s.produce r c).exceedance = s.exceedance := by
  unfold State.produce; (repeat' split) <;> simp

@[simp] theorem State.produce_action (s : State) (r : Ring) (c : List Word64) : (s.produce r c).action = s.action := by
  unfold State.produce; (repeat' split) <;> simp

@[simp] theorem State.produce_freeCount (s : State) (r : Ring) (c : List Word64) : (s.produce r c).freeCount = s.freeCount := by
  unfold State.produce; (repeat' split) <;> simp

@[simp] theorem State.produce_pending (s : State) (r : Ring) (c : List Word64) : (s.produce r c).pending = s.pending := by
  unfold State.produce; (repeat' split) <;> simp

@[simp] theorem State.produce_control_runState (s : State) (r : Ring) (c : List Word64) :
    (s.produce r c).control.runState = s.control.runState := by
  unfold State.produce; (repeat' split) <;> simp

@[simp] theorem State.produce_control_shadow (s : State) (r : Ring) (c : List Word64) :
    (s.produce r c).control.shadow = s.control.shadow := by
  unfold State.produce; (repeat' split) <;> simp

@[simp] theorem State.produce_control_mask (s : State) (r : Ring) (c : List Word64) :
    (s.produce r c).control.mask = s.control.mask := by
  unfold State.produce; (repeat' split) <;> simp

@[simp] theorem State.produce_control_lastCommand (s : State) (r : Ring) (c : List Word64) :
    (s.produce r c).control.lastCommand = s.control.lastCommand := by
  unfold State.produce; (repeat' split) <;> simp

@[simp] theorem State.produce_control_lastRefusal (s : State) (r : Ring) (c : List Word64) :
    (s.produce r c).control.lastRefusal = s.control.lastRefusal := by
  unfold State.produce; (repeat' split) <;> simp

@[simp] theorem State.produce_control_statusSeq (s : State) (r : Ring) (c : List Word64) :
    (s.produce r c).control.statusSeq = s.control.statusSeq := by
  unfold State.produce; (repeat' split) <;> simp

/-! ### The run state and the completion of a command -/

@[simp] theorem State.changeRunState_time (s : State) (r : RunState) : (s.changeRunState r).time = s.time := by
  unfold State.changeRunState; simp

@[simp] theorem State.changeRunState_phase (s : State) (r : RunState) : (s.changeRunState r).phase = s.phase := by
  unfold State.changeRunState; simp

@[simp] theorem State.changeRunState_resetLow (s : State) (r : RunState) : (s.changeRunState r).resetLow = s.resetLow := by
  unfold State.changeRunState; simp

@[simp] theorem State.changeRunState_prstLow (s : State) (r : RunState) : (s.changeRunState r).prstLow = s.prstLow := by
  unfold State.changeRunState; simp

@[simp] theorem State.changeRunState_transit (s : State) (r : RunState) : (s.changeRunState r).transit = s.transit := by
  unfold State.changeRunState; simp

@[simp] theorem State.changeRunState_odometer (s : State) (r : RunState) : (s.changeRunState r).odometer = s.odometer := by
  unfold State.changeRunState; simp

@[simp] theorem State.changeRunState_assembler (s : State) (r : RunState) : (s.changeRunState r).assembler = s.assembler := by
  unfold State.changeRunState; simp

@[simp] theorem State.changeRunState_geometry (s : State) (r : RunState) : (s.changeRunState r).geometry = s.geometry := by
  unfold State.changeRunState; simp

@[simp] theorem State.changeRunState_exceedance (s : State) (r : RunState) : (s.changeRunState r).exceedance = s.exceedance := by
  unfold State.changeRunState; simp

@[simp] theorem State.changeRunState_action (s : State) (r : RunState) : (s.changeRunState r).action = s.action := by
  unfold State.changeRunState; simp

@[simp] theorem State.changeRunState_freeCount (s : State) (r : RunState) : (s.changeRunState r).freeCount = s.freeCount := by
  unfold State.changeRunState; simp

@[simp] theorem State.changeRunState_pending (s : State) (r : RunState) : (s.changeRunState r).pending = s.pending := by
  unfold State.changeRunState; simp

@[simp] theorem State.complete_time (s : State) (w : BitVec 4) (r : ResultCode) (d : BitVec 32) : (s.complete w r d).time = s.time := by
  unfold State.complete; simp

@[simp] theorem State.complete_phase (s : State) (w : BitVec 4) (r : ResultCode) (d : BitVec 32) : (s.complete w r d).phase = s.phase := by
  unfold State.complete; simp

@[simp] theorem State.complete_resetLow (s : State) (w : BitVec 4) (r : ResultCode) (d : BitVec 32) : (s.complete w r d).resetLow = s.resetLow := by
  unfold State.complete; simp

@[simp] theorem State.complete_prstLow (s : State) (w : BitVec 4) (r : ResultCode) (d : BitVec 32) : (s.complete w r d).prstLow = s.prstLow := by
  unfold State.complete; simp

@[simp] theorem State.complete_transit (s : State) (w : BitVec 4) (r : ResultCode) (d : BitVec 32) : (s.complete w r d).transit = s.transit := by
  unfold State.complete; simp

@[simp] theorem State.complete_odometer (s : State) (w : BitVec 4) (r : ResultCode) (d : BitVec 32) : (s.complete w r d).odometer = s.odometer := by
  unfold State.complete; simp

@[simp] theorem State.complete_tap (s : State) (w : BitVec 4) (r : ResultCode) (d : BitVec 32) : (s.complete w r d).tap = s.tap := by
  unfold State.complete; simp

@[simp] theorem State.complete_assembler (s : State) (w : BitVec 4) (r : ResultCode) (d : BitVec 32) : (s.complete w r d).assembler = s.assembler := by
  unfold State.complete; simp

@[simp] theorem State.complete_geometry (s : State) (w : BitVec 4) (r : ResultCode) (d : BitVec 32) : (s.complete w r d).geometry = s.geometry := by
  unfold State.complete; simp

@[simp] theorem State.complete_exceedance (s : State) (w : BitVec 4) (r : ResultCode) (d : BitVec 32) : (s.complete w r d).exceedance = s.exceedance := by
  unfold State.complete; simp

@[simp] theorem State.complete_action (s : State) (w : BitVec 4) (r : ResultCode) (d : BitVec 32) : (s.complete w r d).action = s.action := by
  unfold State.complete; simp

@[simp] theorem State.complete_freeCount (s : State) (w : BitVec 4) (r : ResultCode) (d : BitVec 32) : (s.complete w r d).freeCount = s.freeCount := by
  unfold State.complete; simp

@[simp] theorem State.complete_pending (s : State) (w : BitVec 4) (r : ResultCode) (d : BitVec 32) : (s.complete w r d).pending = s.pending := by
  unfold State.complete; simp

@[simp] theorem State.changeRunState_runState (s : State) (r : RunState) : (s.changeRunState r).control.runState = r := by
  unfold State.changeRunState; simp

@[simp] theorem State.complete_lastCommand (s : State) (w : BitVec 4) (r : ResultCode) (d : BitVec 32) :
    (s.complete w r d).control.lastCommand = ⟨w, r, d⟩ := by
  unfold State.complete; simp

@[simp] theorem State.complete_runState (s : State) (w : BitVec 4) (r : ResultCode) (d : BitVec 32) :
    (s.complete w r d).control.runState = s.control.runState := by
  unfold State.complete; simp

/-! ### The accessors of rings, streams and channels -/

@[simp] theorem WriteBack.ring_setRing (w : WriteBack) (r : Ring) (x : RingState) : (w.setRing r x).ring r = x := by
  cases r <;> rfl

theorem WriteBack.ring_setRing_other (w : WriteBack) {r q : Ring} (x : RingState) (h : q ≠ r) :
    (w.setRing r x).ring q = w.ring q := by
  cases r <;> cases q <;> first | rfl | exact absurd rfl h

@[simp] theorem WriteBack.setRing_queue (w : WriteBack) (r : Ring) (x : RingState) : (w.setRing r x).queue = w.queue := by
  cases r <;> rfl

@[simp] theorem WriteBack.setRing_slot (w : WriteBack) (r : Ring) (x : RingState) : (w.setRing r x).slot = w.slot := by
  cases r <;> rfl

@[simp] theorem StreamTap.stream_setStream (t : StreamTap) (i : Fin 4) (c : StreamContext) : (t.setStream i c).stream i = c := by
  match i with
  | 0 => rfl
  | 1 => rfl
  | 2 => rfl
  | 3 => rfl

@[simp] theorem StreamTap.setStream_setStream (t : StreamTap) (i : Fin 4) (c d : StreamContext) :
    (t.setStream i c).setStream i d = t.setStream i d := by
  match i with
  | 0 => rfl
  | 1 => rfl
  | 2 => rfl
  | 3 => rfl

@[simp] theorem StreamTap.setStream_stream (t : StreamTap) (i : Fin 4) : t.setStream i (t.stream i) = t := by
  match i with
  | 0 => rfl
  | 1 => rfl
  | 2 => rfl
  | 3 => rfl

@[simp] theorem StreamTap.stream_mapStreams (t : StreamTap) (f : StreamContext → StreamContext) (i : Fin 4) :
    (t.mapStreams f).stream i = f (t.stream i) := by
  match i with
  | 0 => rfl
  | 1 => rfl
  | 2 => rfl
  | 3 => rfl

@[simp] theorem Odometer.channel_setChannel (o : Odometer) (c : Channel) (x : ChannelState) : (o.setChannel c x).channel c = x := by
  cases c <;> rfl

@[simp] theorem Odometer.setChannel_latches (o : Odometer) (c : Channel) (x : ChannelState) :
    (o.setChannel c x).latches = o.latches := by
  cases c <;> rfl

end Sys2Proof.Machine
end

