-- ==== Sys2Proof/Laws/Tables.lean ====
section
/-! SUPPORT. What the table operations do: reading after a write and after a removal, and the canonical forms they keep. -/

namespace Sys2Proof

variable {α : Type}

@[simp] theorem Table.read_nil (k : Nat) : Table.read ([] : Table α) k = none := rfl

theorem Table.read_cons (j : Nat) (a : α) (rest : Table α) (k : Nat) :
    Table.read ((j, a) :: rest) k = if j = k then some a else Table.read rest k := rfl

/-- A written key reads the value written, in any table. -/
@[simp] theorem Table.read_write_same (t : Table α) (k : Nat) (a : α) : Table.read (Table.write t k a) k = some a := by
  induction t with
  | nil => simp [Table.write, Table.read]
  | cons e rest ih =>
    obtain ⟨j, b⟩ := e
    unfold Table.write
    split
    · simp [Table.read]
    · split
      · simp [Table.read]
      · rename_i h1 h2
        have : j ≠ k := fun h => h2 h.symm
        simp [Table.read, this, ih]

/-- A key other than the written one reads as before, in any table. -/
theorem Table.read_write_other (t : Table α) {k k' : Nat} (a : α) (h : k' ≠ k) :
    Table.read (Table.write t k a) k' = Table.read t k' := by
  induction t with
  | nil => simp [Table.write, Table.read, Ne.symm h]
  | cons e rest ih =>
    obtain ⟨j, b⟩ := e
    unfold Table.write
    split
    · simp [Table.read, Ne.symm h]
    · split
      · rename_i h1 h2
        subst h2
        simp [Table.read, Ne.symm h]
      · simp [Table.read, ih]

/-- Reading after a write, both cases. -/
theorem Table.read_write (t : Table α) (k k' : Nat) (a : α) :
    Table.read (Table.write t k a) k' = if k' = k then some a else Table.read t k' := by
  by_cases h : k' = k
  · subst h; simp
  · simp [h, Table.read_write_other t a h]

/-- A removed key reads as empty. -/
@[simp] theorem Table.read_remove_same (t : Table α) (k : Nat) : Table.read (Table.remove t k) k = none := by
  induction t with
  | nil => rfl
  | cons e rest ih =>
    obtain ⟨j, b⟩ := e
    by_cases h : j = k
    · subst h; simpa [Table.remove] using ih
    · have : Table.remove ((j, b) :: rest) k = (j, b) :: Table.remove rest k := by simp [Table.remove, h]
      rw [this]; simp [Table.read, h, ih]

/-- A key other than the removed one reads as before. -/
theorem Table.read_remove_other (t : Table α) {k k' : Nat} (h : k' ≠ k) :
    Table.read (Table.remove t k) k' = Table.read t k' := by
  induction t with
  | nil => rfl
  | cons e rest ih =>
    obtain ⟨j, b⟩ := e
    by_cases hj : j = k
    · have : Table.remove ((j, b) :: rest) k = Table.remove rest k := by simp [Table.remove, hj]
      rw [this, ih]; subst hj; simp [Table.read, Ne.symm h]
    · have : Table.remove ((j, b) :: rest) k = (j, b) :: Table.remove rest k := by simp [Table.remove, hj]
      rw [this]; simp [Table.read, ih]

/-- What a table reads as after a removal. -/
theorem Table.read_remove (t : Table α) (k k' : Nat) :
    Table.read (Table.remove t k) k' = if k' = k then none else Table.read t k' := by
  split
  · rename_i h; rw [h, Table.read_remove_same]
  · rename_i h; exact Table.read_remove_other t h

/-- What a read finds is an entry of the table. -/
theorem Table.mem_of_read {t : Table α} {k : Nat} {a : α} (h : Table.read t k = some a) : (k, a) ∈ t := by
  induction t with
  | nil => simp at h
  | cons e rest ih =>
    obtain ⟨j, b⟩ := e
    rw [Table.read_cons] at h
    split at h
    · rename_i hj; subst hj; simp at h; simp [h]
    · exact List.mem_cons_of_mem _ (ih h)

/-- In a canonical table an entry is what a read of its key finds. -/
theorem Table.read_of_mem {t : Table α} (hw : Table.wf t) {k : Nat} {a : α} (h : (k, a) ∈ t) : Table.read t k = some a := by
  induction t with
  | nil => simp at h
  | cons e rest ih =>
    obtain ⟨j, b⟩ := e
    rw [Table.wf, List.pairwise_cons] at hw
    rw [Table.read_cons]
    rcases List.mem_cons.mp h with h | h
    · cases h; simp
    · have := hw.1 _ h
      simp at this
      have hne : j ≠ k := by omega
      simp [hne, ih hw.2 h]

/-- Every key of a written table is the written one or was there before. -/
theorem Table.mem_write {t : Table α} {k : Nat} {a : α} {e : Nat × α} (h : e ∈ Table.write t k a) : e = (k, a) ∨ e ∈ t := by
  induction t with
  | nil => simp [Table.write] at h; exact Or.inl h
  | cons x rest ih =>
    obtain ⟨j, b⟩ := x
    unfold Table.write at h
    split at h
    · rcases List.mem_cons.mp h with h | h
      · exact Or.inl h
      · exact Or.inr h
    · split at h
      · rcases List.mem_cons.mp h with h | h
        · exact Or.inl h
        · exact Or.inr (List.mem_cons_of_mem _ h)
      · rcases List.mem_cons.mp h with h | h
        · exact Or.inr (by simp [h])
        · rcases ih h with h | h
          · exact Or.inl h
          · exact Or.inr (List.mem_cons_of_mem _ h)

@[simp] theorem Table.wf_nil : Table.wf ([] : Table α) := List.Pairwise.nil

/-- A write keeps the canonical form. -/
theorem Table.write_wf {t : Table α} (h : Table.wf t) (k : Nat) (a : α) : Table.wf (Table.write t k a) := by
  induction t with
  | nil => simp [Table.write, Table.wf]
  | cons e rest ih =>
    obtain ⟨j, b⟩ := e
    have h' := List.pairwise_cons.mp h
    unfold Table.write
    split
    · rename_i hk
      refine List.pairwise_cons.mpr ⟨?_, h⟩
      intro x hx
      rcases List.mem_cons.mp hx with hx | hx
      · subst hx; exact hk
      · exact Nat.lt_trans hk (h'.1 x hx)
    · split
      · rename_i h1 h2
        subst h2
        exact List.pairwise_cons.mpr ⟨fun x hx => h'.1 x hx, h'.2⟩
      · rename_i h1 h2
        refine List.pairwise_cons.mpr ⟨?_, ih h'.2⟩
        intro x hx
        rcases Table.mem_write hx with hx | hx
        · subst hx; simp only; omega
        · exact h'.1 x hx

/-- A removal keeps the canonical form. -/
theorem Table.remove_wf {t : Table α} (h : Table.wf t) (k : Nat) : Table.wf (Table.remove t k) := List.Pairwise.filter _ h

/-- A stored word reads back, zero included. -/
@[simp] theorem Shadow.read_write_same (t : Table Word64) (off : Nat) (w : Word64) :
    Shadow.read (Shadow.write t off w) off = w := by
  unfold Shadow.read Shadow.write
  split
  · rename_i h; simp [h]
  · simp

/-- A word at another offset reads as before. -/
theorem Shadow.read_write_other (t : Table Word64) {off off' : Nat} (w : Word64) (h : off' ≠ off) :
    Shadow.read (Shadow.write t off w) off' = Shadow.read t off' := by
  unfold Shadow.read Shadow.write
  split
  · rw [Table.read_remove_other t h]
  · rw [Table.read_write_other t w h]

/-- A store keeps the canonical form of a shadow. -/
theorem Shadow.write_wf {t : Table Word64} (h : Shadow.wf t) (off : Nat) (w : Word64) : Shadow.wf (Shadow.write t off w) := by
  unfold Shadow.write
  split
  · refine ⟨Table.remove_wf h.1 off, ?_⟩
    intro e he
    exact h.2 e (List.mem_filter.mp he).1
  · rename_i hw
    refine ⟨Table.write_wf h.1 off w, ?_⟩
    intro e he
    rcases Table.mem_write he with he | he
    · subst he; exact hw
    · exact h.2 e he

end Sys2Proof
end

