-- ==== Sys2Proof/Laws/Events.lean ====
section
/-! SUPPORT. What raising flags and ending an event do, said once in the terms of the claims: the event set, INT and the status slot. -/

namespace Sys2Proof.Machine

/-! ### Flags and INT -/

/-- Every bit of the event word below 24 belongs to a flag. -/
theorem EventFlag.exists_of_lt {k : Nat} (h : k < 24) : ∃ f : EventFlag, f.bit = k := by
  match k, h with
  | 0, _ => exact ⟨.commandDone, rfl⟩
  | 1, _ => exact ⟨.runState, rfl⟩
  | 2, _ => exact ⟨.controlRefused, rfl⟩
  | 3, _ => exact ⟨.strayWrite, rfl⟩
  | 4, _ => exact ⟨.requestRefused, rfl⟩
  | 5, _ => exact ⟨.frameError, rfl⟩
  | 6, _ => exact ⟨.frameLoss, rfl⟩
  | 7, _ => exact ⟨.streamLost, rfl⟩
  | 8, _ => exact ⟨.streamBack, rfl⟩
  | 9, _ => exact ⟨.pointGap, rfl⟩
  | 10, _ => exact ⟨.pointForced, rfl⟩
  | 11, _ => exact ⟨.odoMismatch, rfl⟩
  | 12, _ => exact ⟨.odoStall, rfl⟩
  | 13, _ => exact ⟨.quadError, rfl⟩
  | 14, _ => exact ⟨.reversal, rfl⟩
  | 15, _ => exact ⟨.markerTaken, rfl⟩
  | 16, _ => exact ⟨.markerReject, rfl⟩
  | 17, _ => exact ⟨.profileChange, rfl⟩
  | 18, _ => exact ⟨.exceedAlert, rfl⟩
  | 19, _ => exact ⟨.exceedLimit, rfl⟩
  | 20, _ => exact ⟨.actionMissed, rfl⟩
  | 21, _ => exact ⟨.ringFull, rfl⟩
  | 22, _ => exact ⟨.writebackLag, rfl⟩
  | 23, _ => exact ⟨.writebackError, rfl⟩
  | n + 24, h => omega

/-- Every flag has a bit below 24. -/
theorem EventFlag.bit_lt (f : EventFlag) : f.bit < 24 := by cases f <;> decide

/-- A listed key reads as something. -/
theorem Table.isSome_of_mem {α : Type} : ∀ {t : Table α} {e : Nat × α}, e ∈ t → (Table.read t e.1).isSome = true
  | (j, b) :: rest, e, h => by
    rw [Table.read_cons]
    split
    · rfl
    · rename_i hne
      cases h with
      | head => exact absurd rfl hne
      | tail _ hm => exact Table.isSome_of_mem hm

/-- INT's level is high exactly when a set flag is enabled. -/
theorem intLevel_iff (events : Table (BitVec 32)) (mask : Word64) :
    intLevel events mask = true ↔ ∃ f : EventFlag, (Table.read events f.bit).isSome = true ∧ mask.getLsbD f.bit = true := by
  unfold intLevel
  rw [List.any_eq_true]
  constructor
  · rintro ⟨e, he, h⟩
    simp only [Bool.and_eq_true, decide_eq_true_eq] at h
    obtain ⟨f, hf⟩ := EventFlag.exists_of_lt h.1
    exact ⟨f, by rw [hf]; exact Table.isSome_of_mem he, by rw [hf]; exact h.2⟩
  · rintro ⟨f, h1, h2⟩
    cases hr : Table.read events f.bit with
    | none => rw [hr] at h1; cases h1
    | some v => exact ⟨(f.bit, v), Table.mem_of_read hr, by simp [h2, f.bit_lt]⟩

/-- INT agrees when it is the level evaluated from the event set and the mask. -/
theorem intAgrees_iff (s : State) : IntAgrees s ↔ s.control.int = intLevel s.control.events s.control.mask := by
  unfold IntAgrees State.flagSet
  rw [← intLevel_iff]
  exact ⟨fun h => Bool.eq_iff_iff.mpr h, fun h => by rw [h]⟩

/-! ### Raising -/

/-- A raise while the part is anchored. -/
theorem State.raise_anchored (s : State) (f : EventFlag) (ha : s.control.runState ≠ .unanchored) :
    s.raise f = { s with control := s.control.raise f, writeBack := s.writeBack.markStatus } := by
  unfold State.raise; rw [if_neg ha]

/-- A pending mark while the part is anchored. -/
theorem State.markStatus_anchored (s : State) (ha : s.control.runState ≠ .unanchored) :
    s.markStatus = { s with writeBack := s.writeBack.markStatus } := by
  unfold State.markStatus; rw [if_neg ha]

/-- What an event has done to the control block's event set, INT and the slot before it ends. -/
def Marked (s u : State) (flags : List EventFlag) : Prop :=
  Raised s u flags ∧ IntAgrees u ∧ u.writeBack.slot = s.writeBack.slot.fill ∧ u.control.runState ≠ .unanchored
    ∧ u.control.statusSeq = s.control.statusSeq

/-- Filling the slot twice is filling it once. -/
@[simp] theorem StatusSlot.fill_fill (x : StatusSlot) : x.fill.fill = x.fill := by cases x <;> rfl

/-- The first raise of an event. -/
theorem Marked.first (s u : State) (f : EventFlag) (ha : u.control.runState ≠ .unanchored)
    (he : u.control.events = s.control.events) (hq : u.control.statusSeq = s.control.statusSeq)
    (hw : u.writeBack.slot = s.writeBack.slot) : Marked s (u.raise f) [f] := by
  rw [u.raise_anchored f ha]
  refine ⟨?_, ?_, ?_, ha, hq⟩
  · intro k; simp [Control.raise, Control.evalInt, he, hq, Table.read_write]
  · exact (intAgrees_iff _).mpr rfl
  · simp [WriteBack.markStatus, hw]

/-- A further raise of an event. -/
theorem Marked.raise {s u : State} {flags : List EventFlag} (h : Marked s u flags) (f : EventFlag) :
    Marked s (u.raise f) (f :: flags) := by
  obtain ⟨h1, _, h3, h4, h5⟩ := h
  rw [u.raise_anchored f h4]
  refine ⟨?_, (intAgrees_iff _).mpr rfl, ?_, h4, h5⟩
  · intro k
    have := h1 k
    simp only [Control.raise, Control.evalInt, Table.read_write, h5, List.map_cons, List.mem_cons]
    by_cases hk : k = f.bit
    · simp [hk]
    · simp [hk, this]
  · simp [WriteBack.markStatus, h3]

/-- Another mark of an event changes nothing. -/
theorem Marked.mark {s u : State} {flags : List EventFlag} (h : Marked s u flags) : Marked s u.markStatus flags := by
  obtain ⟨h1, h2, h3, h4, h5⟩ := h
  rw [u.markStatus_anchored h4]
  exact ⟨h1, h2, by simp [WriteBack.markStatus, h3], h4, h5⟩

/-- A state that agrees on the control block and the slot is marked alike. -/
theorem Marked.congr {s u v : State} {flags : List EventFlag} (h : Marked s u flags) (hc : v.control = u.control)
    (hw : v.writeBack.slot = u.writeBack.slot) : Marked s v flags := by
  unfold Marked Raised IntAgrees State.flagSet at *
  rw [hc, hw]; exact h

/-- The end of the event. -/
theorem Marked.settle {s u : State} {flags : List EventFlag} (h : Marked s u flags) : Publishes s u.settle flags := by
  obtain ⟨h1, h2, h3, _, _⟩ := h
  refine ⟨h1, h2, ?_⟩
  rw [State.settle_writeBack_queue]
  unfold State.settle WriteBack.settle
  cases hs : s.writeBack.slot <;> rw [hs] at h3 <;> simp [h3, StatusSlot.fill, StatusSlot.afterMark]

/-- A settled state is not changed by the end of an event. -/
theorem settle_of_settled {s : State} (h : Settled s) : s.settle = s := by
  unfold State.settle WriteBack.settle Settled at *
  cases hs : s.writeBack.slot <;> simp_all

/-- An event that raises one flag and leaves the control block and write-back alone besides. -/
theorem raise_settle (s u : State) (f : EventFlag) (ha : s.control.runState ≠ .unanchored) (hc : u.control = s.control)
    (hw : u.writeBack = s.writeBack) :
    ControlEventsOnly s (u.raise f).settle ∧ WriteBackSlotOnly s (u.raise f).settle ∧ Publishes s (u.raise f).settle [f]
      ∧ (u.raise f).settle = { u with control := (u.raise f).settle.control, writeBack := (u.raise f).settle.writeBack } := by
  have hu : u.control.runState ≠ .unanchored := by rw [hc]; exact ha
  refine ⟨?_, ?_, (Marked.first s u f hu (by rw [hc]) (by rw [hc]) (by rw [hw])).settle, ?_⟩
  · rw [u.raise_anchored f hu]; simp [ControlEventsOnly, State.settle, Control.raise, Control.evalInt, hc]
  · rw [u.raise_anchored f hu]
    unfold WriteBackSlotOnly State.settle WriteBack.settle WriteBack.markStatus
    rw [hw]
    cases s.writeBack.slot <;> rfl
  · rw [u.raise_anchored f hu]; rfl

end Sys2Proof.Machine
end

