-- ==== Sys2Proof/Laws/Actions.lean ====
section
/-! SUPPORT. The action unit's shared operations, said once: the lines a pulse names, the hold counts after a slot is taken or freed, the
lowest free slot; and saturating counts. -/

namespace Sys2Proof.Machine

/-- A line is named as the operations test it. -/
theorem names_iff (group : Fin 2) (pattern : BitVec 4) (line : Fin 8) :
    Names group pattern line ↔ namesLine group pattern line.val = true := by
  unfold Names namesLine; simp

/-- The hold count of a line after an adjustment. -/
theorem adjustHolds_getD (holds : List Nat) (p : Pulse) (f : Nat → Nat) (n : Nat) (h : n < holds.length) :
    (adjustHolds holds p f).getD n 0 = if namesLine p.group p.pattern n then f (holds.getD n 0) else holds.getD n 0 := by
  unfold adjustHolds
  simp [List.getD_eq_getElem?_getD, h]

/-- Two releases adjust the hold counts alike in either order. -/
theorem adjustHolds_comm (h : List Nat) (p q : Pulse) :
    adjustHolds (adjustHolds h p (· - 1)) q (· - 1) = adjustHolds (adjustHolds h q (· - 1)) p (· - 1) := by
  apply List.ext_getElem?
  intro n
  unfold adjustHolds
  simp only [List.getElem?_map, List.getElem?_zipIdx]
  cases h[n]? with
  | none => rfl
  | some v => simp only [Option.map_some, Nat.zero_add]; split <;> split <;> rfl

/-- The lowest free slot as the firing finds it (R171). -/
theorem ActionUnit.freeSlot_iff (a : ActionUnit) (slot : Nat) : a.freeSlot = some slot ↔ LowestFreeSlot a slot := by
  unfold ActionUnit.freeSlot LowestFreeSlot
  rw [List.find?_range_eq_some]
  have e : ∀ o : Option Pulse, o.isSome = true ↔ ¬o = none := fun o => by cases o <;> simp
  simp [e, and_left_comm]

/-- An action takes its place behind every entry of its trigger distance or a smaller one, before every greater one (R165). -/
theorem insertAction_split (e : ActionEntry) (l : List ActionEntry) (h : l.Pairwise (fun a b => a.trigger ≤ b.trigger)) :
    ∃ before behind, l = before ++ behind ∧ (∀ x ∈ before, x.trigger ≤ e.trigger) ∧ (∀ x ∈ behind, e.trigger < x.trigger)
      ∧ insertAction e l = before ++ e :: behind := by
  induction l with
  | nil => exact ⟨[], [], rfl, fun _ hx => (by cases hx), fun _ hx => (by cases hx), rfl⟩
  | cons x rest ih =>
    obtain ⟨h1, h2⟩ := List.pairwise_cons.mp h
    unfold insertAction
    split
    · rename_i hle
      obtain ⟨a, b, r1, r2, r3, r4⟩ := ih h2
      refine ⟨x :: a, b, by rw [r1]; rfl, fun y hy => ?_, r3, by rw [r4]; rfl⟩
      rcases List.mem_cons.mp hy with rfl | hy
      · exact hle
      · exact r2 y hy
    · refine ⟨[], x :: rest, rfl, fun _ hx => (by cases hx), fun y hy => ?_, rfl⟩
      rcases List.mem_cons.mp hy with rfl | hy
      · omega
      · have := h1 y hy; omega

/-- A saturating 32-bit count plus 1. -/
theorem satAdd_toNat (x : BitVec 32) : (satAdd x 1).toNat = min 0xFFFFFFFF (x.toNat + 1) := by
  unfold satAdd
  split
  · rw [BitVec.toNat_add]; simp; omega
  · simp; omega

end Sys2Proof.Machine
end

