-- ==== Sys2Proof/Laws/Exceedance.lean ====
section
/-! SUPPORT. The closing of an exceedance run, said once in the terms of the claims. -/

namespace Sys2Proof.Machine

/-- A raise does not look at the exceedance unit. -/
theorem State.raise_with_exceedance (s : State) (x : ExceedanceUnit) (f : EventFlag) :
    ({ s with exceedance := x }).raise f = { s.raise f with exceedance := x } := by
  unfold State.raise; dsimp only; split <;> rfl

/-- The production of a record does not look at the exceedance unit. -/
theorem State.produce_with_exceedance (s : State) (x : ExceedanceUnit) (r : Ring) (c : List Word64) :
    ({ s with exceedance := x }).produce r c = { s.produce r c with exceedance := x } := by
  unfold State.produce State.raise State.markStatus
  dsimp only
  (repeat' split) <;> first | rfl | contradiction

/-- The emission of a record is what R158 says. -/
theorem State.emitExceedance_reported (s : State) (ch : Nat) (sev : Severity) (r : OpenRun) (cause : CloseCause) :
    RunReported s (({ s with exceedance := s.exceedance.setTracker ch .clear }).emitExceedance ch sev r cause) ch sev r cause := by
  have h : sev.flag = severityFlag sev := by cases sev <;> rfl
  unfold RunReported State.emitExceedance
  simp only [State.produce_with_exceedance, State.raise_with_exceedance, ← h, ExceedanceUnit.setTracker, ExceedanceUnit.cleared]

/-- The closing of a run is what R153 says. -/
theorem State.closeRun_closes (s : State) (ch : Nat) (cause : CloseCause) : RunCloses s (s.closeRun ch cause) ch cause := by
  unfold RunCloses State.closeRun
  split
  · rename_i h; simp [h]
  · rename_i r h; simp only [h]; exact State.emitExceedance_reported _ _ _ _ _
  · rename_i r h
    simp only [h]
    refine ⟨fun hl => ?_, fun hl => ?_⟩
    · rw [if_pos (by exact hl)]; exact State.emitExceedance_reported _ _ _ _ _
    · rw [if_neg (by exact Nat.not_le.mpr hl)]; rfl

/-- A closed run's tracker is CLEAR; the profiles stay. -/
theorem State.closeRun_tracker (s : State) (ch : Nat) (cause : CloseCause) {r : OpenRun}
    (h : (s.exceedance.tracker ch).run = some r) :
    (s.closeRun ch cause).exceedance.trackers = s.exceedance.trackers.set ch .clear
      ∧ (s.closeRun ch cause).exceedance.profiles = s.exceedance.profiles := by
  unfold State.closeRun
  split
  · rename_i h2; rw [h2] at h; cases h
  · simp [State.emitExceedance, State.produce_with_exceedance, State.raise_with_exceedance, ExceedanceUnit.setTracker]
  · dsimp only
    split
    · simp [State.emitExceedance, State.produce_with_exceedance, State.raise_with_exceedance, ExceedanceUnit.setTracker]
    · simp [ExceedanceUnit.setTracker]

end Sys2Proof.Machine
end

