-- ==== Sys2Proof/Laws/Keeps.lean ====
section
/-! SUPPORT. What a command can do, said once: every command's effect is a composition of the primitive updates listed in the
structures `KeepsRecord` to `Keeps`, one structure a level of blocks. A property that each primitive update keeps is kept by every
operation of its level, and by `exec` (`Keeps.exec`). With the property "this part of the state is unchanged", the same lemmas say
what an operation leaves alone. -/

namespace Sys2Proof.Machine

/-- The length of an open run grows by 1 from the run before, or is 1, or there is no run. -/
def Tracker.grows (old new : Tracker) : Prop :=
  match new.run with
  | none => True
  | some r => r.length = 1 ∨ ∃ r0, old.run = some r0 ∧ r0.length ≠ 4096 ∧ r.length = r0.length + 1

/-- Flags, the status slot and the production of records. -/
structure KeepsRecord (P : State → Prop) : Prop where
  raise : ∀ s f, P s → P (s.raise f)
  produce : ∀ s r c, P s → P (s.produce r c)

/-- With the action unit. -/
structure KeepsAction (P : State → Prop) : Prop extends KeepsRecord P where
  action : ∀ s (a : ActionUnit), a.queue = s.action.queue → a.pulses = s.action.pulses → a.holds = s.action.holds → P s →
    P { s with action := a }
  enqueue : ∀ s e, s.action.queue.length ≠ 32 → P s → P { s with action := s.action.takeId.enqueue e }
  dequeue : ∀ s e rest, s.action.queue = e :: rest → P s → P { s with action := { s.action with queue := rest } }
  occupy : ∀ s slot p, s.action.freeSlot = some slot → P s →
    P { s with action := { s.action.occupy slot p with fired := s.action.fired + 1 } }

/-- With the exceedance unit. -/
structure KeepsExceedance (P : State → Prop) : Prop extends KeepsAction P where
  exceedance : ∀ s (x : ExceedanceUnit), x.trackers = s.exceedance.trackers → x.cursor = s.exceedance.cursor → P s →
    P { s with exceedance := x }
  route : ∀ s a c, P s →
    P { s with exceedance :=
        { s.exceedance with
          active := a, overrideOn := false
          cursor := s.exceedance.cursor + (s.reachedEntries c).length } }
  tracker : ∀ s ch t, Tracker.grows (s.exceedance.tracker ch) t → P s →
    P { s with exceedance := s.exceedance.setTracker ch t }

/-- With the geometry unit. -/
structure KeepsGeometry (P : State → Prop) : Prop extends KeepsExceedance P where
  geometry : ∀ s (g : GeometryUnit), (Table.wf s.geometry.ring → Table.wf g.ring) → P s → P { s with geometry := g }

/-- With the point assembler, the contexts of the stream tap and the run state. -/
structure KeepsPoints (P : State → Prop) : Prop extends KeepsGeometry P where
  assembler : ∀ s (a : Assembler), a.queue.length ≤ s.assembler.queue.length → P s → P { s with assembler := a }
  append : ∀ s0 s p n, (s0.assembler.queue.length ≤ 8 → s.assembler.queue.length ≤ 7) → P s0 → P s →
    P { s with assembler := { s.assembler with queue := s.assembler.queue ++ [p], opened := n } }
  tap : ∀ s (t : StreamTap), P s → P { s with tap := t }
  runState : ∀ s r, s.control.runState ≠ .unanchored → r ≠ .unanchored → P s → P (s.changeRunState r)

/-- With the odometer. -/
structure KeepsOdometer (P : State → Prop) : Prop extends KeepsPoints P where
  markStatus : ∀ s, P s → P s.markStatus
  odometer : ∀ s (o : Odometer), o.latches.length ≤ s.odometer.latches.length ∨ o.latches.length ≤ 4 → P s →
    P { s with odometer := o }

/-- With the commands of the control block. -/
structure KeepsCommands (P : State → Prop) : Prop extends KeepsOdometer P where
  control : ∀ s (c : Control), c.runState = s.control.runState → c.events = s.control.events → c.mask = s.control.mask →
    c.int = s.control.int → c.shadow = s.control.shadow → P s → P { s with control := c }
  cancel : ∀ s id n, P s →
    P { s with action := { s.action with queue := cancelAction id s.action.queue, cancelled := n } }
  cancelAll : ∀ s, P s → P { s with action := s.action.cancelAll }
  actionRelease : ∀ s, P s → P { s with action := s.action.release }
  clearTrackers : ∀ s, P s →
    P { s with exceedance := { s.exceedance with trackers := s.exceedance.trackers.map (fun _ => .clear) } }
  arm : ∀ s, s.control.runState = .idle → P s → P s.arm
  releaseAreas : ∀ s, P s →
    P { s with transit := { s.transit with areas := s.transit.areas.filter (fun e => decide (e.1 = 0)) } }
  storeWord : ∀ s off w, P s → P (s.storeWord off w)
  takeMask : ∀ s w, P s → P (s.takeMask w)

/-- With the transit unit, write-back's presentations and completions, time and resets: every command. -/
structure Keeps (P : State → Prop) : Prop extends KeepsCommands P where
  settle : ∀ s, P s → P s.settle
  acknowledge : ∀ s cap, P s → P (s.acknowledge cap)
  free : ∀ s n, P s → P { s with freeCount := n }
  tick : ∀ s, P s → P s.tick
  freeSlot : ∀ s slot p, Table.read s.action.pulses slot = some p → P s → P { s with action := s.action.free slot p }
  transit : ∀ s (x : Transit), x.base = s.transit.base → x.areas = s.transit.areas → x.inflight = s.transit.inflight →
    x.stage = s.transit.stage → x.holds = s.transit.holds → P s → P { s with transit := x }
  freeEntry : ∀ s tag e, s.transit.entry tag = some e → e.phase = .presented ∨ e.phase = .absorbing → P s →
    P { s with transit := s.transit.freeEntry tag }
  stage : ∀ s (r : Request) n, s.transit.stage = [] → s.transit.holds.length < 8 → r.data.length ≤ 16 →
    s.transit.entry r.tag.toNat = none → P s →
    P { s with transit := Transit.stageRequest { s.transit with takenCount := n } r }
  hold : ∀ s (r : Request) n (req : RequestFields), s.transit.stage = [] → s.transit.holds.length < 8 →
    r.data.length ≤ 16 → s.transit.entry r.tag.toNat = none →
    ¬((s.waitsOf req).1 = [] ∧ (s.waitsOf req).2 = []) → P s →
    P { s with transit :=
        Transit.holdRequest { s.transit with takenCount := n } r (s.waitsOf req).1 (s.waitsOf req).2 }
  present : ∀ s (r : Request) rest cap, s.transit.stage = r :: rest → P s →
    P { s with transit := s.transit.present r rest cap }
  refuse : ∀ s (r : Request) rest, s.transit.stage = r :: rest → P s →
    P { s with transit := Transit.freeEntry { s.transit with stage := rest } r.tag.toNat }
  anchor : ∀ s base, s.transit.base = none → P s → P (s.anchor base)
  presentRecord : ∀ s tag e, s.writeBack.head = some (.record e) → s.transit.freeInsertedTag = some tag → P s →
    P (s.presentRecord tag e)
  presentStatus : ∀ s tag, s.writeBack.head = some .status → s.transit.freeInsertedTag = some tag → P s →
    P (s.presentStatus tag)
  outcome : ∀ s r o p, P s →
    P { s with writeBack := s.writeBack.setRing r { s.writeBack.ring r with last := o, previous := p } }
  consumedWord : ∀ s r w, (s.writeBack.ring r).inRange (newConsumed w) = true → P s → P (s.takeConsumed r w)
  controlWrite : ∀ s (r : Request) rest, s.transit.stage = r :: rest → s.refusalOf r.words = none → P s →
    P ({ s with transit := s.transit.present r rest none }.takeBurst r.words)
  portReset : ∀ s, P s →
    P { s with prstLow := true, transit := s.transit.portReset, tap := s.tap.mapStreams StreamContext.clearBuffer }
  portRelease : ∀ s, P s → P { s with prstLow := false }
  hardwareReset : ∀ s, P s →
    P { State.reset with
        resetLow := true, prstLow := s.prstLow, transit := s.transit.hardwareReset, freeCount := s.freeCount
        pending := s.pending }
  resetRelease : ∀ s, P s → P { s with resetLow := false }

variable {P : State → Prop}

/-- A fold of kept steps is kept. -/
theorem fold_keeps {α : Type} {f : State → α → State} (hf : ∀ s a, P s → P (f s a)) :
    ∀ (l : List α) {s : State}, P s → P (l.foldl f s)
  | [], _, h => h
  | a :: rest, s, h => fold_keeps hf rest (hf s a h)

/-! ### Actions -/

namespace KeepsAction

theorem logAction (k : KeepsAction P) {s : State} (h : P s) (id o t out) : P (s.logAction id o t out) := k.produce _ _ _ h

theorem missAction (k : KeepsAction P) {s : State} (h : P s) (id o t) : P (s.missAction id o t) := by
  have h1 : P { s with action := { s.action with missed := s.action.missed + 1 } } := k.action s _ rfl rfl rfl h
  exact k.logAction (k.raise _ .actionMissed h1) id o t .missed

theorem takeId (k : KeepsAction P) {s : State} (h : P s) : P { s with action := s.action.takeId } :=
  k.action s _ rfl rfl rfl h

theorem markRequest (k : KeepsAction P) {s : State} (h : P s) (d : Int) : P (s.markRequest d) := by
  unfold State.markRequest
  dsimp only
  split
  · rename_i hg; exact k.enqueue s _ hg.2.2 h
  · exact k.missAction (k.takeId h) _ _ _

theorem post (k : KeepsAction P) {s : State} (h : P s) (g p off) : P (s.post g p off).state := by
  unfold State.post
  dsimp only
  split
  · exact k.missAction (k.takeId h) _ _ _
  · split
    · exact h
    · rename_i hq; exact k.enqueue s _ hq h

theorem fireAction (k : KeepsAction P) {s : State} (h : P s) (e : ActionEntry) : P (s.fireAction e) := by
  unfold State.fireAction
  split
  · rename_i slot hs; exact k.logAction (k.occupy s slot _ hs h) _ _ _ _
  · exact k.missAction h _ _ _

theorem fireDue (k : KeepsAction P) : ∀ (n : Nat) {s : State}, P s → P (State.fireDue n s)
  | 0, _, h => h
  | n + 1, s, h => by
    unfold State.fireDue
    split
    · exact h
    · rename_i e rest hq
      split
      · exact fireDue k n (k.fireAction (k.dequeue s e rest hq h) e)
      · exact h

theorem setPeriodic (k : KeepsAction P) {s : State} (h : P s) (g : Fin 2) (p : Periodic) :
    P { s with action := s.action.setPeriodic g p } := by
  refine k.action s _ ?_ ?_ ?_ h <;> (unfold ActionUnit.setPeriodic; split <;> rfl)

theorem setPeriodic_freeSlot (a : ActionUnit) (g : Fin 2) (p : Periodic) : (a.setPeriodic g p).freeSlot = a.freeSlot := by
  unfold ActionUnit.setPeriodic; split <;> rfl

theorem firePeriodic (k : KeepsAction P) {s : State} (h : P s) (g : Fin 2) : P (s.firePeriodic g) := by
  unfold State.firePeriodic
  dsimp only
  split
  · exact h
  · split
    · split
      · rename_i slot hs
        refine k.occupy { s with action := s.action.setPeriodic g _ } slot _ ?_ (k.setPeriodic h g _)
        rw [setPeriodic_freeSlot]; exact hs
      · exact k.missAction (k.setPeriodic h g _) _ _ _
    · exact h

theorem rise (k : KeepsAction P) {s : State} (h : P s) : P s.rise := by
  unfold State.rise
  dsimp only
  split
  · exact k.firePeriodic (k.firePeriodic (k.fireDue _ h) 0) 1
  · exact k.fireDue _ h

end KeepsAction

/-! ### Exceedances -/

namespace KeepsExceedance

theorem consumeRoute (k : KeepsExceedance P) {s : State} (h : P s) (c : Int) : P (s.consumeRoute c) := by
  unfold State.consumeRoute
  split
  · exact h
  · exact k.raise _ _ (k.route s _ c h)

theorem emitExceedance (k : KeepsExceedance P) {s : State} (h : P s) (ch sev r cause) : P (s.emitExceedance ch sev r cause) := by
  unfold State.emitExceedance
  exact k.exceedance _ _ rfl rfl (k.raise _ _ (k.produce _ _ _ h))

theorem setClear (k : KeepsExceedance P) {s : State} (h : P s) (ch : Nat) :
    P { s with exceedance := s.exceedance.setTracker ch .clear } := k.tracker s ch .clear trivial h

theorem closeRun (k : KeepsExceedance P) {s : State} (h : P s) (ch cause) : P (s.closeRun ch cause) := by
  unfold State.closeRun
  dsimp only
  split
  · exact h
  · exact k.emitExceedance (k.setClear h ch) _ _ _ _
  · split
    · exact k.emitExceedance (k.setClear h ch) _ _ _ _
    · exact k.exceedance { s with exceedance := s.exceedance.setTracker ch .clear } _ rfl rfl (k.setClear h ch)

theorem enterLimit (k : KeepsExceedance P) {s : State} (h : P s) (g : GeometryRecord) (ch : Nat) (r : OpenRun)
    (hr : Tracker.grows (s.exceedance.tracker ch) (.limitRun r)) : P (s.enterLimit g ch r) := by
  unfold State.enterLimit
  split
  · exact k.markRequest (k.tracker s ch _ (by simpa [Tracker.grows, Tracker.run] using hr) h) _
  · exact k.tracker s ch _ hr h

theorem grows_new (old : Tracker) (t : Tracker) (r : OpenRun) (ht : t.run = some r) (hl : r.length = 1) :
    Tracker.grows old t := by
  unfold Tracker.grows; rw [ht]; exact Or.inl hl

theorem extend_length (r : OpenRun) (g : GeometryRecord) (v : Int) : (r.extend g v).length = r.length + 1 := by
  unfold OpenRun.extend; dsimp only; split <;> rfl

theorem grows_extend (old : Tracker) (t : Tracker) (r : OpenRun) (g : GeometryRecord) (v : Int)
    (ho : old.run = some r) (hl : r.length ≠ 4096) (ht : t.run = some (r.extend g v)) : Tracker.grows old t := by
  unfold Tracker.grows; rw [ht]; exact Or.inr ⟨r, ho, hl, extend_length r g v⟩

theorem trackClear (k : KeepsExceedance P) {s : State} (h : P s) (g : GeometryRecord) (ch : Nat) (c : ValueClass) (v : Int) :
    P (s.trackClear g ch c v) := by
  unfold State.trackClear
  split
  · exact h
  · exact h
  · exact k.tracker s ch _ (grows_new _ _ _ rfl rfl) h
  · exact k.enterLimit h g ch _ (grows_new _ _ _ rfl rfl)

theorem trackClass (k : KeepsExceedance P) {s : State} (h : P s) (g : GeometryRecord) (ch : Nat) (c : ValueClass) (v : Int) :
    P (s.trackClass g ch c v) := by
  unfold State.trackClass
  split
  · exact k.trackClear h g ch c v
  · rename_i r hr
    split
    · exact k.closeRun h _ _
    · exact k.closeRun h _ _
    · split
      · exact k.trackClear (k.closeRun h _ _) g ch _ v
      · rename_i hl; exact k.tracker s ch _ (grows_extend _ _ r g v (by rw [hr]; rfl) hl rfl) h
    · split
      · exact k.trackClear (k.closeRun h _ _) g ch _ v
      · rename_i hl; exact k.enterLimit h g ch _ (grows_extend _ _ r g v (by rw [hr]; rfl) hl rfl)
  · rename_i r hr
    split
    · exact k.closeRun h _ _
    · exact k.closeRun h _ _
    all_goals
      split
      · exact k.trackClear (k.closeRun h _ _) g ch _ v
      · rename_i hl; exact k.tracker s ch _ (grows_extend _ _ r g v (by rw [hr]; rfl) hl rfl) h

theorem profileCheck (k : KeepsExceedance P) {s : State} (h : P s) (g : GeometryRecord) (ch : Nat) : P (s.profileCheck g ch) := by
  unfold State.profileCheck
  split
  · exact h
  · split
    · exact h
    · exact k.closeRun h _ _

theorem trackChannel (k : KeepsExceedance P) {s : State} (h : P s) (g : GeometryRecord) (ch : Nat) : P (s.trackChannel g ch) :=
  k.trackClass (k.profileCheck h g ch) g ch _ _

theorem classifyRecord (k : KeepsExceedance P) {s : State} (h : P s) (g : GeometryRecord) : P (s.classifyRecord g) := by
  have h1 : P (s.consumeRoute g.chainage) := k.consumeRoute h _
  have h2 : ∀ g', P ((s.consumeRoute g.chainage).trackChannels g') := fun g' =>
    fold_keeps (fun s a (hs : P s) => k.trackChannel hs g' a) (List.range 8) h1
  exact k.produce _ _ _ (h2 _)

theorem endRecords (k : KeepsExceedance P) {s : State} (h : P s) : P s.endRecords := by
  exact fold_keeps (fun s a (hs : P s) => k.closeRun hs a .runEnd) (List.range 8) h

end KeepsExceedance

/-! ### Geometry -/

namespace KeepsGeometry

theorem emitCentre (k : KeepsGeometry P) {s : State} (h : P s) (c : Int) : P (s.emitCentre c) := by
  unfold State.emitCentre
  dsimp only
  have hm : P { s with geometry := { s.geometry with cursor := some (c + 1) } } := k.geometry s _ (fun w => w) h
  split
  · exact hm
  · exact k.classifyRecord hm _

theorem placeSample (k : KeepsGeometry P) {s : State} (h : P s) (x : Sample) : P (s.placeSample x) := by
  unfold State.placeSample
  dsimp only
  have hp : P { s with geometry := s.geometry.place x } := k.geometry s _ (fun w => Table.write_wf w _ _) h
  split
  · exact hp
  · split
    · exact k.emitCentre hp _
    · exact hp

theorem emitCentres (k : KeepsGeometry P) : ∀ (n : Nat) {s : State}, P s → P (State.emitCentres n s)
  | 0, _, h => h
  | n + 1, s, h => by
    unfold State.emitCentres
    split
    · exact h
    · exact emitCentres k n (k.emitCentre h _)

theorem endOfPoints (k : KeepsGeometry P) {s : State} (h : P s) : P s.endOfPoints := k.endRecords (k.emitCentres _ h)

end KeepsGeometry

/-! ### Points -/

/-- What the level of the geometry unit leaves alone, as a property kept: the run state. -/
theorem keeps_runState (r : RunState) : KeepsGeometry (fun s => s.control.runState = r) where
  raise s f h := by simpa using h
  produce s q c h := by simpa using h
  action _ _ _ _ _ h := h
  enqueue _ _ _ h := h
  dequeue _ _ _ _ h := h
  occupy _ _ _ _ h := h
  exceedance _ _ _ _ h := h
  route _ _ _ h := h
  tracker _ _ _ _ h := h
  geometry _ _ _ h := h

/-- The end-of-points notice does not change the run state. -/
theorem endOfPoints_runState (s : State) : s.endOfPoints.control.runState = s.control.runState :=
  (keeps_runState s.control.runState).endOfPoints rfl

namespace KeepsPoints

theorem closePoints (k : KeepsPoints P) : ∀ (n : Nat) {s : State}, P s → P (State.closePoints n s)
  | 0, _, h => h
  | n + 1, s, h => by
    unfold State.closePoints
    split
    · exact h
    · rename_i p rest hq
      split
      · exact h
      · refine closePoints k n (k.placeSample ?_ _)
        exact k.assembler s _ (by simp [hq]) h

theorem completeDrain (k : KeepsPoints P) {s : State} (h : P s) : P s.completeDrain := by
  unfold State.completeDrain
  split
  · rename_i hd
    refine k.runState _ _ ?_ (by decide) (k.endOfPoints h)
    rw [endOfPoints_runState, hd.1]; decide
  · exact h

theorem close (k : KeepsPoints P) {s : State} (h : P s) : P s.close := k.completeDrain (k.closePoints _ h)

theorem updatePoints (k : KeepsPoints P) {s : State} (h : P s) (f : PendingPoint → PendingPoint) : P (s.updatePoints f) :=
  k.close (k.assembler s _ (by simp) h)

end KeepsPoints

/-- What the level of the geometry unit leaves alone, as a property kept: the point assembler. -/
theorem keeps_assembler (a : Assembler) : KeepsGeometry (fun s => s.assembler = a) where
  raise s f h := by simpa using h
  produce s q c h := by simpa using h
  action _ _ _ _ _ h := h
  enqueue _ _ _ h := h
  dequeue _ _ _ _ h := h
  occupy _ _ _ _ h := h
  exceedance _ _ _ _ h := h
  route _ _ _ h := h
  tracker _ _ _ _ h := h
  geometry _ _ _ h := h

/-- A placed sample leaves the point assembler alone. -/
@[simp] theorem placeSample_assembler (s : State) (x : Sample) : (s.placeSample x).assembler = s.assembler :=
  (keeps_assembler s.assembler).placeSample rfl x

/-- The closing cascade never lengthens the queue. -/
theorem closePoints_length : ∀ (n : Nat) (s : State),
    (State.closePoints n s).assembler.queue.length ≤ s.assembler.queue.length
  | 0, s => Nat.le_refl _
  | n + 1, s => by
    unfold State.closePoints
    split
    · exact Nat.le_refl _
    · rename_i p rest hq
      split
      · exact Nat.le_refl _
      · refine Nat.le_trans (closePoints_length n _) ?_
        simp [hq]

/-- A point with every WAITING entry given up has none. -/
theorem giveUpAll_hasWaiting (p : PendingPoint) : p.giveUpAll.hasWaiting = false := by
  unfold PendingPoint.hasWaiting PendingPoint.giveUpAll
  simp only [List.any_map, List.any_eq_false]
  intro e _
  cases e with
  | mk i st => cases st <;> simp [EntryState.giveUp, EntryState.isWaiting]

/-- A closing cascade whose head waits on nothing shortens the queue. -/
theorem closePoints_shorter (n : Nat) (s : State) (p : PendingPoint) (rest : List PendingPoint)
    (hq : s.assembler.queue = p :: rest) (hw : p.hasWaiting = false) :
    (State.closePoints (n + 1) s).assembler.queue.length ≤ rest.length := by
  unfold State.closePoints
  rw [hq]
  simp only [hw]
  refine Nat.le_trans (closePoints_length n _) ?_
  simp

/-- Room is made for a new point: a queue of at most 8 is left with at most 7 (R104). -/
theorem makeRoom_length (s : State) (h : s.assembler.queue.length ≤ 8) : s.makeRoom.assembler.queue.length ≤ 7 := by
  unfold State.makeRoom
  split
  · rename_i hq; simp [hq]
  · rename_i p rest hq
    split
    · omega
    · dsimp only
      refine Nat.le_trans (closePoints_shorter rest.length _ { p.giveUpAll with flags := p.flags.withForced } rest ?_ ?_) ?_
      · simp
      · exact giveUpAll_hasWaiting p
      · rw [hq] at h; simp at h; omega

namespace KeepsPoints

theorem makeRoom (k : KeepsPoints P) {s : State} (h : P s) : P s.makeRoom := by
  unfold State.makeRoom
  split
  · exact h
  · rename_i p rest hq
    split
    · exact h
    · dsimp only
      exact k.closePoints _ (k.raise _ _ (k.assembler s _ (by simp [hq]) h))

theorem openPoint (k : KeepsPoints P) {s : State} (h : P s) (o : Opening) : P (s.openPoint o) := by
  have h1 : P s.makeRoom := k.makeRoom h
  exact k.closePoints _ (k.append s s.makeRoom _ _ (makeRoom_length s) h h1)

theorem handFrame (k : KeepsPoints P) {s : State} (h : P s) (i : Fin 4) (f : Frame) : P (s.handFrame i f) := k.updatePoints h _

theorem giveUpStream (k : KeepsPoints P) {s : State} (h : P s) (i : Fin 4) : P (s.giveUpStream i) := k.updatePoints h _

theorem gapPoint (k : KeepsPoints P) {s : State} (h : P s) (p : PendingPoint) : P (s.gapPoint p) := by
  unfold State.gapPoint
  split
  · exact k.raise _ _ (k.assembler s _ (by simp) h)
  · exact h

theorem setStream (k : KeepsPoints P) {s : State} (h : P s) (i : Fin 4) (c : StreamContext) : P (s.setStream i c) :=
  k.tap s _ h

end KeepsPoints

/-! ### The odometer and the stream tap -/

namespace KeepsOdometer

theorem raiseIf (k : KeepsOdometer P) {s : State} (h : P s) (b : Bool) (f : EventFlag) : P (s.raiseIf b f) := by
  unfold State.raiseIf
  split
  · exact k.raise _ _ h
  · exact h

theorem odo (k : KeepsOdometer P) {s : State} (h : P s) (o : Odometer) (ho : o.latches = s.odometer.latches) :
    P { s with odometer := o } := k.odometer s o (Or.inl (Nat.le_of_eq (by rw [ho]))) h

theorem checkStall (k : KeepsOdometer P) {s : State} (h : P s) : P s.checkStall := by
  unfold State.checkStall
  dsimp only
  split
  · split
    · exact k.raise _ _ (k.odo h _ rfl)
    · exact k.raise _ _ (k.odo h _ (by simp))
  · exact h

theorem nonLeadCount (k : KeepsOdometer P) {s : State} (h : P s) (f : Bool) : P (s.nonLeadCount f) := by
  unfold State.nonLeadCount
  dsimp only
  exact k.checkStall (k.odo h _ (by simp))

theorem openAt (k : KeepsOdometer P) {s : State} (h : P s) (i : Int) : P (s.openAt i) := by
  unfold State.openAt
  dsimp only
  refine k.openPoint (k.markStatus _ (k.raiseIf (k.raiseIf (k.odometer s _ (Or.inl ?_) h) _ _) _ _)) _
  exact List.length_filter_le _ _

theorem maybeOpen (k : KeepsOdometer P) {s : State} (h : P s) (b : Int) : P (s.maybeOpen b) := by
  unfold State.maybeOpen
  split
  · exact h
  · dsimp only
    split
    · exact k.openAt h _
    · exact h

theorem watchReversal (k : KeepsOdometer P) {s : State} (h : P s) : P s.watchReversal := by
  unfold State.watchReversal
  split
  · exact h
  · split
    · split
      · exact k.raise _ _ (k.odo h _ rfl)
      · split
        · exact k.odo h _ rfl
        · exact h
    · exact h

theorem raiseHighWater (k : KeepsOdometer P) {s : State} (h : P s) : P s.raiseHighWater := by
  unfold State.raiseHighWater
  split
  · exact k.rise (k.odo h _ rfl)
  · exact h

theorem leadCount (k : KeepsOdometer P) {s : State} (h : P s) (f : Bool) : P (s.leadCount f) := by
  unfold State.leadCount
  refine k.watchReversal (k.maybeOpen (k.raiseHighWater (k.odo h _ ?_)) _)
  unfold Odometer.advance; simp

theorem quadError (k : KeepsOdometer P) {s : State} (h : P s) (c : Channel) : P (s.quadError c) := by
  unfold State.quadError
  dsimp only
  exact k.raise _ _ (k.odo h _ (by simp))

theorem passage (k : KeepsOdometer P) {s : State} (h : P s) : P s.passage := by
  unfold State.passage
  split
  · rename_i hl
    exact k.odometer s _ (Or.inr (by simp; omega)) h
  · exact k.raise _ _ h

theorem whileCounting (_k : KeepsOdometer P) {s : State} (h : P s) (f : State → State) (hf : ∀ s, P s → P (f s)) :
    P (s.whileCounting f) := by
  unfold State.whileCounting
  split
  · exact hf s h
  · exact h

theorem rejectMarker (k : KeepsOdometer P) {s : State} (h : P s) (i : BitVec 32) (e : Int) : P (s.rejectMarker i e) :=
  k.raise _ _ (k.odo h _ rfl)

theorem pairMarker (k : KeepsOdometer P) {s : State} (h : P s) (i : BitVec 32) (c : Int) : P (s.pairMarker i c) := by
  unfold State.pairMarker
  split
  · exact k.rejectMarker h _ _
  · rename_i l rest hl
    have h1 : P { s with odometer := { s.odometer with latches := rest } } := k.odometer s _ (Or.inl (by simp [hl])) h
    dsimp only
    split
    · refine k.raise _ _ (k.odometer s _ (Or.inl ?_) h); simp [hl]
    · exact k.rejectMarker h1 _ _

theorem sampleEffect (k : KeepsOdometer P) {s : State} (h : P s) (e : SampleEvent) : P (s.sampleEffect e) := by
  unfold State.sampleEffect
  split
  · split
    · exact k.leadCount h _
    · exact k.nonLeadCount h _
  · exact k.quadError h _
  · exact k.passage h

theorem frameError (k : KeepsOdometer P) {s : State} (h : P s) (i : Fin 4) : P (s.frameError i) :=
  k.raise _ _ (k.setStream h i _)

theorem takeSensor (k : KeepsOdometer P) {s : State} (h : P s) (i : Fin 4) (a : Time) (f : Frame) : P (s.takeSensor i a f) := by
  unfold State.takeSensor
  dsimp only
  refine k.raiseIf (k.setStream ?_ i _) _ _
  split
  · exact k.handFrame h i f
  · exact h

theorem checkSequence (k : KeepsOdometer P) {s : State} (h : P s) (i : Fin 4) (q : BitVec 16) : P (s.checkSequence i q) := by
  unfold State.checkSequence
  dsimp only
  have hk := k.setStream h i { s.tap.stream i with lastSequence := some q }
  split
  · exact hk
  · split
    · exact hk
    · exact k.raise _ _ (k.tap _ _ hk)

theorem checkSensor (k : KeepsOdometer P) {s : State} (h : P s) (i : Fin 4) (a : Time) (b : List Word64) :
    P (s.checkSensor i a b) := by
  unfold State.checkSensor
  dsimp only
  split
  · exact k.frameError h i
  · split
    · exact k.frameError h i
    · exact k.takeSensor h i a _

theorem checkFrame (k : KeepsOdometer P) {s : State} (h : P s) (i : Fin 4) (a : Time) (b : List Word64) :
    P (s.checkFrame i a b) := by
  unfold State.checkFrame
  split
  · exact k.frameError h i
  · have h1 := k.checkSequence h i (frameSequence b)
    dsimp only
    split
    · exact k.whileCounting h1 _ (fun s hs => k.pairMarker hs _ _)
    · exact k.checkSensor h1 i a b
    · exact h1

theorem tapBeat (k : KeepsOdometer P) {s : State} (h : P s) (i : Fin 4) (a : Time) (o : Nat) (b : Beat) :
    P (State.tapBeat i a s o b) := by
  unfold State.tapBeat
  split
  · have h1 : P (s.alignSlot i (o / 64)) := by
      unfold State.alignSlot
      dsimp only
      split
      · exact h
      · exact k.frameError (k.setStream h i _) i
    unfold State.storeBeat
    dsimp only
    split
    · exact k.checkFrame (k.setStream h1 i _) i a _
    · exact k.setStream h1 i _
  · exact h

theorem tapWrite (k : KeepsOdometer P) {s : State} (h : P s) (i : Fin 4) (o : Nat) (b : List Beat) (a : Time) :
    P (s.tapWrite i o b a) := by
  unfold State.tapWrite
  exact fold_keeps (P := P) (f := fun s (e : Beat × Nat) => State.tapBeat i a s (o + 8 * e.2) e.1)
    (fun s e hs => k.tapBeat hs i a (o + 8 * e.2) e.1) b.zipIdx h

end KeepsOdometer

/-! ### Commands -/

namespace KeepsCommands

theorem complete (k : KeepsCommands P) {s : State} (h : P s) (w r d) : P (s.complete w r d) :=
  k.raise _ _ (k.control s _ rfl rfl rfl rfl rfl h)

theorem done (k : KeepsCommands P) {s : State} (h : P s) (w) : P (s.done w) := k.complete h _ _ _

theorem refuseState (k : KeepsCommands P) {s : State} (h : P s) (w) : P (s.refuseState w) := k.complete h _ _ _

theorem refuseArg (k : KeepsCommands P) {s : State} (h : P s) (w n) : P (s.refuseArg w n) := k.complete h _ _ _

theorem commandArm (k : KeepsCommands P) {s : State} (h : P s) : P s.commandArm := by
  unfold State.commandArm
  split
  · rename_i hi
    split
    · exact k.complete h _ _ _
    · exact k.done (k.arm s hi h) _
  · exact k.refuseState h _

theorem startRun (k : KeepsCommands P) {s : State} (h : P s) (ha : s.control.runState ≠ .unanchored) : P s.startRun := by
  have h1 : P { s with odometer := s.odometer.start } := k.odo h _ rfl
  have h2 : P { s with odometer := s.odometer.start, geometry := s.geometry.start s.odometer.firstIndex } :=
    k.geometry { s with odometer := s.odometer.start } _ (fun w => w) h1
  have h3 := k.tap _ (s.tap.mapStreams (fun c => c.start s.time)) h2
  have h4 := k.action
    { s with
      odometer := s.odometer.start, geometry := s.geometry.start s.odometer.firstIndex
      tap := s.tap.mapStreams (fun c => c.start s.time) }
    (s.action.start (mmOf s.odometer.d)) rfl rfl rfl h3
  exact k.runState
    { s with
      odometer := s.odometer.start, geometry := s.geometry.start s.odometer.firstIndex
      tap := s.tap.mapStreams (fun c => c.start s.time), action := s.action.start (mmOf s.odometer.d) }
    .running ha (by decide) h4

theorem commandStart (k : KeepsCommands P) {s : State} (h : P s) : P s.commandStart := by
  unfold State.commandStart
  split
  · rename_i ha; exact k.done (k.startRun h (by rw [ha]; decide)) _
  · exact k.refuseState h _

theorem stopRun (k : KeepsCommands P) {s : State} (h : P s) (ha : s.control.runState ≠ .unanchored) : P s.stopRun := by
  have h1 : P { s with action := s.action.periodicOff } := k.action s _ rfl rfl rfl h
  exact k.completeDrain (k.runState _ .draining ha (by decide) h1)

theorem commandStop (k : KeepsCommands P) {s : State} (h : P s) : P s.commandStop := by
  unfold State.commandStop
  split
  · rename_i ha; exact k.done (k.runState s .stopped (by rw [ha]; decide) (by decide) h) _
  · rename_i ha; exact k.done (k.stopRun h (by rw [ha]; decide)) _
  all_goals exact k.refuseState h _

theorem abortRun (k : KeepsCommands P) {s : State} (h : P s) (ha : s.control.runState ≠ .unanchored) : P s.abortRun := by
  have h1 : P { s with assembler := s.assembler.abort } := k.assembler s _ (by simp [Assembler.abort]) h
  have h2 := k.clearTrackers _ h1
  have h3 := k.cancelAll _ h2
  have h4 : P { s with
      assembler := s.assembler.abort
      exceedance := { s.exceedance with trackers := s.exceedance.trackers.map (fun _ => .clear) }
      action := s.action.abort } := k.action
    { s with
      assembler := s.assembler.abort
      exceedance := { s.exceedance with trackers := s.exceedance.trackers.map (fun _ => .clear) }
      action := s.action.cancelAll } s.action.abort rfl rfl rfl h3
  exact k.runState
    { s with
      assembler := s.assembler.abort
      exceedance := { s.exceedance with trackers := s.exceedance.trackers.map (fun _ => .clear) }
      action := s.action.abort } .stopped ha (by decide) h4

theorem commandAbort (k : KeepsCommands P) {s : State} (h : P s) : P s.commandAbort := by
  unfold State.commandAbort
  split
  · rename_i ha; exact k.done (k.abortRun h (by rw [ha]; decide)) _
  · rename_i ha; exact k.done (k.abortRun h (by rw [ha]; decide)) _
  · rename_i ha; exact k.done (k.abortRun h (by rw [ha]; decide)) _
  all_goals exact k.refuseState h _

theorem releaseRun (k : KeepsCommands P) {s : State} (h : P s) (ha : s.control.runState ≠ .unanchored) : P s.releaseRun := by
  have h1 := k.releaseAreas s h
  have h2 := k.tap _ (s.tap.mapStreams StreamContext.release) h1
  have h3 := k.actionRelease _ h2
  exact k.runState _ .idle ha (by decide) h3

theorem commandRelease (k : KeepsCommands P) {s : State} (h : P s) : P s.commandRelease := by
  unfold State.commandRelease
  split
  · rename_i ha
    split
    · exact k.complete h _ _ _
    · exact k.done (k.releaseRun h (by rw [ha]; decide)) _
  · exact k.refuseState h _

theorem commandChainageSet (k : KeepsCommands P) {s : State} (h : P s) (w : Word64) : P (s.commandChainageSet w) := by
  unfold State.commandChainageSet
  split
  · split
    · exact k.refuseArg h _ _
    · rename_i dir _
      exact k.done (s := { s with odometer := s.odometer.setChainage (chainageArg w) dir }) (k.odo h _ rfl) _
  · exact k.refuseState h _

theorem commandProfileSelect (k : KeepsCommands P) {s : State} (h : P s) (w : Word64) : P (s.commandProfileSelect w) := by
  unfold State.commandProfileSelect
  split
  · split
    · exact k.refuseArg h _ _
    · rename_i p _
      exact k.done (s := { s with exceedance := { s.exceedance with active := p, overrideOn := true } })
        (k.exceedance s _ rfl rfl h) _
  · exact k.refuseState h _

theorem commandActionPost (k : KeepsCommands P) {s : State} (h : P s) (w : Word64) : P (s.commandActionPost w) := by
  unfold State.commandActionPost
  split
  · split
    · exact k.refuseArg h _ _
    · exact k.refuseArg h _ _
    · exact k.refuseArg h _ _
    · exact k.complete (k.post h _ _ _) _ _ _
  · exact k.refuseState h _

theorem commandActionCancel (k : KeepsCommands P) {s : State} (h : P s) (w : Word64) : P (s.commandActionCancel w) := by
  unfold State.commandActionCancel
  split
  · split
    · exact k.done (k.cancel s _ _ h) _
    · exact k.complete h _ _ _
  · exact k.refuseState h _

theorem whileAnchored (_k : KeepsCommands P) {s : State} (h : P s) (f : State → State) (hf : P (f s)) :
    P (s.whileAnchored f) := by
  unfold State.whileAnchored
  split
  · exact h
  · exact hf

theorem refuseControl (k : KeepsCommands P) {s : State} (h : P s) (r : LastRefusal) : P (s.refuseControl r) :=
  k.raise _ _ (k.control s _ rfl rfl rfl rfl rfl h)

theorem runCommand (k : KeepsCommands P) {s : State} (h : P s) (n : Nat) (w : Word64) : P (s.runCommand n w) := by
  unfold State.runCommand
  split
  · exact k.commandArm h
  · exact k.commandStart h
  · exact k.commandStop h
  · exact k.commandAbort h
  · exact k.commandRelease h
  · exact k.commandChainageSet h w
  · exact k.commandProfileSelect h w
  · exact k.commandActionPost h w
  · exact k.commandActionCancel h w
  · exact h

/-- A taken word that is no consumed index. -/
theorem takeWord (k : KeepsCommands P) {s : State} (h : P s) (w : ControlWord)
    (hc : ∀ r, regionOf w.off = .consumed r → P (s.takeConsumed r w.beat.data)) : P (s.takeWord w) := by
  unfold State.takeWord
  split
  · exact k.runCommand h _ _
  · rename_i r hr; exact hc r hr
  · exact k.takeMask s _ h
  · exact k.storeWord s _ _ h
  · exact k.storeWord s _ _ h
  · exact h
  · exact h

/-- A taken burst, for a property that every consumed index keeps. -/
theorem takeBurst (k : KeepsCommands P) (hc : ∀ s r w, P s → P (s.takeConsumed r w)) (b : List ControlWord) {s : State}
    (h : P s) : P (s.takeBurst b) :=
  fold_keeps (fun s w hs => k.takeWord hs w (fun r _ => hc s r _ hs)) b h

/-- A taken burst with no consumed-index word. -/
theorem takeBurst_plain (k : KeepsCommands P) : ∀ (b : List ControlWord), (∀ w ∈ b, ∀ r, regionOf w.off ≠ .consumed r) →
    ∀ {s : State}, P s → P (s.takeBurst b)
  | [], _, _, h => h
  | w :: rest, hb, _, h =>
    takeBurst_plain k rest (fun x hx => hb x (List.mem_cons_of_mem _ hx))
      (k.takeWord h w (fun r hr => absurd hr (hb w (List.mem_cons_self ..) r)))

end KeepsCommands

/-! ### The transit unit, time and resets -/

/-- A word is refused by none of the checks of an accepted burst. -/
theorem wordRefusal_none {s : State} : ∀ {b : List ControlWord}, s.wordRefusal b = none → ∀ w ∈ b, s.wordReason w = none
  | [], _, _, hw => by simp at hw
  | x :: rest, h, w, hw => by
    unfold State.wordRefusal at h
    split at h
    · simp at h
    · rename_i hx
      cases hw with
      | head => exact hx
      | tail _ hm => exact wordRefusal_none h w hm

/-- A burst that is not refused passes the word checks. -/
theorem refusalOf_words {s : State} {b : List ControlWord} (h : s.refusalOf b = none) : s.wordRefusal b = none := by
  unfold State.refusalOf at h
  split at h
  · assumption
  · simp at h
  · simp at h
  · split at h <;> simp at h

/-- An accepted consumed-index word is in range (R30). -/
theorem inRange_of_accepted {s : State} {b : List ControlWord} (h : s.refusalOf b = none) {w : ControlWord} (hw : w ∈ b)
    {r : Ring} (hr : regionOf w.off = .consumed r) : (s.writeBack.ring r).inRange (newConsumed w.beat.data) = true := by
  have h1 := wordRefusal_none (refusalOf_words h) w hw
  unfold State.wordReason at h1
  split at h1
  · simp at h1
  · rw [hr] at h1
    simp only at h1
    split at h1
    · assumption
    · simp at h1

/-- The consumed-index word of a ring lies in its region. -/
theorem regionOf_consumedOffset (r : Ring) : regionOf (consumedOffset r) = .consumed r := by cases r <;> rfl

/-- A word from the route region on is no consumed index. -/
theorem regionOf_route (off : Nat) (h : 0x0C00 ≤ off) (r : Ring) : regionOf off ≠ .consumed r := by
  intro hr
  unfold regionOf at hr
  grind

/-- The words of a burst stand at or above its first offset. -/
theorem burstWords_off {off : Nat} {l : List Beat} {w : ControlWord} (h : w ∈ burstWords off l) : off ≤ w.off := by
  unfold burstWords at h
  simp only [List.mem_map] at h
  obtain ⟨e, _, rfl⟩ := h
  simp

/-- The data of a complete request has the length of its beats field, or the request is a READ without data (R2). -/
theorem completeData_length {t : Transit} {req : RequestFields} {last : Option Beat} {data : List Beat}
    (h : t.completeData req last = some data) : data = [] ∨ data.length = req.beats := by
  unfold Transit.completeData at h
  split at h
  · simp_all
  · simp at h
  · split at h
    · simp only [Option.some.injEq] at h; subst h; right; assumption
    · simp at h
  · split at h
    · rename_i hc; simp only [Option.some.injEq] at h; subst h; right; exact hc.2
    · simp at h

/-- A request that the part does not refuse has at most 16 beats (R4). -/
theorem busRefuses_beats {t : Transit} {req : RequestFields} (h : t.busRefuses req = false) : req.beats ≤ 16 := by
  unfold Transit.busRefuses at h
  simp only [Bool.or_eq_false_iff, decide_eq_false_iff_not] at h
  omega

/-- A request that the part does not refuse has a tag whose entry is FREE (R4). -/
theorem busRefuses_entry {t : Transit} {req : RequestFields} (h : t.busRefuses req = false) : t.entry req.tag.toNat = none := by
  unfold Transit.busRefuses at h
  simp only [Bool.or_eq_false_iff] at h
  simpa using h.2

namespace Keeps

theorem answerError (k : Keeps P) {s : State} (h : P s) (tag : SysTag) :
    P { s with transit := s.transit.answerError tag } := k.transit s _ rfl rfl rfl rfl rfl h

theorem classifyRequest (k : Keeps P) {s : State} (h : P s) (req : RequestFields) (data : List Beat)
    (hs : s.transit.stage = []) (hh : s.transit.holds.length < 8) (hd : data.length ≤ 16)
    (he : s.transit.entry req.tag.toNat = none) : P (s.classifyRequest req data) := by
  unfold State.classifyRequest
  dsimp only
  split
  · exact k.raise _ _ (k.answerError h _)
  · split
    · exact k.stage s _ _ hs hh hd he h
    · rename_i hw; exact k.hold s _ _ req hs hh hd he hw h

theorem takeRequest (k : Keeps P) {s : State} (h : P s) (req : RequestFields) (last : Option Beat) (data : List Beat)
    (hc : s.canTake req.tag = true) (hd : s.transit.completeData req last = some data) : P (s.takeRequest req data) := by
  have h1 : P { s with transit := { s.transit with partialBurst := none, waiting := none } } := k.transit s _ rfl rfl rfl rfl rfl h
  unfold State.canTake at hc
  simp only [Bool.and_eq_true, decide_eq_true_eq] at hc
  unfold State.takeRequest
  dsimp only
  split
  · exact k.raise _ _ (k.answerError h1 _)
  · rename_i hb
    refine k.classifyRequest h1 req data hc.1.1.2 hc.1.2 ?_ (busRefuses_entry (t := s.transit) (by simpa using hb))
    have := busRefuses_beats (by simpa using hb)
    rcases completeData_length hd with h2 | h2
    · simp [h2]
    · omega

theorem offerRequest (k : Keeps P) {s : State} (h : P s) (w : WaitingRequest) (data : List Beat)
    (hd : s.transit.completeData w.fields w.lastBeat = some data) : P (s.offerRequest w data) := by
  unfold State.offerRequest
  split
  · rename_i hc; exact k.settle _ (k.takeRequest h _ _ data hc hd)
  · exact k.transit s _ rfl rfl rfl rfl rfl h

theorem receiveBeat (k : Keeps P) {s : State} (h : P s) (req : RequestFields) (b : Beat) :
    P { s with transit := s.transit.receiveBeat req b } := by
  refine k.transit s _ ?_ ?_ ?_ ?_ ?_ h <;> (unfold Transit.receiveBeat; repeat' split) <;> rfl

theorem refuseHead (k : Keeps P) {s : State} (h : P s) (r : Request) (rest : List Request) (reason : LastRefusal)
    (hs : s.transit.stage = r :: rest) :
    P ({ s with transit := ({ s.transit with stage := rest }.freeEntry r.tag.toNat).answerError r.tag }.refuseControl
      reason) :=
  k.refuseControl (k.answerError (k.refuse s r rest hs h) r.tag) reason

theorem offerControl (k : Keeps P) {s : State} (h : P s) (r : Request) (rest : List Request)
    (hs : s.transit.stage = r :: rest) : P (s.offerControl r rest) := by
  unfold State.offerControl
  split
  · exact k.refuseHead h r rest _ hs
  · rename_i hr; exact k.controlWrite s r rest hs hr h

theorem observe (k : Keeps P) {s : State} (h : P s) (r : Request) (hb : s.transit.base = none) : P (s.observe r) := by
  unfold State.observe
  split
  · exact h
  · split
    · exact k.anchor s _ hb h
    · exact h

theorem tapForwarded (k : Keeps P) {s : State} (h : P s) (r : Request) : P (s.tapForwarded r) := by
  unfold State.tapForwarded
  split
  · rename_i hb; exact k.observe h r (by simpa using hb)
  · split
    · exact h
    · split
      · exact k.tapWrite h _ _ _ _
      · exact h

theorem presentHead (k : Keeps P) {s : State} (h : P s) (r : Request) (rest : List Request)
    (hs : s.transit.stage = r :: rest) : P (s.presentHead r rest) := by
  unfold State.presentHead
  split
  · exact k.present s r rest _ hs h
  · split
    · exact k.offerControl h r rest hs
    · exact k.tapForwarded (k.present s r rest none hs h) r

theorem collect (k : Keeps P) {s : State} (h : P s) : P s.collect := k.transit s _ rfl rfl rfl rfl rfl h

theorem acknowledgeAll (k : Keeps P) (l : List Capture) {s : State} (h : P s) : P (l.foldl State.acknowledge s) :=
  fold_keeps (fun s c hs => k.acknowledge s c hs) l h

theorem readAnswered (k : Keeps P) {s : State} (h : P s) (cap : Capture) : P (s.readAnswered cap) := by
  unfold State.readAnswered
  split
  · exact h
  · split
    · exact k.acknowledge s cap h
    · exact h
    · exact k.transit s _ rfl rfl rfl rfl rfl h

theorem statusAnswered (k : Keeps P) {s : State} (h : P s) (seq : BitVec 32) (status : BusStatus) :
    P (s.statusAnswered seq status) := by
  unfold State.statusAnswered
  dsimp only
  have h1 := fun x => k.transit s { s.transit with statusRecords := x } rfl rfl rfl rfl rfl h
  split
  · exact k.acknowledgeAll _ (h1 _)
  · exact k.raise _ _ (h1 _)

theorem recordAnswered (k : Keeps P) {s : State} (h : P s) (r : Ring) (status : BusStatus) : P (s.recordAnswered r status) := by
  unfold State.recordAnswered
  dsimp only
  split
  · exact k.outcome s r _ _ h
  · exact k.raise _ _ (k.outcome s r _ _ h)

theorem answered (k : Keeps P) {s : State} (h : P s) (tag : PortTag) (e : Entry) (status : BusStatus) (data : List Word64)
    (he : s.transit.entry tag.toNat = some e) (hp : e.phase = .presented) : P (s.answered tag e status data) := by
  have hf := k.freeEntry s tag.toNat e he (Or.inl hp) h
  unfold State.answered
  dsimp only
  split
  · exact k.recordAnswered hf _ _
  · exact k.statusAnswered hf _ _
  · have hr := k.transit { s with transit := s.transit.freeEntry tag.toNat }
      ((s.transit.freeEntry tag.toNat).respond { tag := tag.setWidth 6, status := status, data := data })
      rfl rfl rfl rfl rfl hf
    split
    · exact k.readAnswered hr _
    · exact hr

theorem presentOwnHead (k : Keeps P) {s : State} (h : P s) (tag : Nat) (x : WriteBackHead) (hx : s.writeBack.head = some x)
    (ht : s.transit.freeInsertedTag = some tag) : P (s.presentOwnHead tag x) := by
  unfold State.presentOwnHead
  cases x with
  | record e => exact k.presentRecord s tag e hx ht h
  | status => exact k.presentStatus s tag hx ht h

theorem sampleEvent (k : Keeps P) {s : State} (h : P s) (e : SampleEvent) : P (s.sampleEvent e) :=
  k.settle _ (k.sampleEffect h e)

theorem sampleEvents (k : Keeps P) {s : State} (h : P s) (l : List SampleEvent) : P (s.sampleEvents l) := by
  unfold State.sampleEvents
  split
  · exact fold_keeps (P := P) (f := State.sampleEvent) (fun s e hs => k.sampleEvent hs e) l h
  · exact fold_keeps (P := P) (f := State.sampleEvent) (fun s e hs => k.sampleEvent hs e) _ (k.free s _ h)

theorem setFilters (k : Keeps P) {s : State} (h : P s) (f : LineFilters) :
    P { s with odometer := { s.odometer with filters := f } } := k.odo h _ rfl

/-- A single word offered to the control block. -/
theorem offerWord (k : Keeps P) {s : State} (h : P s) (w : ControlWord) : P (s.offerBurst [w]) := by
  unfold State.offerBurst
  split
  · exact k.refuseControl h _
  · rename_i hr
    exact k.takeWord h w (fun r hw => k.consumedWord s r _ (inRange_of_accepted hr (by simp) hw) h)

/-- A burst of route words offered to the control block. -/
theorem offerRoute (k : Keeps P) {s : State} (h : P s) (n : Nat) (l : List Beat) :
    P (s.offerBurst (burstWords (0x0C00 + 8 * n) l)) := by
  unfold State.offerBurst
  split
  · exact k.refuseControl h _
  · exact k.takeBurst_plain _ (fun w hw r => regionOf_route _ (by have := burstWords_off hw; omega) r) h

/-- Every command keeps what every primitive update keeps. -/
theorem exec (k : Keeps P) {s t : State} (h : P s) (i : Instr) (he : exec i s = .next t) : P t := by
  have fin : ∀ {u : State}, P u → (Host.Outcome.next u.settle : Host.Outcome State Fault Refusal) = .next t → P t := by
    intro u hu e
    have : u.settle = t := by simpa using e
    exact this ▸ k.settle u hu
  have same : ∀ {u : State}, P u → (Host.Outcome.next u : Host.Outcome State Fault Refusal) = .next t → P t := by
    intro u hu e
    have : u = t := by simpa using e
    exact this ▸ hu
  cases i <;> unfold Sys2Proof.Machine.exec at he <;> dsimp only at he
  case requestTaken req last =>
    unfold execRequestTaken at he
    split at he
    · rename_i data hd
      split at he
      · exact same h he
      · exact same (k.offerRequest h ⟨req, last⟩ data hd) he
    · exact same h he
  case systemHeadPresented =>
    unfold execSystemHeadPresented at he
    split at he
    · exact same h he
    · rename_i r rest hs
      split at he
      · exact fin (k.presentHead h r rest hs) he
      · exact same h he
  case controlWrite =>
    unfold execControlWrite at he
    split at he
    · exact same h he
    · rename_i r rest hs
      split at he
      · exact fin (k.offerControl h r rest hs) he
      · exact same h he
  case routeEntryWrite n l => exact fin (k.whileAnchored h _ (k.offerRoute h n _)) he
  case consumedIndexWrite r w => exact fin (k.whileAnchored h _ (k.offerWord h _)) he
  case interruptEnableMaskWrite w => exact fin (k.whileAnchored h _ (k.offerWord h _)) he
  case arm => exact fin (k.whileAnchored h _ (k.commandArm h)) he
  case start => exact fin (k.whileAnchored h _ (k.commandStart h)) he
  case stop => exact fin (k.whileAnchored h _ (k.commandStop h)) he
  case abort => exact fin (k.whileAnchored h _ (k.commandAbort h)) he
  case release => exact fin (k.whileAnchored h _ (k.commandRelease h)) he
  case chainageSet w => exact fin (k.whileAnchored h _ (k.commandChainageSet h w)) he
  case profileSelect w => exact fin (k.whileAnchored h _ (k.commandProfileSelect h w)) he
  case actionPost w => exact fin (k.whileAnchored h _ (k.commandActionPost h w)) he
  case actionCancel w => exact fin (k.whileAnchored h _ (k.commandActionCancel h w)) he
  case writebackHeadPresented =>
    unfold execWritebackHeadPresented at he
    split at he
    · rename_i x tag hx ht
      split at he
      · exact fin (k.presentOwnHead h tag x hx ht) he
      · exact same h he
    · exact same h he
  case memoryResponse tag status data =>
    unfold execMemoryResponse at he
    split at he
    · exact same h he
    · rename_i e hr
      split at he
      · exact same h he
      · exact same h he
      · rename_i hp; exact same (k.freeEntry s _ e hr (Or.inr hp) h) he
      · rename_i hp; exact fin (k.collect (k.answered h tag e status data hr hp)) he
  case portReset => exact same (k.portReset s h) he
  case portResetRelease => exact same (k.portRelease s h) he
  case hardwareReset => exact same (k.hardwareReset s h) he
  case leadCount f => exact fin (k.whileCounting h _ (fun s hs => k.leadCount hs f)) he
  case nonLeadCount f => exact fin (k.whileCounting h _ (fun s hs => k.nonLeadCount hs f)) he
  case quadratureError c => exact fin (k.whileCounting h _ (fun s hs => k.quadError hs c)) he
  case markPassage => exact fin (k.whileCounting h _ (fun s hs => k.passage hs)) he
  case silenceTimerExpiry i =>
    unfold execSilenceTimerExpiry at he
    dsimp only at he
    split at he
    · exact same h he
    · split at he
      · exact fin (k.giveUpStream (k.raise _ _ (k.setStream h i _)) i) he
      · exact same h he
  case pointDeadlineExpiry n =>
    unfold execPointDeadlineExpiry at he
    split at he
    · exact same h he
    · rename_i p _
      split at he
      · exact fin (k.close (k.gapPoint h p)) he
      · exact same h he
  case pulseRelease slot =>
    unfold execPulseRelease at he
    split at he
    · rename_i p hp
      split at he
      · exact same (k.freeSlot s slot.val p hp h) he
      · exact same h he
    · exact same h he
  case lineFilterSample l =>
    unfold execLineFilterSample at he
    split at he
    · exact same h he
    · exact fin (k.tick _ (k.whileCounting (k.setFilters h _) _ (fun s hs => k.sampleEvents hs _))) he
  case hardwareResetRelease l =>
    unfold execHardwareResetRelease at he
    split at he
    · have h1 := k.resetRelease s h
      have h2 := k.setFilters h1 (.first l)
      exact same (k.tick _ h2) he
    · exact same h he
  case systemResponseDelivered =>
    unfold execSystemResponseDelivered at he
    split at he
    · exact same h he
    · exact same (k.transit s { s.transit with responses := s.transit.responses.tail } rfl rfl rfl rfl rfl h) he
  case dataBeatReceived req b =>
    unfold execDataBeatReceived at he
    split at he
    · exact same h he
    · exact same (k.receiveBeat h req b) he

end Keeps

end Sys2Proof.Machine
end

