-- ==== Sys2Proof/Laws/Points.lean ====
section
/-! SUPPORT. The point assembler's shared operations, said once: waiting entries, giving up, a handed frame, the closing of a queue, and
the reading of a table passed through a function. -/

namespace Sys2Proof.Machine

/-- A time is reached as the operations test it. -/
theorem reached_iff (s : State) (t : Time) : Reached s t ↔ s.reached t = true := by
  unfold Reached State.reached; simp

/-- A point waits as the operations test it. -/
theorem PendingPoint.hasWaiting_iff (p : PendingPoint) : p.hasWaiting = true ↔ ∃ i, p.WaitsOn i := by
  unfold PendingPoint.hasWaiting PendingPoint.WaitsOn
  rw [List.any_eq_true]
  constructor
  · rintro ⟨e, he, h⟩
    refine ⟨e.stream, e, he, rfl, ?_⟩
    cases hs : e.state with
    | waiting b => exact ⟨b, rfl⟩
    | filled v => rw [hs] at h; cases h
    | missing => rw [hs] at h; cases h
  · rintro ⟨i, e, he, _, b, hb⟩
    exact ⟨e, he, by rw [hb]; rfl⟩

/-- An entry given up. -/
theorem StreamEntry.giveUp_eq (e : StreamEntry) : { e with state := e.state.giveUp } = e.givenUp := by
  obtain ⟨i, st⟩ := e
  cases st <;> rfl

/-- A point whose waiting entries are all given up. -/
theorem PendingPoint.giveUpAll_eq (p : PendingPoint) :
    p.giveUpAll = { p with entries := p.entries.map StreamEntry.givenUp } := by
  unfold PendingPoint.giveUpAll
  congr 1
  exact List.map_congr_left (fun e _ => e.giveUp_eq)

/-- No closing passes a head that waits. -/
theorem State.closePoints_headWaits (n : Nat) (s : State) (h : HeadWaits s.assembler.queue none) : State.closePoints n s = s := by
  cases n with
  | zero => rfl
  | succ n =>
    unfold State.closePoints
    split
    · rfl
    · rename_i p rest hq
      obtain ⟨j, hj, _⟩ := h p rest hq
      rw [if_pos (p.hasWaiting_iff.mpr ⟨j, hj⟩)]

/-- A closing at a head that waits, with no drain to complete, changes nothing. -/
theorem State.close_headWaits (s : State) (h : HeadWaits s.assembler.queue none)
    (hq : s.assembler.queue ≠ [] ∨ s.control.runState ≠ .draining) : s.close = s := by
  unfold State.close
  rw [s.closePoints_headWaits _ h]
  unfold State.completeDrain
  rw [if_neg]
  rintro ⟨a, b⟩
  rcases hq with hq | hq
  · exact hq b
  · exact hq a

/-- The closing cascade is what R110 says. -/
theorem State.closePoints_closing (n : Nat) (s : State) (hn : s.assembler.queue.length ≤ n) :
    ClosingOf s.assembler.queue s.assembler (State.closePoints n s).assembler := by
  induction n generalizing s with
  | zero =>
    have h0 : s.assembler.queue = [] := List.length_eq_zero_iff.mp (by omega)
    refine ⟨0, by simp, by simp [State.closePoints], by simp, fun p rest h => ?_⟩
    exact absurd (h0.symm.trans h) (by simp)
  | succ n ih =>
    unfold State.closePoints
    cases hq : s.assembler.queue with
    | nil => exact ⟨0, by simp, by simp [← hq], by simp, fun p rest h => absurd (hq.symm.trans h) (by simp)⟩
    | cons p rest =>
      dsimp only
      by_cases hw : p.hasWaiting = true
      · rw [if_pos hw]
        refine ⟨0, by simp, by simp [← hq], by simp, fun p' rest' h => ?_⟩
        have e : p' = p := by rw [hq] at h; exact (List.cons.inj h).1.symm
        obtain ⟨j, hj⟩ := p.hasWaiting_iff.mp hw
        exact ⟨j, e ▸ hj, by simp⟩
      · rw [if_neg hw]
        have hl : rest.length ≤ n := by rw [hq] at hn; simp at hn; omega
        have h := ih (State.placeSample
          { s with assembler := { s.assembler with queue := rest, closed := s.assembler.closed + 1 } } (s.assembler.sample p))
          (by rw [placeSample_assembler]; exact hl)
        rw [placeSample_assembler] at h
        obtain ⟨m, h1, h2, h3, h4⟩ := h
        refine ⟨m + 1, by simpa using h1, ?_, ?_, h4⟩
        · rw [h2]
          have : (1 : BitVec 32) + BitVec.ofNat 32 m = BitVec.ofNat 32 (m + 1) := by
            rw [Nat.add_comm m 1, BitVec.ofNat_add]; rfl
          simp [← this, BitVec.add_assoc]
        · intro x hx
          rw [List.take_succ_cons] at hx
          rcases List.mem_cons.mp hx with rfl | hx
          · intro j hj; exact hw (x.hasWaiting_iff.mpr ⟨j, hj⟩)
          · exact h3 x hx

/-- A handed frame at an entry of its stream is what R105 and R107 say. -/
theorem StreamEntry.took_eq (e : StreamEntry) (f : Frame) (tk : Time) : { e with state := applyFrame f tk e.state } = e.took f tk := by
  obtain ⟨i, st⟩ := e
  unfold StreamEntry.took applyFrame applyHealthy timeAtOrAbove
  cases st <;> cases hh : f.healthy <;> simp

/-- A handed frame at a pending point. -/
theorem PendingPoint.takeFrame_eq (i : Fin 4) (f : Frame) (p : PendingPoint) : p.takeFrame i f = p.took i f := by
  unfold PendingPoint.takeFrame PendingPoint.took
  congr 1
  exact List.map_congr_left (fun e _ => by
    split
    · exact e.took_eq f p.time
    · rfl)

/-- The reading of a table passed through a function of key and value. -/
theorem Table.read_map (l : Table Int) (g : Nat → Int → Int) (q : Nat) :
    Table.read (l.map (fun e => (e.1, g e.1 e.2))) q = (Table.read l q).map (g q) := by
  induction l with
  | nil => rfl
  | cons e r ih =>
    obtain ⟨j, a⟩ := e
    simp only [List.map_cons, Table.read]
    split
    · rename_i h; subst h; rfl
    · exact ih

/-- A point of the run as the geometry unit looks it up (R122). -/
theorem GeometryUnit.pointAt_iff (g : GeometryUnit) (j : Int) (y : Sample) : g.pointAt j = some y ↔ PointOf g j y := by
  unfold GeometryUnit.pointAt PointOf ringPosition
  cases h : Table.read g.ring (j % 256).toNat with
  | none => simp
  | some x =>
    simp only [Option.some.injEq]
    split
    · rename_i hx
      constructor
      · intro h'; cases h'; exact ⟨rfl, hx⟩
      · rintro ⟨h1, _⟩; exact congrArg _ h1
    · rename_i hx
      constructor
      · intro h'; cases h'
      · rintro ⟨h1, h2⟩; exact absurd (h1 ▸ h2) hx

/-- The value of a quantity as the channels read it (R127). -/
theorem Sample.quantity_iff (x : Sample) (c : Nat) (v : Int) : x.quantity c = some v ↔ Valid x c v := by
  unfold Sample.quantity Valid
  rw [List.getD_eq_getElem?_getD]
  cases h : x.readings[c - 1]? with
  | none => simp
  | some r =>
    cases r with
    | valid w => simp
    | missing => simp
    | unmapped =>
      simp only [Option.getD_some]
      by_cases h6 : c = 6 ∨ c = 7
      · simp [h6]; exact eq_comm
      · simp [h6]

end Sys2Proof.Machine
end

