-- ==== Sys2Proof/Laws/Closing.lean ====
section
/-! SUPPORT. Closing points and emitting records, said once in the terms of the claims: the sample of a closed point, a centre emitted, a
sample placed, the closing of a queue, the end of the records and the completion of a drain. -/

namespace Sys2Proof.Machine

/-! ### The sample of a closed point -/

/-- The sample that the assembler makes of a point is what R111 says. -/
theorem Assembler.sample_of (a : Assembler) (p : PendingPoint) : SampleOf a p (a.sample p) := by
  refine ⟨rfl, rfl, rfl, rfl, rfl, rfl, rfl, fun q h1 h2 => ?_⟩
  have hq : (a.sample p).readings[q - 1]? = some (a.reading p q) := by
    have : q = 1 ∨ q = 2 ∨ q = 3 ∨ q = 4 ∨ q = 5 ∨ q = 6 ∨ q = 7 ∨ q = 8 := by omega
    rcases this with rfl | rfl | rfl | rfl | rfl | rfl | rfl | rfl <;> rfl
  rw [hq]
  unfold Assembler.reading
  constructor
  · intro h
    have hn : a.contributing.find? (fun c => c.quantities.contains q) = none :=
      List.find?_eq_none.mpr (fun c hc => by simpa using h c hc)
    rw [hn]
  · intro c hc e he
    rw [hc]; dsimp only; rw [he]; dsimp only
    cases e.state with
    | waiting b => rfl
    | missing => rfl
    | filled values => intro v hv; simp [hv]

/-! ### Centres -/

/-- The emission of a centre is what R124 says. -/
theorem State.emitCentre_emitted (s : State) (c : Int) : CentreEmitted c s (s.emitCentre c) := by
  refine ⟨_, rfl, fun y hy => ?_, fun h => ?_⟩
  · unfold State.emitCentre; rw [(s.geometry.pointAt_iff c y).mpr hy]
  · unfold State.emitCentre
    cases hp : s.geometry.pointAt c with
    | none => rfl
    | some y => exact absurd ⟨y, (s.geometry.pointAt_iff c y).mp hp⟩ h

/-- The placing of a sample is what R121 and R124 say. -/
theorem State.placeSample_placed (s : State) (x : Sample) : SamplePlaced x s (s.placeSample x) := by
  refine ⟨_, rfl, fun h => ?_, fun first hf hle => ?_⟩
  · unfold State.placeSample
    cases hf : s.geometry.firstPoint with
    | none => rfl
    | some first => dsimp only; rw [if_neg (by have := h first hf; omega)]; rfl
  · unfold State.placeSample
    rw [hf]; dsimp only; rw [if_pos hle]
    exact State.emitCentre_emitted _ _

/-! ### Closing (R110) -/

/-- The closing of a queue is what R110 says. -/
theorem State.closePoints_closes (n : Nat) (s : State) (hn : s.assembler.queue.length ≤ n) : Closing s (State.closePoints n s) := by
  induction n generalizing s with
  | zero =>
    have h0 : s.assembler.queue = [] := List.length_eq_zero_iff.mp (by omega)
    exact ⟨[], [], by rw [h0]; rfl, fun p rest h => (by cases h), rfl⟩
  | succ n ih =>
    unfold State.closePoints
    cases hq : s.assembler.queue with
    | nil => exact ⟨[], [], by rw [hq]; rfl, fun p rest h => (by cases h), rfl⟩
    | cons p rest =>
      dsimp only
      by_cases hw : p.hasWaiting = true
      · rw [if_pos hw]
        refine ⟨[], p :: rest, hq, fun p' rest' h => ?_, rfl⟩
        obtain ⟨j, hj⟩ := p.hasWaiting_iff.mp hw
        cases h
        exact ⟨j, hj, by simp⟩
      · rw [if_neg hw]
        obtain ⟨closed, behind, h1, h2, h3⟩ := ih (State.placeSample
          { s with assembler := { s.assembler with queue := rest, closed := s.assembler.closed + 1 } } (s.assembler.sample p))
          (by rw [placeSample_assembler]; rw [hq] at hn; simp at hn ⊢; omega)
        rw [placeSample_assembler] at h1
        exact ⟨p :: closed, behind, by rw [hq]; exact congrArg (p :: ·) h1, h2, rest, s.assembler.sample p, _, hq,
          fun j hj => hw (p.hasWaiting_iff.mpr ⟨j, hj⟩), s.assembler.sample_of p, State.placeSample_placed _ _, h3⟩

/-! ### The end of the records (R125, R157) -/

/-- What the level of the exceedance unit leaves alone, as a property kept: the geometry unit. -/
theorem keeps_geometry (g : GeometryUnit) : KeepsExceedance (fun s => s.geometry = g) where
  raise s f h := by simpa using h
  produce s q c h := by simpa using h
  action _ _ _ _ _ h := h
  enqueue _ _ _ h := h
  dequeue _ _ _ _ h := h
  occupy _ _ _ _ h := h
  exceedance _ _ _ _ h := h
  route _ _ _ h := h
  tracker _ _ _ _ h := h

/-- The emission of a centre moves the cursor past it and leaves the rest of the geometry unit alone. -/
theorem State.emitCentre_geometry (s : State) (c : Int) : (s.emitCentre c).geometry = { s.geometry with cursor := some (c + 1) } := by
  unfold State.emitCentre
  dsimp only
  split
  · rfl
  · exact (keeps_geometry _).classifyRecord rfl _

/-- Centres are emitted from the cursor on, in increasing order (R125). -/
theorem State.emitCentres_emitted (n : Nat) (s : State) (c : Int) (h : s.geometry.cursor = some c) :
    CentresEmitted ((List.range n).map (fun (k : Nat) => c + k)) s (State.emitCentres n s) := by
  induction n generalizing s c with
  | zero => rfl
  | succ n ih =>
    unfold State.emitCentres
    rw [h]; dsimp only
    rw [List.range_succ_eq_map, List.map_cons, List.map_map]
    refine ⟨s.emitCentre c, ?_, ?_⟩
    · simpa using s.emitCentre_emitted c
    · have := ih (s.emitCentre c) (c + 1) (by rw [s.emitCentre_geometry])
      refine cast (congrArg (CentresEmitted · _ _) (List.map_congr_left fun k _ => ?_)) this
      simp only [Function.comp_apply, Nat.succ_eq_add_one]; omega

/-- The end of the records closes every open run in channel order (R157). -/
theorem State.endRecords_closes (s : State) : RunsClose .runEnd [0, 1, 2, 3, 4, 5, 6, 7] s s.endRecords := by
  have h : ∀ (l : List Nat) (s : State), RunsClose .runEnd l s (l.foldl (fun s ch => s.closeRun ch .runEnd) s) := by
    intro l
    induction l with
    | nil => intro s; rfl
    | cons ch rest ih => intro s; exact ⟨_, s.closeRun_closes ch .runEnd, ih _⟩
  exact h _ s

/-- The end-of-points notice is what R125 and R157 say. -/
theorem State.endOfPoints_ends (s : State) : RecordsEnd s s.endOfPoints := by
  unfold State.endOfPoints GeometryUnit.tailLength
  cases hc : s.geometry.cursor with
  | none => exact ⟨[], s, rfl, s.endRecords_closes, fun _ => rfl, fun c l h => (by rw [hc] at h; cases h)⟩
  | some c =>
    cases hl : s.geometry.newest with
    | none => exact ⟨[], s, rfl, s.endRecords_closes, fun _ => rfl, fun c l _ h => (by rw [hl] at h; cases h)⟩
    | some last =>
      refine ⟨_, _, s.emitCentres_emitted _ c hc, State.endRecords_closes _, ?_, ?_⟩
      · rintro (h | h)
        · rw [hc] at h; cases h
        · rw [hl] at h; cases h
      · intro c' l' h1 h2
        rw [hc] at h1; rw [hl] at h2
        cases h1; cases h2; rfl

/-- The completion of a drain is what R52 says. -/
theorem State.completeDrain_ends (s : State) : DrainEnds s s.completeDrain := by
  refine ⟨fun h => ?_, fun h1 h2 => ?_⟩
  · unfold State.completeDrain; rw [if_neg h]
  · have he : s.completeDrain = s.endOfPoints.changeRunState .stopped := by unfold State.completeDrain; rw [if_pos ⟨h1, h2⟩]
    rw [he]
    have hm := s.endOfPoints_ends
    generalize s.endOfPoints = m at hm ⊢
    exact ⟨m, m.tap.mapStreams (fun c => { c with timer := none }), hm, fun i => StreamTap.stream_mapStreams _ _ i, rfl, rfl⟩

/-- The closing of an event and what follows it in DRAINING. -/
theorem State.close_closes (s : State) : ∃ v, Closing s v ∧ DrainEnds v s.close :=
  ⟨_, s.closePoints_closes _ (Nat.le_refl _), State.completeDrain_ends _⟩

end Sys2Proof.Machine
end

