-- ==== Sys2Proof/Laws/Capture.lean ====
section
/-! SUPPORT. Capture writes, said once in the terms of the claims: a burst taps its beats in turn; whole beats of one slot are stored, and
the one that makes the eighth present completes the frame. -/

namespace Sys2Proof.Machine

/-! ### A burst (R80) -/

/-- A capture write taps its beats in ascending address order (R80). -/
theorem State.tapWrite_taps (i : Fin 4) (arrival : Time) (beats : List Beat) (off : Nat) (s : State) :
    BeatsTapped i arrival off beats s (s.tapWrite i off beats arrival) := by
  have h : ∀ (beats : List Beat) (off n : Nat) (s : State), BeatsTapped i arrival (off + 8 * n) beats s
      ((beats.zipIdx n).foldl (fun s e => s.tapBeat i arrival (off + 8 * e.2) e.1) s) := by
    intro beats
    induction beats with
    | nil => intro off n s; rfl
    | cons b rest ih => intro off n s; exact ih off (n + 1) _
  exact h beats off 0 s

/-- The taps of a burst are determined. -/
theorem BeatsTapped.eq {i : Fin 4} {arrival : Time} {beats : List Beat} {off : Nat} {s t : State}
    (h : BeatsTapped i arrival off beats s t) : t = s.tapWrite i off beats arrival := by
  have hd : ∀ (beats : List Beat) (off : Nat) (s t u : State), BeatsTapped i arrival off beats s t →
      BeatsTapped i arrival off beats s u → t = u := by
    intro beats
    induction beats with
    | nil => intro off s t u h1 h2; exact Eq.trans h1 (Eq.symm h2)
    | cons b rest ih => intro off s t u h1 h2; exact ih _ _ _ _ h1 h2
  exact hd _ _ _ _ _ h (State.tapWrite_taps i arrival beats off s)

/-! ### One beat (R80, R81) -/

/-- A beat with a clear strobe, or of an IDLE stream, has no effect (R80). -/
theorem State.tapBeat_ignored (s : State) (i : Fin 4) (arrival : Time) (off : Nat) (b : Beat)
    (h : b.strobes ≠ BitVec.allOnes 8 ∨ (s.tap.stream i).state = .idle) : s.tapBeat i arrival off b = s := by
  unfold State.tapBeat
  rw [if_neg]
  rintro ⟨h1, h2⟩
  rcases h with h | h
  · exact h h1
  · exact h2 h

/-- A whole beat of the expected slot is stored (R81). -/
theorem State.tapBeat_expected (s : State) (i : Fin 4) (arrival : Time) (off : Nat) (b : Beat) (hb : b.strobes = BitVec.allOnes 8)
    (hi : (s.tap.stream i).state ≠ .idle) (he : off / 64 = (s.tap.stream i).expectedSlot) :
    s.tapBeat i arrival off b = s.storeBeat i arrival (off % 64 / 8) b.data := by
  unfold State.tapBeat State.alignSlot
  rw [if_pos ⟨hb, hi⟩]; dsimp only; rw [if_pos he]

/-- A stored beat that leaves a position empty (R81). -/
theorem State.storeBeat_partial (s : State) (i : Fin 4) (arrival : Time) (pos : Nat) (w : Word64)
    (h : ∃ k, k ≠ pos ∧ (s.tap.stream i).buffer[k]? = some none) :
    s.storeBeat i arrival pos w =
      s.setStream i { s.tap.stream i with buffer := (s.tap.stream i).buffer.set pos (some w) } := by
  obtain ⟨k, hk, hn⟩ := h
  unfold State.storeBeat
  dsimp only
  rw [if_neg]
  intro ha
  have hm : none ∈ (s.tap.stream i).buffer.set pos (some w) :=
    List.mem_of_getElem? (i := k) (by rw [List.getElem?_set_ne (Ne.symm hk)]; exact hn)
  have := List.all_eq_true.mp ha _ hm
  cases this

/-! ### Whole beats of one slot -/

/-- The next beat of a slot. -/
theorem next_in_slot {off n : Nat} (h : off % 64 / 8 + (n + 2) ≤ 8) :
    (off + 8) / 64 = off / 64 ∧ (off + 8) % 64 / 8 = off % 64 / 8 + 1 := by omega

/-- Whole beats of the expected slot that leave the frame incomplete are stored (R81). -/
theorem State.tapWrite_partial (i : Fin 4) (arrival : Time) (beats : List Beat) (off : Nat) (s : State)
    (hw : ∀ b ∈ beats, b.strobes = BitVec.allOnes 8) (hl : off % 64 / 8 + beats.length ≤ 8)
    (hi : (s.tap.stream i).state ≠ .idle) (he : off / 64 = (s.tap.stream i).expectedSlot)
    (hk : ∃ k, (k < off % 64 / 8 ∨ off % 64 / 8 + beats.length ≤ k) ∧ (s.tap.stream i).buffer[k]? = some none) :
    s.tapWrite i off beats arrival =
      s.setStream i { s.tap.stream i with buffer := withBeats (s.tap.stream i).buffer (off % 64 / 8) beats } := by
  refine Eq.symm (BeatsTapped.eq ?_)
  induction beats generalizing off s with
  | nil => show s.setStream i (s.tap.stream i) = s; simp [State.setStream]
  | cons b rest ih =>
    obtain ⟨k, hk1, hk2⟩ := hk
    unfold BeatsTapped
    rw [s.tapBeat_expected i arrival off b (hw b (List.mem_cons_self ..)) hi he,
      s.storeBeat_partial i arrival _ _ ⟨k, by simp at hk1; omega, hk2⟩]
    cases rest with
    | nil => rfl
    | cons b2 rest2 =>
      simp only [List.length_cons] at hl hk1
      obtain ⟨n1, n2⟩ := next_in_slot (off := off) (n := rest2.length) (by omega)
      have := ih (off + 8)
        (s.setStream i { s.tap.stream i with buffer := (s.tap.stream i).buffer.set (off % 64 / 8) (some b.data) })
        (fun x hx => hw x (List.mem_cons_of_mem _ hx)) (by rw [n2]; simp only [List.length_cons]; omega)
        (by simpa [State.setStream] using hi) (by rw [n1]; simpa [State.setStream] using he)
        ⟨k, by rw [n2]; simp only [List.length_cons]; omega, by
          simp only [State.setStream, StreamTap.stream_setStream]
          rw [List.getElem?_set_ne (by omega)]; exact hk2⟩
      rw [n2] at this
      simpa [State.setStream, withBeats] using this

/-- Whole beats of the expected slot of which the last completes the frame: the frame leaves the buffer and is checked (R84). -/
theorem State.tapWrite_complete (i : Fin 4) (arrival : Time) (beats : List Beat) (off : Nat) (words : List Word64) (s : State)
    (h : FrameComplete (s.tap.stream i) off beats words) :
    s.tapWrite i off beats arrival = (s.setStream i (s.tap.stream i).emptied).checkFrame i arrival words := by
  refine Eq.symm (BeatsTapped.eq ?_)
  obtain ⟨⟨hne, hw, hl⟩, hi, he, hk, hf⟩ := h
  induction beats generalizing off s with
  | nil => exact absurd rfl hne
  | cons b rest ih =>
    unfold BeatsTapped
    rw [s.tapBeat_expected i arrival off b (hw b (List.mem_cons_self ..)) hi he]
    cases rest with
    | nil =>
      unfold BeatsTapped
      have hf2 : (s.tap.stream i).buffer.set (off % 64 / 8) (some b.data) = words.map some := hf
      unfold State.storeBeat
      dsimp only
      rw [hf2, if_pos (by simp)]
      congr 1
      simp [List.map_map, Function.comp_def]
    | cons b2 rest2 =>
      simp only [List.length_cons] at hl hk
      have hk := hk (by omega)
      obtain ⟨n1, n2⟩ := next_in_slot (off := off) (n := rest2.length) (by omega)
      rw [s.storeBeat_partial i arrival _ _ ⟨_, by omega, hk⟩]
      have := ih (off + 8)
        (s.setStream i { s.tap.stream i with buffer := (s.tap.stream i).buffer.set (off % 64 / 8) (some b.data) })
        (by simp) (fun x hx => hw x (List.mem_cons_of_mem _ hx)) (by rw [n2]; simp only [List.length_cons]; omega)
        (by simpa [State.setStream] using hi) (by rw [n1]; simpa [State.setStream] using he)
        (by
          intro _
          simp only [State.setStream, StreamTap.stream_setStream, List.length_cons]
          rw [n2, List.getElem?_set_ne (by omega)]
          rw [← hk]; congr 1; omega)
        (by simpa [State.setStream, n2, withBeats] using hf)
      simpa [State.setStream, StreamContext.emptied] using this

end Sys2Proof.Machine
end

