-- ==== Sys2Proof/Laws/Odometry.lean ====
section
/-! SUPPORT. The odometer's shared operations, said once: line filters, the time base, the move of a lead count, a rise with nothing
due, the order of the events of a sample. -/

namespace Sys2Proof.Machine

/-! ### Run states -/

/-- The counting states as the operations test them. -/
theorem counting_iff (s : State) : Counting s ↔ s.control.runState.counting = true := by
  unfold Counting RunState.counting; cases s.control.runState <;> simp

/-- A counting part is anchored. -/
theorem Counting.anchored {s : State} (h : Counting s) : s.control.runState ≠ .unanchored := by
  unfold Counting at h; intro h'; rw [h'] at h; simp at h

/-- The states in which reversal is watched as the operations test them. -/
theorem watchesReversal_iff (s : State) :
    s.control.runState ∈ [RunState.running, .draining, .stopped] ↔ s.control.runState.watchesReversal = true := by
  unfold RunState.watchesReversal; cases s.control.runState <;> simp

/-! ### Line filters and the time base -/

/-- A sample of a filter is what R58 says. -/
theorem LineFilter.sample_filtered (f : LineFilter) (depth : Nat) (level : Bool) :
    Filtered f (f.sample depth level).1 depth level := by
  unfold Filtered LineFilter.sample
  split
  · rfl
  · split
    · rename_i h; rw [if_neg (by omega)]
    · rename_i h; rw [if_pos (by omega)]

/-- When a sample is an accepted change. -/
theorem LineFilter.sample_accepts (f : LineFilter) (depth : Nat) (level : Bool) :
    (f.sample depth level).2 = (decide (level ≠ f.accepted) && decide (depth ≤ f.count + 1)) := by
  unfold LineFilter.sample
  split
  · rename_i h; simp [h]
  · rename_i h; split <;> simp_all

/-- The accepted level after a sample. -/
theorem LineFilter.sample_level (f : LineFilter) (depth : Nat) (level : Bool) :
    (f.sample depth level).1.accepted = if (f.sample depth level).2 then level else f.accepted := by
  unfold LineFilter.sample
  split
  · rfl
  · split <;> rfl

/-- The accepted changes of a sample, from the filters. -/
theorem acceptedChanges_eq (o : Odometer) (l : LineLevels) :
    acceptedChanges o l =
      [(o.filters.ta0.sample o.filterDepth l.ta0).2, (o.filters.ta1.sample o.filterDepth l.ta1).2,
        (o.filters.tb0.sample o.filterDepth l.tb0).2, (o.filters.tb1.sample o.filterDepth l.tb1).2,
        (o.filters.mark.sample o.filterDepth l.mark).2] := by
  unfold acceptedChanges; simp only [LineFilter.sample_accepts]

/-- The time base moves by one sample. -/
theorem State.tick_ticked (s : State) : Ticked s s.tick := by
  unfold Ticked State.tick; split <;> simp_all

/-- A tick changes the time base only. -/
theorem State.tick_frame (s : State) : s.tick = { s with time := s.tick.time, phase := s.tick.phase } := by
  unfold State.tick; split <;> rfl

/-- The end of an event and a tick do not interfere. -/
theorem State.settle_tick (s : State) : s.tick.settle = s.settle.tick := by
  unfold State.tick State.settle; dsimp only; split <;> rfl

/-! ### A rise with nothing due -/

/-- With the head of the queue not due, nothing fires. -/
theorem State.fireDue_nothing (n : Nat) (s : State) (h : ∀ e ∈ s.action.queue, s.odometer.highWater < e.trigger) :
    State.fireDue n s = s := by
  cases n with
  | zero => rfl
  | succ n =>
    unfold State.fireDue
    split
    · rfl
    · rename_i e rest hq
      rw [if_neg]
      have := h e (by rw [hq]; simp)
      omega

/-- A periodic trigger that is off or not due does not fire. -/
theorem State.firePeriodic_nothing (s : State) (g : Fin 2)
    (h : ∀ p, (s.action.periodic g).next = some p → s.odometer.highWater < p) : s.firePeriodic g = s := by
  unfold State.firePeriodic
  dsimp only
  cases hp : (s.action.periodic g).next with
  | none => rfl
  | some p =>
    dsimp only
    rw [if_neg]
    have := h p hp
    omega

/-- A rise with nothing due changes nothing. -/
theorem State.rise_nothing (s : State) (h : NothingDue s s.odometer.highWater) : s.rise = s := by
  unfold State.rise
  simp only [State.fireDue_nothing _ s h.1]
  split
  · rw [s.firePeriodic_nothing 0 (h.2 0), s.firePeriodic_nothing 1 (h.2 1)]
  · rfl

/-! ### The move of a lead count -/

/-- The move of a lead count within signed 64 bits, with the high-water distance raised. -/
theorem Odometer.advance_afterLead (o : Odometer) (forward : Bool) (x : Int) (hx : x = countOf (o.channel o.lead) forward)
    (h1 : -2 ^ 63 ≤ o.d + x) (h2 : o.d + x < 2 ^ 63) :
    { o.advance forward with highWater := max o.highWater ((o.d + x) / 256) } = o.afterLead x o.reversal := by
  have hf : fitDistance (o.d + x) = o.d + x := by unfold fitDistance; rw [if_pos ⟨h1, h2⟩]
  have hx' : (o.channel o.lead).signedCount forward = x := hx ▸ rfl
  unfold Odometer.advance Odometer.afterLead ChannelState.afterLead
  simp only [hx', hf]
  unfold Odometer.setChannel Odometer.channel
  cases o.lead <;> rfl

/-! ### The order of the events of a sample -/

/-- The order that a number picks is a rearrangement: no event is lost and none is doubled, whatever the number. -/
theorem pickOrder_perm {α : Type} (l : List α) (r : Nat) : (pickOrder l.length r l).Perm l := by
  generalize hn : l.length = n
  induction n generalizing l r with
  | zero => rw [List.length_eq_zero_iff] at hn; subst hn; simp [pickOrder]
  | succ n ih =>
    have hlt : r % l.length < l.length := Nat.mod_lt _ (by omega)
    unfold pickOrder
    rw [List.getElem?_eq_getElem hlt]
    dsimp only
    have h := ih (l.eraseIdx (r % l.length)) (r / l.length) (by rw [List.length_eraseIdx_of_lt hlt]; omega)
    refine (List.Perm.cons _ h).trans ?_
    have hs : l = l.take (r % l.length) ++ l[r % l.length] :: l.drop (r % l.length + 1) := by
      rw [List.getElem_cons_drop, List.take_append_drop]
    rw [List.eraseIdx_eq_take_drop_succ]
    exact List.perm_middle.symm.trans (List.Perm.of_eq hs.symm)

end Sys2Proof.Machine
end

