-- ==== Sys2Proof/Laws/Firing.lean ====
section
/-! SUPPORT. Firing, said once in the terms of the claims: a pulse that takes a slot, the head of the queue firing, a periodic trigger, the
rise of the high-water distance, and what a rise leaves alone. -/

namespace Sys2Proof.Machine

/-! ### Pulses -/

/-- A table with no free slot is full. -/
theorem ActionUnit.tableFull_of_freeSlot {a : ActionUnit} (h : a.freeSlot = none) : TableFull a := by
  intro slot hs
  unfold ActionUnit.freeSlot at h
  have := List.find?_eq_none.mp h slot (List.mem_range.mpr hs)
  intro hn
  simp [hn] at this

/-- Taking the lowest free slot is what R171 says, over eight hold counts. -/
theorem ActionUnit.occupy_pulseTaken {a : ActionUnit} {slot : Nat} (h8 : a.holds.length = 8) (h : a.freeSlot = some slot) (p : Pulse) :
    PulseTaken a { a.occupy slot p with fired := a.fired + 1 } p := by
  refine ⟨slot, (a.freeSlot_iff slot).mp h, rfl, by simp [ActionUnit.occupy, adjustHolds], fun line => ?_⟩
  have hl := adjustHolds_getD a.holds p (· + 1) line.val (by omega)
  have hn := names_iff p.group p.pattern line
  refine ⟨fun hN => ?_, fun hN => ?_⟩
  · show (adjustHolds a.holds p (· + 1)).getD line.val 0 = _
    rw [hl, if_pos (hn.mp hN)]
  · show (adjustHolds a.holds p (· + 1)).getD line.val 0 = _
    rw [hl, if_neg (fun h => hN (hn.mpr h))]

/-! ### What firing leaves alone -/

/-- Nothing but the control block, write-back and the action unit changed, and there are as many hold counts as before. -/
def ActsOnly (s t : State) : Prop :=
  t = { s with control := t.control, writeBack := t.writeBack, action := t.action }
    ∧ t.control.runState = s.control.runState ∧ t.action.holds.length = s.action.holds.length

theorem ActsOnly.refl (s : State) : ActsOnly s s := ⟨rfl, rfl, rfl⟩

theorem ActsOnly.trans {s t u : State} (h1 : ActsOnly s t) (h2 : ActsOnly t u) : ActsOnly s u := by
  obtain ⟨a, b, c⟩ := h1
  obtain ⟨d, e, f⟩ := h2
  refine ⟨?_, e.trans b, f.trans c⟩
  rw [d, a]

/-- The production of a record. -/
theorem ActsOnly.produce (s : State) (r : Ring) (c : List Word64) : ActsOnly s (s.produce r c) := by
  refine ⟨?_, by simp, by simp⟩
  unfold State.produce State.raise State.markStatus
  dsimp only
  (repeat' split) <;> rfl

/-- A raise. -/
theorem ActsOnly.raise (s : State) (f : EventFlag) : ActsOnly s (s.raise f) := by
  refine ⟨?_, by simp, by simp⟩
  unfold State.raise
  split <;> rfl

/-- A change of the action unit that keeps the number of hold counts. -/
theorem ActsOnly.action (s : State) (a : ActionUnit) (h : a.holds.length = s.action.holds.length) :
    ActsOnly s { s with action := a } := ⟨rfl, rfl, h⟩

/-- A missed action. -/
theorem State.missAction_missed (s : State) (id : BitVec 16) (origin : Origin) (trigger : Int) :
    MissedAction s (s.missAction id origin trigger) id origin trigger := by
  unfold MissedAction State.missAction State.logAction logWords mmOf
  simp

theorem ActsOnly.missAction (s : State) (id : BitVec 16) (origin : Origin) (trigger : Int) :
    ActsOnly s (s.missAction id origin trigger) :=
  ((ActsOnly.action s { s.action with missed := s.action.missed + 1 } rfl).trans (ActsOnly.raise _ _)).trans
    (ActsOnly.produce _ _ _)

/-! ### The head of the queue -/

/-- The head leaves the queue and fires (R171). -/
theorem State.fireAction_fires {s : State} {e : ActionEntry} {rest : List ActionEntry} (h8 : s.action.holds.length = 8)
    (hq : s.action.queue = e :: rest) :
    HeadFires s ({ s with action := { s.action with queue := rest } }.fireAction e) e
      ∧ ActsOnly s ({ s with action := { s.action with queue := rest } }.fireAction e) := by
  let u : State := { s with action := { s.action with queue := rest } }
  have hu : ActsOnly s u := ActsOnly.action s _ rfl
  show HeadFires s (u.fireAction e) e ∧ ActsOnly s (u.fireAction e)
  unfold State.fireAction
  cases hf : u.action.freeSlot with
  | none =>
    exact ⟨⟨rest, u, hq, rfl, Or.inr ⟨ActionUnit.tableFull_of_freeSlot (a := s.action) hf, State.missAction_missed _ _ _ _⟩⟩,
      hu.trans (ActsOnly.missAction _ _ _ _)⟩
  | some slot =>
    have hp := ActionUnit.occupy_pulseTaken (a := u.action) h8 hf ⟨e.group, e.pattern, timeAfter u.time u.action.pulseLength⟩
    refine ⟨⟨rest, u, hq, rfl, Or.inl ⟨_, hp, rfl⟩⟩, hu.trans ((ActsOnly.action u _ ?_).trans (ActsOnly.produce _ _ _))⟩
    simp [ActionUnit.occupy, adjustHolds]

/-- The due entries at the head of the queue fire in turn (R170). -/
theorem State.fireDue_fires (n : Nat) (s : State) (h8 : s.action.holds.length = 8) (hn : s.action.queue.length ≤ n) :
    ∃ due rest, s.action.queue = due ++ rest ∧ (∀ e ∈ due, e.trigger ≤ s.odometer.highWater)
      ∧ (∀ e, rest.head? = some e → s.odometer.highWater < e.trigger) ∧ HeadsFire due s (State.fireDue n s)
      ∧ ActsOnly s (State.fireDue n s) := by
  induction n generalizing s with
  | zero =>
    have h0 : s.action.queue = [] := List.length_eq_zero_iff.mp (by omega)
    exact ⟨[], [], by simp [h0], by simp, by simp, rfl, ActsOnly.refl s⟩
  | succ n ih =>
    unfold State.fireDue
    cases hq : s.action.queue with
    | nil => exact ⟨[], [], rfl, by simp, by simp, rfl, ActsOnly.refl s⟩
    | cons e rest =>
      dsimp only
      by_cases hd : e.trigger ≤ s.odometer.highWater
      · rw [if_pos hd]
        obtain ⟨hf, ha⟩ := State.fireAction_fires h8 hq
        have hodo := congrArg State.odometer ha.1
        have hqueue : ({ s with action := { s.action with queue := rest } }.fireAction e).action.queue = rest := by
          unfold State.fireAction State.logAction State.missAction State.logAction
          dsimp only
          split <;> simp [ActionUnit.occupy]
        obtain ⟨due, rest', h1, h2, h3, h4, h5⟩ := ih _ (ha.2.2.trans h8) (by rw [hqueue]; rw [hq] at hn; simp at hn; omega)
        rw [hqueue] at h1
        refine ⟨e :: due, rest', by rw [h1]; rfl, ?_, ?_, ⟨_, hf, h4⟩, ha.trans h5⟩
        · intro x hx
          rcases List.mem_cons.mp hx with rfl | hx
          · exact hd
          · have := h2 x hx; rw [hodo] at this; exact this
        · intro x hx
          have := h3 x hx; rw [hodo] at this; exact this
      · rw [if_neg hd]
        refine ⟨[], e :: rest, rfl, by simp, ?_, rfl, ActsOnly.refl s⟩
        intro x hx
        simp at hx
        subst hx
        omega

/-! ### Periodic triggers -/

/-- The next multiple of a period above a distance (R173). -/
theorem nextMultiple_spec (period : Nat) (h : period ≠ 0) (x : Int) :
    nextMultiple period x % (period : Int) = 0 ∧ x < nextMultiple period x ∧ nextMultiple period x - (period : Int) ≤ x := by
  have hp : (0 : Int) < (period : Int) := by omega
  have h1 := Int.mul_ediv_add_emod x (period : Int)
  have h2 := Int.emod_lt_of_pos x hp
  have h3 := Int.emod_nonneg x (b := (period : Int)) (by omega)
  have h4 : nextMultiple period x = (period : Int) * (x / (period : Int)) + (period : Int) := by
    unfold nextMultiple; rw [Int.add_mul, Int.one_mul, Int.mul_comm]
  refine ⟨by unfold nextMultiple; exact Int.mul_emod_left _ _, by omega, by omega⟩

/-- The periodic trigger of a group at a rise (R173). -/
theorem State.firePeriodic_acts (s : State) (g : Fin 2) (h8 : s.action.holds.length = 8) :
    PeriodicActs s (s.firePeriodic g) g ∧ ActsOnly s (s.firePeriodic g) := by
  have hset : ∀ (a : ActionUnit) p, (a.setPeriodic g p).holds = a.holds ∧ (a.setPeriodic g p).pulses = a.pulses := by
    intro a p; unfold ActionUnit.setPeriodic; split <;> exact ⟨rfl, rfl⟩
  have hfree : ∀ p, (s.action.setPeriodic g p).freeSlot = s.action.freeSlot := by
    intro p; unfold ActionUnit.freeSlot; rw [(hset s.action p).2]
  constructor
  · refine ⟨s.firePeriodic_nothing g, fun pos hpos hdue hper => ?_⟩
    obtain ⟨m1, m2, m3⟩ := nextMultiple_spec (s.action.periodic g).period hper s.odometer.highWater
    refine ⟨_, _, m1, m2, m3, rfl, ?_⟩
    unfold State.firePeriodic
    simp only [hpos, if_pos hdue]
    cases hf : s.action.freeSlot with
    | none => exact Or.inr ⟨ActionUnit.tableFull_of_freeSlot hf, State.missAction_missed _ _ _ _⟩
    | some slot =>
      exact Or.inl ⟨_, ActionUnit.occupy_pulseTaken (by rw [(hset s.action _).1]; exact h8) ((hfree _).trans hf) _, rfl⟩
  · unfold State.firePeriodic
    dsimp only
    cases hp : (s.action.periodic g).next with
    | none => exact ActsOnly.refl s
    | some pos =>
      dsimp only
      split
      · have h1 : ∀ moved, ActsOnly s { s with action := s.action.setPeriodic g moved } :=
          fun moved => ActsOnly.action s _ (by rw [(hset s.action moved).1])
        cases hf : s.action.freeSlot with
        | none => exact (h1 _).trans (ActsOnly.missAction _ _ _ _)
        | some slot => exact ActsOnly.action s _ (by simp [ActionUnit.occupy, adjustHolds, (hset s.action _).1])
      · exact ActsOnly.refl s

/-! ### The rise -/

/-- A rise of the high-water distance does in the action unit what R170 says, and leaves every other block alone. -/
theorem State.rise_acts (s : State) (h8 : s.action.holds.length = 8) : RiseActs s s.rise ∧ ActsOnly s s.rise := by
  obtain ⟨due, rest, h1, h2, h3, h4, h5⟩ := State.fireDue_fires _ s h8 (Nat.le_refl _)
  unfold State.rise
  dsimp only
  split
  · rename_i hr
    obtain ⟨a0, b0⟩ := State.firePeriodic_acts (State.fireDue s.action.queue.length s) 0 (h5.2.2.trans h8)
    obtain ⟨a1, b1⟩ := State.firePeriodic_acts ((State.fireDue s.action.queue.length s).firePeriodic 0) 1
      ((h5.trans b0).2.2.trans h8)
    exact ⟨⟨due, rest, _, h1, h2, h3, h4, fun _ => ⟨_, a0, a1⟩, fun hn => absurd (h5.2.1.symm.trans hr) hn⟩,
      (h5.trans b0).trans b1⟩
  · rename_i hr
    exact ⟨⟨due, rest, _, h1, h2, h3, h4, fun hs => absurd (h5.2.1.trans hs) hr, fun _ => rfl⟩, h5⟩

end Sys2Proof.Machine
end

