-- ==== Sys2Proof/Laws/Opening.lean ====
section
/-! SUPPORT. An opening's shared operations, said once in the terms of the claims: flags raised in turn, what a closing leaves alone, the
room that an opening makes, the odometer's part of an opening. -/

namespace Sys2Proof.Machine

/-! ### Flags raised in turn -/

@[simp] theorem State.raises_assembler (s : State) (l : List EventFlag) : (s.raises l).assembler = s.assembler := by
  induction l generalizing s with
  | nil => rfl
  | cons f rest ih => exact (ih _).trans (s.raise_assembler f)

@[simp] theorem State.raises_odometer (s : State) (l : List EventFlag) : (s.raises l).odometer = s.odometer := by
  induction l generalizing s with
  | nil => rfl
  | cons f rest ih => exact (ih _).trans (s.raise_odometer f)

@[simp] theorem State.raises_tap (s : State) (l : List EventFlag) : (s.raises l).tap = s.tap := by
  induction l generalizing s with
  | nil => rfl
  | cons f rest ih => exact (ih _).trans (s.raise_tap f)

@[simp] theorem State.raises_control_runState (s : State) (l : List EventFlag) :
    (s.raises l).control.runState = s.control.runState := by
  induction l generalizing s with
  | nil => rfl
  | cons f rest ih => exact (ih _).trans (s.raise_control_runState f)

/-- Flags raised in two turns. -/
theorem State.raises_append (s : State) (a b : List EventFlag) : (s.raises a).raises b = s.raises (a ++ b) := by
  unfold State.raises; rw [List.foldl_append]

/-- A flag raised on a condition. -/
theorem State.raiseIf_raises (s : State) (b : Bool) (f : EventFlag) : s.raiseIf b f = s.raises (if b then [f] else []) := by
  cases b <;> rfl

/-! ### What a closing leaves alone -/

/-- What the level of the geometry unit leaves alone, as a property kept: the odometer, the stream contexts. -/
theorem keeps_odometer_tap (o : Odometer) (x : StreamTap) : KeepsGeometry (fun s => s.odometer = o ∧ s.tap = x) where
  raise s f h := by simpa using h
  produce s q c h := by simpa using h
  action _ _ _ _ _ h := h
  enqueue _ _ _ h := h
  dequeue _ _ _ _ h := h
  occupy _ _ _ _ h := h
  exceedance _ _ _ _ h := h
  route _ _ _ h := h
  tracker _ _ _ _ h := h
  geometry _ _ _ h := h

/-- The parts of the state that an opening reads and a closing leaves alone. -/
def SameForOpening (s t : State) : Prop :=
  t.odometer = s.odometer ∧ t.tap = s.tap ∧ t.control.runState = s.control.runState
    ∧ t.assembler.contributing = s.assembler.contributing ∧ t.assembler.closeLimit = s.assembler.closeLimit

/-- A closing leaves the odometer, the stream contexts, the run state and the setup of the point assembler alone. -/
theorem State.closePoints_same (n : Nat) (s : State) : SameForOpening s (State.closePoints n s) := by
  induction n generalizing s with
  | zero => exact ⟨rfl, rfl, rfl, rfl, rfl⟩
  | succ n ih =>
    unfold State.closePoints
    split
    · exact ⟨rfl, rfl, rfl, rfl, rfl⟩
    · rename_i p rest hq
      split
      · exact ⟨rfl, rfl, rfl, rfl, rfl⟩
      · generalize hu : ({ s with assembler := { s.assembler with queue := rest, closed := s.assembler.closed + 1 } } : State) = u
        obtain ⟨h1, h2, h3, h4, h5⟩ := ih (u.placeSample (s.assembler.sample p))
        obtain ⟨g1, g2⟩ := (keeps_odometer_tap u.odometer u.tap).placeSample ⟨rfl, rfl⟩ (s.assembler.sample p)
        have g3 := (keeps_runState u.control.runState).placeSample rfl (s.assembler.sample p)
        rw [placeSample_assembler] at h4 h5
        subst hu
        exact ⟨h1.trans g1, h2.trans g2, h3.trans g3, h4, h5⟩

/-! ### Room for an opening (R102, R104) -/

/-- With fewer than 8 points pending there is room. -/
theorem State.makeRoom_room (s : State) (h : s.assembler.queue.length < 8) : s.makeRoom = s := by
  unfold State.makeRoom
  split
  · rfl
  · rw [if_pos h]

/-- At a queue of 8 the head is forced, and closes. -/
theorem State.makeRoom_forces (s : State) {p : PendingPoint} {behind : List PendingPoint} (hq : s.assembler.queue = p :: behind)
    (h : 8 ≤ s.assembler.queue.length) :
    Closing
      ({ s with
          assembler :=
            { s.assembler with
              queue := p.givenUp { p.flags with forced := true } :: behind, forced := s.assembler.forced + 1 } }.raise .pointForced)
      s.makeRoom := by
  unfold State.makeRoom
  rw [hq]
  dsimp only
  rw [if_neg (by rw [← hq]; omega), p.giveUpAll_eq]
  exact State.closePoints_closes _ _ (Nat.le_of_eq (by simp))

/-- The making of room leaves alone what an opening reads. -/
theorem State.makeRoom_same (s : State) : SameForOpening s s.makeRoom := by
  unfold State.makeRoom
  split
  · exact ⟨rfl, rfl, rfl, rfl, rfl⟩
  · split
    · exact ⟨rfl, rfl, rfl, rfl, rfl⟩
    · dsimp only
      obtain ⟨h1, h2, h3, h4, h5⟩ := State.closePoints_same _ (State.raise _ .pointForced)
      exact ⟨h1.trans (by simp), h2.trans (by simp), h3.trans (by simp), h4.trans (by simp), h5.trans (by simp)⟩

/-! ### The odometer's part (R65, R66, R68, R75) -/

/-- The odometer after an opening is what the claims say. -/
theorem Odometer.opened_afterOpening (o : Odometer) (x k : Int) (tk : Time) :
    (o.afterLead x o.reversal).opened k tk = o.afterOpening x (o.d + x) k tk (o.afterLead x o.reversal).mismatched := by
  have h : (fun l => !(o.afterLead x o.reversal).orphaned l)
      = (fun (l : Latch) => decide (o.d + x - l.d ≤ (o.orphanDistance : Int) * 1000 * 256)) := by
    funext l
    show (!decide ((o.orphanDistance : Int) * 1000 * 256 < o.d + x - l.d)) = _
    by_cases hh : (o.orphanDistance : Int) * 1000 * 256 < o.d + x - l.d
    · rw [decide_eq_true hh, decide_eq_false (by omega)]; rfl
    · rw [decide_eq_false hh, decide_eq_true (by omega)]; rfl
  unfold Odometer.opened
  rw [h]
  rfl

/-- The flags that an opening raises in the odometer. -/
theorem Odometer.openingFlags (o : Odometer) (x : Int) (m : Odometer) (hm : m = o.afterLead x o.reversal) :
    OpeningFlags o (o.d + x) m.mismatched
      ((if m.mismatched && !m.prevMismatch then [EventFlag.odoMismatch] else [])
        ++ (if m.latches.any m.orphaned then [EventFlag.markerReject] else [])) := by
  subst hm
  have h : (∃ l ∈ o.latches, (o.orphanDistance : Int) * 1000 * 256 < o.d + x - l.d)
      ↔ (o.afterLead x o.reversal).latches.any (o.afterLead x o.reversal).orphaned = true := by
    rw [List.any_eq_true]
    constructor
    · rintro ⟨l, h1, h2⟩; exact ⟨l, h1, decide_eq_true h2⟩
    · rintro ⟨l, h1, h2⟩; exact ⟨l, h1, of_decide_eq_true h2⟩
  intro f
  rw [h, show (o.afterLead x o.reversal).prevMismatch = o.prevMismatch from rfl]
  cases (o.afterLead x o.reversal).mismatched <;> cases o.prevMismatch
    <;> cases (o.afterLead x o.reversal).latches.any (o.afterLead x o.reversal).orphaned <;> simp

end Sys2Proof.Machine
end

