-- ==== Sys2Proof/Laws/Requests.lean ====
section
/-! SUPPORT. The model's tests of requests and of the arbiter in the terms of the claims: when the port takes a request, when a request
is whole, passes the bus checks, lies in an area or waits, and who wins the memory port. -/

namespace Sys2Proof.Machine

/-! ### Requests -/

/-- An open port takes a request (R2). -/
theorem canTake_of_portOpen {s : State} {req : RequestFields} {last : Option Beat} (h : PortOpen s req last) :
    s.canTake req.tag = true := by
  unfold PortOpen at h; unfold State.canTake; simp_all

/-- A blocked port takes no request (R2). -/
theorem canTake_of_blocked {s : State} {tag : SysTag} (h : PortBlocked s tag) : s.canTake tag = false := by
  unfold State.canTake
  rcases h with h | h | h | h
  · simp [h]
  · simp [h]
  · simp [show ¬s.transit.holds.length < 8 by omega]
  · simp [h]

/-- A request is behind another exactly when it does not stand first at the port (R23). -/
theorem behind_iff {t : Transit} {req : RequestFields} {last : Option Beat} :
    t.behind ⟨req, last⟩ = true ↔ ¬FirstAtPort t req last := by
  unfold Transit.behind FirstAtPort
  cases t.waiting <;> simp

/-- What REQUEST_TAKEN does with a whole request that stands first at the port (R2, R23). -/
theorem execRequestTaken_first {s : State} {req : RequestFields} {last : Option Beat} {data : List Beat}
    (hw : s.transit.completeData req last = some data) (hr : s.resetLow = false) (hf : FirstAtPort s.transit req last) :
    execRequestTaken req last s = .next (s.offerRequest ⟨req, last⟩ data) := by
  have hb : s.transit.behind ⟨req, last⟩ = false := by
    cases h : s.transit.behind ⟨req, last⟩
    · rfl
    · exact absurd hf (behind_iff.mp h)
  unfold execRequestTaken
  simp [hw, hr, hb]

/-- A whole request completes with its data (R2). -/
theorem completeData_of_whole {t : Transit} {req : RequestFields} {last : Option Beat} {data : List Beat}
    (h : WholeRequest t req last data) : t.completeData req last = some data := by
  unfold WholeRequest at h
  unfold Transit.completeData
  cases hk : req.kind <;> rw [hk] at h <;> simp only at h
  · rw [h.1]; simp [h.2]
  · rcases h with ⟨hl, ⟨h1, h2⟩ | ⟨p, h1, h2, h3⟩⟩
    · rw [h1]; simp [← h2, hl]
    · rw [h1]; simp [h2, ← h3, hl]

/-- The bus checks of R4. -/
theorem busRefuses_iff {t : Transit} {req : RequestFields} : t.busRefuses req = false ↔ PassesBus t req := by
  unfold Transit.busRefuses PassesBus crossesPage
  simp only [Bool.or_eq_false_iff, decide_eq_false_iff_not]
  constructor
  · rintro ⟨⟨⟨a, b⟩, c⟩, d⟩
    exact ⟨by omega, by omega, by omega, by omega, by simpa using d⟩
  · rintro ⟨a, b, c, d, e⟩
    exact ⟨⟨⟨by omega, by omega⟩, by omega⟩, by simpa using e⟩

/-- A range in one area is classified there (R11). -/
theorem classifyRange_of_liesIn {t : Transit} {addr beats n off : Nat} (h : LiesIn t addr beats n off) :
    classifyRange t.areas addr beats = some { area := n, offset := off } := by
  obtain ⟨a, hm, hw, ho, hu⟩ := h
  unfold classifyRange
  cases hf : t.areas.find? (fun e => rangeWithin addr (8 * beats) e.2.base.toNat (4096 * e.2.pages)) with
  | none =>
    have := List.find?_eq_none.mp hf _ hm
    simp [rangeWithin] at this
    unfold Within at hw
    omega
  | some x =>
    have h1 := List.mem_of_find?_eq_some hf
    have h2 := List.find?_some hf
    simp [rangeWithin] at h2
    rw [hu x h1 h2]
    simp [ho]

/-- A range in no area is classified nowhere (R11). -/
theorem classifyRange_of_liesNowhere {t : Transit} {addr beats : Nat} (h : LiesNowhere t addr beats) :
    classifyRange t.areas addr beats = none := by
  unfold classifyRange
  simp only [Option.map_eq_none_iff, List.find?_eq_none]
  intro x hx hh
  apply h x hx
  simpa [rangeWithin, Within] using hh

/-- What a request waits on is what it overlaps (R14). -/
theorem mem_waitsOf {s : State} {req : RequestFields} :
    (∀ w, w ∈ (s.waitsOf req).1 ↔ req.kind = .read ∧ OverlapsQueued s req.addr.toNat req.beats w)
      ∧ ∀ tag, tag ∈ (s.waitsOf req).2 ↔ OverlapsHeld s req.addr.toNat req.beats tag := by
  unfold State.waitsOf
  constructor
  · intro w
    cases hk : req.kind with
    | write => simp
    | read =>
      simp only [State.overlappedWrites, true_and, List.mem_append, List.mem_map, List.mem_filter]
      cases w with
      | record r i =>
        simp [OverlapsQueued, rangesOverlap, Share]
        constructor
        · rintro ⟨e, h1, h2, h3⟩
          exact ⟨e, h1.1, h2, h3, h1.2⟩
        · rintro ⟨e, h1, h2, h3, h4⟩
          exact ⟨e, ⟨h1, h4⟩, h2, h3⟩
      | status =>
        simp [OverlapsQueued, rangesOverlap, Share, State.statusBase]
        intro _
        exact ⟨fun h => ⟨of_decide_eq_true h.1, of_decide_eq_true h.2⟩, fun h => ⟨decide_eq_true h.1, decide_eq_true h.2⟩⟩
  · intro tag
    simp [Transit.overlappedHolds, OverlapsHeld, rangesOverlap, Share]
    constructor
    · rintro ⟨e, h1, h2⟩; exact ⟨e, h1.1, h2, h1.2⟩
    · rintro ⟨e, h1, h2, h3⟩; exact ⟨e, ⟨h1, h3⟩, h2⟩

/-! ### The arbiter -/

/-- Write-back offers a head exactly when it has one (R187). -/
theorem head_isSome_iff {s : State} : s.writeBack.head.isSome = true ↔ HasHead s := by
  unfold WriteBack.head HasHead
  cases hs : s.writeBack.slot with
  | empty => cases hq : s.writeBack.queue <;> simp
  | filling => cases hq : s.writeBack.queue <;> simp
  | pending n => cases n <;> cases hq : s.writeBack.queue <;> simp

/-- The inserted tag given is the lowest FREE one (R6). -/
theorem freeInsertedTag_iff {t : Transit} {tag : Nat} : t.freeInsertedTag = some tag ↔ LowestInsertedTag t tag := by
  unfold Transit.freeInsertedTag LowestInsertedTag
  rw [List.find?_eq_some_iff_append]
  constructor
  · rintro ⟨h1, as, bs, h2, h3⟩
    have hm : tag ∈ (List.range 32).map (· + 64) := by rw [h2]; simp
    simp only [List.mem_map, List.mem_range] at hm
    obtain ⟨j, hj, rfl⟩ := hm
    refine ⟨by omega, by omega, by simpa using h1, ?_⟩
    intro k hk1 hk2
    have hl : as.length = j := by
      have h4 : ((List.range 32).map (· + 64))[as.length]? = some (j + 64) := by rw [h2]; simp
      simp only [List.getElem?_map, Option.map_eq_some_iff] at h4
      obtain ⟨a, h5, h6⟩ := h4
      have h7 := List.getElem?_eq_some_iff.mp h5
      obtain ⟨h8, h9⟩ := h7
      simp at h9
      omega
    have hka : k ∈ as := by
      have h4 : as[k - 64]? = some k := by
        have h5 : ((List.range 32).map (· + 64))[k - 64]? = some k := by
          simp only [List.getElem?_map, Option.map_eq_some_iff]
          refine ⟨k - 64, ?_, by omega⟩
          rw [List.getElem?_eq_some_iff]
          exact ⟨by simp; omega, by simp⟩
        rw [h2, List.getElem?_append_left (by omega)] at h5
        exact h5
      exact List.mem_of_getElem? h4
    have h4 := h3 k hka
    intro hn
    rw [hn] at h4
    simp at h4
  · rintro ⟨h1, h2, h3, h4⟩
    refine ⟨by simpa using h3, (List.range (tag - 64)).map (· + 64),
      ((List.range 32).map (· + 64)).drop (tag - 64 + 1), ?_, ?_⟩
    · apply List.ext_getElem?
      intro n
      rcases Nat.lt_trichotomy n (tag - 64) with h | h | h
      · rw [List.getElem?_append_left (by simp; omega)]
        simp [h, show n < 32 by omega]
      · subst h
        rw [List.getElem?_append_right (by simp)]
        simp [show tag - 64 < 32 by omega]
        omega
      · rw [List.getElem?_append_right (by simp; omega)]
        simp only [List.length_map, List.length_range]
        rw [show n - (tag - 64) = (n - (tag - 64) - 1) + 1 by omega, List.getElem?_cons_succ, List.getElem?_drop]
        congr 1
        omega
    · intro k hk
      simp only [List.mem_map, List.mem_range] at hk
      obtain ⟨j, hj, rfl⟩ := hk
      have h5 := h4 (j + 64) (by omega) (by omega)
      cases h6 : t.entry (j + 64) with
      | none => exact absurd h6 h5
      | some e => simp

/-- An inserted tag is given exactly when one is FREE (R6). -/
theorem freeInsertedTag_isSome_iff {t : Transit} : t.freeInsertedTag.isSome = true ↔ InsertedTagFree t := by
  unfold Transit.freeInsertedTag InsertedTagFree
  rw [List.find?_isSome]
  constructor
  · rintro ⟨x, hx, h⟩
    simp only [List.mem_map, List.mem_range] at hx
    obtain ⟨j, hj, rfl⟩ := hx
    exact ⟨j + 64, by omega, by omega, by simpa using h⟩
  · rintro ⟨tag, h1, h2, h3⟩
    refine ⟨tag, ?_, by simpa using h3⟩
    simp only [List.mem_map, List.mem_range]
    exact ⟨tag - 64, by omega, by omega⟩

/-- The arbiter gives write-back the port exactly when its head wins (R17). -/
theorem grant_writeBack_iff {s : State} : s.grant = .writeBack ↔ WriteBackWins s := by
  have hp : s.transit.promotion = true ↔ ∃ h ∈ s.transit.holds, h.waitsWrites ≠ [] := by
    unfold Transit.promotion; simp
  unfold State.grant WriteBackWins
  rw [← head_isSome_iff, ← freeInsertedTag_isSome_iff, ← hp]
  split
  · rename_i h; simp at h ⊢; simp_all
    rcases h.2 with (h | h) | h <;> simp [h]
  · rename_i h
    simp only [Bool.and_eq_true, Bool.or_eq_true, decide_eq_true_eq, not_and, not_or] at h
    constructor
    · intro h2; split at h2 <;> cases h2
    · rintro ⟨h1, h2, h3⟩
      have h4 := h ⟨h1, h2⟩
      rcases h3 with h3 | h3 | h3
      · exact absurd h3 h4.1.1
      · exact absurd h3 h4.1.2
      · exact absurd h3 h4.2

/-- The arbiter gives the system head the port exactly when it wins (R17). -/
theorem grant_system_iff {s : State} : s.grant = .system ↔ SystemWins s := by
  unfold SystemWins
  rw [← grant_writeBack_iff]
  unfold State.grant
  split
  · simp
  · split <;> simp_all

end Sys2Proof.Machine
end

