-- ==== Sys2Proof/Laws/Release.lean ====
section
/-! SUPPORT. The release of held requests, said once in the terms of the claims: which requests leave the hold list, where they stand in
the forwarding stage, and what becomes of their entries. -/

namespace Sys2Proof.Machine

/-- A held request that no longer waits on an inserted write. -/
def Held.without (h : Held) (w : OwnWrite) : Held := { h with waitsWrites := h.waitsWrites.filter (fun x => decide (x ≠ w)) }

/-- One pass over the hold list is what R15 says. -/
theorem releasePass_releases (w : OwnWrite) (holds : List Held) (gone : List SysTag) :
    HoldsReleased w gone holds (releasePass gone (holds.map (·.without w))).1 (releasePass gone (holds.map (·.without w))).2 := by
  induction holds generalizing gone with
  | nil => exact ⟨rfl, rfl⟩
  | cons h rest ih =>
    have hw : (h.without w).waitsWrites = [] ↔ ∀ x ∈ h.waitsWrites, x = w := by
      simp [Held.without, List.filter_eq_nil_iff]
    have hg : (h.without w).waitsHeld.filter (fun tag => !gone.contains tag) = [] ↔ ∀ tag ∈ h.waitsHeld, tag ∈ gone := by
      simp [Held.without, List.filter_eq_nil_iff]
    unfold HoldsReleased
    rw [List.map_cons, releasePass]
    dsimp only
    by_cases hc : (h.without w).waitsWrites = [] ∧ (h.without w).waitsHeld.filter (fun tag => !gone.contains tag) = []
    · rw [if_pos hc]
      exact Or.inl ⟨hw.mp hc.1, hg.mp hc.2, _, rfl, ih _⟩
    · rw [if_neg hc]
      refine Or.inr ⟨?_, _, _, rfl, rfl, ?_, ?_, ih _⟩
      · by_cases h1 : (h.without w).waitsWrites = []
        · refine Or.inr (Classical.byContradiction fun hn => hc ⟨h1, hg.mpr fun tag ht => ?_⟩)
          exact Classical.byContradiction fun h2 => hn ⟨tag, ht, h2⟩
        · refine Or.inl (Classical.byContradiction fun hn => h1 (hw.mpr fun x hx => ?_))
          exact Classical.byContradiction fun h2 => hn ⟨x, hx, h2⟩
      · intro x; simp [Held.without]
      · intro tag; simp [Held.without]

/-- A request that joins the forwarding stage. -/
theorem insertStage_perm (r : Request) (l : List Request) : (insertStage r l).Perm (l ++ [r]) := by
  induction l with
  | nil => exact List.Perm.refl _
  | cons x rest ih =>
    unfold insertStage
    split
    · exact ih.cons x
    · exact (List.perm_append_comm (l₁ := [r]) (l₂ := x :: rest))

/-- The forwarding stage stays in the order of taking (R16). -/
theorem insertStage_sorted (r : Request) (l : List Request) (h : l.Pairwise (fun a b => a.order ≤ b.order)) :
    (insertStage r l).Pairwise (fun a b => a.order ≤ b.order) := by
  induction l with
  | nil => simp [insertStage]
  | cons x rest ih =>
    obtain ⟨h1, h2⟩ := List.pairwise_cons.mp h
    unfold insertStage
    split
    · rename_i hlt
      refine List.pairwise_cons.mpr ⟨fun y hy => ?_, ih h2⟩
      rcases List.mem_append.mp ((insertStage_perm r rest).mem_iff.mp hy) with hy | hy
      · exact h1 y hy
      · rw [List.mem_singleton.mp hy]; omega
    · rename_i hlt
      refine List.pairwise_cons.mpr ⟨fun y hy => ?_, h⟩
      rcases List.mem_cons.mp hy with rfl | hy
      · omega
      · have := h1 y hy; omega

/-- The requests that leave the hold list join the stage in turn (R15, R16). -/
theorem stageRequests_spec (freed : List Request) (t : Transit) :
    let u := freed.foldl Transit.stageRequest t
    u = { t with stage := u.stage, inflight := u.inflight } ∧ u.stage.Perm (t.stage ++ freed)
      ∧ (t.stage.Pairwise (fun a b => a.order ≤ b.order) → u.stage.Pairwise (fun a b => a.order ≤ b.order))
      ∧ (∀ k, (t.entry k).map (·.phase) = some .staged → (u.entry k).map (·.phase) = some .staged)
      ∧ (∀ r ∈ freed, (u.entry r.tag.toNat).map (·.phase) = some .staged)
      ∧ ∀ k, (∀ r ∈ freed, k ≠ r.tag.toNat) → u.entry k = t.entry k := by
  induction freed generalizing t with
  | nil => exact ⟨rfl, by simp, id, fun _ h => h, fun _ h => (by cases h), fun _ _ => rfl⟩
  | cons r rest ih =>
    obtain ⟨h1, h2, h3, h4, h5, h6⟩ := ih (t.stageRequest r)
    have he : ∀ k, (t.stageRequest r).entry k = if k = r.tag.toNat then some (r.entry .staged none) else t.entry k := by
      intro k; exact Table.read_write _ _ _ _
    refine ⟨?_, ?_, fun h => h3 (insertStage_sorted r _ h), fun k h => h4 k ?_, ?_, fun k h => ?_⟩
    · rw [List.foldl_cons, h1]; rfl
    · refine h2.trans ?_
      show (insertStage r t.stage ++ rest).Perm _
      have := (insertStage_perm r t.stage).append_right rest
      simpa [List.append_assoc] using this
    · rw [he]; split
      · rfl
      · exact h
    · intro x hx
      rcases List.mem_cons.mp hx with rfl | hx
      · exact h4 _ (by rw [he, if_pos rfl]; rfl)
      · exact h5 x hx
    · rw [List.foldl_cons, h6 k (fun x hx => h x (List.mem_cons_of_mem _ hx)), he, if_neg (h r (List.mem_cons_self ..))]

/-- What the presentation of an inserted write does to the hold list, the stage and the in-flight table (R15, R16). -/
theorem Transit.releaseHolds_spec (t : Transit) (w : OwnWrite) :
    ∃ freed, HoldsReleased w [] t.holds (t.releaseHolds w).holds freed ∧ (t.releaseHolds w).stage.Perm (t.stage ++ freed)
      ∧ (t.stage.Pairwise (fun a b => a.order ≤ b.order) → (t.releaseHolds w).stage.Pairwise (fun a b => a.order ≤ b.order))
      ∧ (∀ r ∈ freed, ((t.releaseHolds w).entry r.tag.toNat).map (·.phase) = some .staged)
      ∧ (∀ k, (∀ r ∈ freed, k ≠ r.tag.toNat) → (t.releaseHolds w).entry k = t.entry k)
      ∧ t.releaseHolds w =
          { t with
            holds := (t.releaseHolds w).holds, stage := (t.releaseHolds w).stage, inflight := (t.releaseHolds w).inflight } := by
  have hp := releasePass_releases w t.holds []
  have hu : t.releaseHolds w =
      (releasePass [] (t.holds.map (·.without w))).2.foldl Transit.stageRequest
        { t with holds := (releasePass [] (t.holds.map (·.without w))).1 } := rfl
  generalize (releasePass [] (t.holds.map (·.without w))).1 = kept at hp hu
  generalize (releasePass [] (t.holds.map (·.without w))).2 = freed at hp hu
  obtain ⟨h1, h2, h3, _, h5, h6⟩ := stageRequests_spec freed { t with holds := kept }
  rw [← hu] at h1 h2 h3 h5 h6
  have hh : (t.releaseHolds w).holds = kept := congrArg Transit.holds h1
  exact ⟨freed, by rw [hh]; exact hp, h2, h3, h5, h6, h1.trans (by rw [hh])⟩

end Sys2Proof.Machine
end

