-- ==== Sys2Proof/Laws/Status.lean ====
section
/-! SUPPORT. The content of the status record, said once in the terms of the claims. -/

namespace Sys2Proof.Machine

/-- A value limited to a signed field (R199). -/
theorem limitedSigned_eq (w : Nat) (v : Int) : limitedSigned w v = limitedTo w v := by
  unfold limitedSigned limitedTo limitTo
  congr 1
  have h : (0 : Int) < 2 ^ (w - 1) := Int.pow_pos (by decide)
  generalize (2 : Int) ^ (w - 1) = m at h ⊢
  omega

/-- A quadrature error count limited to its field (R199). -/
theorem limitedErrors_toNat (n : BitVec 32) : (limitedErrors n).toNat = min 0xFFFF n.toNat := by
  unfold limitedErrors
  split
  · have : (0xFFFF : BitVec 16).toNat = 0xFFFF := rfl
    omega
  · rw [BitVec.toNat_setWidth]; omega

/-- The bits of a concatenation that lie in its low part. -/
theorem field_low {n m k w : Nat} {x : BitVec n} {y : BitVec m} {z : BitVec w} (h : k + w ≤ m) (hz : y.extractLsb' k w = z) :
    (x ++ y).extractLsb' k w = z := (BitVec.extractLsb'_append_eq_of_add_le h).trans hz

/-- The bits of a concatenation that lie in its high part. -/
theorem field_high {n m k w : Nat} {x : BitVec n} {y : BitVec m} {z : BitVec w} (h : m ≤ k) (hz : x.extractLsb' (k - m) w = z) :
    (x ++ y).extractLsb' k w = z := (BitVec.extractLsb'_append_eq_of_le h).trans hz

/-- All the bits of a word. -/
theorem field_whole {k w : Nat} {x : BitVec w} (h : k = 0) : x.extractLsb' k w = x := by
  subst h; exact BitVec.extractLsb'_eq_self

/-- The composed record carries every field of section 11.2. -/
theorem statusWords_content (s : State) :
    StatusContent s s.control.statusSeq s.transit.insertedInFlight (statusWords s) := by
  unfold StatusContent StateWordIs RingOutcomesAre field
  refine ⟨rfl, ?_⟩
  simp only [statusWords, stateWord, ringOutcomes, List.getD_cons_zero, List.getD_cons_succ, ← limitedSigned_eq]
  repeat' apply And.intro
  all_goals first
    | exact trivial
    | ((repeat (first | exact field_whole (by decide) | refine field_low (by decide) ?_ | refine field_high (by decide) ?_)); done)
    | (refine (congrArg BitVec.toNat (?_ : _ = limitedErrors _)).trans (limitedErrors_toNat _)
       repeat (first | exact field_whole (by decide) | refine field_low (by decide) ?_ | refine field_high (by decide) ?_))
    | (intro i
       match i with
       | 0 => repeat (first | exact field_whole (by decide) | refine field_low (by decide) ?_ | refine field_high (by decide) ?_)
       | 1 => repeat (first | exact field_whole (by decide) | refine field_low (by decide) ?_ | refine field_high (by decide) ?_)
       | 2 => repeat (first | exact field_whole (by decide) | refine field_low (by decide) ?_ | refine field_high (by decide) ?_)
       | 3 => repeat (first | exact field_whole (by decide) | refine field_low (by decide) ?_ | refine field_high (by decide) ?_))

end Sys2Proof.Machine
end

