-- ==== Sys2Proof/Laws/Step.lean ====
section
/-! SUPPORT. A property that every primitive update keeps, and that does not speak of the waiting commands, is kept by every step. -/

namespace Sys2Proof.Machine

/-- Every step keeps what every primitive update keeps. -/
theorem Keeps.step {P : State → Prop} (k : Keeps P) (hp : ∀ s l, P s → P { s with pending := l }) {s t : State} (h : P s)
    (he : step s = .next t) : P t := by
  unfold Sys2Proof.Machine.step at he
  split at he
  · have : s = t := by simpa using he
    exact this ▸ h
  · rename_i c rest _
    exact k.exec (hp s rest h) c he

end Sys2Proof.Machine
end

