-- ==== Sys2Proof/Tests/Slice0.lean ====
section
/-! SUPPORT. The model's own tests. -/

namespace Sys2Proof.Machine.Tests

/-- A READ with a data beat is ill formed (R2). -/
theorem test_wf_read_with_beat : (Instr.requestTaken ⟨.read, 0, 1, 0⟩ (some ⟨0, 0xFF⟩)).wellFormed = false := by decide

/-- A WRITE without its last beat is ill formed (R2). -/
theorem test_wf_write_without_beat : (Instr.requestTaken ⟨.write, 0, 1, 0⟩ none).wellFormed = false := by decide

/-- A data beat of a one-beat WRITE would be its last (R2). -/
theorem test_wf_data_beat_of_single : (Instr.dataBeatReceived ⟨.write, 0, 1, 0⟩ ⟨0, 0xFF⟩).wellFormed = false := by decide

/-- A READ has no data beat. -/
theorem test_wf_data_beat_of_read : (Instr.dataBeatReceived ⟨.read, 0, 4, 0⟩ ⟨0, 0xFF⟩).wellFormed = false := by decide

/-- A route burst of no word is ill formed. -/
theorem test_wf_route_empty : (Instr.routeEntryWrite 0 []).wellFormed = false := by decide

/-- A route burst of 17 words is ill formed. -/
theorem test_wf_route_long : (Instr.routeEntryWrite 0 (List.replicate 17 0)).wellFormed = false := by decide

/-- A route burst past word 127 is ill formed. -/
theorem test_wf_route_outside : (Instr.routeEntryWrite 127 [0, 0]).wellFormed = false := by decide

/-- A memory response with tag 96 is ill formed. -/
theorem test_wf_response_tag : (Instr.memoryResponse 96 .okay []).wellFormed = false := by decide

/-- A memory response of 17 beats is ill formed. -/
theorem test_wf_response_long : (Instr.memoryResponse 0 .okay (List.replicate 17 0)).wellFormed = false := by decide

/-- A whole-record status read is well formed. -/
theorem test_wf_status_read : (Instr.requestTaken ⟨.read, 0x200100, 16, 9⟩ none).wellFormed = true := by decide

/-! ### Small states -/

/-- An anchored part in a run state, with its window at 200000h. -/
def anchored (run : RunState) : State :=
  { State.reset with
    transit := { Transit.reset with base := some 0x200000, areas := [(0, ⟨0x200000, 4⟩)] }
    control := { Control.reset with runState := run } }

/-- An anchored part in a run: spacing 250 mm, the next point 1, one contributing stream. -/
def inRun (run : RunState) : State :=
  { anchored run with
    odometer :=
      { Odometer.reset with
        spacing := 250, nextPoint := some 1, mismatchTolerance := 10, stallDistance := 1, acceptWindow := 100
        orphanDistance := 1 }
    tap := { StreamTap.reset with s1 := { StreamContext.reset with state := .live, slotCount := 64, silenceLimit := 1000 } }
    assembler := { Assembler.reset with closeLimit := 5000, contributing := [⟨0, [1, 2, 3, 4, 5]⟩] }
    geometry := { GeometryUnit.reset with spacing := 250, chord := 2, twist := 1, firstPoint := some 1, cursor := some 1 }
    action := { ActionUnit.reset with pulseLength := 2000 }
    writeBack :=
      { WriteBack.reset with
        geometryRing := { RingState.reset with capacity := 64 }
        exceedanceRing := { RingState.reset with capacity := 64 }
        actionRing := { RingState.reset with capacity := 128 } } }

/-- The state after a command; the state itself where the command gives none. -/
def after (c : Instr) (s : State) : State :=
  match exec c s with
  | .next t => t
  | .fault _ => s
  | .refused _ => s

/-- A beat with every strobe set. -/
def whole (w : Word64) : Beat := { data := w, strobes := 0xFF }

/-- A request for the forwarding stage. -/
def request (kind : AccessKind) (addr : Addr) (tag : SysTag) (data : List Beat) (hit : Option AreaHit) : Request :=
  { kind := kind, addr := addr, beats := 1, tag := tag, data := data, arrival := 500, hit := hit, order := 0 }

/-- The state with one staged request. -/
def staged (s : State) (r : Request) : State :=
  { s with transit := { s.transit with stage := [r], inflight := [(r.tag.toNat, r.entry .staged none)] } }

/-! ### One step of each command -/

theorem test_step_front : (match step { inRun .running with pending := [.leadCount true, .markPassage] } with
    | .next t => (t.odometer.d, t.pending)
    | _ => (0, [])) = (256, [.markPassage]) := by decide

theorem test_request_staged :
    let t := after (.requestTaken ⟨.read, 0x1000, 1, 3⟩ none) (anchored .idle)
    t.transit.stage.length = 1 ∧ (t.transit.entry 3).map (·.phase) = some .staged := by decide

theorem test_request_misaligned :
    let t := after (.requestTaken ⟨.read, 0x1001, 1, 3⟩ none) (anchored .idle)
    t.transit.responses = [⟨3, .error, []⟩] ∧ t.control.events = [(4, 0)] ∧ t.writeBack.slot = .pending 0 := by decide

/-- A READ whose tag is ABSORBING waits, a READ of another tag waits behind it, and once the tag is FREE the first is taken (R23). -/
theorem test_request_waits :
    let s := { anchored .idle with transit :=
      { (anchored .idle).transit with inflight := [(3, ⟨.absorbing, .read, 0, 1, none, none⟩)] } }
    let t := after (.requestTaken ⟨.read, 0x1000, 1, 3⟩ none) s
    let u := after (.memoryResponse 3 .okay []) t
    t.transit.waiting = some ⟨⟨.read, 0x1000, 1, 3⟩, none⟩ ∧ after (.requestTaken ⟨.read, 0x2000, 1, 4⟩ none) t = t
      ∧ after (.requestTaken ⟨.read, 0x2000, 1, 4⟩ none) u = u
      ∧ (after (.requestTaken ⟨.read, 0x1000, 1, 3⟩ none) u).transit.waiting = none
      ∧ (after (.requestTaken ⟨.read, 0x1000, 1, 3⟩ none) u).transit.stage.length = 1 := by decide

theorem test_data_beat :
    (after (.dataBeatReceived ⟨.write, 0x1000, 2, 3⟩ (whole 7)) (anchored .idle)).transit.partialBurst
      = some ⟨⟨.write, 0x1000, 2, 3⟩, [whole 7]⟩ := by decide

theorem test_head_presented_anchors :
    let t := after .systemHeadPresented (staged State.reset (request .write 0xFF8 1 [whole 0x200000] none))
    t.transit.base = some 0x200000 ∧ t.control.runState = .idle ∧ t.writeBack.slot = .pending 0 := by decide

theorem test_control_write_locked :
    let r := request .write 0x200300 1 [whole 5] (some ⟨0, 0x300⟩)
    let t := after .controlWrite (staged (anchored .armed) r)
    t.control.lastRefusal = ⟨0x300, .locked⟩ ∧ t.transit.responses = [⟨1, .error, []⟩] ∧ t.transit.entry 1 = none := by decide

theorem test_control_write_taken :
    let r := request .write 0x200300 1 [whole 5] (some ⟨0, 0x300⟩)
    Shadow.read (after .controlWrite (staged (anchored .idle) r)).control.shadow 0x300 = 5 := by decide

/-- A burst from the second word of a route entry below the cursor, with a clear strobe: that word fails PARTIAL first (R26). -/
theorem test_control_write_partial_route :
    let r := request .write 0x200C68 1 [{ data := 0x0102, strobes := 0x7F }] (some ⟨0, 0xC68⟩)
    let s := { anchored .running with exceedance := { ExceedanceUnit.reset with cursor := 10 } }
    (after .controlWrite (staged s r)).control.lastRefusal = ⟨0xC68, .partialWord⟩ := by decide

theorem test_route_write_behind_cursor :
    let s := { inRun .running with exceedance := { ExceedanceUnit.reset with cursor := 1 } }
    (after (.routeEntryWrite 1 [0x0102]) s).control.lastRefusal = ⟨0xC00, .route⟩ := by decide

theorem test_consumed_index :
    let s := { inRun .running with writeBack :=
      { (inRun .running).writeBack with actionRing := { RingState.reset with capacity := 128, writeIndex := 5 } } }
    (after (.consumedIndexWrite .action 5) s).writeBack.actionRing.consumed = 5
      ∧ (after (.consumedIndexWrite .action 6) s).control.lastRefusal = ⟨0x90, .range⟩ := by decide

theorem test_mask :
    let s := after (.quadratureError .a) (inRun .armed)
    (after (.interruptEnableMaskWrite 0x2000) s).control.int = true
      ∧ (after (.interruptEnableMaskWrite 0x1000) s).control.int = false := by decide

/-- ARM with empty shadows: area record 1 is not enabled, and no stream is; the owned area A5 fails first. -/
theorem test_arm_refused : (after .arm (anchored .idle)).control.lastCommand = ⟨0, .refusedConfig, 0x2A0⟩ := by decide

theorem test_start :
    let t := after .start { inRun .armed with time := 100 }
    t.control.runState = .running ∧ t.odometer.nextPoint = some 1 ∧ t.tap.s1.timer = some 1100 := by decide

theorem test_stop : (after .stop (inRun .running)).control.runState = .stopped := by decide

theorem test_abort : (after .abort (inRun .draining)).control.lastCommand = ⟨3, .done, 0⟩ := by decide

theorem test_release :
    (after .release (inRun .stopped)).control.runState = .idle ∧ (after .release (inRun .stopped)).tap.s1.state = .idle := by decide

/-- The present chainage becomes 1,000,000 mm, along −1. -/
theorem test_chainage_set :
    let t := after (.chainageSet 0x0000FF00000F4240) { inRun .running with odometer := { Odometer.reset with d := 2560 } }
    t.odometer.q = 1000010 ∧ t.odometer.dir = .minus ∧ t.odometer.chainageStep = true := by decide

theorem test_profile_select :
    (after (.profileSelect 7) (inRun .running)).exceedance.active = 7
      ∧ (after (.profileSelect 8) (inRun .running)).control.lastCommand = ⟨6, .refusedArg, 1⟩ := by decide

/-- Group 1, pattern 5, 100 mm ahead. -/
theorem test_action_post :
    (after (.actionPost 0x640501) (inRun .running)).action.queue = [⟨0, 100, 1, 5, .posted⟩] := by decide

theorem test_action_cancel :
    let s := after (.actionPost 0x640501) (inRun .running)
    (after (.actionCancel 0) s).action.queue = [] ∧ (after (.actionCancel 9) s).control.lastCommand = ⟨8, .notFound, 9⟩ := by decide

theorem test_writeback_head_record :
    let s := (inRun .running).produce .action [1, 2, 3, 4]
    let t := after .writebackHeadPresented s.settle
    t.writeBack.queue = [] ∧ (t.transit.entry 64).map (·.carried) = some (some (.ring .action))
      ∧ t.writeBack.slot = .pending 0 := by decide

theorem test_writeback_head_status :
    let t := after .writebackHeadPresented (anchored .idle).markStatus.settle
    t.control.statusSeq = 1 ∧ t.transit.memoryPort.map (·.addr) = some 0x200100 ∧ t.writeBack.slot = .empty := by decide

theorem test_memory_response_error :
    let s := after .writebackHeadPresented (anchored .idle).markStatus.settle
    (after (.memoryResponse 64 .error []) s).control.events = [(23, 1)] := by decide

theorem test_port_reset :
    let s := after (.requestTaken ⟨.read, 0x1000, 1, 3⟩ none) (anchored .idle)
    (after .portReset s).transit.entry 3 = none ∧ (after .portReset s).prstLow = true := by decide

theorem test_port_reset_release : (after .portResetRelease { anchored .idle with prstLow := true }).prstLow = false := by decide

theorem test_hardware_reset :
    let s := after .writebackHeadPresented (anchored .idle).markStatus.settle
    (after .hardwareReset s).control.runState = .unanchored
      ∧ ((after .hardwareReset s).transit.entry 64).map (·.phase) = some .absorbing := by decide

theorem test_hardware_reset_release :
    let t := after (.hardwareResetRelease ⟨true, false, false, false, true⟩) (after .hardwareReset (anchored .idle))
    t.odometer.filters.ta0 = ⟨true, 0⟩ ∧ t.odometer.filters.ta1 = ⟨false, 0⟩ ∧ t.resetLow = false := by decide

/-- 250 counts of 256 carry D to the first boundary; here from one count below it. -/
theorem test_lead_count_opens :
    let s := { inRun .running with odometer := { (inRun .running).odometer with d := 63744 } }
    ((after (.leadCount true) s).assembler.queue.map (fun p => (p.index, p.dmm))) = [(1, 250)] := by decide

theorem test_non_lead_swap :
    (after (.nonLeadCount false) (inRun .running)).odometer.lead = .b
      ∧ (after (.nonLeadCount false) (inRun .running)).control.events = [(12, 0)] := by decide

theorem test_quadrature_error : (after (.quadratureError .b) (inRun .armed)).odometer.chanB.errors = 1 := by decide

theorem test_mark_passage : (after .markPassage (inRun .armed)).odometer.latches = [⟨0, 0⟩] := by decide

theorem test_silence :
    let s := { inRun .running with
      time := 5, tap := { (inRun .running).tap with s1 := { (inRun .running).tap.s1 with timer := some 5 } } }
    (after (.silenceTimerExpiry 0) s).tap.s1.state = .stale := by decide

/-- An expiry time that lies behind is not reached (00 Conventions). -/
theorem test_silence_behind :
    let s := { inRun .running with
      time := 6, tap := { (inRun .running).tap with s1 := { (inRun .running).tap.s1 with timer := some 5 } } }
    (after (.silenceTimerExpiry 0) s).tap.s1.state = .live := by decide

/-- A pending point with one entry that waits on stream 1. -/
def waitingPoint (k : Int) : PendingPoint :=
  { index := k, dmm := 250 * k, chainage := 250 * k, time := 10, speed := 0, flags := ⟨false, false, false, false, true⟩
    deadline := 20, entries := [⟨0, .waiting none⟩] }

theorem test_deadline :
    let s := { inRun .running with
      time := 20, assembler := { (inRun .running).assembler with queue := [waitingPoint 1, waitingPoint 2] } }
    (after (.pointDeadlineExpiry 1) s).assembler.queue = [waitingPoint 2]
      ∧ (after (.pointDeadlineExpiry 1) s).geometry.newest = some 1 := by decide

theorem test_pulse_release :
    let s := { inRun .stopped with
      time := 9, action := { ActionUnit.reset with pulses := [(0, ⟨0, 1, 9⟩)], holds := [1, 0, 0, 0, 0, 0, 0, 0] } }
    s.lineLevel 0 = true ∧ (after (.pulseRelease 0) s).lineLevel 0 = false := by decide

/-- The fourth differing sample of TA0 is accepted: one forward count of channel A. -/
theorem test_sample :
    let s := { inRun .armed with odometer :=
      { (inRun .armed).odometer with filters := { LineFilters.reset with ta0 := ⟨false, 3⟩ } } }
    (after (.lineFilterSample ⟨true, false, false, false, false⟩) s).odometer.d = 256 := by decide

/-- A dropped passage and a lead count of one sample are events of their own: the status write of the first stands ahead of the record of
the second (R187). -/
theorem test_sample_events_apart :
    let s := { inRun .stopped with
      odometer := { (inRun .stopped).odometer with latches := List.replicate 4 ⟨0, 0⟩ }
      action := { ActionUnit.reset with queue := [⟨0, 1, 1, 5, .posted⟩] } }
    let t := [SampleEvent.passage, .count .a true].foldl State.sampleEvent s
    t.writeBack.slot = .pending 0 ∧ t.writeBack.queue.length = 1 := by decide

theorem test_response_delivered :
    let s := after (.requestTaken ⟨.read, 0x1001, 1, 3⟩ none) (anchored .idle)
    (after .systemResponseDelivered s).transit.responses = [] := by decide

/-! ### Witnesses: states and operands that meet the hypotheses of each statement -/

theorem settled_anchored (run : RunState) : Settled (anchored run) := (by intro h; cases h)

theorem settled_inRun (run : RunState) : Settled (inRun run) := (by intro h; cases h)

/-- With nothing queued and no status write the system head has the port. -/
theorem systemWins_of_no_head {s : State} (hs : s.transit.stage ≠ []) (hq : s.writeBack.queue = [])
    (hp : s.writeBack.slot = .empty) : SystemWins s :=
  ⟨hs, fun h => h.1.elim (fun h => h hq) (fun ⟨n, h⟩ => by rw [hp] at h; cases h)⟩

/-- A part in RUNNING with an action record queued in A7, a pending status write behind it, and a READ held behind the record. -/
def held : State :=
  let s := { inRun .running with
    transit := { (anchored .running).transit with areas := [(0, ⟨0x200000, 4⟩), (7, ⟨0x300000, 1⟩)] } }
  after (.requestTaken ⟨.read, 0x300000, 4, 9⟩ none) (s.produce .action [1, 2, 3, 4]).settle

theorem witness_StepRunsFrontCommand :
    { State.reset with pending := [.arm] }.pending = [Instr.arm] ∧ State.reset.pending = [] := ⟨rfl, rfl⟩

theorem witness_IntFollowsFlags :
    let s := { inRun .running with pending := [.quadratureError .a] }
    IntAgrees s ∧ ∃ t, step s = .next t :=
  ⟨⟨(by intro h; cases h), fun ⟨f, h, _⟩ => by cases f <;> cases h⟩, _, rfl⟩

theorem witness_ActionQueueAndHoldsStaySound :
    let s := { inRun .running with pending := [.actionPost 0x640501] }
    ActionQueueSound s ∧ HoldsSound s ∧ ∃ t, step s = .next t := by
  refine ⟨?_, ?_, _, rfl⟩
  · unfold ActionQueueSound; decide
  · unfold HoldsSound; decide

theorem witness_QueuesStayBounded :
    let s := { held with pending := [.writebackHeadPresented] }
    QueuesSound s ∧ ∃ t, step s = .next t :=
  ⟨⟨by decide, by decide, by decide, by decide, by show (1 : Nat) ≤ _; decide⟩, _, rfl⟩

theorem witness_RingsRunsAndCursorStayBounded :
    let s := { inRun .running with pending := [.leadCount true] }
    RingsSound s ∧ RunsSound s ∧ CursorSound s ∧ ∃ t, step s = .next t := by
  refine ⟨fun r => by cases r <;> decide, ⟨rfl, fun t ht r hr => ?_⟩, by unfold CursorSound; decide, _, rfl⟩
  rw [List.eq_of_mem_replicate ht] at hr; cases hr

theorem witness_AnchorStaysSound :
    let s := { inRun .running with pending := [.stop] }
    let u := { State.reset with pending := [.systemHeadPresented] }
    (AnchorSound s ∧ ∃ t, step s = .next t) ∧ AnchorSound u ∧ ∃ t, step u = .next t :=
  ⟨⟨⟨(by intro h; cases h), rfl⟩, _, rfl⟩, ⟨rfl, rfl⟩, _, rfl⟩

theorem witness_TransitStaysSound :
    let s := { held with pending := [.writebackHeadPresented] }
    WaitsSound s ∧ TagsSound s ∧ s.transit.holds ≠ [] ∧ ∃ t, step s = .next t := by
  refine ⟨fun h hh => ?_, ⟨by decide, by decide, by decide⟩, by decide, _, rfl⟩
  have e : h = { request := h.request, waitsWrites := [.record .action 0], waitsHeld := [] } := by
    cases hh with
    | head => rfl
    | tail _ hm => cases hm
  rw [e]
  refine ⟨Or.inl ((by intro h; cases h)), fun w hw => ?_⟩
  cases hw with
  | head => exact ⟨_, List.Mem.head _, rfl, rfl⟩
  | tail _ hm => cases hm

theorem witness_TablesStayCanonical :
    let s := { held with pending := [.portReset] }
    TablesSound s ∧ ∃ t, step s = .next t := by
  refine ⟨?_, _, rfl⟩
  unfold TablesSound Shadow.wf Table.wf; decide

theorem witness_WaitingChangesNothing :
    let req : RequestFields := ⟨.read, 0x1000, 1, 1⟩
    let first : WaitingRequest := ⟨⟨.read, 0x2000, 1, 2⟩, none⟩
    { State.reset with resetLow := true }.resetLow = true ∧ PortBlocked { State.reset with prstLow := true } 1
      ∧ PortBlocked (staged State.reset (request .read 0 1 [] none)) 1
      ∧ PortBlocked { State.reset with transit :=
          { Transit.reset with holds := List.replicate 8 ⟨request .read 0 1 [] none, [], []⟩ } } 1
      ∧ PortBlocked { State.reset with transit :=
          { Transit.reset with inflight := [(1, ⟨.absorbing, .read, 0, 1, none, none⟩)] } } 1
      ∧ WholeRequest Transit.reset req none [] ∧ FirstAtPort Transit.reset req none
      ∧ ¬FirstAtPort { Transit.reset with waiting := some first } req none
      ∧ (∀ data, ¬WholeRequest { Transit.reset with partialBurst := some ⟨⟨.write, 0, 2, 0⟩, [whole 1]⟩ } req none data)
      ∧ ¬SystemWins State.reset ∧ ¬WriteBackWins State.reset := by
  refine ⟨rfl, Or.inl rfl, Or.inr (Or.inl (by decide)), Or.inr (Or.inr (Or.inl (by decide))),
    Or.inr (Or.inr (Or.inr (by decide))), ⟨rfl, rfl⟩, ?_, ?_, ?_, fun h => h.1 rfl,
    fun h => h.1.elim (fun h => h rfl) (fun ⟨_, h⟩ => by cases h)⟩
  · intro w h; cases h
  · intro h; have := h _ rfl; revert this; decide
  · rintro data ⟨h, _⟩; cases h

/-- The five bus checks at their bounds: one request that passes with 16 beats, and one that fails each check. -/
theorem witness_RequestRefusedAtOnce :
    let t := (staged (anchored .idle) (request .read 0 1 [] none)).transit
    Settled (anchored .idle) ∧ PortOpen (anchored .idle) ⟨.read, 0x1004, 1, 3⟩ none
      ∧ WholeRequest (anchored .idle).transit ⟨.read, 0x1004, 1, 3⟩ none []
      ∧ PassesBus t ⟨.read, 0xF80, 16, 3⟩ ∧ ¬PassesBus t ⟨.read, 0xF84, 1, 3⟩ ∧ ¬PassesBus t ⟨.write, 0x1000, 0, 3⟩
      ∧ ¬PassesBus t ⟨.write, 0x1000, 17, 3⟩ ∧ ¬PassesBus t ⟨.read, 0xFF8, 2, 3⟩ ∧ ¬PassesBus t ⟨.read, 0x1000, 1, 1⟩ := by
  refine ⟨settled_anchored _, ⟨rfl, rfl, rfl, by decide, by decide, fun _ h => by cases h⟩, ⟨rfl, rfl⟩, ?_⟩
  unfold PassesBus
  decide

theorem witness_stray :
    let s := { anchored .running with
      transit := { (anchored .running).transit with areas := [(0, ⟨0x200000, 4⟩), (5, ⟨0x300000, 1⟩)] } }
    Settled s ∧ PortOpen s ⟨.write, 0x300FF8, 1, 3⟩ (some (whole 0)) ∧ s.control.runState ≠ .unanchored
      ∧ WholeRequest s.transit ⟨.write, 0x300FF8, 1, 3⟩ (some (whole 0)) [whole 0] ∧ PassesBus s.transit ⟨.write, 0x300FF8, 1, 3⟩
      ∧ LiesIn s.transit 0x300FF8 1 5 0xFF8 :=
  ⟨(by intro h; cases h), ⟨rfl, rfl, rfl, by decide, by decide, fun _ h => by cases h⟩, by decide, ⟨rfl, Or.inl ⟨rfl, rfl⟩⟩, by unfold PassesBus; decide,
    ⟨0x300000, 1⟩, by decide, by unfold Within; decide, by decide, by unfold Within; decide⟩

theorem witness_RequestStaged :
    let s := anchored .idle
    let req : RequestFields := ⟨.read, 0x1000, 1, 3⟩
    let ctl : RequestFields := ⟨.write, 0x200300, 1, 3⟩
    Settled s ∧ PortOpen s req none ∧ PortOpen s ctl (some (whole 0)) ∧ WholeRequest s.transit req none [] ∧ PassesBus s.transit req ∧ LiesNowhere s.transit 0x1000 1
      ∧ (∀ w, ¬OverlapsQueued s 0x1000 1 w) ∧ (∀ tag, ¬OverlapsHeld s 0x1000 1 tag)
      ∧ WholeRequest s.transit ctl (some (whole 0)) [whole 0] ∧ PassesBus s.transit ctl
      ∧ LiesIn s.transit 0x200300 1 0 0x300 ∧ ∀ tag, ¬OverlapsHeld s 0x200300 1 tag := by
  refine ⟨settled_anchored _, ⟨rfl, rfl, rfl, by decide, by decide, fun _ h => by cases h⟩,
    ⟨rfl, rfl, rfl, by decide, by decide, fun _ h => by cases h⟩, ⟨rfl, rfl⟩, by unfold PassesBus; decide, ?_, ?_, ?_,
    ⟨rfl, Or.inl ⟨rfl, rfl⟩⟩, by unfold PassesBus; decide,
    ⟨⟨0x200000, 4⟩, by decide, by unfold Within; decide, by decide, by unfold Within; decide⟩, ?_⟩
  · unfold LiesNowhere Within; decide
  · intro w; cases w with
    | record r i => rintro ⟨e, he, _⟩; cases he
    | status => rintro ⟨h, _⟩; cases h
  · rintro tag ⟨h, hh, _⟩; cases hh
  · rintro tag ⟨h, hh, _⟩; cases hh

/-- A READ of the first word of a pending status write, and a WRITE over the READ that `held` holds. -/
theorem witness_RequestHeld :
    let s := held
    let req : RequestFields := ⟨.read, 0x200100, 1, 3⟩
    let wr : RequestFields := ⟨.write, 0x300018, 1, 3⟩
    Settled s ∧ PortOpen s req none ∧ PortOpen s wr (some (whole 0)) ∧ WholeRequest s.transit req none [] ∧ PassesBus s.transit req
      ∧ LiesIn s.transit 0x200100 1 0 0x100 ∧ OverlapsQueued s 0x200100 1 .status
      ∧ WholeRequest s.transit ⟨.read, 0x300018, 1, 3⟩ none [] ∧ OverlapsQueued s 0x300018 1 (.record .action 0)
      ∧ PassesBus s.transit wr ∧ OverlapsHeld s 0x300018 1 9 := by
  refine ⟨(by intro h; cases h), ⟨rfl, rfl, rfl, by decide, by decide, fun _ h => by cases h⟩,
    ⟨rfl, rfl, rfl, by decide, by decide, fun _ h => by cases h⟩, ⟨rfl, rfl⟩, by unfold PassesBus; decide,
    ⟨⟨0x200000, 4⟩, by decide, by unfold Within; decide, by decide, by unfold Within; decide⟩, ⟨rfl, by unfold Share; decide⟩,
    ⟨rfl, rfl⟩, ⟨_, List.Mem.head _, rfl, rfl, by unfold Share; decide⟩, by unfold PassesBus; decide,
    ⟨_, List.Mem.head _, rfl, by unfold Share; decide⟩⟩

theorem witness_DataBeatReceived :
    let req : RequestFields := ⟨.write, 0x1000, 3, 3⟩
    let s := after (.dataBeatReceived req (whole 1)) (anchored .idle)
    (anchored .idle).transit.partialBurst = none ∧ s.resetLow = false ∧ s.prstLow = false ∧ 2 ≤ req.beats
      ∧ s.transit.waiting = none
      ∧ (after (.requestTaken ⟨.read, 0, 1, 1⟩ none) { anchored .idle with prstLow := true }).transit.waiting ≠ none
      ∧ (∃ p, s.transit.partialBurst = some p ∧ p.fields = req ∧ p.received.length + 1 < req.beats)
      ∧ ∃ p, (after (.dataBeatReceived req (whole 2)) s).transit.partialBurst = some p ∧ ¬p.received.length + 1 < req.beats :=
  ⟨rfl, rfl, rfl, by decide, rfl, by decide, ⟨_, rfl, rfl, by decide⟩, ⟨_, rfl, by decide⟩⟩

theorem witness_ReadPresented :
    let r := request .read 0x200108 1 [] (some ⟨0, 0x108⟩)
    let s := staged { anchored .idle with transit :=
      { (anchored .idle).transit with statusRecords := [⟨1, 1, 64, .okay, []⟩] } } r
    Settled s ∧ s.transit.stage = [r] ∧ SystemWins s ∧ r.kind = .read ∧ CaptureTaken s r = some ⟨1, 1⟩ :=
  ⟨(by intro h; cases h), rfl, systemWins_of_no_head (by intro h; cases h) rfl rfl, rfl, by decide⟩

theorem witness_PlainWriteForwarded :
    let r := request .write 0x1000 1 [whole 1] none
    let s := staged State.reset r
    Settled s ∧ s.transit.stage = [r] ∧ SystemWins s ∧ r.kind = .write ∧ r.hit = none ∧ ∀ base, ¬AnchorWrite r base :=
  ⟨(by intro h; cases h), rfl, systemWins_of_no_head (by intro h; cases h) rfl rfl, rfl, rfl, fun _ h => absurd h.1 (by decide)⟩

/-- The lowest and the highest valid base. -/
theorem witness_AnchorWriteAnchors :
    let r := request .write 0xFF8 1 [whole 0x4000] none
    let s := staged State.reset r
    s.transit.stage = [r] ∧ SystemWins s ∧ r.kind = .write ∧ r.hit = none ∧ s.transit.base = none ∧ AnchorWrite r 0x4000
      ∧ AnchorWrite (request .write 0xFF8 1 [whole 0xFFFFFC000] none) 0xFFFFFC000 := by
  refine ⟨rfl, systemWins_of_no_head (by intro h; cases h) rfl rfl, rfl, rfl, rfl, ⟨rfl, rfl, _, rfl, ?_⟩, ⟨rfl, rfl, _, rfl, ?_⟩⟩
  · decide
  · decide

/-- The capture write of these beats from an offset of stream 1's area on. -/
def captureRequest (off : Nat) (beats : List Beat) : Request :=
  { request .write (0x400000 + BitVec.ofNat 36 off) 1 beats (some ⟨1, off⟩) with beats := beats.length }

/-- That capture write staged in a state. -/
def capture (s : State) (off : Nat) (beats : List Beat) : State := staged s (captureRequest off beats)

theorem captureHead (s : State) (off : Nat) (beats : List Beat) (hs : Settled s) (hr : s.control.runState ≠ .unanchored)
    (hb : s.transit.base ≠ none) (hq : s.writeBack.queue = []) (hp : s.writeBack.slot = .empty) :
    CaptureHead (capture s off beats) (captureRequest off beats) [] 0 off beats :=
  ⟨hs, hr, hb, rfl, systemWins_of_no_head (by simp [capture, staged]) hq hp, rfl, rfl, rfl⟩

/-- Stream 1 with seven beats of a frame present and beat 7 missing. -/
def nearlyWhole (word0 word1 word2 : Word64) : StreamContext :=
  { (inRun .armed).tap.s1 with
    buffer := [some word0, some word1, some word2, some 0, some 0, some 0, some 0, none], slotMap := [1, 2, 3, 4, 5, 6, 7, 8] }

/-- A part in a run state with that stream. -/
def streaming (run : RunState) (c : StreamContext) : State := { inRun run with tap := { StreamTap.reset with s1 := c } }

/-- Two beats of the last slot where slot 0 is expected, seven in the expected slot with a position outside them missing, eight whole beats,
and beats with a clear strobe. -/
theorem witness_CaptureBeatTapped :
    let s := streaming .running (inRun .running).tap.s1
    let c := s.tap.stream 0
    let beats (n : Nat) : List Beat := List.replicate n (whole 1)
    CaptureHead (capture s 0xFF0 (beats 2)) (captureRequest 0xFF0 (beats 2)) [] 0 0xFF0 (beats 2)
      ∧ WholeInSlot 0xFF0 (beats 2) ∧ c.state ≠ .idle ∧ 0xFF0 / 64 ≠ c.expectedSlot ∧ (beats 2).length < 8
      ∧ WholeInSlot 8 (beats 7) ∧ 8 / 64 = c.expectedSlot ∧ c.buffer[0]? = some none ∧ ¬WholeInSlot 8 (beats 8)
      ∧ (∀ b ∈ List.replicate 8 ({ data := 1, strobes := 0x7F } : Beat), b.strobes ≠ BitVec.allOnes 8)
      ∧ ((streaming .running .reset).tap.stream 0).state = .idle := by
  refine ⟨captureHead _ _ _ (by intro h; cases h) (by decide) (by decide) rfl rfl, ?_⟩
  unfold WholeInSlot
  decide

/-- An ordinary frame write of eight beats completes a frame, and so does the last beat alone. -/
theorem witness_FrameComplete :
    let words : List Word64 := [1, 2, 3, 4, 5, 6, 7, 8]
    FrameComplete (inRun .armed).tap.s1 0 (words.map whole) words
      ∧ FrameComplete (nearlyWhole 1 0 0) 0x38 [whole 9] [1, 0, 0, 0, 0, 0, 0, 9]
      ∧ ((words ++ words).map whole).length = 16 := by
  unfold FrameComplete WholeInSlot
  decide

/-- A burst of two frames: sixteen beats are tapped from slot 0 on, and both frames leave the buffer. -/
theorem test_burst_of_two_frames :
    let words (seq : Word64) : List Word64 := [0x100000001 + seq * 0x10000, 0, 0, 0, 0, 0, 0, 0]
    let t := after .systemHeadPresented
      (capture (streaming .armed (inRun .armed).tap.s1) 0 ((words 1 ++ words 2).map whole))
    t.tap.s1.expectedSlot = 2 ∧ t.tap.s1.lastSequence = some 2 ∧ t.tap.s1.buffer = emptyBuffer := by decide

/-- Kind 3, and a SENSOR frame with 15 used slots. -/
theorem witness_BadFrameDiscarded :
    let c (w : Word64) := nearlyWhole w 0 0
    let s (w : Word64) := streaming .armed (c w)
    let words (w : Word64) : List Word64 := [w, 0, 0, 0, 0, 0, 0, 9]
    CaptureHead (capture (s 3) 0x38 [whole 9]) (captureRequest 0x38 [whole 9]) [] 0 0x38 [whole 9]
      ∧ FrameComplete (c 3) 0x38 [whole 9] (words 3) ∧ kindByte (words 3) ≠ 0x01 ∧ kindByte (words 3) ≠ 0x02
      ∧ FrameComplete (c 0xF00000001) 0x38 [whole 9] (words 0xF00000001) ∧ kindByte (words 0xF00000001) = 0x01
      ∧ 14 < (((words 0xF00000001).getD 0 0).extractLsb' 32 8).toNat := by
  refine ⟨captureHead _ _ _ (by intro h; cases h) (by decide) (by decide) rfl rfl, ?_⟩
  unfold FrameComplete WholeInSlot kindByte
  decide

/-- Sequence FFFFh after FFFEh and after 0; 8 used slots for 8 mapped, and 7; a last frame of the same time, and one a microsecond later;
a stream that contributes, whose frame leaves the head waiting, and a frame that fills the only point of a drain. -/
theorem witness_SensorFrameKept :
    let w : Word64 := 0x8FFFF0001
    let c (last : BitVec 16) (time : Time) : StreamContext :=
      { nearlyWhole w 0 0 with lastSequence := some last, lastFrame := some ⟨time, true, []⟩ }
    let s (run : RunState) (queue : List PendingPoint) : State :=
      { streaming run (c 0xFFFE 500) with assembler := { (inRun run).assembler with queue := queue } }
    let words : List Word64 := [w, 0, 0, 0, 0, 0, 0, 9]
    let f : Frame := { time := 500, healthy := true, values := frameValues [1, 2, 3, 4, 5, 6, 7, 8] words }
    CaptureHead (capture (s .armed []) 0x38 [whole 9]) (captureRequest 0x38 [whole 9]) [] 0 0x38 [whole 9]
      ∧ (s .armed []).tap.stream 0 = c 0xFFFE 500 ∧ FrameComplete (c 0xFFFE 500) 0x38 [whole 9] words ∧ kindByte words = 0x01
      ∧ ((words.getD 0 0).extractLsb' 32 8).toNat = 8 ∧ (words.getD 0 0).extractLsb' 16 16 = 0xFFFF
      ∧ SequenceChecked (s .armed []) (c 0xFFFE 500) 0xFFFF 0 [] ∧ SequenceChecked (s .armed []) (c 0 500) 0xFFFF 0xFFFE [.frameLoss]
      ∧ FrameInOrder (c 0 500) f.time ∧ ¬FrameInOrder (c 0 501) f.time ∧ slotsNeeded (c 0 500).slotMap = 8
      ∧ ¬(s .armed []).control.runState.Measures ∧ (s .draining []).control.runState.Measures
      ∧ (∃ x ∈ (s .running []).assembler.contributing, x.stream = 0)
      ∧ HeadWaits ([{ waitingPoint 1 with time := 501 }].map (PendingPoint.took 0 f)) none
      ∧ (s .draining [waitingPoint 1]).assembler.queue ≠ [] := by
  refine ⟨captureHead _ _ _ (by intro h; cases h) (by decide) (by decide) rfl rfl, rfl, ?_, by decide, by decide, by decide,
    Or.inl ⟨fun _ h => by cases h; decide, rfl, rfl⟩, Or.inr ⟨0, rfl, by decide, rfl, by decide⟩, fun _ h => by cases h; decide,
    fun h => absurd (h _ rfl) (by decide), by decide, ?_, Or.inr rfl, ⟨_, List.Mem.head _, rfl⟩, fun p rest h => ?_,
    by intro h; cases h⟩
  · unfold FrameComplete WholeInSlot; decide
  · rintro (h | h) <;> cases h
  · cases h; exact ⟨0, ⟨_, List.Mem.head _, rfl, _, rfl⟩, by decide⟩

/-- A MARKER frame whose error is the accept window, one beyond it, and one with no latch. -/
theorem witness_MarkerFramePaired :
    let c (y : Word64) := nearlyWhole 0x00010002 7 y
    let s (y : Word64) (latches : List Latch) : State :=
      { streaming .running (c y) with odometer := { (inRun .running).odometer with latches := latches } }
    let words (y : Word64) : List Word64 := [0x00010002, 7, y, 0, 0, 0, 0, 9]
    CaptureHead (capture (s 100 []) 0x38 [whole 9]) (captureRequest 0x38 [whole 9]) [] 0 0x38 [whole 9]
      ∧ FrameComplete (c 100) 0x38 [whole 9] (words 100) ∧ (s 100 []).control.runState ≠ .idle ∧ kindByte (words 100) = 0x02
      ∧ (c 100).lastSequence = none ∧ (s 100 []).odometer.latches = [] ∧ (s 100 [⟨0, 1⟩]).odometer.latches = [⟨0, 1⟩]
      ∧ ((((words 100).getD 2 0).toInt - 0).natAbs ≤ (s 100 []).odometer.acceptWindow)
      ∧ (s 101 []).odometer.acceptWindow < (((words 101).getD 2 0).toInt - 0).natAbs := by
  refine ⟨captureHead _ _ _ (by intro h; cases h) (by decide) (by decide) rfl rfl, ?_⟩
  unfold FrameComplete WholeInSlot kindByte
  decide

/-- A setup word in ARMED, at the first word of a burst, which is the first to fail. -/
theorem witness_ControlWriteRefused :
    let r := request .write 0x200300 1 [whole 5] (some ⟨0, 0x300⟩)
    let s := staged (anchored .armed) r
    s.control.runState ≠ .unanchored ∧ s.transit.stage = [r] ∧ SystemWins s ∧ r.kind = .write ∧ r.hit = some ⟨0, 0x300⟩
      ∧ s.refusalOf (burstWords 0x300 r.data) = some ⟨0x300, .locked⟩
      ∧ burstWords 0x300 r.data = [] ++ ⟨0x300, whole 5⟩ :: [] ∧ s.wordReason ⟨0x300, whole 5⟩ = some .locked :=
  ⟨by decide, rfl, systemWins_of_no_head (by intro h; cases h) rfl rfl, rfl, rfl, by decide, by decide, by decide⟩

/-- The last word of the setup shadows and the first of the route. -/
theorem witness_SetupWriteTaken :
    let r : Request :=
      { request .write 0x200BF8 1 [whole 5, whole 6] (some ⟨0, 0xBF8⟩) with beats := 2 }
    let s := staged (anchored .idle) r
    Settled s ∧ s.transit.stage = [r] ∧ SystemWins s ∧ r.kind = .write ∧ r.hit = some ⟨0, 0xBF8⟩
      ∧ s.refusalOf (burstWords 0xBF8 r.data) = none
      ∧ ∀ w ∈ burstWords 0xBF8 r.data, regionOf w.off = .setup ∨ regionOf w.off = .route :=
  ⟨(by intro h; cases h), rfl, systemWins_of_no_head (by intro h; cases h) rfl rfl, rfl, rfl, by decide, by decide⟩

/-- All nine command words in one burst, and the three consumed indices with the mask. -/
theorem witness_CommandWordRunsCommand :
    let data (n : Nat) : List Beat := List.replicate n (whole 0)
    let r (off n : Nat) : Request := { request .write 0x200000 1 (data n) (some ⟨0, off⟩) with beats := n }
    let s := staged (anchored .idle) (r 0 9)
    s.control.runState ≠ .unanchored ∧ s.transit.stage = [r 0 9] ∧ SystemWins s ∧ (r 0 9).kind = .write
      ∧ (r 0 9).hit = some ⟨0, 8 * 0⟩ ∧ 0 + (r 0 9).data.length ≤ 9 ∧ (∀ b ∈ (r 0 9).data, b.strobes = BitVec.allOnes 8)
      ∧ (r 0x80 4).hit = some ⟨0, 8 * 16⟩ ∧ 16 + (r 0x80 4).data.length ≤ 20 ∧ (r 0x80 4).data ≠ []
      ∧ s.refusalOf (burstWords (8 * 16) (data 4)) = none :=
  ⟨by decide, rfl, systemWins_of_no_head (by intro h; cases h) rfl rfl, rfl, rfl, by decide, by decide, rfl, by decide, by decide,
    by decide⟩

theorem lowestInsertedTag_of_none {t : Transit} (h : t.entry 64 = none) : LowestInsertedTag t 64 :=
  ⟨by decide, by decide, h, fun k h1 h2 => by omega⟩

/-- `held` has a record ahead of its status write, and a hold on the record. -/
theorem witness_RecordPresented :
    Settled held ∧ (∃ e rest, held.writeBack.queue = e :: rest) ∧ held.writeBack.slot ≠ .pending 0 ∧ WriteBackWins held
      ∧ LowestInsertedTag held.transit 64 :=
  ⟨(by intro h; cases h), ⟨_, _, rfl⟩, by decide,
    ⟨Or.inl (by decide), ⟨64, by decide, by decide, by decide⟩, Or.inl ⟨_, List.Mem.head _, by decide⟩⟩,
    lowestInsertedTag_of_none (by decide)⟩

/-- A WRITE that waits on the READ of `held` alone is released with it, behind it (R15, R16). -/
theorem test_release_cascades :
    let s := after (.requestTaken ⟨.write, 0x300018, 1, 3⟩ (some (whole 0))) { held with transit :=
      { held.transit with areas := [(0, ⟨0x200000, 4⟩)] } }
    let t := after .writebackHeadPresented s
    s.transit.holds.map (fun h => (h.request.tag, h.waitsWrites, h.waitsHeld))
        = [(9, [.record .action 0], []), (3, [], [9])]
      ∧ t.transit.holds = [] ∧ t.transit.stage.map (·.tag) = [9, 3] := by decide

theorem witness_StatusPresented :
    let s := (anchored .idle).markStatus.settle
    s.transit.base = some 0x200000 ∧ s.writeBack.slot = .pending 0 ∧ WriteBackWins s ∧ LowestInsertedTag s.transit 64 :=
  ⟨rfl, rfl, ⟨Or.inr ⟨0, rfl⟩, ⟨64, by decide, by decide, by decide⟩, Or.inr (Or.inr rfl)⟩,
    lowestInsertedTag_of_none (by decide)⟩

/-- A part with one in-flight entry of each phase, a capture, and the record of status write 1 with an outcome. -/
def answering (outcome : WriteOutcome) : State :=
  { anchored .idle with
    transit :=
      { (anchored .idle).transit with
        inflight :=
          [(0, ⟨.held, .read, 0, 1, none, none⟩), (1, ⟨.staged, .read, 0, 1, none, none⟩),
            (2, ⟨.presented, .read, 0, 1, none, none⟩), (3, ⟨.absorbing, .read, 0, 1, none, none⟩),
            (4, ⟨.presented, .read, 0x200108, 1, some ⟨1, 1⟩, none⟩), (64, ⟨.presented, .write, 0, 16, none, some (.status 1)⟩),
            (95, ⟨.presented, .write, 0, 4, none, some (.ring .action)⟩)]
        statusRecords := [⟨1, 1, 64, outcome, []⟩] }
    control := { Control.reset with runState := .idle, events := [(0, 0)] } }

theorem intAgrees_answering (outcome : WriteOutcome) : IntAgrees (answering outcome) :=
  ⟨fun h => (by cases h), fun ⟨f, _, h⟩ => by simp [answering, Control.reset] at h⟩

theorem witness_ResponsesRoutedAndDelivered :
    let s := answering .okay
    let phase (tag : Nat) := (s.transit.entry tag).map (fun e => e.phase)
    Settled s ∧ phase 5 = none ∧ phase 0 = some .held ∧ phase 1 = some .staged ∧ phase 2 = some .presented
      ∧ phase 3 = some .absorbing ∧ (s.transit.entry 2).map (fun e => (e.carried, e.capture)) = some (none, none)
      ∧ (after (.memoryResponse 2 .okay [7]) s).transit.responses = [⟨2, .okay, [7]⟩] :=
  ⟨(by intro h; cases h), by decide, by decide, by decide, by decide, by decide, by decide, by decide⟩

/-- The status write that a READ captured was answered OKAY, is pending, or was answered ERROR. -/
theorem witness_CapturedReadAnswered (outcome : WriteOutcome) :
    let s := answering outcome
    Settled s ∧ TablesSound s ∧ s.control.runState ≠ .unanchored ∧ IntAgrees s
      ∧ (∃ e, s.transit.entry (4 : PortTag).toNat = some e ∧ e.phase = .presented ∧ e.carried = none ∧ e.capture = some ⟨1, 1⟩)
      ∧ ∃ w, s.transit.statusRecords.find? (fun x => decide (x.seq = (1 : BitVec 32))) = some w ∧ w.outcome = outcome := by
  refine ⟨(by intro h; cases h), ?_, by cases outcome <;> decide, intAgrees_answering outcome, ⟨_, rfl, rfl, rfl, rfl⟩, ⟨_, rfl, rfl⟩⟩
  unfold TablesSound Shadow.wf Table.wf
  cases outcome <;> decide

theorem witness_RecordCompleted :
    let s := answering .okay
    Settled s ∧ s.control.runState ≠ .unanchored
      ∧ ∃ e, s.transit.entry (95 : PortTag).toNat = some e ∧ e.phase = .presented ∧ e.carried = some (.ring .action) :=
  ⟨(by intro h; cases h), by decide, _, rfl, rfl, rfl⟩

theorem witness_StatusCompleted :
    let s := answering .pending
    Settled s ∧ TablesSound s ∧ s.control.runState ≠ .unanchored ∧ IntAgrees s
      ∧ (∃ e, s.transit.entry (64 : PortTag).toNat = some e ∧ e.phase = .presented ∧ e.carried = some (.status 1))
      ∧ ∃ w, s.transit.statusRecords.find? (fun x => decide (x.seq = (1 : BitVec 32))) = some w :=
  ⟨(by intro h; cases h), by unfold TablesSound Shadow.wf Table.wf; decide, by decide, intAgrees_answering _, ⟨_, rfl, rfl, rfl⟩, _, rfl⟩

/-- The capture that waits on a status write removes its flag with the OKAY response, and a status write is pending. -/
theorem test_waiting_capture :
    let s (n : BitVec 32) : State :=
      { answering .pending with
        transit := { (answering .pending).transit with statusRecords := [⟨1, 1, 64, .pending, [⟨1, n⟩]⟩] } }
    (after (.memoryResponse 64 .okay []) (s 1)).control.events = []
      ∧ (after (.memoryResponse 64 .okay []) (s 1)).writeBack.slot = .pending 0
      ∧ (after (.memoryResponse 64 .error []) (s 1)).flagSet .writebackError = true := by decide

theorem witness_PortResetDiscards : Table.wf (answering .okay).transit.inflight := by unfold Table.wf; decide

theorem witness_HardwareResetClears :
    Table.wf (answering .okay).transit.inflight ∧ (after .hardwareReset (anchored .idle)).resetLow = true
      ∧ (anchored .idle).resetLow = false := ⟨by unfold Table.wf; decide, rfl, rfl⟩

/-- Each argument just outside its range: directions 00h and 02h, profile 8, group 2, patterns 0 and 16, offset 1,048,576. -/
theorem witness_CommandsRefused :
    Settled State.reset ∧ State.reset.control.runState = .unanchored ∧ (inRun .running).control.runState ∉ acceptedIn 0
      ∧ InRun (inRun .running) ∧ (0x020000000000 : Word64).extractLsb' 40 8 ≠ 0x01
      ∧ (0x020000000000 : Word64).extractLsb' 40 8 ≠ 0xFF ∧ 7 < ((8 : Word64).extractLsb' 0 8).toNat
      ∧ (inRun .running).control.runState = .running ∧ 1 < ((0x0102 : Word64).extractLsb' 0 8).toNat
      ∧ ((0x0001 : Word64).extractLsb' 8 8).toNat = 0 ∧ 15 < ((0x1001 : Word64).extractLsb' 8 8).toNat
      ∧ ((0x1000000101 : Word64).extractLsb' 0 8).toNat ≤ 1 ∧ 1 ≤ ((0x1000000101 : Word64).extractLsb' 8 8).toNat
      ∧ 1048575 < ((0x1000000101 : Word64).extractLsb' 16 24).toNat := by
  refine ⟨(by intro h; cases h), rfl, by decide, ?_, by decide⟩
  unfold InRun; decide

/-- Setup words that pass every check of ARM: stream 1 with the five required quantities, areas 1 and 5–7, minimum lengths of 1. -/
def goodSetup : Table Word64 :=
  [(0x220, 0x400000), (0x228, 0x100000001), (0x2A0, 0x300000), (0x2A8, 0x100000001), (0x2C0, 0x301000), (0x2C8, 0x100000001),
    (0x2E0, 0x302000), (0x2E8, 0x100000001), (0x300, 0x000A010000000004), (0x308, 0x0001006401000100), (0x310, 100),
    (0x340, 0x000003E8010A00FA), (0x348, 0x0015E68000000000), (0x350, 0x00000008000016E3), (0x400, 0x000003E800000000)]
    ++ [(0x408, 0x0000000504030201), (0x500, 0x000000010F000000)]
    ++ (List.range 64).map (fun k => (0x808 + 16 * k, (1 : Word64)))

theorem witness_ArmChecksAndLoads :
    let s := { anchored .idle with control := { (anchored .idle).control with shadow := goodSetup } }
    (anchored .idle).control.runState = .idle ∧ armFailure (anchored .idle).control.shadow (anchored .idle).windowBase = some 0x2A0
      ∧ s.control.runState = .idle ∧ armFailure s.control.shadow s.windowBase = none
      ∧ (after .arm s).control.runState = .armed ∧ (after .arm s).writeBack.actionRing.capacity = 128 := by
  decide +kernel

/-- The run states of START, STOP, ABORT and RELEASE. -/
theorem witness_runStates :
    (inRun .armed).control.runState = .armed ∧ (inRun .running).control.runState = .running
      ∧ (inRun .running).assembler.queue = [] ∧ RunsSound (inRun .running) ∧ InRun (inRun .draining)
      ∧ (inRun .stopped).control.runState = .stopped := by
  refine ⟨rfl, rfl, rfl, ⟨rfl, fun t ht r hr => ?_⟩, by unfold InRun; decide, rfl⟩
  rw [List.eq_of_mem_replicate ht] at hr; cases hr

/-- A part in a run state with a queue of points that wait on stream 1, at time 20. -/
def waiting (run : RunState) (queue : List PendingPoint) : State :=
  { inRun run with time := 20, assembler := { (inRun run).assembler with queue := queue } }

theorem witness_StopEndsOrDrains :
    (waiting .running [waitingPoint 1]).control.runState = .running ∧ (waiting .running [waitingPoint 1]).assembler.queue ≠ [] :=
  ⟨rfl, by intro h; cases h⟩

/-- A drain whose only point closes at its deadline emits the tail, which is that point, and is STOPPED. -/
theorem test_drain_ends :
    let t := after (.pointDeadlineExpiry 1) (waiting .draining [waitingPoint 1])
    t.control.runState = .stopped ∧ t.assembler.closed = 1 ∧ t.geometry.cursor = some 2 := by
  decide +kernel

/-- With a half chord of 2, the centre 1 is emitted when the sample of point 3 is placed. -/
theorem test_centre_emitted :
    let t := after (.pointDeadlineExpiry 3) (waiting .running [waitingPoint 3])
    let u := after (.pointDeadlineExpiry 2) (waiting .running [waitingPoint 2])
    t.geometry.cursor = some 2 ∧ t.geometry.newest = some 3 ∧ u.geometry.cursor = some 1 ∧ u.geometry.newest = some 2 := by decide

theorem witness_ReleaseReturnsToIdle :
    let s := inRun .stopped
    s.control.runState = .stopped ∧ s.writeBack.queue = [] ∧ s.writeBack.slot = .empty
      ∧ (∀ tag, 64 ≤ tag → s.transit.entry tag = none)
      ∧ (answering .okay).transit.entry 95 ≠ none ∧ (inRun .stopped).markStatus.settle.writeBack.slot ≠ .empty :=
  ⟨rfl, rfl, rfl, fun _ _ => rfl, by decide, by decide⟩

theorem witness_ChainageSetMapsPresentDistance :
    InRun (inRun .running) ∧ (0x017FFFFFFFFF : Word64).extractLsb' 40 8 = 0x01 ∧ (0xFF8000000000 : Word64).extractLsb' 40 8 = 0xFF :=
  ⟨by unfold InRun; decide, by decide, by decide⟩

theorem witness_ProfileSelectOverrides : InRun (inRun .armed) ∧ ((7 : Word64).extractLsb' 0 8).toNat ≤ 7 :=
  ⟨by unfold InRun; decide, by decide⟩

/-- Triggers one above and at the high-water distance, and a queue of 31 and of 32. -/
theorem witness_ActionPostQueuesOrMisses :
    let s (h n : Nat) : State :=
      { inRun .running with
        odometer := { (inRun .running).odometer with highWater := h }
        action := { ActionUnit.reset with queue := List.replicate n ⟨0, 50, 0, 1, .posted⟩ } }
    (s 99 31).control.runState = .running ∧ ActionQueueSound (s 99 31) ∧ ActionQueueSound (s 99 32)
      ∧ ((0x640501 : Word64).extractLsb' 0 8).toNat ≤ 1 ∧ 1 ≤ ((0x640501 : Word64).extractLsb' 8 8).toNat
      ∧ ((0x640501 : Word64).extractLsb' 8 8).toNat ≤ 15 ∧ ((0x640501 : Word64).extractLsb' 16 24).toNat ≤ 1048575
      ∧ (s 99 31).odometer.d / 256 + (((0x640501 : Word64).extractLsb' 16 24).toNat : Int) = 100
      ∧ (s 99 31).odometer.highWater < 100 ∧ (s 99 31).action.queue.length < 32 ∧ (s 99 32).action.queue.length = 32
      ∧ 100 ≤ (s 100 0).odometer.highWater := by
  unfold ActionQueueSound
  decide +kernel

/-- A mark request for a record at 40 mm with an offset of 60 mm: the trigger 100 against a high-water distance of 99 and of 100, and in
DRAINING. -/
theorem witness_markRequest :
    let s (run : RunState) (h n : Nat) : State :=
      { inRun run with
        odometer := { (inRun run).odometer with highWater := h }
        action :=
          { ActionUnit.reset with markOffset := 60, markGroup := 1, markPattern := 3, queue := List.replicate n ⟨0, 50, 0, 1, .posted⟩ } }
    ActionQueueSound (s .running 99 31) ∧ (100 : Int) = 40 + ((s .running 99 31).action.markOffset : Int)
      ∧ (s .running 99 31).odometer.highWater < 100 ∧ ((s .running 99 31).markRequest 40).action.queue.length = 32
      ∧ ((s .running 100 0).markRequest 40).action.missed = 1 ∧ ((s .running 99 32).markRequest 40).action.missed = 1
      ∧ ((s .draining 99 0).markRequest 40).action.missed = 1 := by
  unfold ActionQueueSound
  decide +kernel

theorem witness_ActionCancelRemovesFirst :
    let s := { inRun .stopped with action := { ActionUnit.reset with queue := [⟨3, 1, 0, 1, .mark⟩, ⟨5, 2, 0, 1, .posted⟩] } }
    s.control.runState ∈ [.running, .draining, .stopped] ∧ s.action.queue = [⟨3, 1, 0, 1, .mark⟩] ++ ⟨5, 2, 0, 1, .posted⟩ :: []
      ∧ (5 : BitVec 16) = (5 : Word64).extractLsb' 0 16 ∧ (∀ x ∈ [(⟨3, 1, 0, 1, .mark⟩ : ActionEntry)], x.id ≠ 5)
      ∧ (∀ x ∈ s.action.queue, x.id ≠ 9) ∧ (inRun .armed).control.runState ∈ [.idle, .armed] := by decide

/-- The last word of the region in IDLE and STOPPED, and the first entry in RUNNING, above the cursor and below it. -/
theorem witness_RouteWriteTakenOrRefused :
    let s (c : Nat) : State := { inRun .running with exceedance := { ExceedanceUnit.reset with cursor := c } }
    let new : Table Word64 := [(0xC08, 0x0102)]
    Settled (s 0) ∧ (Instr.routeEntryWrite 127 [0]).wellFormed = true ∧ (Instr.routeEntryWrite 1 [0x0102]).wellFormed = true
      ∧ RouteStored [] new 1 [0x0102] ∧ RouteStored [] [] 127 [0] ∧ Shadow.wf new ∧ InRun (s 0)
      ∧ ¬RouteBroken (s 0) (routeList new) ((1 + 0) / 2) ∧ RouteBroken (s 1) (routeList new) ((1 + 0) / 2) := by
  refine ⟨(by intro h; cases h), by decide, by decide, ⟨?_, ?_⟩, ⟨?_, fun _ _ => rfl⟩, by unfold Shadow.wf Table.wf; decide,
    by unfold InRun; decide, ?_, Or.inl (by decide)⟩
  · intro k w h
    match k, h with
    | 0, h => cases h; decide
  · intro off h
    have := h 0 (by decide)
    simp only [Shadow.read, Table.read]
    rw [if_neg (by omega)]
  · intro k w h
    match k, h with
    | 0, h => cases h; decide
  · have hl : routeList [(0xC08, (0x0102 : Word64))] = [⟨0, 2, true⟩] := by decide
    unfold RouteBroken
    rw [hl]
    rintro (h | ⟨e, he, h⟩)
    · cases h
    · cases he
      rcases h with h | ⟨p, h, _⟩ | ⟨n, h, _⟩
      · revert h; decide
      · cases h
      · cases h

/-- Across the wrap of the index: consumed FFFFFFFFh, write index 1; 1 is taken and 2 is refused. -/
theorem witness_ConsumedIndexTakenOrRefused :
    Settled (inRun .idle) ∧ (inRun .idle).control.runState ≠ .unanchored
      ∧ ((1 : BitVec 32) - 0xFFFFFFFF).toNat ≤ ((1 : BitVec 32) - 0xFFFFFFFF).toNat
      ∧ ((1 : BitVec 32) - 0xFFFFFFFF).toNat < ((2 : BitVec 32) - 0xFFFFFFFF).toNat :=
  ⟨(by intro h; cases h), by decide, by decide, by decide⟩

theorem witness_MaskTakenAsWritten :
    let r (off : Nat) := request .write 0x200098 1 [whole 5] (some ⟨0, off⟩)
    let s := staged (anchored .idle) (r 0xA0)
    let u := staged (anchored .idle) (r 0x98)
    Settled s ∧ s.control.runState ≠ .unanchored ∧ s.transit.base ≠ none ∧ s.transit.stage = [r 0xA0]
      ∧ (∀ w ∈ burstWords (((r 0xA0).hit.map (·.offset)).getD 0) (r 0xA0).data, regionOf w.off ≠ .mask)
      ∧ (∃ t, exec .systemHeadPresented s = .next t) ∧ u.transit.stage = [r 0x98] ∧ SystemWins u
      ∧ u.refusalOf (burstWords 0x98 (r 0x98).data) = none
      ∧ ∃ w ∈ burstWords 0x98 (r 0x98).data, regionOf w.off = .mask :=
  ⟨(by intro h; cases h), by decide, by decide, rfl, by decide, ⟨_, rfl⟩, rfl,
    systemWins_of_no_head (by intro h; cases h) rfl rfl, by decide, ⟨_, List.Mem.head _, by decide⟩⟩

theorem witness_CountsHaveNoEffectOutsideARun :
    Settled State.reset ∧ State.reset.control.runState = .unanchored ∧ Settled (inRun .idle)
      ∧ (inRun .idle).control.runState = .idle ∧ (inRun .idle).resetLow = false :=
  ⟨(by intro h; cases h), rfl, (by intro h; cases h), rfl, rfl⟩

theorem counting_inRun_running : Counting (inRun .running) := by unfold Counting; decide

/-- A part in RUNNING at distance d, with a high-water point at 10,000 mm. -/
def travelled (d : Int) (reversal : Bool) : State :=
  { inRun .running with odometer :=
      { (inRun .running).odometer with
        d := d, highWater := 10000, nextPoint := some 41, highWaterPoint := some ⟨40, 0, 10000⟩, reversal := reversal } }

/-- No event, the beginning of an excursion at just more than 1,000 mm behind, and its end at the boundary. -/
theorem witness_LeadCountMovesDistance :
    (Settled (travelled 0 true) ∧ Counting (travelled 0 true) ∧ LeadMove (travelled 0 true) true 256
        ∧ (256 : Int) / 256 ≤ (travelled 0 true).odometer.highWater ∧ (∀ k, ¬OpensPoint (travelled 0 true) 256 k)
        ∧ ¬BeginsReversal (travelled 0 true) 256)
      ∧ (LeadMove (travelled 2304000 false) false 2303744 ∧ BeginsReversal (travelled 2304000 false) 2303744)
      ∧ LeadMove (travelled 2559744 true) true 2560000 ∧ EndsReversal (travelled 2559744 true) 2560000
      ∧ NothingDue (travelled 2559744 true) 10000 := by
  refine ⟨⟨(by intro h; cases h), by unfold Counting; decide, by unfold LeadMove; decide, by decide, ?_, ?_⟩,
    ⟨by unfold LeadMove; decide, ⟨by decide, rfl, _, rfl, by decide⟩⟩, by unfold LeadMove; decide,
    ⟨by decide, _, rfl, by decide⟩, (by intro e he; cases he), fun g p h => ?_⟩
  · rintro k ⟨_, h, _, h2⟩; cases h; revert h2; decide
  · rintro ⟨_, h, _⟩; cases h
  · revert h; revert g; intro g; match g with
    | 0 => intro h; cases h
    | 1 => intro h; cases h

/-- A count that carries D exactly to the boundary of point 1. -/
theorem witness_LeadCountOpensPoint :
    let s := { inRun .running with odometer := { (inRun .running).odometer with d := 63744, highWater := 250 } }
    Settled s ∧ IntAgrees s ∧ LeadMove s true 64000 ∧ OpensPoint s 64000 1 ∧ (64000 : Int) / 256 ≤ s.odometer.highWater
      ∧ HeadWaits s.assembler.queue none ∧ s.assembler.queue.length < 8
      ∧ ∃ c ∈ s.assembler.contributing, (s.tap.stream c.stream).state ≠ .stale := by
  refine ⟨(by intro h; cases h), ⟨fun h => (by cases h), fun ⟨f, h, _⟩ => by cases f <;> cases h⟩, by unfold LeadMove; decide,
    by unfold OpensPoint; decide, by decide, fun _ _ h => (by cases h), by decide, ⟨_, List.Mem.head _, by decide⟩⟩

/-- At a queue of 8 the head is forced and closes; with the one contributing stream STALE, the point closes as it opens. -/
theorem witness_LeadCountOpensPoint_closing :
    let s := { inRun .running with
      odometer := { (inRun .running).odometer with d := 639744, highWater := 2500, nextPoint := some 10 } }
    let full := { s with assembler := { s.assembler with queue := (List.range 8).map (fun (k : Nat) => waitingPoint (k + 2)) } }
    let stale := { s with tap := { s.tap with s1 := { s.tap.s1 with state := .stale } } }
    LeadMove s true 640000 ∧ OpensPoint s 640000 10 ∧ 8 ≤ full.assembler.queue.length
      ∧ (∃ i, (waitingPoint 2).WaitsOn i)
      ∧ (after (.leadCount true) full).assembler.queue.map (·.index) = [3, 4, 5, 6, 7, 8, 9, 10]
      ∧ (after (.leadCount true) full).assembler.forced = 1 ∧ (after (.leadCount true) full).flagSet .pointForced = true
      ∧ (after (.leadCount true) stale).assembler.queue = [] ∧ (after (.leadCount true) stale).assembler.closed = 1 :=
  ⟨by unfold LeadMove; decide, by unfold OpensPoint; decide, by decide, ⟨0, _, List.Mem.head _, rfl, _, rfl⟩, by decide, by decide,
    by decide, by decide, by decide⟩

/-- An action at 1 mm, due with the first count, in an empty and in a full pulse table; the state does not end a reversal excursion, and
one behind a high-water point at 0 does. -/
theorem witness_LeadCountFiresAction :
    let e : ActionEntry := ⟨0, 1, 1, 5, .posted⟩
    let s := { inRun .stopped with action := { ActionUnit.reset with queue := [e] } }
    let u := { s with odometer := { s.odometer with highWaterPoint := some ⟨0, 0, 0⟩ } }
    Settled s ∧ Counting s ∧ HoldsSound s ∧ LeadMove s true 256 ∧ s.odometer.highWater < 256 / 256 ∧ s.action.queue = [e]
      ∧ e.trigger ≤ 256 / 256 ∧ (∀ k, ¬OpensPoint s 256 k) ∧ ¬BeginsReversal s 256 ∧ ¬EndsReversal s 256
      ∧ EndsReversal u 256 ∧ ¬BeginsReversal u 256
      ∧ (∀ g p, (s.action.periodic g).next = some p → (256 : Int) / 256 < p) ∧ LowestFreeSlot s.action 0
      ∧ TableFull { s.action with pulses := (List.range 32).map (fun k => (k, (⟨0, 1, 9⟩ : Pulse))) } := by
  refine ⟨(by intro h; cases h), by unfold Counting; decide, by unfold HoldsSound; decide, by unfold LeadMove; decide, by decide,
    rfl, by decide, ?_, ?_, ?_, ⟨by decide, _, rfl, by decide⟩, ?_, ?_, ⟨by decide, rfl, fun k h => by omega⟩,
    by unfold TableFull; decide⟩
  · rintro k ⟨h, _⟩; cases h
  · rintro ⟨_, _, p, h, _⟩; cases h
  · rintro ⟨_, p, h, _⟩; cases h
  · rintro ⟨_, _, p, h, h2⟩; cases h; revert h2; decide
  · intro g p h
    match g, h with
    | 0, h => cases h
    | 1, h => cases h

/-- A periodic trigger of 100 mm, due at its first position 100 with H = 100, moves on to 200. -/
theorem witness_PeriodicActs :
    let s := { inRun .running with
      odometer := { (inRun .running).odometer with highWater := 100 }
      action := { ActionUnit.reset with periodic1 := ⟨100, 3, 50, some 100⟩ } }
    (s.action.periodic 1).next = some 100 ∧ 100 ≤ s.odometer.highWater ∧ (s.action.periodic 1).period ≠ 0
      ∧ (s.firePeriodic 1).action.periodic1.next = some 200 ∧ (s.firePeriodic 1).action.holds = [0, 0, 0, 0, 1, 1, 0, 0] := by
  decide

/-- One count of 256 reaches a stall distance of 1 mm; a count of 255 does not. -/
theorem witness_NonLeadCountWatchesStall :
    let s := inRun .running
    Settled s ∧ Counting s ∧ countOf (s.odometer.channel s.odometer.lead.other) true = 256
      ∧ s.odometer.stallDistance * 256 ≤ (256 : Int).natAbs ∧ s.odometer.stallReported = false ∧ s.odometer.swapLock = false
      ∧ (255 : Int).natAbs < s.odometer.stallDistance * 256 :=
  ⟨(by intro h; cases h), counting_inRun_running, by decide, by decide, rfl, rfl, by decide⟩

/-- Three latches leave room; four do not. -/
theorem witness_QuadratureErrorsAndPassages :
    Settled (inRun .armed) ∧ Counting (inRun .armed) ∧ (List.replicate 3 (⟨0, 0⟩ : Latch)).length < 4
      ∧ 4 ≤ (List.replicate 4 (⟨0, 0⟩ : Latch)).length :=
  ⟨(by intro h; cases h), by unfold Counting; decide, by decide, by decide⟩

/-- A part whose line counts are all one below the filter depth. -/
def ripe : State :=
  { inRun .armed with odometer :=
      { (inRun .armed).odometer with filters := ⟨⟨false, 3⟩, ⟨false, 3⟩, ⟨false, 3⟩, ⟨false, 3⟩, ⟨false, 3⟩⟩ } }

theorem witness_SampleFiltersAndDecodes :
    Settled ripe ∧ ripe.resetLow = false
      ∧ acceptedChanges ripe.odometer ⟨false, false, false, false, false⟩ = [false, false, false, false, false]
      ∧ SampleBrings ripe.odometer ⟨true, false, false, false, false⟩ (.leadCount true)
      ∧ SampleBrings ripe.odometer ⟨false, true, false, false, false⟩ (.leadCount false)
      ∧ SampleBrings ripe.odometer ⟨false, false, true, false, false⟩ (.nonLeadCount true)
      ∧ SampleBrings ripe.odometer ⟨false, false, false, true, false⟩ (.nonLeadCount false)
      ∧ SampleBrings ripe.odometer ⟨true, true, false, false, false⟩ (.quadratureError .a)
      ∧ SampleBrings ripe.odometer ⟨false, false, true, true, false⟩ (.quadratureError .b)
      ∧ SampleBrings ripe.odometer ⟨false, false, false, false, true⟩ .markPassage := by
  refine ⟨(by intro h; cases h), rfl, by decide, ?_, ?_, ?_, ?_, ?_, ?_, ?_⟩ <;> (unfold SampleBrings; decide)

theorem waitsOn_waitingPoint (k : Int) : (waitingPoint k).WaitsOn 0 := ⟨_, List.Mem.head _, rfl, _, rfl⟩

/-- A timer that expires exactly now, one that is stopped, and a head that waits on another stream. -/
theorem witness_SilenceTimerExpires :
    let s := waiting .running [waitingPoint 1]
    Settled s ∧ Counting s ∧ Reached s 20 ∧ ¬Reached s 21 ∧ (s.tap.stream 1).timer = none ∧ s.assembler.queue ≠ []
      ∧ HeadWaits s.assembler.queue (some 1) := by
  refine ⟨(by intro h; cases h), by unfold Counting; decide, by unfold Reached; decide, by unfold Reached; decide, rfl,
    (by intro h; cases h), fun p rest h => ?_⟩
  cases h
  exact ⟨0, waitsOn_waitingPoint 1, by decide⟩

theorem witness_PointDeadlineExpires :
    let s := waiting .running [waitingPoint 1, waitingPoint 2]
    Settled s ∧ Counting s ∧ Reached s (waitingPoint 2).deadline ∧ s.assembler.queue = [waitingPoint 1] ++ waitingPoint 2 :: []
      ∧ HeadWaits [waitingPoint 1] none ∧ (∃ i, (waitingPoint 2).WaitsOn i) ∧ HeadWaits [waitingPoint 2] none
      ∧ (∀ x ∈ [waitingPoint 1] ++ ([] : List PendingPoint), x.index ≠ 2)
      ∧ (∀ first, s.geometry.firstPoint = some first → 1 - s.geometry.chord < first)
      ∧ ∀ i, ¬({ waitingPoint 2 with entries := [⟨0, .missing⟩] } : PendingPoint).WaitsOn i := by
  refine ⟨(by intro h; cases h), by unfold Counting; decide, by unfold Reached; decide, rfl, fun p rest h => ?_,
    ⟨0, waitsOn_waitingPoint 2⟩, fun p rest h => ?_, by decide, fun f h => ?_, ?_⟩
  · cases h; exact ⟨0, waitsOn_waitingPoint 1, by decide⟩
  · cases h; exact ⟨0, waitsOn_waitingPoint 2, by decide⟩
  · cases h; decide
  · rintro i ⟨e, he, _, b, hb⟩
    cases he with
    | head => cases hb
    | tail _ hm => cases hm

/-- Two slots hold line 0; the first is due now. -/
theorem witness_PulseReleased :
    let s := { inRun .stopped with
      time := 9
      action := { ActionUnit.reset with pulses := [(0, ⟨0, 1, 9⟩), (31, ⟨0, 1, 10⟩)], holds := [2, 0, 0, 0, 0, 0, 0, 0] } }
    HoldsSound s ∧ Table.read s.action.pulses (0 : Fin 32).val = some ⟨0, 1, 9⟩ ∧ Reached s 9 ∧ ¬Reached s 10
      ∧ (∃ u, exec (.pulseRelease 0) s = .next u) ∧ ∃ v, exec (.pulseRelease 31) s = .next v := by
  refine ⟨by unfold HoldsSound; decide, rfl, by unfold Reached; decide, by unfold Reached; decide, ⟨_, rfl⟩, _, rfl⟩

/-- Frames at times 10 and 30 with values 0 and −7 give trunc(−7·5 / 20) = −1 at time 15. -/
theorem witness_FilledValueIsInterpolated :
    ((30 : Time) - 15).toNat < 2 ^ 47 ∧ ((15 : Time) - 10).toNat ≤ ((30 : Time) - 10).toNat
      ∧ applyFrame ⟨30, true, [(1, -7)]⟩ 15 (.waiting (some ⟨10, [(1, 0)]⟩)) = .filled [(1, -1)] := by decide

/-- A point whose gauge, cross level and curvature are valid. -/
theorem witness_GeometryChannelsComputed :
    let x : Sample :=
      { index := 1, dmm := 250, chainage := 250, time := 0, speed := 1000, flags := ⟨false, false, false, false, false⟩
        readings := [.valid 1, .valid 2, .valid 3, .valid 4, .valid 1000001, .unmapped, .unmapped, .valid 5] }
    let g := { GeometryUnit.reset with railBase := 1 }
    Gauge g x 3 ∧ Xlevel g x 0 ∧ Curv x 5 ∧ ¬∃ y, PointOf g 0 y :=
  ⟨⟨1, 2, Or.inl rfl, Or.inl rfl, by decide⟩, ⟨1000001, 3, 4, Or.inl rfl, Or.inl rfl, Or.inl rfl, by decide⟩,
    ⟨5, Or.inl rfl, by decide, by decide⟩, fun ⟨_, h, _⟩ => by cases h⟩

/-- A value at each threshold and one above it; an open run of the profile applied, one of another, one of 4096 records; a route whose
first entry is reached and whose second is not. -/
theorem witness_RunsOpenAndExtend :
    let e : ProfileEntry := { alert := 10, limit := 20, minLength := 1, mark := true }
    let run (n : Nat) (p : BitVec 3) : OpenRun := ⟨p, 1, 250, 1, n, 1, 250, 15, false⟩
    let x (t : Tracker) : ExceedanceUnit := { ExceedanceUnit.reset with trackers := ExceedanceUnit.reset.trackers.set 7 t }
    classify e (some (-20)) = .alert ∧ classify e (some (-21)) = .limit ∧ classify e (some 10) = .none
      ∧ classify e (some 11) = .alert ∧ classify e none = .invalid ∧ ExceedanceUnit.reset.trackers.length = 8
      ∧ ExceedanceUnit.reset.trackers[7]? = some .clear ∧ (8 : Nat) - 1 < 8
      ∧ (x (.alertRun (run 4095 2))).trackers[7]? = some (.alertRun (run 4095 2)) ∧ (run 4096 2).length = 4096
      ∧ (x (.limitRun (run 4096 2))).trackers[7]? = some (.limitRun (run 4096 2)) ∧ (run 1 2).profile ≠ 3 := by decide

/-- A value limited to +2,147,483,647 under a limit of just that value: the model follows R143's table (log 29). -/
theorem test_saturated_value :
    classify ⟨0, 2147483647, 1, false⟩ (some 2147483647) = .none ∧ classify ⟨1, 2147483647, 1, false⟩ (some 2147483647) = .alert
      ∧ classify ⟨0, 2147483647, 1, false⟩ (some (-2147483648)) = .limit
      ∧ classify ⟨0, 2147483646, 1, false⟩ (some 2147483647) = .limit := by decide

/-- A record at 250 mm reaches the first of two route entries, at 250 and 251 mm. -/
theorem witness_reached :
    let shadow : Table Word64 := [(0xC00, 250), (0xC08, 0x0102), (0xC10, 251), (0xC18, 0x0103)]
    let s := { inRun .running with control := { (inRun .running).control with shadow := shadow } }
    ReachedFromCursor s 250 [⟨250, 2, true⟩] ∧ ReachedFromCursor s 249 [] := by
  have hl : routeList [(0xC00, (250 : Word64)), (0xC08, 0x0102), (0xC10, 251), (0xC18, 0x0103)]
      = [⟨250, 2, true⟩, ⟨251, 3, true⟩] := by decide
  have hd : (inRun .running).odometer.dir = .plus := rfl
  constructor
  · refine ⟨[⟨251, 3, true⟩], hl, ?_, ?_⟩
    · intro e he; cases he with
      | head => exact ⟨fun _ => by decide, fun h => by cases h⟩
      | tail _ hm => cases hm
    · intro e he hr; cases he; exact absurd (hr.1 hd) (by decide)
  · refine ⟨[⟨250, 2, true⟩, ⟨251, 3, true⟩], hl, fun e he => (by cases he), ?_⟩
    intro e he hr; cases he; exact absurd (hr.1 hd) (by decide)

/-- A full ring, a full queue, and room. -/
theorem witness_RecordProduced :
    let s := held
    Settled s ∧ s.control.runState ≠ .unanchored ∧ (Table.read s.transit.areas Ring.action.area).isSome = true
      ∧ (s.writeBack.actionRing.writeIndex - s.writeBack.actionRing.consumed).toNat ≠ s.writeBack.actionRing.capacity
      ∧ s.writeBack.queue.length ≠ 16
      ∧ ((128 : BitVec 32) - 0).toNat = s.writeBack.actionRing.capacity ∧ (0xFFFFFFFF : BitVec 32).toNat = min 0xFFFFFFFF (0xFFFFFFFF + 1) :=
  ⟨(by intro h; cases h), by decide, by decide, by decide, by decide, by decide, by decide⟩

end Sys2Proof.Machine.Tests
end

section
/-! SUPPORT. The interrupt enable mask (R31): which operations leave it alone, what a taken mask word does, and that statement settled. -/

namespace Sys2Proof.Machine

/-! ### Regions of the window -/

/-- Beyond the mask's word at 0098h stands neither a command word nor a mask word. -/
theorem regionOf_above_mask {off : Nat} (h : 0x00A0 ≤ off) : (∀ n, regionOf off ≠ .command n) ∧ regionOf off ≠ .mask := by
  unfold regionOf
  constructor
  · grind
  · grind

/-- The mask region is the word at 0098h. -/
theorem regionOf_eq_mask_iff (off : Nat) : regionOf off = .mask ↔ 0x0098 ≤ off ∧ off < 0x00A0 := by
  by_cases habove : 0x00A0 ≤ off
  · exact ⟨fun h => absurd h (regionOf_above_mask habove).2, fun h => by omega⟩
  · unfold regionOf
    grind

/-- The words of a burst stand 8 bytes or more apart, in ascending offset (R26). -/
theorem burstWords_ascending (off : Nat) (l : List Beat) :
    (burstWords off l).Pairwise (fun a b => a.off + 8 ≤ b.off) := by
  rw [List.pairwise_iff_getElem]
  intro i j hi hj hij
  simp only [burstWords, List.getElem_map, List.getElem_zipIdx]
  omega

/-! ### The mask below the control block -/

@[simp] theorem State.changeRunState_control_mask (s : State) (r : RunState) :
    (s.changeRunState r).control.mask = s.control.mask := by
  unfold State.changeRunState; simp

/-- What the level of the odometer leaves alone, as a property kept: the mask. -/
theorem keeps_mask (m : Word64) : KeepsOdometer (fun s => s.control.mask = m) where
  raise s f h := by simpa using h
  produce s q c h := by simpa using h
  action _ _ _ _ _ h := h
  enqueue _ _ _ h := h
  dequeue _ _ _ _ h := h
  occupy _ _ _ _ h := h
  exceedance _ _ _ _ h := h
  route _ _ _ h := h
  tracker _ _ _ _ h := h
  geometry _ _ _ h := h
  assembler _ _ _ h := h
  append _ _ _ _ _ _ h := h
  tap _ _ h := h
  runState s r _ _ h := by simpa using h
  markStatus s h := by simpa using h
  odometer _ _ _ h := h

@[simp] theorem State.post_control_mask (s : State) (g : Fin 2) (p : BitVec 4) (off : Nat) :
    (s.post g p off).state.control.mask = s.control.mask := (keeps_mask s.control.mask).post rfl g p off

@[simp] theorem State.completeDrain_control_mask (s : State) : s.completeDrain.control.mask = s.control.mask :=
  (keeps_mask s.control.mask).completeDrain rfl

/-- The events of one sample leave the mask alone, each an event of its own. -/
theorem State.sampleEvents_control_mask (s : State) (l : List SampleEvent) :
    (s.sampleEvents l).control.mask = s.control.mask := by
  have hone : ∀ u e, u.control.mask = s.control.mask → (State.sampleEvent u e).control.mask = s.control.mask :=
    fun _ e hu => (keeps_mask s.control.mask).sampleEffect hu e
  unfold State.sampleEvents
  split
  · exact fold_keeps (P := fun u => u.control.mask = s.control.mask) hone l rfl
  · exact fold_keeps (P := fun u => u.control.mask = s.control.mask) hone _ rfl

@[simp] theorem State.tick_control (s : State) : s.tick.control = s.control := by
  unfold State.tick; split <;> rfl

/-! ### The mask and the nine commands -/

@[simp] theorem State.complete_control_mask (s : State) (w : BitVec 4) (r : ResultCode) (d : BitVec 32) :
    (s.complete w r d).control.mask = s.control.mask := by
  unfold State.complete; simp

@[simp] theorem State.done_control_mask (s : State) (w : BitVec 4) : (s.done w).control.mask = s.control.mask :=
  s.complete_control_mask w _ _

@[simp] theorem State.refuseState_control_mask (s : State) (w : BitVec 4) : (s.refuseState w).control.mask = s.control.mask :=
  s.complete_control_mask w _ _

@[simp] theorem State.refuseArg_control_mask (s : State) (w : BitVec 4) (n : Nat) :
    (s.refuseArg w n).control.mask = s.control.mask := s.complete_control_mask w _ _

@[simp] theorem State.refuseControl_control_mask (s : State) (r : LastRefusal) :
    (s.refuseControl r).control.mask = s.control.mask := by
  unfold State.refuseControl; simp

@[simp] theorem State.commandArm_control_mask (s : State) : s.commandArm.control.mask = s.control.mask := by
  unfold State.commandArm
  split
  · split
    · simp
    · simp [State.arm]
  · simp

@[simp] theorem State.commandStart_control_mask (s : State) : s.commandStart.control.mask = s.control.mask := by
  unfold State.commandStart
  split
  · simp [State.startRun]
  · simp

@[simp] theorem State.commandStop_control_mask (s : State) : s.commandStop.control.mask = s.control.mask := by
  unfold State.commandStop
  split
  · simp
  · simp [State.stopRun]
  all_goals simp

@[simp] theorem State.commandAbort_control_mask (s : State) : s.commandAbort.control.mask = s.control.mask := by
  unfold State.commandAbort
  split <;> simp [State.abortRun]

@[simp] theorem State.commandRelease_control_mask (s : State) : s.commandRelease.control.mask = s.control.mask := by
  unfold State.commandRelease
  split
  · split
    · simp
    · simp [State.releaseRun]
  · simp

@[simp] theorem State.commandChainageSet_control_mask (s : State) (w : Word64) :
    (s.commandChainageSet w).control.mask = s.control.mask := by
  unfold State.commandChainageSet
  split
  · split <;> simp
  · simp

@[simp] theorem State.commandProfileSelect_control_mask (s : State) (w : Word64) :
    (s.commandProfileSelect w).control.mask = s.control.mask := by
  unfold State.commandProfileSelect
  split
  · split <;> simp
  · simp

@[simp] theorem State.commandActionPost_control_mask (s : State) (w : Word64) :
    (s.commandActionPost w).control.mask = s.control.mask := by
  unfold State.commandActionPost
  split
  · split <;> simp
  · simp

@[simp] theorem State.commandActionCancel_control_mask (s : State) (w : Word64) :
    (s.commandActionCancel w).control.mask = s.control.mask := by
  unfold State.commandActionCancel
  split
  · split <;> simp
  · simp

/-- No command word moves the mask. -/
theorem State.runCommand_control_mask (s : State) (n : Nat) (w : Word64) :
    (s.runCommand n w).control.mask = s.control.mask := by
  unfold State.runCommand
  split <;> simp

/-! ### The mask and the words of the window -/

/-- A taken word of another region leaves the mask alone. -/
theorem State.takeWord_control_mask (s : State) (w : ControlWord) (h : regionOf w.off ≠ .mask) :
    (s.takeWord w).control.mask = s.control.mask := by
  unfold State.takeWord
  split
  · exact s.runCommand_control_mask _ _
  · rfl
  · contradiction
  all_goals rfl

/-- A taken burst with no mask word leaves the mask alone. -/
theorem State.takeBurst_control_mask : ∀ (b : List ControlWord) (s : State), (∀ w ∈ b, regionOf w.off ≠ .mask) →
    (s.takeBurst b).control.mask = s.control.mask
  | [], _, _ => rfl
  | w :: rest, s, h =>
    (takeBurst_control_mask rest (s.takeWord w) (fun x hx => h x (List.mem_cons_of_mem _ hx))).trans
      (s.takeWord_control_mask w (h w List.mem_cons_self))

/-- A burst with no mask word, refused or taken, leaves the mask alone. -/
theorem State.offerBurst_control_mask (s : State) (b : List ControlWord) (h : ∀ w ∈ b, regionOf w.off ≠ .mask) :
    (s.offerBurst b).control.mask = s.control.mask := by
  unfold State.offerBurst
  split
  · simp
  · exact takeBurst_control_mask b s h

/-- A control write with no mask word, refused or taken, leaves the mask alone. -/
theorem State.offerControl_control_mask (s : State) (r : Request) (rest : List Request)
    (h : ∀ w ∈ r.words, regionOf w.off ≠ .mask) : (s.offerControl r rest).control.mask = s.control.mask := by
  unfold State.offerControl
  split
  · simp
  · exact takeBurst_control_mask r.words _ h

theorem State.whileAnchored_control_mask (s : State) (f : State → State) (h : (f s).control.mask = s.control.mask) :
    (s.whileAnchored f).control.mask = s.control.mask := by
  unfold State.whileAnchored
  split
  · rfl
  · exact h

/-! ### The mask and the transit and write-back units -/

theorem State.takeRequest_control_mask (s : State) (req : RequestFields) (data : List Beat) :
    (s.takeRequest req data).control.mask = s.control.mask := by
  unfold State.takeRequest
  dsimp only
  split
  · simp
  · unfold State.classifyRequest
    dsimp only
    split
    · simp
    · split <;> rfl

theorem State.offerRequest_control_mask (s : State) (w : WaitingRequest) (data : List Beat) :
    (s.offerRequest w data).control.mask = s.control.mask := by
  unfold State.offerRequest
  split
  · exact s.takeRequest_control_mask _ _
  · rfl

/-- In an anchored part the taps of a forwarded WRITE leave the mask alone: only an anchor observation would reset it. -/
theorem State.tapForwarded_control_mask (s : State) (r : Request) (hb : s.transit.base ≠ none) :
    (s.tapForwarded r).control.mask = s.control.mask := by
  unfold State.tapForwarded
  split
  · rename_i hn; exact absurd (by simpa using hn) hb
  · split
    · rfl
    · split
      · exact (keeps_mask s.control.mask).tapWrite rfl _ _ _ _
      · rfl

/-- In an anchored part the system head's presentation leaves the mask alone, unless the head holds a mask word. -/
theorem State.presentHead_control_mask (s : State) (r : Request) (rest : List Request) (hb : s.transit.base ≠ none)
    (h : ∀ w ∈ r.words, regionOf w.off ≠ .mask) : (s.presentHead r rest).control.mask = s.control.mask := by
  unfold State.presentHead
  split
  · rfl
  · split
    · exact s.offerControl_control_mask r rest h
    · exact State.tapForwarded_control_mask { s with transit := s.transit.present r rest none } r hb

theorem State.acknowledge_control_mask (s : State) (cap : Capture) : (s.acknowledge cap).control.mask = s.control.mask := by
  unfold State.acknowledge
  dsimp only
  split
  · rfl
  · rw [State.markStatus_control]; rfl

theorem State.recordAnswered_control_mask (s : State) (r : Ring) (status : BusStatus) :
    (s.recordAnswered r status).control.mask = s.control.mask := by
  cases status <;> simp [State.recordAnswered]

theorem State.statusAnswered_control_mask (s : State) (seq : BitVec 32) (status : BusStatus) :
    (s.statusAnswered seq status).control.mask = s.control.mask := by
  cases status with
  | okay =>
    exact fold_keeps (P := fun u => u.control.mask = s.control.mask)
      (fun u c hu => (u.acknowledge_control_mask c).trans hu) _ rfl
  | error => simp [State.statusAnswered]

theorem State.readAnswered_control_mask (s : State) (cap : Capture) : (s.readAnswered cap).control.mask = s.control.mask := by
  unfold State.readAnswered
  split
  · rfl
  · split
    · exact s.acknowledge_control_mask cap
    all_goals rfl

theorem State.answered_control_mask (s : State) (tag : PortTag) (e : Entry) (status : BusStatus) (data : List Word64) :
    (s.answered tag e status data).control.mask = s.control.mask := by
  unfold State.answered
  dsimp only
  split
  · exact State.recordAnswered_control_mask _ _ _
  · exact State.statusAnswered_control_mask _ _ _
  · split
    · exact State.readAnswered_control_mask _ _
    · rfl

theorem State.presentOwnHead_control_mask (s : State) (tag : Nat) (x : WriteBackHead) :
    (s.presentOwnHead tag x).control.mask = s.control.mask := by
  cases x <;> rfl

/-! ### The mask and the events -/

/-- An outcome that answers a state with the mask of s. -/
def MaskKept (s : State) (o : Host.Outcome State Fault Refusal) : Prop := ∀ t, o = .next t → t.control.mask = s.control.mask

theorem maskKept_next {s u : State} (h : u.control.mask = s.control.mask) : MaskKept s (.next u) := by
  rintro _ ⟨⟩
  exact h

/-- A control-block event that runs only in an anchored part. -/
theorem maskKept_whileAnchored {s : State} {f : State → State} (h : (f s).control.mask = s.control.mask) :
    MaskKept s (.next (s.whileAnchored f).settle) := maskKept_next (s.whileAnchored_control_mask f h)

/-- An event of the odometer that takes effect only in the counting states. -/
theorem maskKept_whileCounting (s : State) {f : State → State}
    (h : ∀ u, u.control.mask = s.control.mask → (f u).control.mask = s.control.mask) :
    MaskKept s (.next (s.whileCounting f).settle) :=
  maskKept_next ((keeps_mask s.control.mask).whileCounting rfl f h)

theorem maskKept_requestTaken (req : RequestFields) (last : Option Beat) (s : State) :
    MaskKept s (execRequestTaken req last s) := by
  unfold execRequestTaken
  split
  · split
    · exact maskKept_next rfl
    · exact maskKept_next (s.offerRequest_control_mask _ _)
  · exact maskKept_next rfl

theorem maskKept_dataBeatReceived (req : RequestFields) (b : Beat) (s : State) :
    MaskKept s (execDataBeatReceived req b s) := by
  unfold execDataBeatReceived
  split <;> exact maskKept_next rfl

theorem maskKept_routeEntryWrite (n : Nat) (l : List Word64) (s : State) : MaskKept s (execRouteEntryWrite n l s) := by
  refine maskKept_whileAnchored (s.offerBurst_control_mask _ fun w hw => ?_)
  have := burstWords_off hw
  rw [Ne, regionOf_eq_mask_iff]
  omega

theorem maskKept_consumedIndexWrite (r : Ring) (w : Word64) (s : State) : MaskKept s (execConsumedIndexWrite r w s) := by
  refine maskKept_whileAnchored (s.offerBurst_control_mask _ fun x hx => ?_)
  rw [List.mem_singleton.mp hx, regionOf_consumedOffset]
  simp

theorem maskKept_writebackHeadPresented (s : State) : MaskKept s (execWritebackHeadPresented s) := by
  unfold execWritebackHeadPresented
  split
  · split
    · exact maskKept_next (s.presentOwnHead_control_mask _ _)
    · exact maskKept_next rfl
  · exact maskKept_next rfl

theorem maskKept_memoryResponse (tag : PortTag) (status : BusStatus) (data : List Word64) (s : State) :
    MaskKept s (execMemoryResponse tag status data s) := by
  unfold execMemoryResponse
  split
  · exact maskKept_next rfl
  · split
    · exact maskKept_next rfl
    · exact maskKept_next rfl
    · exact maskKept_next rfl
    · exact maskKept_next (s.answered_control_mask _ _ _ _)

theorem maskKept_systemResponseDelivered (s : State) : MaskKept s (execSystemResponseDelivered s) := by
  unfold execSystemResponseDelivered
  split <;> exact maskKept_next rfl

theorem maskKept_silenceTimerExpiry (i : Fin 4) (s : State) : MaskKept s (execSilenceTimerExpiry i s) := by
  unfold execSilenceTimerExpiry
  dsimp only
  split
  · exact maskKept_next rfl
  · split
    · have k := keeps_mask s.control.mask
      exact maskKept_next (k.giveUpStream (k.raise _ _ (k.setStream rfl i _)) i)
    · exact maskKept_next rfl

theorem maskKept_pointDeadlineExpiry (n : Int) (s : State) : MaskKept s (execPointDeadlineExpiry n s) := by
  unfold execPointDeadlineExpiry
  split
  · exact maskKept_next rfl
  · split
    · have k := keeps_mask s.control.mask
      exact maskKept_next (k.close (k.gapPoint rfl _))
    · exact maskKept_next rfl

theorem maskKept_pulseRelease (slot : Fin 32) (s : State) : MaskKept s (execPulseRelease slot s) := by
  unfold execPulseRelease
  split
  · split <;> exact maskKept_next rfl
  · exact maskKept_next rfl

theorem maskKept_lineFilterSample (l : LineLevels) (s : State) : MaskKept s (execLineFilterSample l s) := by
  unfold execLineFilterSample
  split
  · exact maskKept_next rfl
  · refine maskKept_next ?_
    dsimp only
    rw [State.settle_control, State.tick_control]
    exact (keeps_mask s.control.mask).whileCounting (by rfl) _ (fun u hu => (u.sampleEvents_control_mask _).trans hu)

theorem maskKept_hardwareResetRelease (l : LineLevels) (s : State) : MaskKept s (execHardwareResetRelease l s) := by
  unfold execHardwareResetRelease
  split
  · exact maskKept_next (by rw [State.tick_control])
  · exact maskKept_next rfl

/-- The presentation of an anchored part's system head, when it holds no mask word. -/
theorem maskKept_systemHeadPresented {s : State} {r : Request} {rest : List Request} (hb : s.transit.base ≠ none)
    (hs : s.transit.stage = r :: rest) (h : ∀ w ∈ r.words, regionOf w.off ≠ .mask) :
    MaskKept s (execSystemHeadPresented s) := by
  unfold execSystemHeadPresented
  rw [hs]
  dsimp only
  split
  · exact maskKept_next (s.presentHead_control_mask r rest hb h)
  · exact maskKept_next rfl

/-- A control write that holds no mask word. -/
theorem maskKept_controlWrite {s : State} {r : Request} {rest : List Request} (hs : s.transit.stage = r :: rest)
    (h : ∀ w ∈ r.words, regionOf w.off ≠ .mask) : MaskKept s (execControlWrite s) := by
  unfold execControlWrite
  rw [hs]
  dsimp only
  split
  · exact maskKept_next (s.offerControl_control_mask r rest h)
  · exact maskKept_next rfl

/-- Every command but the mask's own, a hardware reset and the two that bring a control write leaves the mask alone. -/
theorem exec_maskKept (c : Instr) (s : State) (hm : ∀ w, c ≠ .interruptEnableMaskWrite w) (hr : c ≠ .hardwareReset)
    (hp : c ≠ .systemHeadPresented) (hc : c ≠ .controlWrite) : MaskKept s (exec c s) := by
  have k := keeps_mask s.control.mask
  cases c with
  | interruptEnableMaskWrite w => exact absurd rfl (hm w)
  | hardwareReset => exact absurd rfl hr
  | systemHeadPresented => exact absurd rfl hp
  | controlWrite => exact absurd rfl hc
  | requestTaken req last => exact maskKept_requestTaken req last s
  | dataBeatReceived req b => exact maskKept_dataBeatReceived req b s
  | routeEntryWrite n l => exact maskKept_routeEntryWrite n l s
  | consumedIndexWrite r w => exact maskKept_consumedIndexWrite r w s
  | arm => exact maskKept_whileAnchored s.commandArm_control_mask
  | start => exact maskKept_whileAnchored s.commandStart_control_mask
  | stop => exact maskKept_whileAnchored s.commandStop_control_mask
  | abort => exact maskKept_whileAnchored s.commandAbort_control_mask
  | release => exact maskKept_whileAnchored s.commandRelease_control_mask
  | chainageSet w => exact maskKept_whileAnchored (s.commandChainageSet_control_mask w)
  | profileSelect w => exact maskKept_whileAnchored (s.commandProfileSelect_control_mask w)
  | actionPost w => exact maskKept_whileAnchored (s.commandActionPost_control_mask w)
  | actionCancel w => exact maskKept_whileAnchored (s.commandActionCancel_control_mask w)
  | writebackHeadPresented => exact maskKept_writebackHeadPresented s
  | memoryResponse tag status data => exact maskKept_memoryResponse tag status data s
  | portReset => exact maskKept_next rfl
  | portResetRelease => exact maskKept_next rfl
  | leadCount f => exact maskKept_whileCounting s (fun _ h => k.leadCount h f)
  | nonLeadCount f => exact maskKept_whileCounting s (fun _ h => k.nonLeadCount h f)
  | quadratureError c => exact maskKept_whileCounting s (fun _ h => k.quadError h c)
  | markPassage => exact maskKept_whileCounting s (fun _ h => k.passage h)
  | silenceTimerExpiry i => exact maskKept_silenceTimerExpiry i s
  | pointDeadlineExpiry n => exact maskKept_pointDeadlineExpiry n s
  | pulseRelease slot => exact maskKept_pulseRelease slot s
  | lineFilterSample l => exact maskKept_lineFilterSample l s
  | hardwareResetRelease l => exact maskKept_hardwareResetRelease l s
  | systemResponseDelivered => exact maskKept_systemResponseDelivered s

/-! ### A taken mask word -/

/-- Bits 24–63 of the mask have no effect on INT. -/
theorem intLevel_congr {events : Table (BitVec 32)} {m m' : Word64} (h : m'.extractLsb' 0 24 = m.extractLsb' 0 24) :
    intLevel events m' = intLevel events m := by
  have hbit : ∀ k, k < 24 → m'.getLsbD k = m.getLsbD k := by
    intro k hk
    have := congrArg (fun x => x.getLsbD k) h
    simpa [hk] using this
  rw [Bool.eq_iff_iff, intLevel_iff, intLevel_iff]
  simp only [fun f : EventFlag => hbit f.bit f.bit_lt]

/-- A mask word passes every check (R27, R31). -/
theorem refusalOf_maskWord (s : State) (w : Word64) : s.refusalOf [{ off := 0x0098, beat := fullBeat w }] = none := by
  have hr : regionOf 0x0098 = .mask := rfl
  have hword : s.wordRefusal [{ off := 0x0098, beat := fullBeat w }] = none := by
    simp [State.wordRefusal, State.wordReason, fullBeat, hr]
  have hroute : s.routeRefusal [{ off := 0x0098, beat := fullBeat w }] = none := by
    simp [State.routeRefusal, ControlWord.inRoute, hr]
  simp [State.refusalOf, hword, hroute]

theorem State.takeMask_intAgrees (s : State) (w : Word64) : IntAgrees (s.takeMask w) := (intAgrees_iff _).mpr rfl

/-- What a mask word does in an anchored part between events. -/
theorem exec_interruptEnableMaskWrite {s : State} (hs : Settled s) (ha : s.control.runState ≠ .unanchored) (w : Word64) :
    exec (.interruptEnableMaskWrite w) s = .next (s.takeMask w) := by
  change Host.Outcome.next (s.whileAnchored fun s => s.offerBurst [{ off := 0x0098, beat := fullBeat w }]).settle = _
  have hoffer : s.offerBurst [{ off := 0x0098, beat := fullBeat w }] = s.takeMask w := by
    unfold State.offerBurst
    rw [refusalOf_maskWord]
    rfl
  have hsettled : Settled (s.takeMask w) := hs
  unfold State.whileAnchored
  rw [if_neg ha]
  dsimp only
  rw [hoffer, settle_of_settled hsettled]

/-! ### A control write with a mask word -/

/-- A taken word beyond the mask's moves at most the shadow of the control block. -/
theorem State.takeWord_control_of_above {s : State} {w : ControlWord} (h : 0x00A0 ≤ w.off) :
    (s.takeWord w).control = { s.control with shadow := (s.takeWord w).control.shadow } := by
  obtain ⟨hcommand, hmask⟩ := regionOf_above_mask h
  unfold State.takeWord
  split
  · rename_i n hn; exact absurd hn (hcommand n)
  · rfl
  · contradiction
  all_goals rfl

/-- The mask is m and INT is evaluated from it. -/
def MaskInForce (m : Word64) (s : State) : Prop := s.control.mask = m ∧ IntAgrees s

theorem maskInForce_takeMask (s : State) (m : Word64) : MaskInForce m (s.takeMask m) := ⟨rfl, s.takeMask_intAgrees m⟩

theorem maskInForce_takeWord {m : Word64} {s : State} {w : ControlWord} (h : MaskInForce m s) (ho : 0x00A0 ≤ w.off) :
    MaskInForce m (s.takeWord w) := by
  obtain ⟨hm, hi⟩ := h
  have hc := State.takeWord_control_of_above (s := s) ho
  refine ⟨by rw [hc]; exact hm, ?_⟩
  rw [intAgrees_iff] at hi ⊢
  rw [hc]
  exact hi

theorem maskInForce_takeBurst {m : Word64} : ∀ (b : List ControlWord) (s : State), MaskInForce m s →
    (∀ w ∈ b, 0x00A0 ≤ w.off) → MaskInForce m (s.takeBurst b)
  | [], _, h, _ => h
  | w :: rest, s, h, hb =>
    maskInForce_takeBurst rest (s.takeWord w) (maskInForce_takeWord h (hb w List.mem_cons_self))
      (fun x hx => hb x (List.mem_cons_of_mem _ hx))

/-- A taken burst with a mask word leaves that word in force: the words behind it stand beyond it. -/
theorem maskInForce_of_mem {off : Nat} {l : List Beat} {w : ControlWord} (s : State) (hw : w ∈ burstWords off l)
    (hm : regionOf w.off = .mask) : MaskInForce w.beat.data (s.takeBurst (burstWords off l)) := by
  obtain ⟨before, behind, hsplit⟩ := List.append_of_mem hw
  have hasc := burstWords_ascending off l
  rw [hsplit, List.pairwise_append, List.pairwise_cons] at hasc
  obtain ⟨_, ⟨hbehind, _⟩, _⟩ := hasc
  have hat := (regionOf_eq_mask_iff w.off).mp hm
  have htake : (s.takeBurst before).takeWord w = (s.takeBurst before).takeMask w.beat.data := by
    unfold State.takeWord
    rw [hm]
  have hfold : s.takeBurst (burstWords off l) = ((s.takeBurst before).takeWord w).takeBurst behind := by
    rw [hsplit]
    exact List.foldl_append
  rw [hfold, htake]
  exact maskInForce_takeBurst behind _ (maskInForce_takeMask _ _) (fun x hx => by have := hbehind x hx; omega)

/-- What a taken control write does at the port, by either of its commands (R13, R26). -/
theorem exec_controlWrite_taken {s : State} {r : Request} {rest : List Request} {off : Nat}
    (hs : s.transit.stage = r :: rest) (hwin : SystemWins s) (hk : r.kind = .write)
    (hh : r.hit = some { area := 0, offset := off }) (hr : s.refusalOf (burstWords off r.data) = none) :
    let t := ({ s with transit := s.transit.present r rest none }.takeBurst (burstWords off r.data)).settle
    exec .controlWrite s = .next t ∧ exec .systemHeadPresented s = .next t := by
  have hcontrol : r.isControl = true := by simp [Request.isControl, hk, hh]
  have hwords : r.words = burstWords off r.data := by simp [Request.words, hh]
  have hgrant : s.grant = .system := grant_system_iff.mpr hwin
  have hoffer : s.offerControl r rest
      = { s with transit := s.transit.present r rest none }.takeBurst (burstWords off r.data) := by
    unfold State.offerControl
    rw [hwords, hr]
  have hpresent : s.presentHead r rest = s.offerControl r rest := by
    unfold State.presentHead
    rw [hk]
    exact if_pos hcontrol
  constructor
  · change execControlWrite s = _
    simp [execControlWrite, hs, hcontrol, hgrant, hoffer]
  · change execSystemHeadPresented s = _
    simp [execSystemHeadPresented, hs, hgrant, hpresent, hoffer]

/-- Settles O46: the mask word is taken by `exec_interruptEnableMaskWrite`, `exec_maskKept` shows that other commands leave the mask
alone, and a control write leaves its own mask word in force by `maskInForce_of_mem`. -/
theorem maskTakenAsWritten : Obligations.MaskTakenAsWritten := by
  unfold Obligations.MaskTakenAsWritten
  refine ⟨fun w s hs ha => ?_, fun c s t hm hr hp hc he => exec_maskKept c s hm hr hp hc t he, ?_, ?_, ?_⟩
  · refine ⟨s.takeMask w, exec_interruptEnableMaskWrite hs ha w, rfl, s.takeMask_intAgrees w, fun w' t' hw he => ?_⟩
    rw [exec_interruptEnableMaskWrite hs ha w'] at he
    cases he
    exact intLevel_congr hw
  · rintro c r rest s t (rfl | rfl) hb hs hw he
    · exact maskKept_systemHeadPresented hb hs hw t he
    · exact maskKept_controlWrite hs hw t he
  · intro r rest off w s _ hs hwin hk hh hr hw hm
    obtain ⟨hwrite, hhead⟩ := exec_controlWrite_taken hs hwin hk hh hr
    obtain ⟨hmask, hint⟩ := maskInForce_of_mem { s with transit := s.transit.present r rest none } hw hm
    exact ⟨_, hwrite, hhead, hmask, hint⟩
  · rintro s _ ⟨⟩
    rfl

end Sys2Proof.Machine
end

section
/-! SUPPORT. The value of a filled entry (R106): the truncated quotient of the interpolation, the values it gives at the two frames and
between them, and that statement settled. -/

namespace Sys2Proof.Machine

/-! ### The truncated quotient -/

/-- A part n of m of a magnitude, truncated, does not exceed the magnitude. -/
theorem tdiv_part_of_nat (k : Nat) {n m : Nat} (h : n ≤ m) :
    0 ≤ ((k : Int) * n).tdiv m ∧ ((k : Int) * n).tdiv m ≤ k := by
  have hquot : ((k : Int) * n).tdiv m = ((k * n / m : Nat) : Int) := by
    rw [← Int.natCast_mul, ← Int.ofNat_tdiv]
  have hle : k * n / m ≤ k := Nat.div_le_of_le_mul (by rw [Nat.mul_comm m k]; exact Nat.mul_le_mul_left k h)
  rw [hquot]
  exact ⟨Int.natCast_nonneg _, Int.ofNat_le.mpr hle⟩

/-- A part n of m of a difference, truncated toward zero, lies between 0 and the difference. -/
theorem tdiv_part_between (d : Int) {n m : Nat} (h : n ≤ m) :
    min 0 d ≤ (d * n).tdiv m ∧ (d * n).tdiv m ≤ max 0 d := by
  obtain ⟨k, rfl | rfl⟩ := d.eq_nat_or_neg
  · have hk := tdiv_part_of_nat k h
    omega
  · have hk := tdiv_part_of_nat k h
    rw [Int.neg_mul, Int.neg_tdiv]
    omega

/-! ### Interpolation (R106) -/

/-- Frames at one time give the later value. -/
theorem interpolate_sameTime (v0 v1 : Int) (t tk : Time) : interpolate v0 t v1 t tk = v1 := if_pos rfl

/-- Frames at two times give the formula of R106. -/
theorem interpolate_apart (v0 v1 : Int) {t0 t1 : Time} (tk : Time) (h : t1 ≠ t0) :
    interpolate v0 t0 v1 t1 tk = v0 + ((v1 - v0) * ((tk - t0).toNat : Int)).tdiv ((t1 - t0).toNat : Int) := if_neg h

/-- A before-frame at the crossing time gives its own value. -/
theorem interpolate_at_before (v0 v1 : Int) {t0 t1 : Time} (h : t1 ≠ t0) : interpolate v0 t0 v1 t1 t0 = v0 := by
  simp [interpolate_apart v0 v1 t0 h]

/-- A filling frame at the crossing time gives its own value. -/
theorem interpolate_at_filling (v0 v1 : Int) (t0 t1 : Time) : interpolate v0 t0 v1 t1 t1 = v1 := by
  by_cases h : t1 = t0
  · rw [h, interpolate_sameTime]
  · have hspan : ((t1 - t0).toNat : Int) ≠ 0 := by bv_omega
    rw [interpolate_apart v0 v1 t1 h, Int.mul_tdiv_cancel _ hspan]
    omega

/-- A crossing time between the two frames gives a value between theirs. -/
theorem interpolate_between (v0 v1 : Int) {t0 t1 tk : Time} (h : (tk - t0).toNat ≤ (t1 - t0).toNat) :
    min v0 v1 ≤ interpolate v0 t0 v1 t1 tk ∧ interpolate v0 t0 v1 t1 tk ≤ max v0 v1 := by
  by_cases ht : t1 = t0
  · rw [ht, interpolate_sameTime]
    omega
  · have hpart := tdiv_part_between (v1 - v0) h
    rw [interpolate_apart v0 v1 tk ht]
    omega

/-! ### The filled entry (R105) -/

/-- An entry with no before-frame takes the filling frame's value. -/
theorem filledValue_noBefore (tk t1 : Time) (q : Nat) (v1 : Int) : filledValue none tk t1 q v1 = v1 := rfl

/-- A quantity that the before-frame holds is interpolated. -/
theorem filledValue_before {b : BeforeFrame} {q : Nat} {v0 : Int} (h : Table.read b.values q = some v0) (tk t1 : Time) (v1 : Int) :
    filledValue (some b) tk t1 q v1 = interpolate v0 b.time v1 t1 tk := by
  simp [filledValue, h]

/-- The values that a filling frame gives an entry. -/
def filledValues (f : Frame) (tk : Time) (before : Option BeforeFrame) : Table Int :=
  f.values.map (fun e => (e.1, filledValue before tk f.time e.1 e.2))

/-- A healthy frame at or above the crossing time fills a waiting entry. -/
theorem applyFrame_fills {f : Frame} {tk : Time} (before : Option BeforeFrame) (hh : f.healthy = true)
    (ht : (f.time - tk).toNat < 2 ^ 47) : applyFrame f tk (.waiting before) = .filled (filledValues f tk before) := by
  have habove : timeAtOrAbove f.time tk = true := by simpa [timeAtOrAbove] using ht
  simp [applyFrame, applyHealthy, filledValues, hh, habove]

/-- A filled entry holds the quantities of the filling frame. -/
theorem filledValues_keys (f : Frame) (tk : Time) (before : Option BeforeFrame) :
    (filledValues f tk before).map (·.1) = f.values.map (·.1) := by
  simp [filledValues]

/-- A filled entry reads at each quantity of the filling frame as its filled value. -/
theorem read_filledValues {f : Frame} {q : Nat} {v1 : Int} (h : Table.read f.values q = some v1) (tk : Time)
    (before : Option BeforeFrame) : Table.read (filledValues f tk before) q = some (filledValue before tk f.time q v1) := by
  rw [filledValues, Table.read_map f.values (filledValue before tk f.time) q, h, Option.map_some]

/-- Settles O57: `applyFrame_fills` names the filled entry, and the lemmas about `interpolate` give each property of its values. -/
theorem filledValueIsInterpolated : Obligations.FilledValueIsInterpolated := by
  unfold Obligations.FilledValueIsInterpolated
  intro f tk before hh ht
  refine ⟨filledValues f tk before, applyFrame_fills before hh ht, filledValues_keys f tk before, fun q v1 hv1 => ?_⟩
  refine ⟨filledValue before tk f.time q v1, read_filledValues hv1 tk before, ?_, ?_⟩
  · rintro rfl
    exact filledValue_noBefore tk f.time q v1
  · rintro b v0 rfl hv0
    rw [filledValue_before hv0]
    refine ⟨?_, interpolate_apart v0 v1 tk, ?_, ?_, interpolate_between v0 v1⟩
    · intro h
      rw [h, interpolate_sameTime]
    · rintro rfl hne
      exact interpolate_at_before v0 v1 hne
    · rintro rfl
      exact interpolate_at_filling v0 v1 b.time f.time

end Sys2Proof.Machine
end
section
/-! SUPPORT. The channels of a geometry record (R126–R136): each reader of the ring and each channel answers just the value the spec
states, and the statement about the whole record settled. -/

namespace Sys2Proof.Machine

/-! ### What a channel reads (R122, R127) -/

/-- A quantity reads as a value just when that value counts as valid (R127). -/
theorem Sample.quantity_eq_some_iff (x : Sample) (code : Nat) (v : Int) : x.quantity code = some v ↔ Valid x code v := by
  unfold Sample.quantity Valid
  rw [List.getD_eq_getElem?_getD]
  rcases x.readings[code - 1]? with _ | (w | _ | _)
  · simp
  · simp
  · simp
  · by_cases h : code = 6 ∨ code = 7
    · simp [h, eq_comm]
    · simp [h]

/-- The history ring answers for an index just the sample of that point of the run (R122). -/
theorem GeometryUnit.pointAt_eq_some_iff (g : GeometryUnit) (j : Int) (y : Sample) : g.pointAt j = some y ↔ PointOf g j y := by
  unfold GeometryUnit.pointAt PointOf ringPosition
  cases Table.read g.ring (j % 256).toNat with
  | none => simp
  | some z =>
    by_cases hz : z.index = j
    · grind
    · grind

/-- An index with no sample lies outside the run. -/
theorem GeometryUnit.pointAt_eq_none_iff (g : GeometryUnit) (j : Int) : g.pointAt j = none ↔ ¬∃ y, PointOf g j y := by
  simp only [← g.pointAt_eq_some_iff, Option.eq_none_iff_forall_ne_some, not_exists, ne_eq]

/-! ### The channels and series (R128–R134) -/

theorem GeometryUnit.gauge_eq_some_iff (g : GeometryUnit) (x : Sample) (v : Int) : g.gauge x = some v ↔ Gauge g x v := by
  simp only [GeometryUnit.gauge, Gauge, ← Sample.quantity_eq_some_iff]
  split
  next latL latR hL hR => simp [hL, hR, eq_comm]
  next hmissing => grind

theorem GeometryUnit.xlevel_eq_some_iff (g : GeometryUnit) (x : Sample) (v : Int) : g.xlevel x = some v ↔ Xlevel g x v := by
  simp only [GeometryUnit.xlevel, Xlevel, ← Sample.quantity_eq_some_iff]
  split
  next roll vrtL vrtR hroll hL hR => simp [hroll, hL, hR, eq_comm]
  next hmissing => grind

theorem sumSeries_eq_some_iff (q1 q2 : Nat) (x : Sample) (v : Int) : sumSeries q1 q2 x = some v ↔ SumOf q1 q2 x v := by
  simp only [sumSeries, SumOf, ← Sample.quantity_eq_some_iff]
  split
  next a b ha hb => simp [ha, hb, eq_comm]
  next hmissing => grind

theorem diffSeries_eq_some_iff (q1 q2 : Nat) (x : Sample) (v : Int) : diffSeries q1 q2 x = some v ↔ DiffOf q1 q2 x v := by
  simp only [diffSeries, DiffOf, ← Sample.quantity_eq_some_iff]
  split
  next a b ha hb => simp [ha, hb, eq_comm]
  next hmissing => grind

/-- A curvature is computed just from a valid yaw rate at 1,000 mm/s or more (R131). -/
theorem curvature_eq_some_iff (x : Sample) (v : Int) : curvature x = some v ↔ Curv x v := by
  simp only [curvature, Curv, ← Sample.quantity_eq_some_iff]
  cases x.quantity 8 with
  | none => simp
  | some yaw =>
    by_cases hslow : x.speed < 1000
    · simp only [hslow, Nat.not_le_of_lt hslow, if_true, reduceCtorEq, false_and, and_false, exists_false]
    · simp only [hslow, Nat.le_of_not_lt hslow, if_false, true_and, Option.some.injEq, exists_eq_left', eq_comm]

/-- A twist is computed just from the exact cross levels at the centre and at the twist point (R130). -/
theorem GeometryUnit.twistAt_value_iff (g : GeometryUnit) (x : Sample) (v : Int) :
    (g.twistAt x).value = some v ↔ Twist g x v := by
  simp only [GeometryUnit.twistAt, Twist, ← g.pointAt_eq_some_iff, ← g.xlevel_eq_some_iff]
  cases g.pointAt (x.index - g.twist) with
  | none => simp
  | some y =>
    cases g.xlevel x with
    | none => simp
    | some here => cases hy : g.xlevel y <;> simp [hy, eq_comm]

/-- A mid-chord offset is computed just from the series at the centre and at both ends of the chord (R132). -/
theorem GeometryUnit.chordAt_value_iff (g : GeometryUnit) {series : Sample → Option Int} {Series : Sample → Int → Prop}
    (hs : ∀ y v, series y = some v ↔ Series y v) (x : Sample) (v : Int) :
    (g.chordAt series x).value = some v ↔ Chord g Series x v := by
  simp only [GeometryUnit.chordAt, Chord, ← g.pointAt_eq_some_iff, ← hs]
  cases g.pointAt (x.index - g.chord) with
  | none => simp
  | some y =>
    cases g.pointAt (x.index + g.chord) with
    | none => simp
    | some z =>
      cases hy : series y with
      | none => simp [hy]
      | some back =>
        cases series x with
        | none => simp
        | some here => cases hz : series z <;> simp [hy, hz, eq_comm]

/-! ### EDGE (R135, R136) -/

theorem GeometryUnit.twistAt_edge_iff (g : GeometryUnit) (x : Sample) :
    (g.twistAt x).edge = true ↔ ¬∃ y, PointOf g (x.index - g.twist) y := by
  rw [← g.pointAt_eq_none_iff, GeometryUnit.twistAt]
  cases g.pointAt (x.index - g.twist) with
  | none => simp
  | some y => dsimp only; split <;> simp

/-- A chord channel carries EDGE whatever its series, just when an end of the chord lies outside the run. -/
theorem GeometryUnit.chordAt_edge_iff (g : GeometryUnit) (series : Sample → Option Int) (x : Sample) :
    (g.chordAt series x).edge = true ↔
      (¬∃ y, PointOf g (x.index - g.chord) y) ∨ ¬∃ y, PointOf g (x.index + g.chord) y := by
  rw [← g.pointAt_eq_none_iff, ← g.pointAt_eq_none_iff, GeometryUnit.chordAt]
  cases g.pointAt (x.index - g.chord) with
  | none => simp
  | some y =>
    cases g.pointAt (x.index + g.chord) with
    | none => simp
    | some z => dsimp only; split <;> simp

theorem GeometryUnit.record_edge_iff (g : GeometryUnit) (x : Sample) :
    (g.record x).edge = true ↔
      (¬∃ y, PointOf g (x.index - g.twist) y) ∨ (¬∃ y, PointOf g (x.index - g.chord) y)
        ∨ ¬∃ y, PointOf g (x.index + g.chord) y := by
  simp only [GeometryUnit.record, GeometryUnit.channels, Computed.atCentre, List.any_cons, List.any_nil, Bool.or_eq_true,
    Bool.false_eq_true, false_or, or_false, g.twistAt_edge_iff, g.chordAt_edge_iff, or_self]

/-! ### The record (R126, R137) -/

/-- The limit to signed 32 bits takes the nearer bound. -/
theorem channelLimit_eq (v : Int) : channelLimit v = max (-2147483648) (min 2147483647 v) := by
  unfold channelLimit limitTo
  split
  · omega
  · split <;> omega

/-- A channel of a record is as stated when the value computed for it is. -/
theorem GeometryUnit.record_channelIs {g : GeometryUnit} {x : Sample} {ch : Nat} {c : Computed} {P : Int → Prop}
    (hc : (g.channels x)[ch]? = some c) (hv : ∀ v, c.value = some v ↔ P v) : ChannelIs (g.record x) ch P := by
  have hchannel : (g.record x).channels[ch]? = some (c.value.map channelLimit) := by
    simp [GeometryUnit.record, hc]
  constructor
  · intro v hP
    rw [hchannel, (hv v).mpr hP, Option.map_some, channelLimit_eq]
  · intro hnone
    have hvalue : c.value = none := Option.eq_none_iff_forall_ne_some.mpr fun v h => hnone ⟨v, (hv v).mp h⟩
    rw [hchannel, hvalue, Option.map_none]

/-- Settles O58: `record_channelIs` carries each channel's own lemma to the record, and `record_edge_iff` gives EDGE. -/
theorem geometryChannelsComputed : Obligations.GeometryChannelsComputed := by
  unfold Obligations.GeometryChannelsComputed
  intro g x
  have chord {ch : Nat} {series : Sample → Option Int} {Series : Sample → Int → Prop}
      (hc : (g.channels x)[ch]? = some (g.chordAt series x)) (hs : ∀ y v, series y = some v ↔ Series y v) :
      ChannelIs (g.record x) ch (Chord g Series x) :=
    GeometryUnit.record_channelIs hc (g.chordAt_value_iff hs x)
  exact ⟨GeometryUnit.record_channelIs rfl (g.gauge_eq_some_iff x), GeometryUnit.record_channelIs rfl (g.xlevel_eq_some_iff x),
    GeometryUnit.record_channelIs rfl (g.twistAt_value_iff x), chord rfl (sumSeries_eq_some_iff 7 3),
    chord rfl (sumSeries_eq_some_iff 7 4), chord rfl (sumSeries_eq_some_iff 6 1), chord rfl (diffSeries_eq_some_iff 6 2),
    GeometryUnit.record_channelIs rfl (curvature_eq_some_iff x), rfl, g.record_edge_iff x, rfl, rfl, rfl, rfl, rfl, rfl, rfl⟩

end Sys2Proof.Machine
end

section
/-! SUPPORT. The production of a record (R184): the write-back unit at the end of an event, the three branches of a production, and the
statement about the fate of a record settled. -/

namespace Sys2Proof.Machine

/-! ### The slot at the end of an event (R187) -/

/-- A pending status write takes its place at the end of the event that made it pending. -/
theorem WriteBack.settle_markStatus (w : WriteBack) :
    w.markStatus.settle = { w with slot := w.slot.afterMark w.queue.length } := by
  unfold WriteBack.settle WriteBack.markStatus
  cases hslot : w.slot <;> rfl

/-- An event of an anchored part that only makes a status write pending. -/
theorem State.settle_markStatus (s : State) (ha : s.control.runState ≠ .unanchored) :
    s.markStatus.settle =
      { s with writeBack := { s.writeBack with slot := s.writeBack.slot.afterMark s.writeBack.queue.length } } := by
  rw [s.markStatus_anchored ha, ← WriteBack.settle_markStatus]
  rfl

/-- An event of an anchored part that raises one flag. -/
theorem State.settle_raise (s : State) (f : EventFlag) (ha : s.control.runState ≠ .unanchored) :
    (s.raise f).settle =
      { s with
        control := s.control.raise f
        writeBack := { s.writeBack with slot := s.writeBack.slot.afterMark s.writeBack.queue.length } } := by
  rw [s.raise_anchored f ha, ← WriteBack.settle_markStatus]
  rfl

/-! ### A dropped record -/

/-- The model's lost count after a drop is the only one that counts the drop. -/
theorem WriteBack.lose_eq {w : WriteBack} {r : Ring} {lost : BitVec 32}
    (hl : lost.toNat = min 0xFFFFFFFF ((w.ring r).lost.toNat + 1)) :
    w.lose r = w.setRing r { w.ring r with lost := lost } := by
  have hlost : satAdd (w.ring r).lost 1 = lost := BitVec.eq_of_toNat_eq ((satAdd_toNat _).trans hl.symm)
  rw [WriteBack.lose, hlost]

/-- The event that drops a record of ring r and raises a flag over it. -/
theorem State.drop_settle {s : State} {r : Ring} {lost : BitVec 32} (f : EventFlag) (ha : s.control.runState ≠ .unanchored)
    (hl : lost.toNat = min 0xFFFFFFFF ((s.writeBack.ring r).lost.toNat + 1)) :
    let t := ({ s with writeBack := s.writeBack.lose r }.raise f).settle
    t = { s with
          control := t.control
          writeBack := { s.writeBack.setRing r { s.writeBack.ring r with lost := lost } with slot := t.writeBack.slot } }
      ∧ ControlEventsOnly s t ∧ Publishes s t [f] := by
  intro t
  have ht : t = _ := State.settle_raise { s with writeBack := s.writeBack.lose r } f ha
  refine ⟨?_, ?_, ?_⟩
  · rw [ht, WriteBack.lose_eq hl]
  · rw [ht]; rfl
  · exact (Marked.first s { s with writeBack := s.writeBack.lose r } f ha rfl rfl (s.writeBack.setRing_slot r _)).settle

/-! ### The branches of a production (R184) -/

/-- A production at a full ring or a full queue drops the record; a full ring is tested first. -/
theorem State.produce_dropped {s : State} {r : Ring} (content : List Word64)
    (hdrop : (s.writeBack.ring r).held = (s.writeBack.ring r).capacity ∨ s.writeBack.queue.length = 16) :
    ∃ f, s.produce r content = { s with writeBack := s.writeBack.lose r }.raise f
      ∧ ((s.writeBack.ring r).held = (s.writeBack.ring r).capacity → f = .ringFull)
      ∧ ((s.writeBack.ring r).held ≠ (s.writeBack.ring r).capacity → f = .writebackLag) := by
  by_cases hfull : (s.writeBack.ring r).held = (s.writeBack.ring r).capacity
  · exact ⟨.ringFull, by rw [State.produce, if_pos hfull], fun _ => rfl, absurd hfull⟩
  · have hlag : s.writeBack.queue.length = 16 := hdrop.resolve_left hfull
    exact ⟨.writebackLag, by rw [State.produce, if_neg hfull, if_pos hlag], fun h => absurd h hfull, fun _ => rfl⟩

/-- A production with room in the ring and in the queue places the record. -/
theorem State.produce_placed {s : State} {r : Ring} (content : List Word64)
    (hroom : (s.writeBack.ring r).held ≠ (s.writeBack.ring r).capacity) (hqueue : s.writeBack.queue.length ≠ 16) :
    s.produce r content =
      { s with writeBack := s.writeBack.place r (s.transit.areaBase r.area) content }.markStatus := by
  rw [State.produce, if_neg hroom, if_neg hqueue]

/-! ### A placed record -/

/-- The base of a mapped area. -/
theorem Transit.areaBase_of_read {t : Transit} {n : Nat} {area : Area} (h : Table.read t.areas n = some area) :
    t.areaBase n = area.base := by
  rw [Transit.areaBase, h]
  rfl

/-- The entry that a placed record becomes in the queue. -/
def WriteBack.newEntry (w : WriteBack) (r : Ring) (base : Addr) (content : List Word64) : QueuedRecord :=
  { ring := r, index := (w.ring r).writeIndex, addr := slotAddr base r (w.ring r).capacity (w.ring r).writeIndex
    beats := r.recordBytes / 8, content := content }

/-- Placing a record moves the ring's write index and the queue's tail. -/
theorem WriteBack.place_eq (w : WriteBack) (r : Ring) (base : Addr) (content : List Word64) :
    w.place r base content =
      { w.setRing r { w.ring r with writeIndex := (w.ring r).writeIndex + 1 } with
        queue := w.queue ++ [w.newEntry r base content] } := rfl

/-- The event that places a record of ring r: a status write is pending behind it. -/
theorem State.place_settle {s : State} (r : Ring) (base : Addr) (content : List Word64) (ha : s.control.runState ≠ .unanchored) :
    { s with writeBack := s.writeBack.place r base content }.markStatus.settle =
      { s with
        writeBack :=
          { s.writeBack.setRing r { s.writeBack.ring r with writeIndex := (s.writeBack.ring r).writeIndex + 1 } with
            queue := s.writeBack.queue ++ [s.writeBack.newEntry r base content]
            slot := s.writeBack.slot.afterMark (s.writeBack.queue.length + 1) } } := by
  rw [State.settle_markStatus { s with writeBack := s.writeBack.place r base content } ha, WriteBack.place_eq]
  simp only [WriteBack.setRing_slot, List.length_append, List.length_cons, List.length_nil, Nat.zero_add]

/-! ### The records a ring holds (R184) -/

/-- One more record fits a ring that is not full. -/
theorem RingState.held_advance_le {x : RingState} (hle : x.held ≤ x.capacity) (hroom : x.held ≠ x.capacity) :
    ({ x with writeIndex := x.writeIndex + 1 } : RingState).held ≤ x.capacity := by
  unfold RingState.held at *
  bv_omega

/-- A change of the queue or of the status slot leaves every ring. -/
@[simp] theorem WriteBack.ring_with_queue_slot (w : WriteBack) (r : Ring) (q : List QueuedRecord) (slot : StatusSlot) :
    ({ w with queue := q, slot := slot } : WriteBack).ring r = w.ring r := by
  cases r <;> rfl

/-- Settles O60, by the branch that the production takes. -/
theorem recordProduced : Obligations.RecordProduced := by
  unfold Obligations.RecordProduced
  intro r content area lost x s t _ ha harea hx hl ht
  subst hx
  by_cases hdrop : (s.writeBack.ring r).held = (s.writeBack.ring r).capacity ∨ s.writeBack.queue.length = 16
  case pos =>
    obtain ⟨f, hproduce, hfull, hlag⟩ := State.produce_dropped content hdrop
    obtain ⟨hstate, hevents, hflag⟩ := State.drop_settle f ha hl
    rw [← hproduce, ← ht] at hstate hevents hflag
    refine ⟨fun _ => ⟨hstate, hevents, fun h => hfull h ▸ hflag, fun h => hlag h ▸ hflag⟩,
      fun hroom hqueue => absurd hdrop (not_or_intro hroom hqueue), fun hle => ?_⟩
    rw [hstate, WriteBack.ring_with_queue_slot, WriteBack.ring_setRing]
    exact hle
  case neg =>
    obtain ⟨hroom, hqueue⟩ := not_or.mp hdrop
    rw [State.produce_placed content hroom hqueue, Transit.areaBase_of_read harea, State.place_settle r area.base content ha] at ht
    refine ⟨fun h => absurd h hdrop, fun _ _ => ?_, fun hle => ?_⟩
    · refine ⟨s.writeBack.newEntry r area.base content, by rw [ht], by rw [ht], rfl, rfl, rfl, rfl, ?_⟩
      cases r <;> rfl
    · rw [ht, WriteBack.ring_with_queue_slot, WriteBack.ring_setRing]
      exact RingState.held_advance_le hle hroom

end Sys2Proof.Machine
end

section
/-! SUPPORT. Invariants of one block: a property of the control block alone, or of the transit unit alone, is kept by every command when the
few updates of that block keep it. INT follows the flags. -/

namespace Sys2Proof.Machine

/-! ### Properties of the control block -/

theorem State.raise_control_of {Q : Control → Prop} (hraise : ∀ c f, Q c → Q (c.raise f)) {s : State} (f : EventFlag)
    (h : Q s.control) : Q (s.raise f).control := by
  unfold State.raise
  split
  · exact h
  · exact hraise _ f h

/-- A production touches the control block by a raise at most. -/
theorem State.produce_control_of {Q : Control → Prop} (hraise : ∀ c f, Q c → Q (c.raise f)) {s : State} (r : Ring)
    (content : List Word64) (h : Q s.control) : Q (s.produce r content).control := by
  unfold State.produce
  split
  · exact State.raise_control_of hraise _ h
  · split
    · exact State.raise_control_of hraise _ h
    · rw [State.markStatus_control]; exact h

/-- A word of a burst at the control block, for a property that its consumed indices and its presentation keep. -/
theorem KeepsCommands.controlWrite_of_present {P : State → Prop} (k : KeepsCommands P)
    (hpresent : ∀ s (r : Request) rest cap, s.transit.stage = r :: rest → P s → P { s with transit := s.transit.present r rest cap })
    (hconsumed : ∀ s r w, P s → P (s.takeConsumed r w)) {s : State} {r : Request} {rest : List Request}
    (hs : s.transit.stage = r :: rest) (h : P s) :
    P ({ s with transit := s.transit.present r rest none }.takeBurst r.words) :=
  k.takeBurst hconsumed _ (hpresent s r rest none hs h)

/-- A property of the control block is kept by every command when its own updates keep it. -/
theorem Keeps.ofControl {Q : Control → Prop} (hraise : ∀ c f, Q c → Q (c.raise f))
    (hrun : ∀ c r, Q c → Q { c with runState := r })
    (hcontrol : ∀ c c' : Control, c'.runState = c.runState → c'.events = c.events → c'.mask = c.mask → c'.int = c.int →
      c'.shadow = c.shadow → Q c → Q c')
    (hstore : ∀ c off w, Q c → Q { c with shadow := Shadow.write c.shadow off w })
    (hmask : ∀ c w, Q c → Q { c with mask := w }.evalInt)
    (hack : ∀ c cap, Q c → Q { c with events := ackEvents c.events cap }.evalInt)
    (hreset : Q Control.reset) : Keeps (fun s => Q s.control) := by
  have k : KeepsCommands (fun s => Q s.control) :=
    { raise := fun _ f h => State.raise_control_of hraise f h
      produce := fun _ r c h => State.produce_control_of hraise r c h
      action := fun _ _ _ _ _ h => h
      enqueue := fun _ _ _ h => h
      dequeue := fun _ _ _ _ h => h
      occupy := fun _ _ _ _ h => h
      exceedance := fun _ _ _ _ h => h
      route := fun _ _ _ h => h
      tracker := fun _ _ _ _ h => h
      geometry := fun _ _ _ h => h
      assembler := fun _ _ _ h => h
      append := fun _ _ _ _ _ _ h => h
      tap := fun _ _ h => h
      runState := fun s r _ _ h => State.raise_control_of hraise _ (hrun s.control r h)
      markStatus := fun s h => by rw [State.markStatus_control]; exact h
      odometer := fun _ _ _ h => h
      control := fun s c h1 h2 h3 h4 h5 h => hcontrol s.control c h1 h2 h3 h4 h5 h
      cancel := fun _ _ _ h => h
      cancelAll := fun _ h => h
      actionRelease := fun _ h => h
      clearTrackers := fun _ h => h
      arm := fun s _ h => State.raise_control_of hraise _ (hrun s.control .armed h)
      releaseAreas := fun _ h => h
      storeWord := fun s off w h => hstore s.control off w h
      takeMask := fun s w h => hmask s.control w h }
  exact
    { k with
      settle := fun _ h => h
      acknowledge := fun s cap h => by
        unfold State.acknowledge
        dsimp only
        split
        · exact h
        · rw [State.markStatus_control]; exact hack s.control cap h
      free := fun _ _ h => h
      tick := fun s h => by rw [State.tick_control]; exact h
      freeSlot := fun _ _ _ _ h => h
      transit := fun _ _ _ _ _ _ _ h => h
      freeEntry := fun _ _ _ _ _ h => h
      stage := fun _ _ _ _ _ _ _ h => h
      hold := fun _ _ _ _ _ _ _ _ _ h => h
      present := fun _ _ _ _ _ h => h
      refuse := fun _ _ _ _ h => h
      anchor := fun s base _ _ => by
        unfold State.anchor
        rw [State.markStatus_control]
        exact hrun _ .idle hreset
      presentRecord := fun _ _ _ _ _ h => h
      presentStatus := fun s _ _ _ h => hcontrol s.control _ rfl rfl rfl rfl rfl h
      outcome := fun _ _ _ _ h => h
      consumedWord := fun _ _ _ _ h => h
      controlWrite := fun _ _ _ hs _ h =>
        k.controlWrite_of_present (fun _ _ _ _ _ h => h) (fun _ _ _ h => h) hs h
      portReset := fun _ h => h
      portRelease := fun _ h => h
      hardwareReset := fun _ _ => hreset
      resetRelease := fun _ h => h }

/-! ### INT (R37) -/

/-- INT of the control block is the level of its event set and mask. -/
def Control.IntLevelled (c : Control) : Prop := c.int = intLevel c.events c.mask

/-- Every update of the control block that touches the flags or the mask evaluates INT anew. -/
theorem keeps_intLevelled : Keeps (fun s => s.control.IntLevelled) :=
  Keeps.ofControl (fun _ _ _ => rfl) (fun _ _ h => h)
    (fun c c' _ he hm hi _ h => by unfold Control.IntLevelled at *; rw [he, hm, hi]; exact h)
    (fun _ _ _ h => h) (fun _ _ _ => rfl) (fun _ _ _ => rfl) rfl

/-- Settles O4: `keeps_intLevelled` over every step. -/
theorem intFollowsFlags : Obligations.IntFollowsFlags := by
  unfold Obligations.IntFollowsFlags
  intro s t h hstep
  rw [intAgrees_iff] at h ⊢
  exact keeps_intLevelled.step (fun _ _ h => h) h hstep

end Sys2Proof.Machine
end

section
/-! SUPPORT. The canonical form of the six sparse tables: what passing a table through a filter reads as, properties of the transit unit
alone, and each table's form kept by every command. -/

namespace Sys2Proof

/-! ### Tables passed through a filter -/

/-- A table filtered by key reads as before at the keys that pass. -/
theorem Table.read_filter_key {α : Type} (t : Table α) (p : Nat → Bool) (k : Nat) :
    Table.read (t.filter (fun e => p e.1)) k = if p k then Table.read t k else none := by
  induction t with
  | nil => simp
  | cons e rest ih =>
    obtain ⟨j, a⟩ := e
    rw [List.filter_cons, Table.read_cons]
    by_cases hj : j = k
    · subst hj
      cases hp : p j <;> simp [hp, ih, Table.read_cons]
    · cases hp : p j <;> simp [hj, ih, Table.read_cons]

theorem Table.filter_wf {α : Type} {t : Table α} (h : Table.wf t) (p : Nat × α → Bool) : Table.wf (t.filter p) :=
  List.Pairwise.filter _ h

end Sys2Proof

namespace Sys2Proof.Machine

theorem filterEntries_wf {t : Table Entry} (h : Table.wf t) (f : Nat → Entry → Option Entry) : Table.wf (filterEntries t f) := by
  unfold filterEntries
  refine List.Pairwise.filterMap _ (fun a b hab x hx y hy => ?_) h
  simp only [Option.map_eq_some_iff] at hx hy
  obtain ⟨_, _, rfl⟩ := hx
  obtain ⟨_, _, rfl⟩ := hy
  exact hab

/-! ### The status write at the transit unit -/

/-- The part as the content of a status write is composed: the sequence has advanced, the slot is empty, the tag is taken. -/
def State.composing (s : State) (tag : Nat) : State :=
  { s.beginStatus with
    transit := s.transit.setEntry tag (insertedEntry s.statusAddr 16 (.status (s.control.statusSeq + 1))) }

/-- The record that the transit unit keeps of a presented status write. -/
def State.statusRecord (s : State) (tag : Nat) : StatusWriteRecord :=
  { seq := s.control.statusSeq + 1, eventWord := eventWord s.control.events, tag := BitVec.ofNat 7 tag, outcome := .pending
    waiting := [] }

/-- The transit unit with a status write on the memory port and its record behind the others. -/
def State.statusOnPort (s : State) (tag : Nat) : Transit :=
  { (s.composing tag).transit.presentOwn tag s.statusAddr (statusWords (s.composing tag)) (.status (s.control.statusSeq + 1)) with
    statusRecords := s.transit.statusRecords ++ [s.statusRecord tag] }

/-- The presentation of a status write releases held requests and discards records (R15, R19). -/
theorem State.presentStatus_eq (s : State) (tag : Nat) :
    s.presentStatus tag = { s.beginStatus with transit := ((s.statusOnPort tag).releaseHolds .status).collect } := rfl

/-! ### Properties of the transit unit -/

/-- A property of the transit unit is kept by every command when its own updates keep it. -/
theorem Keeps.ofTransit {Q : Transit → Prop}
    (hload : ∀ x t, Q x → Q (x.load t))
    (hareas : ∀ x, Q x → Q { x with areas := x.areas.filter (fun e => decide (e.1 = 0)) })
    (htransit : ∀ y x : Transit, x.base = y.base → x.areas = y.areas → x.inflight = y.inflight → x.stage = y.stage →
      x.holds = y.holds → Q y → Q x)
    (hfree : ∀ x tag e, x.entry tag = some e → e.phase = .presented ∨ e.phase = .absorbing → Q x → Q (x.freeEntry tag))
    (hstage : ∀ x (r : Request), x.stage = [] → x.holds.length < 8 → x.entry r.tag.toNat = none → Q x → Q (x.stageRequest r))
    (hhold : ∀ x (r : Request) writes held, x.stage = [] → x.holds.length < 8 → x.entry r.tag.toNat = none → Q x → Q (x.holdRequest r writes held))
    (hpresent : ∀ x (r : Request) rest cap, x.stage = r :: rest → Q x → Q (x.present r rest cap))
    (hrefuse : ∀ x (r : Request) rest, x.stage = r :: rest → Q x → Q (Transit.freeEntry { x with stage := rest } r.tag.toNat))
    (hanchor : ∀ x base, Q x → Q { x with base := some base, areas := Table.write x.areas 0 { base := base, pages := 4 } })
    (hinsert : ∀ x tag e, 64 ≤ tag → Q x → Q (x.setEntry tag e))
    (hrelease : ∀ x w, Q x → Q (x.releaseHolds w))
    (hport : ∀ x, Q x → Q x.portReset) (hreset : ∀ x, Q x → Q x.hardwareReset) : Keeps (fun s => Q s.transit) := by
  have htag : ∀ {x : Transit} {tag}, x.freeInsertedTag = some tag → 64 ≤ tag := fun h => (freeInsertedTag_iff.mp h).1
  have hown : ∀ (x : Transit) tag addr words carried, 64 ≤ tag → Q x → Q (x.presentOwn tag addr words carried) :=
    fun x _ _ _ _ ht h => hinsert _ _ _ ht (htransit x _ rfl rfl rfl rfl rfl h)
  have k : KeepsCommands (fun s => Q s.transit) :=
    { raise := fun s f h => by rw [s.raise_transit]; exact h
      produce := fun s r c h => by rw [s.produce_transit]; exact h
      action := fun _ _ _ _ _ h => h
      enqueue := fun _ _ _ h => h
      dequeue := fun _ _ _ _ h => h
      occupy := fun _ _ _ _ h => h
      exceedance := fun _ _ _ _ h => h
      route := fun _ _ _ h => h
      tracker := fun _ _ _ _ h => h
      geometry := fun _ _ _ h => h
      assembler := fun _ _ _ h => h
      append := fun _ _ _ _ _ _ h => h
      tap := fun _ _ h => h
      runState := fun s r _ _ h => by rw [s.changeRunState_transit]; exact h
      markStatus := fun s h => by rw [s.markStatus_transit]; exact h
      odometer := fun _ _ _ h => h
      control := fun _ _ _ _ _ _ _ h => h
      cancel := fun _ _ _ h => h
      cancelAll := fun _ h => h
      actionRelease := fun _ h => h
      clearTrackers := fun _ h => h
      arm := fun s _ h => by
        unfold State.arm
        rw [State.changeRunState_transit]
        exact hload _ _ h
      releaseAreas := fun s h => hareas s.transit h
      storeWord := fun _ _ _ h => h
      takeMask := fun _ _ h => h }
  exact
    { k with
      settle := fun _ h => h
      acknowledge := fun s cap h => by
        unfold State.acknowledge
        dsimp only
        split
        · exact h
        · rw [State.markStatus_transit]; exact h
      free := fun _ _ h => h
      tick := fun s h => by rw [s.tick_frame]; exact h
      freeSlot := fun _ _ _ _ h => h
      transit := fun s x h1 h2 h3 h4 h5 h => htransit s.transit x h1 h2 h3 h4 h5 h
      freeEntry := fun s tag e he hp h => hfree s.transit tag e he hp h
      stage := fun s r n hs hh _ he h =>
        hstage { s.transit with takenCount := n } r hs hh he (htransit s.transit _ rfl rfl rfl rfl rfl h)
      hold := fun s r n req hs hh _ he _ h =>
        hhold { s.transit with takenCount := n } r _ _ hs hh he (htransit s.transit _ rfl rfl rfl rfl rfl h)
      present := fun s r rest cap hs h => hpresent s.transit r rest cap hs h
      refuse := fun s r rest hs h => hrefuse s.transit r rest hs h
      anchor := fun s base _ h => by
        unfold State.anchor
        rw [State.markStatus_transit]
        exact hanchor s.transit base h
      presentRecord := fun s tag e _ ht h => hrelease _ _ (hown s.transit tag _ _ _ (htag ht) h)
      presentStatus := fun s tag _ ht h => by
        rw [s.presentStatus_eq]
        have hport : Q (s.statusOnPort tag) := htransit (Transit.presentOwn _ tag _ _ _) _ rfl rfl rfl rfl rfl
          (hown (s.composing tag).transit tag s.statusAddr (statusWords (s.composing tag))
            (.status (s.control.statusSeq + 1)) (htag ht) (hinsert s.transit tag _ (htag ht) h))
        exact htransit ((s.statusOnPort tag).releaseHolds .status) _ rfl rfl rfl rfl rfl (hrelease _ _ hport)
      outcome := fun _ _ _ _ h => h
      consumedWord := fun _ _ _ _ h => h
      controlWrite := fun _ _ _ hs _ h =>
        k.controlWrite_of_present (fun s r rest cap hs h => hpresent s.transit r rest cap hs h) (fun _ _ _ h => h) hs h
      portReset := fun s h => hport s.transit h
      portRelease := fun _ h => h
      hardwareReset := fun s h => hreset s.transit h
      resetRelease := fun _ h => h }

/-! ### The forms kept -/

/-- The setup shadow and the event set are canonical, and no listed flag lies outside the 24. -/
def Control.Canonical (c : Control) : Prop := Shadow.wf c.shadow ∧ Table.wf c.events ∧ ∀ e ∈ c.events, e.1 < 24

theorem keeps_controlCanonical : Keeps (fun s => s.control.Canonical) := by
  refine Keeps.ofControl (fun c f h => ?_) (fun _ _ h => h) (fun c c' _ he _ _ hs h => ?_) (fun c off w h => ?_)
    (fun _ _ h => h) (fun c cap h => ?_) ⟨⟨Table.wf_nil, by simp [Control.reset]⟩, Table.wf_nil, by simp [Control.reset]⟩
  · obtain ⟨hshadow, hevents, hflags⟩ := h
    refine ⟨hshadow, Table.write_wf hevents _ _, fun e he => ?_⟩
    rcases Table.mem_write he with rfl | he
    · exact f.bit_lt
    · exact hflags e he
  · unfold Control.Canonical
    rw [he, hs]
    exact h
  · exact ⟨Shadow.write_wf h.1 off w, h.2⟩
  · obtain ⟨hshadow, hevents, hflags⟩ := h
    exact ⟨hshadow, Table.filter_wf hevents _, fun e he => hflags e (List.mem_filter.mp he).1⟩

theorem loadAreas_wf {areas : Table Area} (h : Table.wf areas) (t : Table Word64) : Table.wf (loadAreas areas t) := by
  unfold loadAreas
  generalize [1, 2, 3, 4, 5, 6, 7].filter (areaEnabled t) = l
  have hw : ∀ (l : List Nat) (m : Table Area), Table.wf m → Table.wf (l.foldl (fun m n => Table.write m n (areaOf t n)) m) := by
    intro l
    induction l with
    | nil => exact fun _ hm => hm
    | cons n rest ih => exact fun m hm => ih _ (Table.write_wf hm _ _)
  exact hw l _ (Table.filter_wf h _)

/-- The release of held requests writes entries of the in-flight table only. -/
theorem Transit.releaseHolds_inflight_wf {x : Transit} (h : Table.wf x.inflight) (w : OwnWrite) :
    Table.wf (x.releaseHolds w).inflight := by
  have hfold : ∀ (l : List Request) (y : Transit), Table.wf y.inflight → Table.wf (l.foldl Transit.stageRequest y).inflight := by
    intro l
    induction l with
    | nil => exact fun _ hy => hy
    | cons r rest ih => exact fun y hy => ih _ (Table.write_wf hy _ _)
  exact hfold _ _ h

theorem Transit.releaseHolds_areas (x : Transit) (w : OwnWrite) : (x.releaseHolds w).areas = x.areas := by
  obtain ⟨_, _, _, _, _, _, hframe⟩ := x.releaseHolds_spec w
  rw [hframe]

/-- The area map and the in-flight table are canonical. -/
def Transit.Canonical (x : Transit) : Prop := Table.wf x.areas ∧ Table.wf x.inflight

theorem keeps_transitCanonical : Keeps (fun s => s.transit.Canonical) :=
  Keeps.ofTransit (fun _ t h => ⟨loadAreas_wf h.1 t, h.2⟩) (fun _ h => ⟨Table.filter_wf h.1 _, h.2⟩)
    (fun y x _ ha hi _ _ h => by unfold Transit.Canonical; rw [ha, hi]; exact h)
    (fun _ tag _ _ _ h => ⟨h.1, Table.remove_wf h.2 tag⟩) (fun _ _ _ _ _ h => ⟨h.1, Table.write_wf h.2 _ _⟩)
    (fun _ _ _ _ _ _ _ h => ⟨h.1, Table.write_wf h.2 _ _⟩) (fun _ _ _ _ _ h => ⟨h.1, Table.write_wf h.2 _ _⟩)
    (fun _ r _ _ h => ⟨h.1, Table.remove_wf h.2 r.tag.toNat⟩) (fun _ _ h => ⟨Table.write_wf h.1 _ _, h.2⟩)
    (fun _ _ _ _ h => ⟨h.1, Table.write_wf h.2 _ _⟩)
    (fun x w h => ⟨by rw [x.releaseHolds_areas]; exact h.1, Transit.releaseHolds_inflight_wf h.2 w⟩)
    (fun _ h => ⟨h.1, filterEntries_wf h.2 _⟩) (fun _ h => ⟨Table.wf_nil, filterEntries_wf h.2 _⟩)

/-! ### Properties of the blocks of a run -/

/-- The blocks that a run works with: odometer, point assembler, geometry unit, exceedance unit, action unit. -/
structure RunBlocks where
  odometer : Odometer
  assembler : Assembler
  geometry : GeometryUnit
  exceedance : ExceedanceUnit
  action : ActionUnit

def State.run (s : State) : RunBlocks := ⟨s.odometer, s.assembler, s.geometry, s.exceedance, s.action⟩

theorem State.run_raise (s : State) (f : EventFlag) : (s.raise f).run = s.run := by simp [State.run]

theorem State.run_markStatus (s : State) : s.markStatus.run = s.run := by simp [State.run]

theorem State.run_produce (s : State) (r : Ring) (c : List Word64) : (s.produce r c).run = s.run := by simp [State.run]

theorem State.run_changeRunState (s : State) (r : RunState) : (s.changeRunState r).run = s.run := by simp [State.run]

theorem State.run_acknowledge (s : State) (cap : Capture) : (s.acknowledge cap).run = s.run := by
  unfold State.acknowledge
  dsimp only
  split
  · rfl
  · rw [State.run_markStatus]; rfl

/-- A record reaches at most the entries between the cursor and the end of the route list. -/
theorem State.reachedEntries_length (s : State) (c : Int) : (s.reachedEntries c).length ≤ 64 - s.exceedance.cursor := by
  have hlist : (routeList s.control.shadow).length ≤ 64 := by
    refine Nat.le_trans (List.takeWhile_sublist _).length_le ?_
    simp [routeEntries]
  have hreached : (s.reachedEntries c).length ≤ ((routeList s.control.shadow).drop s.exceedance.cursor).length :=
    (List.takeWhile_sublist _).length_le
  rw [List.length_drop] at hreached
  omega

/-- A property of the blocks of a run is kept by every command when their own updates keep it. -/
theorem Keeps.ofRun {Q : RunBlocks → Prop}
    (haction : ∀ (b : RunBlocks) (a : ActionUnit), a.queue = b.action.queue → a.pulses = b.action.pulses →
      a.holds = b.action.holds → Q b → Q { b with action := a })
    (henqueue : ∀ b e, b.action.queue.length ≠ 32 → Q b → Q { b with action := b.action.takeId.enqueue e })
    (hdequeue : ∀ b e rest, b.action.queue = e :: rest → Q b → Q { b with action := { b.action with queue := rest } })
    (hoccupy : ∀ b slot p, b.action.freeSlot = some slot → Q b →
      Q { b with action := { b.action.occupy slot p with fired := b.action.fired + 1 } })
    (hfree : ∀ b slot p, Table.read b.action.pulses slot = some p → Q b → Q { b with action := b.action.free slot p })
    (hcancel : ∀ b id n, Q b → Q { b with action := { b.action with queue := cancelAction id b.action.queue, cancelled := n } })
    (hcancelAll : ∀ b, Q b → Q { b with action := b.action.cancelAll })
    (hrelease : ∀ b, Q b → Q { b with action := b.action.release })
    (hexceedance : ∀ (b : RunBlocks) (x : ExceedanceUnit), x.trackers = b.exceedance.trackers → x.cursor = b.exceedance.cursor →
      Q b → Q { b with exceedance := x })
    (hroute : ∀ b a n, n ≤ 64 - b.exceedance.cursor → Q b →
      Q { b with exceedance := { b.exceedance with active := a, overrideOn := false, cursor := b.exceedance.cursor + n } })
    (htracker : ∀ b ch t, Tracker.grows (b.exceedance.tracker ch) t → Q b →
      Q { b with exceedance := b.exceedance.setTracker ch t })
    (hclear : ∀ b, Q b →
      Q { b with exceedance := { b.exceedance with trackers := b.exceedance.trackers.map (fun _ => .clear) } })
    (hgeometry : ∀ (b : RunBlocks) (g : GeometryUnit), (Table.wf b.geometry.ring → Table.wf g.ring) → Q b →
      Q { b with geometry := g })
    (hassembler : ∀ (b : RunBlocks) (a : Assembler), a.queue.length ≤ b.assembler.queue.length → Q b → Q { b with assembler := a })
    (happend : ∀ b0 (b : RunBlocks) p n, (b0.assembler.queue.length ≤ 8 → b.assembler.queue.length ≤ 7) → Q b0 → Q b →
      Q { b with assembler := { b.assembler with queue := b.assembler.queue ++ [p], opened := n } })
    (hodometer : ∀ (b : RunBlocks) (o : Odometer), o.latches.length ≤ b.odometer.latches.length ∨ o.latches.length ≤ 4 → Q b →
      Q { b with odometer := o })
    (harm : ∀ b t contributing uncomp, Q b →
      Q ⟨b.odometer.load t, .load t contributing, .load t uncomp, .load t, b.action.load t⟩)
    (hreset : Q State.reset.run) : Keeps (fun s => Q s.run) := by
  have k : KeepsCommands (fun s => Q s.run) :=
    { raise := fun s f h => by rw [s.run_raise]; exact h
      produce := fun s r c h => by rw [s.run_produce]; exact h
      action := fun s a h1 h2 h3 h => haction s.run a h1 h2 h3 h
      enqueue := fun s e hl h => henqueue s.run e hl h
      dequeue := fun s e rest hq h => hdequeue s.run e rest hq h
      occupy := fun s slot p hf h => hoccupy s.run slot p hf h
      exceedance := fun s x h1 h2 h => hexceedance s.run x h1 h2 h
      route := fun s a c h => hroute s.run a _ (s.reachedEntries_length c) h
      tracker := fun s ch t hg h => htracker s.run ch t hg h
      geometry := fun s g hg h => hgeometry s.run g hg h
      assembler := fun s a hl h => hassembler s.run a hl h
      append := fun s0 s p n hl h0 h => happend s0.run s.run p n hl h0 h
      tap := fun _ _ h => h
      runState := fun s r _ _ h => by rw [s.run_changeRunState]; exact h
      markStatus := fun s h => by rw [s.run_markStatus]; exact h
      odometer := fun s o hl h => hodometer s.run o hl h
      control := fun _ _ _ _ _ _ _ h => h
      cancel := fun s id n h => hcancel s.run id n h
      cancelAll := fun s h => hcancelAll s.run h
      actionRelease := fun s h => hrelease s.run h
      clearTrackers := fun s h => hclear s.run h
      arm := fun s _ h => by
        unfold State.arm
        rw [State.run_changeRunState]
        exact harm s.run _ _ _ h
      releaseAreas := fun _ h => h
      storeWord := fun _ _ _ h => h
      takeMask := fun _ _ h => h }
  exact
    { k with
      settle := fun _ h => h
      acknowledge := fun s cap h => by rw [s.run_acknowledge]; exact h
      free := fun _ _ h => h
      tick := fun s h => by rw [s.tick_frame]; exact h
      freeSlot := fun s slot p hr h => hfree s.run slot p hr h
      transit := fun _ _ _ _ _ _ _ h => h
      freeEntry := fun _ _ _ _ _ h => h
      stage := fun _ _ _ _ _ _ _ h => h
      hold := fun _ _ _ _ _ _ _ _ _ h => h
      present := fun _ _ _ _ _ h => h
      refuse := fun _ _ _ _ h => h
      anchor := fun s base _ h => by
        unfold State.anchor
        rw [State.run_markStatus]
        exact h
      presentRecord := fun _ _ _ _ _ h => h
      presentStatus := fun _ _ _ _ h => h
      outcome := fun _ _ _ _ h => h
      consumedWord := fun _ _ _ _ h => h
      controlWrite := fun _ _ _ hs _ h =>
        k.controlWrite_of_present (fun _ _ _ _ _ h => h) (fun _ _ _ h => h) hs h
      portReset := fun _ h => h
      portRelease := fun _ h => h
      hardwareReset := fun _ _ => hreset
      resetRelease := fun _ h => h }

/-! ### The history ring and the pulse table -/

theorem keeps_ringCanonical : Keeps (fun s => Table.wf s.run.geometry.ring) :=
  Keeps.ofRun (Q := fun b => Table.wf b.geometry.ring) (fun _ _ _ _ _ h => h) (fun _ _ _ h => h) (fun _ _ _ _ h => h)
    (fun _ _ _ _ h => h) (fun _ _ _ _ h => h) (fun _ _ _ h => h) (fun _ h => h) (fun _ h => h) (fun _ _ _ _ h => h)
    (fun _ _ _ _ h => h) (fun _ _ _ _ h => h) (fun _ h => h) (fun _ _ hg h => hg h) (fun _ _ _ h => h)
    (fun _ _ _ _ _ _ h => h) (fun _ _ _ h => h) (fun _ _ _ _ _ => Table.wf_nil) Table.wf_nil

theorem keeps_pulsesCanonical : Keeps (fun s => Table.wf s.run.action.pulses) :=
  Keeps.ofRun (Q := fun b => Table.wf b.action.pulses)
    (fun _ a _ hp _ h => by rw [← hp] at h; exact h) (fun _ _ _ h => h) (fun _ _ _ _ h => h)
    (fun _ _ _ _ h => Table.write_wf h _ _) (fun _ slot _ _ h => Table.remove_wf h slot) (fun _ _ _ h => h) (fun _ h => h)
    (fun _ _ => Table.wf_nil) (fun _ _ _ _ h => h)
    (fun _ _ _ _ h => h) (fun _ _ _ _ h => h) (fun _ h => h) (fun _ _ _ h => h) (fun _ _ _ h => h)
    (fun _ _ _ _ _ _ h => h) (fun _ _ _ h => h) (fun _ _ _ _ _ => Table.wf_nil) Table.wf_nil

/-- Settles O10: the tables of the control block, of the transit unit, of the geometry unit and of the action unit, each kept by every
step. -/
theorem tablesStayCanonical : Obligations.TablesStayCanonical := by
  unfold Obligations.TablesStayCanonical
  rintro s t ⟨hshadow, hevents, hareas, hinflight, hring, hpulses, hflags⟩ hstep
  obtain ⟨hshadow', hevents', hflags'⟩ := keeps_controlCanonical.step (fun _ _ h => h) ⟨hshadow, hevents, hflags⟩ hstep
  obtain ⟨hareas', hinflight'⟩ := keeps_transitCanonical.step (fun _ _ h => h) ⟨hareas, hinflight⟩ hstep
  have hring' := keeps_ringCanonical.step (fun _ _ h => h) hring hstep
  have hpulses' := keeps_pulsesCanonical.step (fun _ _ h => h) hpulses hstep
  exact ⟨hshadow', hevents', hareas', hinflight', hring', hpulses', hflags'⟩

end Sys2Proof.Machine
end

section
/-! SUPPORT. The action queue and the hold counts: properties of the action unit alone, each kept by every command. -/

namespace Sys2Proof

/-! ### Tables as lists of entries -/

/-- A write at a key that reads as nothing adds one entry. -/
theorem Table.write_perm_of_unread {α : Type} {t : Table α} {k : Nat} (a : α) (h : Table.read t k = none) :
    (Table.write t k a).Perm ((k, a) :: t) := by
  induction t with
  | nil => exact List.Perm.refl _
  | cons e rest ih =>
    obtain ⟨j, b⟩ := e
    rw [Table.read_cons] at h
    have hj : j ≠ k := by rintro rfl; simp at h
    rw [if_neg hj] at h
    unfold Table.write
    split
    · exact List.Perm.refl _
    · rw [if_neg (Ne.symm hj)]
      exact ((ih h).cons _).trans (List.Perm.swap _ _ _)

/-- A canonical table without a listed key has lost one entry. -/
theorem Table.remove_perm {α : Type} {t : Table α} (hw : Table.wf t) {k : Nat} {a : α} (h : Table.read t k = some a) :
    t.Perm ((k, a) :: Table.remove t k) := by
  induction t with
  | nil => simp at h
  | cons e rest ih =>
    obtain ⟨j, b⟩ := e
    obtain ⟨hhead, hrest⟩ := List.pairwise_cons.mp hw
    rw [Table.read_cons] at h
    by_cases hj : j = k
    · subst hj
      simp only [if_true, Option.some.injEq] at h
      subst h
      have hkeep : Table.remove rest j = rest :=
        List.filter_eq_self.mpr fun x hx => by have := hhead x hx; simp only at this; simp; omega
      have : Table.remove ((j, b) :: rest) j = Table.remove rest j := by simp [Table.remove]
      rw [this, hkeep]
    · rw [if_neg hj] at h
      have : Table.remove ((j, b) :: rest) k = (j, b) :: Table.remove rest k := by simp [Table.remove, hj]
      rw [this]
      exact ((ih hrest h).cons _).trans (List.Perm.swap _ _ _)

end Sys2Proof

namespace Sys2Proof.Machine

/-- A property of the action unit is kept by every command when its own updates keep it. -/
theorem Keeps.ofAction {Q : ActionUnit → Prop}
    (haction : ∀ x a : ActionUnit, a.queue = x.queue → a.pulses = x.pulses → a.holds = x.holds → Q x → Q a)
    (henqueue : ∀ x e, x.queue.length ≠ 32 → Q x → Q (x.takeId.enqueue e))
    (hdequeue : ∀ (x : ActionUnit) e rest, x.queue = e :: rest → Q x → Q { x with queue := rest })
    (hoccupy : ∀ x slot p, x.freeSlot = some slot → Q x → Q { x.occupy slot p with fired := x.fired + 1 })
    (hfree : ∀ x slot p, Table.read x.pulses slot = some p → Q x → Q (x.free slot p))
    (hcancel : ∀ x id n, Q x → Q { x with queue := cancelAction id x.queue, cancelled := n })
    (hcancelAll : ∀ x, Q x → Q x.cancelAll) (hrelease : ∀ x, Q x → Q x.release) (hload : ∀ (x : ActionUnit) t, Q (x.load t))
    (hreset : Q State.reset.action) : Keeps (fun s => Q s.action) :=
  Keeps.ofRun (Q := fun b => Q b.action) (fun b a hq hp hh h => haction b.action a hq hp hh h)
    (fun b e hl h => henqueue b.action e hl h) (fun b e rest hq h => hdequeue b.action e rest hq h)
    (fun b slot p hf h => hoccupy b.action slot p hf h) (fun b slot p hr h => hfree b.action slot p hr h)
    (fun b id n h => hcancel b.action id n h) (fun b h => hcancelAll b.action h) (fun b h => hrelease b.action h)
    (fun _ _ _ _ h => h) (fun _ _ _ _ h => h) (fun _ _ _ _ h => h) (fun _ h => h) (fun _ _ _ h => h) (fun _ _ _ h => h)
    (fun _ _ _ _ _ _ h => h) (fun _ _ _ h => h) (fun b t _ _ _ => hload b.action t) hreset

/-! ### The action queue (R165) -/

/-- The queue of the action unit is bounded and in trigger order. -/
def ActionUnit.QueueSound (x : ActionUnit) : Prop :=
  x.queue.length ≤ 32 ∧ x.queue.Pairwise (fun a b => a.trigger ≤ b.trigger)

/-- A part of a sound queue, its entries in their order, is sound. -/
theorem ActionUnit.QueueSound.of_sublist {x a : ActionUnit} (h : x.QueueSound) (hs : a.queue.Sublist x.queue) : a.QueueSound :=
  ⟨Nat.le_trans hs.length_le h.1, h.2.sublist hs⟩

theorem cancelAction_sublist (id : BitVec 16) (l : List ActionEntry) : (cancelAction id l).Sublist l := by
  induction l with
  | nil => exact List.Sublist.refl _
  | cons e rest ih =>
    unfold cancelAction
    split
    · exact List.sublist_cons_self _ _
    · exact ih.cons_cons _

/-- A queue with room takes an entry at its place and stays sound. -/
theorem ActionUnit.QueueSound.enqueue {x : ActionUnit} (h : x.QueueSound) (hroom : x.queue.length ≠ 32) (e : ActionEntry) :
    (x.takeId.enqueue e).QueueSound := by
  obtain ⟨hlen, hsorted⟩ := h
  obtain ⟨before, behind, hsplit, hbefore, hbehind, hins⟩ := insertAction_split e x.queue hsorted
  show (insertAction e x.queue).length ≤ 32 ∧ (insertAction e x.queue).Pairwise _
  rw [hins]
  rw [hsplit] at hlen hroom hsorted
  obtain ⟨hb, hh, hcross⟩ := List.pairwise_append.mp hsorted
  refine ⟨by simp at hlen hroom ⊢; omega, List.pairwise_append.mpr ⟨hb, ?_, fun a ha b hm => ?_⟩⟩
  · exact List.pairwise_cons.mpr ⟨fun b hm => Int.le_of_lt (hbehind b hm), hh⟩
  · rcases List.mem_cons.mp hm with rfl | hm
    · exact hbefore a ha
    · exact hcross a ha b hm

theorem keeps_queueSound : Keeps (fun s => s.action.QueueSound) :=
  Keeps.ofAction (fun x a hq _ _ h => h.of_sublist (hq ▸ List.Sublist.refl _)) (fun _ e hroom h => h.enqueue hroom e)
    (fun x e rest hq h => h.of_sublist (by rw [hq]; exact List.sublist_cons_self _ _)) (fun _ _ _ _ h => h) (fun _ _ _ _ h => h)
    (fun _ id _ h => h.of_sublist (cancelAction_sublist id _)) (fun _ h => h.of_sublist (List.nil_sublist _))
    (fun _ h => h.of_sublist (List.nil_sublist _)) (fun _ _ => ⟨Nat.zero_le _, List.Pairwise.nil⟩)
    ⟨Nat.zero_le _, List.Pairwise.nil⟩

/-! ### The hold counts (R163) -/

/-- The number of slots of a pulse table that name a line. -/
def holders (t : Table Pulse) (n : Nat) : Nat := (t.filter (fun e => namesLine e.2.group e.2.pattern n)).length

theorem holders_perm {t u : Table Pulse} (h : t.Perm u) (n : Nat) : holders t n = holders u n := (h.filter _).length_eq

theorem holders_cons (slot : Nat) (p : Pulse) (t : Table Pulse) (n : Nat) :
    holders ((slot, p) :: t) n = if namesLine p.group p.pattern n then holders t n + 1 else holders t n := by
  unfold holders
  rw [List.filter_cons]
  split <;> simp

/-- The hold count of each line is the number of slots that name it. -/
def ActionUnit.HoldsCount (x : ActionUnit) : Prop :=
  Table.wf x.pulses ∧ x.holds.length = 8 ∧ ∀ n, n < 8 → x.holds.getD n 0 = holders x.pulses n

theorem adjustHolds_length (holds : List Nat) (p : Pulse) (f : Nat → Nat) : (adjustHolds holds p f).length = holds.length := by
  simp [adjustHolds]

/-- A pulse in a free slot counts once more for each line that it names. -/
theorem ActionUnit.HoldsCount.occupy {x : ActionUnit} (h : x.HoldsCount) {slot : Nat} (hfree : x.freeSlot = some slot)
    (p : Pulse) : (x.occupy slot p).HoldsCount := by
  obtain ⟨hw, hlen, hcount⟩ := h
  obtain ⟨_, hempty, _⟩ := (x.freeSlot_iff slot).mp hfree
  refine ⟨Table.write_wf hw _ _, (adjustHolds_length ..).trans hlen, fun n hn => ?_⟩
  show (adjustHolds x.holds p (· + 1)).getD n 0 = holders (Table.write x.pulses slot p) n
  rw [adjustHolds_getD _ _ _ _ (by omega), holders_perm (Table.write_perm_of_unread p hempty), holders_cons, hcount n hn]

/-- A freed slot counts once less for each line that its pulse names. -/
theorem ActionUnit.HoldsCount.free {x : ActionUnit} (h : x.HoldsCount) {slot : Nat} {p : Pulse}
    (hread : Table.read x.pulses slot = some p) : (x.free slot p).HoldsCount := by
  obtain ⟨hw, hlen, hcount⟩ := h
  refine ⟨Table.remove_wf hw slot, (adjustHolds_length x.holds p (· - 1)).trans hlen, fun n hn => ?_⟩
  show (adjustHolds x.holds p (· - 1)).getD n 0 = holders (Table.remove x.pulses slot) n
  rw [adjustHolds_getD _ _ _ _ (by omega), hcount n hn, holders_perm (Table.remove_perm hw hread), holders_cons]
  split <;> simp

theorem getD_replicate_of_lt {α : Type} {n i : Nat} (h : i < n) (a d : α) : (List.replicate n a).getD i d = a := by
  rw [List.getD_eq_getElem?_getD, List.getElem?_replicate, if_pos h]
  rfl

/-- A unit with an empty pulse table and eight counts of 0. -/
theorem ActionUnit.HoldsCount.of_empty {x : ActionUnit} (hp : x.pulses = []) (hh : x.holds = List.replicate 8 0) :
    x.HoldsCount := by
  refine ⟨by rw [hp]; exact Table.wf_nil, by rw [hh]; simp, fun n hn => ?_⟩
  rw [hp, hh, getD_replicate_of_lt hn]
  rfl

theorem keeps_holdsCount : Keeps (fun s => s.action.HoldsCount) :=
  Keeps.ofAction (fun x a _ hp hh h => by unfold ActionUnit.HoldsCount; rw [hp, hh]; exact h) (fun _ _ _ h => h) (fun _ _ _ _ h => h)
    (fun _ _ p hf h => h.occupy hf p) (fun _ _ _ hr h => h.free hr) (fun _ _ _ h => h) (fun _ h => h)
    (fun _ _ => .of_empty rfl rfl) (fun _ _ => .of_empty rfl rfl) (.of_empty rfl rfl)

/-- Settles O5: the queue's order by its insertion and removals, the hold counts by the slots taken and freed. -/
theorem actionQueueAndHoldsStaySound : Obligations.ActionQueueAndHoldsStaySound := by
  unfold Obligations.ActionQueueAndHoldsStaySound
  exact fun s t hstep => ⟨fun h => keeps_queueSound.step (fun _ _ h => h) h hstep,
    fun h => keeps_holdsCount.step (fun _ _ h => h) h hstep⟩

end Sys2Proof.Machine
end

section
/-! SUPPORT. Properties of write-back alone, kept by every command: an accepted burst moves each ring's consumed index at most once and not
after a command word. The bounds of the queues; the rings, the runs and the route cursor. -/

namespace Sys2Proof.Machine

/-! ### The consumed indices of an accepted burst (R26, R30) -/

theorem mem_burstWords {off : Nat} {l : List Beat} {w : ControlWord} :
    w ∈ burstWords off l ↔ ∃ n, ∃ h : n < l.length, w = { off := off + 8 * n, beat := l[n] } := by
  unfold burstWords
  rw [List.mem_map]
  constructor
  · rintro ⟨⟨b, n⟩, hb, rfl⟩
    obtain ⟨h, hb⟩ := List.getElem?_eq_some_iff.mp (List.mem_zipIdx_iff_getElem?.mp hb)
    exact ⟨n, h, by rw [← hb]⟩
  · rintro ⟨n, h, rfl⟩
    exact ⟨(l[n], n), List.mem_zipIdx_iff_getElem?.mpr (List.getElem?_eq_getElem h), rfl⟩

theorem regionOf_above_consumed {off : Nat} (h : 0x00A0 ≤ off) (r : Ring) : regionOf off ≠ .consumed r := by
  unfold regionOf
  grind

theorem regionOf_eq_command {off n : Nat} (h : regionOf off = .command n) : off < 0x48 := by
  by_cases habove : 0x00A0 ≤ off
  · exact absurd h ((regionOf_above_mask habove).1 n)
  · unfold regionOf at h
    grind

theorem regionOf_eq_consumed {off : Nat} {r : Ring} (h : regionOf off = .consumed r) :
    consumedOffset r ≤ off ∧ off < consumedOffset r + 8 := by
  by_cases habove : 0x00A0 ≤ off
  · exact absurd h (regionOf_above_consumed habove r)
  · unfold regionOf at h
    unfold consumedOffset
    grind

theorem regionOf_unassigned {off : Nat} (h : 0x48 ≤ off) (h' : off < 0x80) : regionOf off = .unassigned := by
  unfold regionOf
  rw [if_neg (by omega), if_pos h']

/-- A word that passes its check lies in no unassigned region (R27). -/
theorem State.wordReason_unassigned {s : State} {w : ControlWord} (h : s.wordReason w = none) : regionOf w.off ≠ .unassigned := by
  intro hr
  unfold State.wordReason at h
  rw [hr] at h
  split at h <;> cases h

/-- An accepted burst with a command word has no consumed index: a word between the two would lie in an unassigned region. -/
theorem not_consumed_of_command {s : State} {off : Nat} {l : List Beat} (h : s.refusalOf (burstWords off l) = none)
    {a b : ControlWord} {n : Nat} {r : Ring} (ha : a ∈ burstWords off l) (hb : b ∈ burstWords off l)
    (hcommand : regionOf a.off = .command n) : regionOf b.off ≠ .consumed r := by
  intro hconsumed
  have hlow := regionOf_eq_command hcommand
  have hhigh := (regionOf_eq_consumed hconsumed).1
  have hbase : 0x80 ≤ consumedOffset r := by cases r <;> decide
  obtain ⟨i, _, rfl⟩ := mem_burstWords.mp ha
  obtain ⟨j, hj, rfl⟩ := mem_burstWords.mp hb
  dsimp only at hlow hhigh
  have hk : (0x4F - off) / 8 < l.length := by omega
  have hmid : ({ off := off + 8 * ((0x4F - off) / 8), beat := l[(0x4F - off) / 8] } : ControlWord) ∈ burstWords off l :=
    mem_burstWords.mpr ⟨_, hk, rfl⟩
  exact State.wordReason_unassigned (wordRefusal_none (refusalOf_words h) _ hmid)
    (regionOf_unassigned (by dsimp only; omega) (by dsimp only; omega))

/-- A ring's consumed index stands in one word of a burst at most. -/
theorem burstWords_consumed_once (off : Nat) (l : List Beat) :
    (burstWords off l).Pairwise (fun a b => ∀ r, regionOf a.off = .consumed r → regionOf b.off ≠ .consumed r) := by
  refine (burstWords_ascending off l).imp fun hab r ha hb => ?_
  have := regionOf_eq_consumed ha
  have := regionOf_eq_consumed hb
  omega

/-- A word that is neither a command nor a ring's consumed index leaves the ring alone. -/
theorem State.takeWord_ring {s : State} {w : ControlWord} {r : Ring} (hcommand : ∀ n, regionOf w.off ≠ .command n)
    (hconsumed : regionOf w.off ≠ .consumed r) : (s.takeWord w).writeBack.ring r = s.writeBack.ring r := by
  unfold State.takeWord
  split
  · rename_i hn; exact absurd hn (hcommand _)
  · rename_i x hx
    exact WriteBack.ring_setRing_other _ _ (by rintro rfl; exact hconsumed hx)
  all_goals rfl

namespace KeepsCommands

variable {P : State → Prop}

/-- A burst without command words, whose consumed indices are in range and each of another ring. -/
theorem takeBurst_ranged (k : KeepsCommands P)
    (hc : ∀ s r w, (s.writeBack.ring r).inRange (newConsumed w) = true → P s → P (s.takeConsumed r w)) :
    ∀ (b : List ControlWord), (∀ w ∈ b, ∀ n, regionOf w.off ≠ .command n) →
      b.Pairwise (fun a c => ∀ r, regionOf a.off = .consumed r → regionOf c.off ≠ .consumed r) → ∀ {s : State},
      (∀ w ∈ b, ∀ r, regionOf w.off = .consumed r → (s.writeBack.ring r).inRange (newConsumed w.beat.data) = true) → P s →
      P (s.takeBurst b)
  | [], _, _, _, _, h => h
  | w :: rest, hb, hp, s, hr, h => by
    obtain ⟨hw, hrest⟩ := List.forall_mem_cons.mp hb
    obtain ⟨hfirst, hp'⟩ := List.pairwise_cons.mp hp
    refine takeBurst_ranged k hc rest hrest hp' (fun x hx r hxr => ?_)
      (k.takeWord h w (fun r hwr => hc s r _ (hr w List.mem_cons_self r hwr) h))
    rw [State.takeWord_ring hw (fun hwr => hfirst x hx r hwr hxr)]
    exact hr x (List.mem_cons_of_mem _ hx) r hxr

/-- The words of an accepted burst, taken in a state with the same rings. -/
theorem takeAccepted (k : KeepsCommands P)
    (hc : ∀ s r w, (s.writeBack.ring r).inRange (newConsumed w) = true → P s → P (s.takeConsumed r w)) {s u : State} {off : Nat}
    {l : List Beat} (hacc : s.refusalOf (burstWords off l) = none) (hw : u.writeBack = s.writeBack) (h : P u) :
    P (u.takeBurst (burstWords off l)) := by
  by_cases hcommand : ∃ a ∈ burstWords off l, ∃ n, regionOf a.off = .command n
  · obtain ⟨a, ha, n, hn⟩ := hcommand
    exact k.takeBurst_plain _ (fun b hb r => not_consumed_of_command hacc ha hb hn) h
  · refine k.takeBurst_ranged hc _ (fun w hm n hn => hcommand ⟨w, hm, n, hn⟩) (burstWords_consumed_once off l)
      (fun w hm r hr => ?_) h
    rw [hw]
    exact inRange_of_accepted hacc hm hr

end KeepsCommands

/-! ### Properties of write-back -/

theorem State.raise_writeBack_of {Q : WriteBack → Prop} (hmark : ∀ w, Q w → Q w.markStatus) {s : State} (f : EventFlag)
    (h : Q s.writeBack) : Q (s.raise f).writeBack := by
  unfold State.raise
  split
  · exact h
  · exact hmark _ h

theorem State.markStatus_writeBack_of {Q : WriteBack → Prop} (hmark : ∀ w, Q w → Q w.markStatus) {s : State}
    (h : Q s.writeBack) : Q s.markStatus.writeBack := by
  unfold State.markStatus
  split
  · exact h
  · exact hmark _ h

/-- A property of write-back is kept by every command when its own updates keep it. -/
theorem Keeps.ofWriteBack {Q : WriteBack → Prop} (hmark : ∀ w, Q w → Q w.markStatus) (hlose : ∀ w r, Q w → Q (w.lose r))
    (hplace : ∀ w r base c, (w.ring r).held ≠ (w.ring r).capacity → w.queue.length ≠ 16 → Q w → Q (w.place r base c))
    (hload : ∀ w t, Q w → Q (w.load t)) (hsettle : ∀ w, Q w → Q w.settle)
    (hrecord : ∀ w e, w.head = some (.record e) → Q w → Q { w with queue := w.queue.tail, slot := w.slot.advance })
    (hstatus : ∀ w : WriteBack, Q w → Q { w with slot := .empty })
    (houtcome : ∀ w r o p, Q w → Q (w.setRing r { w.ring r with last := o, previous := p }))
    (hconsumed : ∀ w r c, (w.ring r).inRange c = true → Q w → Q (w.setRing r { w.ring r with consumed := c }))
    (hreset : Q State.reset.writeBack) : Keeps (fun s => Q s.writeBack) := by
  have hraise : ∀ (s : State) f, Q s.writeBack → Q (s.raise f).writeBack := fun _ f h => State.raise_writeBack_of hmark f h
  have hms : ∀ s : State, Q s.writeBack → Q s.markStatus.writeBack := fun _ h => State.markStatus_writeBack_of hmark h
  have k : KeepsCommands (fun s => Q s.writeBack) :=
    { raise := hraise
      produce := fun s r c h => by
        unfold State.produce
        split
        · exact hraise _ _ (hlose _ _ h)
        · split
          · exact hraise _ _ (hlose _ _ h)
          · rename_i hfull hqueue
            exact hms { s with writeBack := s.writeBack.place r (s.transit.areaBase r.area) c } (hplace _ _ _ _ hfull hqueue h)
      action := fun _ _ _ _ _ h => h
      enqueue := fun _ _ _ h => h
      dequeue := fun _ _ _ _ h => h
      occupy := fun _ _ _ _ h => h
      exceedance := fun _ _ _ _ h => h
      route := fun _ _ _ h => h
      tracker := fun _ _ _ _ h => h
      geometry := fun _ _ _ h => h
      assembler := fun _ _ _ h => h
      append := fun _ _ _ _ _ _ h => h
      tap := fun _ _ h => h
      runState := fun _ _ _ _ h => hraise _ _ h
      markStatus := hms
      odometer := fun _ _ _ h => h
      control := fun _ _ _ _ _ _ _ h => h
      cancel := fun _ _ _ h => h
      cancelAll := fun _ h => h
      actionRelease := fun _ h => h
      clearTrackers := fun _ h => h
      arm := fun _ _ h => hraise _ _ (hload _ _ h)
      releaseAreas := fun _ h => h
      storeWord := fun _ _ _ h => h
      takeMask := fun _ _ h => h }
  exact
    { k with
      settle := fun _ h => hsettle _ h
      acknowledge := fun s cap h => by
        unfold State.acknowledge
        dsimp only
        split
        · exact h
        · exact hms { s with control := Control.evalInt { s.control with events := ackEvents s.control.events cap } } h
      free := fun _ _ h => h
      tick := fun s h => by rw [s.tick_frame]; exact h
      freeSlot := fun _ _ _ _ h => h
      transit := fun _ _ _ _ _ _ _ h => h
      freeEntry := fun _ _ _ _ _ h => h
      stage := fun _ _ _ _ _ _ _ h => h
      hold := fun _ _ _ _ _ _ _ _ _ h => h
      present := fun _ _ _ _ _ h => h
      refuse := fun _ _ _ _ h => h
      anchor := fun _ _ _ h => State.markStatus_writeBack_of hmark h
      presentRecord := fun _ _ e hh _ h => hrecord _ e hh h
      presentStatus := fun _ _ _ _ h => hstatus _ h
      outcome := fun _ r o p h => houtcome _ r o p h
      consumedWord := fun _ r w hw h => hconsumed _ r _ hw h
      controlWrite := fun _ _ _ _ hacc h => k.takeAccepted (fun _ r w hw h => hconsumed _ r _ hw h) hacc rfl h
      portReset := fun _ h => h
      portRelease := fun _ h => h
      hardwareReset := fun _ _ => hreset
      resetRelease := fun _ h => h }

/-! ### The end of every event (R187) -/

/-- After the end of an event no status write is without a place. -/
theorem settled_settle (s : State) : Settled s.settle := by
  unfold Settled State.settle WriteBack.settle
  cases hs : s.writeBack.slot <;> simp [hs]

/-- The outcome of a command, where it is a state, is settled. -/
def EndsSettled (o : Host.Outcome State Fault Refusal) : Prop := ∀ t, o = .next t → Settled t

theorem endsSettled_next {s : State} (h : Settled s) : EndsSettled (.next s) := fun _ ht => by cases ht; exact h

theorem endsSettled_settle (s : State) : EndsSettled (.next s.settle) := endsSettled_next (settled_settle s)

/-- Every command leaves a settled part settled. -/
theorem exec_endsSettled (c : Instr) {s : State} (h : Settled s) : EndsSettled (exec c s) := by
  have same := endsSettled_next h
  cases c
  case requestTaken req last =>
    show EndsSettled (execRequestTaken req last s)
    unfold execRequestTaken State.offerRequest
    split
    · split
      · exact same
      · split
        · exact endsSettled_settle _
        · exact endsSettled_next h
    · exact same
  case dataBeatReceived req b =>
    show EndsSettled (execDataBeatReceived req b s)
    unfold execDataBeatReceived
    split
    · exact same
    · exact endsSettled_next h
  case systemHeadPresented =>
    show EndsSettled (execSystemHeadPresented s)
    unfold execSystemHeadPresented
    split
    · exact same
    · split
      · exact endsSettled_settle _
      · exact same
  case controlWrite =>
    show EndsSettled (execControlWrite s)
    unfold execControlWrite
    split
    · exact same
    · split
      · exact endsSettled_settle _
      · exact same
  case writebackHeadPresented =>
    show EndsSettled (execWritebackHeadPresented s)
    unfold execWritebackHeadPresented
    split
    · split
      · exact endsSettled_settle _
      · exact same
    · exact same
  case memoryResponse tag status data =>
    show EndsSettled (execMemoryResponse tag status data s)
    unfold execMemoryResponse
    split
    · exact same
    · split
      · exact same
      · exact same
      · exact endsSettled_next h
      · exact endsSettled_settle _
  case systemResponseDelivered =>
    show EndsSettled (execSystemResponseDelivered s)
    unfold execSystemResponseDelivered
    split
    · exact same
    · exact endsSettled_next h
  case silenceTimerExpiry i =>
    show EndsSettled (execSilenceTimerExpiry i s)
    unfold execSilenceTimerExpiry
    dsimp only
    split
    · exact same
    · split
      · exact endsSettled_settle _
      · exact same
  case pointDeadlineExpiry n =>
    show EndsSettled (execPointDeadlineExpiry n s)
    unfold execPointDeadlineExpiry
    split
    · exact same
    · split
      · exact endsSettled_settle _
      · exact same
  case pulseRelease slot =>
    show EndsSettled (execPulseRelease slot s)
    unfold execPulseRelease
    split
    · split
      · exact endsSettled_next h
      · exact same
    · exact same
  case lineFilterSample l =>
    show EndsSettled (execLineFilterSample l s)
    unfold execLineFilterSample
    split
    · exact same
    · exact endsSettled_settle _
  case hardwareResetRelease l =>
    show EndsSettled (execHardwareResetRelease l s)
    unfold execHardwareResetRelease
    split
    · rw [State.tick_frame]
      exact endsSettled_next h
    · exact same
  case portReset | portResetRelease => exact endsSettled_next h
  case hardwareReset => exact endsSettled_next (fun h => StatusSlot.noConfusion h)
  all_goals exact endsSettled_settle _

/-- Every step leaves a settled part settled. -/
theorem step_settled {s t : State} (h : Settled s) (hstep : step s = .next t) : Settled t := by
  unfold step at hstep
  split at hstep
  · cases hstep; exact h
  · rename_i c rest _
    exact exec_endsSettled c (s := { s with pending := rest }) h t hstep

end Sys2Proof.Machine
end

section
/-! SUPPORT. The bounds of the queues; the rings, the open runs and the route cursor. -/

namespace Sys2Proof.Machine

/-! ### The bounds of the queues (R2, R15, R73, R104, R186, R187) -/

/-- What a release keeps and what it frees are the hold list. -/
theorem HoldsReleased.length_add {w : OwnWrite} : ∀ {holds : List Held} {gone : List SysTag} {kept : List Held} {freed : List Request},
    HoldsReleased w gone holds kept freed → kept.length + freed.length = holds.length
  | [], _, _, _, ⟨hk, hf⟩ => by rw [hk, hf]; rfl
  | _ :: _, _, _, _, .inl ⟨_, _, _, hf, hrest⟩ => by
    have := hrest.length_add
    rw [hf, List.length_cons, List.length_cons]
    omega
  | _ :: _, _, _, _, .inr ⟨_, _, _, hk, _, _, _, hrest⟩ => by
    have := hrest.length_add
    rw [hk, List.length_cons, List.length_cons]
    omega

/-- The forwarding stage and the hold list together hold at most 8 requests. -/
def Transit.Bounded (x : Transit) : Prop := x.stage.length + x.holds.length ≤ 8

/-- Neither list has grown, the two together. -/
theorem Transit.Bounded.of_le {x y : Transit} (h : x.Bounded)
    (hle : y.stage.length + y.holds.length ≤ x.stage.length + x.holds.length) : y.Bounded := Nat.le_trans hle h

theorem keeps_transitBounded : Keeps (fun s => s.transit.Bounded) := by
  refine Keeps.ofTransit (fun _ _ h => h) (fun _ h => h) (fun y x _ _ _ hs hh h => h.of_le (Nat.le_of_eq (by rw [hs, hh])))
    (fun _ _ _ _ _ h => h) (fun x r hs hh _ _ => ?_) (fun x r writes held hs hh _ _ => ?_) (fun x r rest _ hs h => ?_)
    (fun x r rest hs h => ?_) (fun _ _ h => h) (fun _ _ _ _ h => h) (fun x w h => ?_) (fun _ _ => Nat.zero_le _)
    (fun _ _ => Nat.zero_le _)
  · show (insertStage r x.stage).length + x.holds.length ≤ 8
    rw [hs]
    simp only [insertStage, List.length_cons, List.length_nil]
    omega
  · show x.stage.length + (x.holds ++ [_]).length ≤ 8
    rw [hs]
    simp only [List.length_append, List.length_cons, List.length_nil]
    omega
  · exact h.of_le (by rw [hs]; show rest.length + x.holds.length ≤ _; simp)
  · exact h.of_le (by rw [hs]; show rest.length + x.holds.length ≤ _; simp)
  · obtain ⟨freed, hrel, hstage, _⟩ := x.releaseHolds_spec w
    have hkept := hrel.length_add
    have hlen := hstage.length_eq
    rw [List.length_append] at hlen
    exact h.of_le (by omega)

/-- At most 4 passages are latched and at most 8 points are pending. -/
def RunBlocks.QueuesBounded (b : RunBlocks) : Prop := b.odometer.latches.length ≤ 4 ∧ b.assembler.queue.length ≤ 8

theorem keeps_runQueuesBounded : Keeps (fun s => s.run.QueuesBounded) :=
  Keeps.ofRun (Q := RunBlocks.QueuesBounded) (fun _ _ _ _ _ h => h) (fun _ _ _ h => h) (fun _ _ _ _ h => h)
    (fun _ _ _ _ h => h) (fun _ _ _ _ h => h) (fun _ _ _ h => h) (fun _ h => h) (fun _ h => h) (fun _ _ _ _ h => h)
    (fun _ _ _ _ h => h) (fun _ _ _ _ h => h) (fun _ h => h) (fun _ _ _ h => h) (fun _ _ hl h => ⟨h.1, Nat.le_trans hl h.2⟩)
    (fun _ _ _ _ hroom h0 h => ⟨h.1, by have := hroom h0.2; simp only [List.length_append, List.length_cons, List.length_nil]; omega⟩)
    (fun _ _ hl h => ⟨hl.elim (fun hle => Nat.le_trans hle h.1) id, h.2⟩) (fun _ _ _ _ _ => ⟨Nat.zero_le _, Nat.zero_le _⟩)
    ⟨Nat.zero_le _, Nat.zero_le _⟩

/-- The write-back queue holds at most 16 records, and a place of the status write lies within it. -/
def WriteBack.Bounded (w : WriteBack) : Prop := w.queue.length ≤ 16 ∧ ∀ n, w.slot = .pending n → n ≤ w.queue.length

theorem StatusSlot.fill_eq_pending {x : StatusSlot} {n : Nat} : x.fill = .pending n ↔ x = .pending n := by cases x <;> simp [StatusSlot.fill]

theorem StatusSlot.advance_eq_pending {x : StatusSlot} {n : Nat} (h : x.advance = .pending n) : ∃ m, x = .pending m ∧ n = m - 1 := by
  cases x with
  | pending m => exact ⟨m, rfl, (StatusSlot.pending.inj h).symm⟩
  | filling => cases h
  | empty => cases h

/-- A change of a ring leaves the queue and the slot alone. -/
theorem WriteBack.Bounded.setRing {w : WriteBack} (h : w.Bounded) (r : Ring) (x : RingState) : (w.setRing r x).Bounded := by
  cases r <;> exact h

theorem keeps_writeBackBounded : Keeps (fun s => s.writeBack.Bounded) := by
  refine Keeps.ofWriteBack (fun w h => ⟨h.1, fun n hn => h.2 n (StatusSlot.fill_eq_pending.mp hn)⟩) (fun _ r h => h.setRing r _)
    (fun w r base c _ hroom h => ?_) (fun _ _ h => h) (fun w h => ?_) (fun w e hhead h => ?_)
    (fun _ h => ⟨h.1, fun _ hn => StatusSlot.noConfusion hn⟩) (fun _ r _ _ h => h.setRing r _) (fun _ r _ _ h => h.setRing r _)
    ⟨Nat.zero_le _, fun _ hn => StatusSlot.noConfusion hn⟩
  · obtain ⟨hlen, hplace⟩ := h
    rw [WriteBack.place_eq]
    refine ⟨?_, fun n hn => ?_⟩
    · simp only [List.length_append, List.length_cons, List.length_nil]
      omega
    · have hslot : w.slot = .pending n := by cases r <;> exact hn
      have := hplace n hslot
      simp only [List.length_append]
      omega
  · unfold WriteBack.settle
    split
    · exact ⟨h.1, fun n hn => Nat.le_of_eq (StatusSlot.pending.inj hn).symm⟩
    · exact h
  · obtain ⟨hlen, hplace⟩ := h
    refine ⟨by rw [List.length_tail]; omega, fun n hn => ?_⟩
    obtain ⟨m, hm, rfl⟩ := StatusSlot.advance_eq_pending hn
    have := hplace m hm
    rw [List.length_tail]
    omega

theorem queuesSound_iff {s : State} :
    QueuesSound s ↔ s.writeBack.Bounded ∧ s.transit.Bounded ∧ s.run.QueuesBounded ∧ Settled s := by
  unfold QueuesSound WriteBack.Bounded Transit.Bounded RunBlocks.QueuesBounded Settled
  cases hs : s.writeBack.slot with
  | filling => simp
  | empty => simp [State.run]
  | pending n =>
    simp only [State.run, StatusSlot.pending.injEq, forall_eq']
    grind

/-- Settles O6: the queues of each unit by its own updates, and every event ends with the status write in its place. -/
theorem queuesStayBounded : Obligations.QueuesStayBounded := by
  unfold Obligations.QueuesStayBounded
  intro s t h hstep
  rw [queuesSound_iff] at h ⊢
  obtain ⟨hwrite, htransit, hrun, hsettled⟩ := h
  exact ⟨keeps_writeBackBounded.step (fun _ _ h => h) hwrite hstep, keeps_transitBounded.step (fun _ _ h => h) htransit hstep,
    keeps_runQueuesBounded.step (fun _ _ h => h) hrun hstep, step_settled hsettled hstep⟩

/-! ### The rings (R184) -/

/-- No ring holds more records for software than its capacity. -/
def WriteBack.RingsHeld (w : WriteBack) : Prop := ∀ r, (w.ring r).held ≤ (w.ring r).capacity

/-- A ring replaced by one that holds its capacity at most. -/
theorem WriteBack.RingsHeld.setRing {w : WriteBack} (h : w.RingsHeld) {r : Ring} {x : RingState} (hx : x.held ≤ x.capacity) :
    (w.setRing r x).RingsHeld := by
  intro q
  by_cases hq : q = r
  · subst hq
    rw [WriteBack.ring_setRing]
    exact hx
  · rw [WriteBack.ring_setRing_other _ _ hq]
    exact h q

/-- Write-back with the same rings. -/
theorem WriteBack.RingsHeld.of_rings {w v : WriteBack} (h : w.RingsHeld) (hr : ∀ r, v.ring r = w.ring r) : v.RingsHeld :=
  fun r => by rw [hr]; exact h r

/-- A consumed index within range leaves no more records held (R30). -/
theorem RingState.held_consumed_le {x : RingState} {c : BitVec 32} (h : x.inRange c = true) : { x with consumed := c }.held ≤ x.held := by
  unfold RingState.inRange at h
  have hle := of_decide_eq_true h
  unfold RingState.held
  dsimp only
  bv_omega

theorem WriteBack.settle_ring (w : WriteBack) (r : Ring) : w.settle.ring r = w.ring r := by
  unfold WriteBack.settle
  split <;> cases r <;> rfl

theorem WriteBack.load_ring (w : WriteBack) (t : Table Word64) (r : Ring) : (w.load t).ring r = .load t r := by cases r <;> rfl

theorem RingState.held_load (t : Table Word64) (r : Ring) : (RingState.load t r).held = 0 := by
  simp [RingState.held, RingState.load]

theorem keeps_ringsHeld : Keeps (fun s => s.writeBack.RingsHeld) :=
  Keeps.ofWriteBack (fun _ h => h.of_rings fun r => by cases r <;> rfl) (fun _ r h => h.setRing (h r))
    (fun w r base c hroom _ h => by
      rw [WriteBack.place_eq]
      refine (h.setRing (r := r) (x := { w.ring r with writeIndex := (w.ring r).writeIndex + 1 }) ?_).of_rings
        (fun q => by cases q <;> cases r <;> rfl)
      exact RingState.held_advance_le (h r) hroom)
    (fun w t _ r => by rw [w.load_ring t r, RingState.held_load]; exact Nat.zero_le _) (fun w h => h.of_rings w.settle_ring)
    (fun _ _ _ h => h.of_rings fun r => by cases r <;> rfl) (fun _ h => h.of_rings fun r => by cases r <;> rfl)
    (fun _ r _ _ h => h.setRing (h r)) (fun _ r _ hc h => h.setRing (Nat.le_trans (RingState.held_consumed_le hc) (h r)))
    (fun r => by cases r <;> exact Nat.zero_le _)

/-! ### The open runs and the route cursor (R141, R149, R156) -/

/-- An open run holds 1 to 4096 records. -/
def Tracker.Sound (t : Tracker) : Prop := ∀ r, t.run = some r → 1 ≤ r.length ∧ r.length ≤ 4096

theorem Tracker.sound_clear : Tracker.Sound .clear := fun _ h => nomatch h

/-- A tracker that has grown by a record stays sound. -/
theorem Tracker.Sound.grows {old new : Tracker} (h : old.Sound) (hg : Tracker.grows old new) : new.Sound := by
  intro r hr
  unfold Tracker.grows at hg
  rw [hr] at hg
  rcases hg with hone | ⟨r0, hr0, hne, hlen⟩
  · omega
  · have := h r0 hr0
    omega

/-- There are eight trackers, each sound, and the cursor lies within the route list. -/
def ExceedanceUnit.Sound (x : ExceedanceUnit) : Prop :=
  (x.trackers.length = 8 ∧ ∀ t ∈ x.trackers, t.Sound) ∧ x.cursor ≤ 64

/-- Eight CLEAR trackers. -/
theorem sound_replicate_clear : (List.replicate 8 Tracker.clear).length = 8 ∧ ∀ t ∈ List.replicate 8 Tracker.clear, t.Sound :=
  ⟨List.length_replicate, fun _ ht => by rw [(List.mem_replicate.mp ht).2]; exact Tracker.sound_clear⟩

theorem ExceedanceUnit.Sound.tracker {x : ExceedanceUnit} (h : x.Sound) (ch : Nat) : (x.tracker ch).Sound := by
  unfold ExceedanceUnit.tracker
  cases hr : x.trackers[ch]? with
  | none => simpa [List.getD_eq_getElem?_getD, hr] using Tracker.sound_clear
  | some t => simpa [List.getD_eq_getElem?_getD, hr] using h.1.2 t (List.mem_of_getElem? hr)

theorem keeps_exceedanceSound : Keeps (fun s => s.run.exceedance.Sound) :=
  Keeps.ofRun (Q := fun b => b.exceedance.Sound) (fun _ _ _ _ _ h => h) (fun _ _ _ h => h) (fun _ _ _ _ h => h)
    (fun _ _ _ _ h => h) (fun _ _ _ _ h => h) (fun _ _ _ h => h) (fun _ h => h) (fun _ h => h)
    (fun _ x ht hc h => by unfold ExceedanceUnit.Sound; rw [ht, hc]; exact h)
    (fun b _ n hn h => ⟨h.1, by have := h.2; show b.exceedance.cursor + n ≤ 64; omega⟩)
    (fun b ch t hg h => ⟨⟨List.length_set.trans h.1.1, fun u hu => (List.mem_or_eq_of_mem_set hu).elim (h.1.2 u)
      (fun hut => by rw [hut]; exact (h.tracker ch).grows hg)⟩, h.2⟩)
    (fun _ h => ⟨⟨List.length_map _ |>.trans h.1.1, fun t ht => by
      obtain ⟨_, _, rfl⟩ := List.mem_map.mp ht; exact Tracker.sound_clear⟩, h.2⟩)
    (fun _ _ _ h => h) (fun _ _ _ h => h) (fun _ _ _ _ _ _ h => h) (fun _ _ _ h => h)
    (fun _ _ _ _ _ => ⟨sound_replicate_clear, Nat.zero_le _⟩) ⟨sound_replicate_clear, Nat.zero_le _⟩

/-- Settles O7: the rings by write-back's updates, the runs and the cursor by those of the exceedance unit. -/
theorem ringsRunsAndCursorStayBounded : Obligations.RingsRunsAndCursorStayBounded := by
  unfold Obligations.RingsRunsAndCursorStayBounded
  exact fun s t hstep => ⟨fun h => keeps_ringsHeld.step (fun _ _ h => h) h hstep,
    fun hruns hcursor => keeps_exceedanceSound.step (fun _ _ h => h) ⟨hruns, hcursor⟩ hstep⟩

end Sys2Proof.Machine
end

section
/-! SUPPORT. The anchor: the control window's base, area A0 and the run state agree, and every command keeps them so. -/

namespace Sys2Proof.Machine

/-! ### Area A0 -/

/-- ARM leaves area A0 alone. -/
theorem read_loadAreas_zero (areas : Table Area) (t : Table Word64) : Table.read (loadAreas areas t) 0 = Table.read areas 0 := by
  have hw : ∀ (l : List Nat) (m : Table Area), (∀ n ∈ l, n ≠ 0) →
      Table.read (l.foldl (fun m n => Table.write m n (areaOf t n)) m) 0 = Table.read m 0 := by
    intro l
    induction l with
    | nil => exact fun _ _ => rfl
    | cons n rest ih =>
      intro m hl
      obtain ⟨hn, hrest⟩ := List.forall_mem_cons.mp hl
      rw [List.foldl_cons, ih _ hrest, Table.read_write_other _ _ (Ne.symm hn)]
  unfold loadAreas
  rw [hw _ _ fun n hn => ?_, Table.read_filter_key areas (fun k => decide (k = 0)), if_pos (by decide)]
  have := (List.mem_filter.mp hn).1
  rintro rfl
  simp at this

/-! ### The anchor (R9, R10, R25) -/

/-- The anchor of a state with the same base, the same run state and the same area A0. -/
theorem AnchorSound.congr {s t : State} (h : AnchorSound s) (hb : t.transit.base = s.transit.base)
    (hr : t.control.runState = s.control.runState) (ha : Table.read t.transit.areas 0 = Table.read s.transit.areas 0) :
    AnchorSound t := by
  unfold AnchorSound at *
  rw [hb, hr, ha]
  exact h

/-- An anchored part stays anchored in another anchored run state. -/
theorem AnchorSound.runState {s t : State} (h : AnchorSound s) (hs : s.control.runState ≠ .unanchored)
    (ht : t.control.runState ≠ .unanchored) (hb : t.transit.base = s.transit.base)
    (ha : Table.read t.transit.areas 0 = Table.read s.transit.areas 0) : AnchorSound t := by
  unfold AnchorSound at *
  rw [hb, ha]
  split at h
  · exact absurd h.1 hs
  · exact ⟨ht, h.2⟩

theorem State.acknowledge_frame (s : State) (cap : Capture) :
    (s.acknowledge cap).transit = s.transit ∧ (s.acknowledge cap).control.runState = s.control.runState := by
  unfold State.acknowledge
  dsimp only
  split
  · exact ⟨rfl, rfl⟩
  · simp [Control.evalInt]

theorem State.tick_transit (s : State) : s.tick.transit = s.transit := by rw [s.tick_frame]

/-- The presentation of a status write keeps the base and the areas. -/
theorem State.presentStatus_frame (s : State) (tag : Nat) :
    (s.presentStatus tag).transit.base = s.transit.base ∧ (s.presentStatus tag).transit.areas = s.transit.areas := by
  obtain ⟨_, _, _, _, _, _, hframe⟩ := (s.statusOnPort tag).releaseHolds_spec .status
  rw [s.presentStatus_eq]
  show ((s.statusOnPort tag).releaseHolds .status).base = _ ∧ ((s.statusOnPort tag).releaseHolds .status).areas = _
  rw [hframe]
  exact ⟨rfl, rfl⟩

/-- The presentation of a record keeps the base and the areas. -/
theorem State.presentRecord_frame (s : State) (tag : Nat) (e : QueuedRecord) :
    (s.presentRecord tag e).transit.base = s.transit.base ∧ (s.presentRecord tag e).transit.areas = s.transit.areas := by
  obtain ⟨_, _, _, _, _, _, hframe⟩ :=
    (s.transit.presentOwn tag e.addr e.content (.ring e.ring)).releaseHolds_spec (.record e.ring e.index)
  show (Transit.releaseHolds _ _).base = _ ∧ (Transit.releaseHolds _ _).areas = _
  rw [hframe]
  exact ⟨rfl, rfl⟩

theorem keepsCommands_anchorSound : KeepsCommands AnchorSound where
  raise s f h := h.congr (by simp) (by simp) (by simp)
  produce s r c h := h.congr (by simp) (by simp) (by simp)
  action _ _ _ _ _ h := h
  enqueue _ _ _ h := h
  dequeue _ _ _ _ h := h
  occupy _ _ _ _ h := h
  exceedance _ _ _ _ h := h
  route _ _ _ h := h
  tracker _ _ _ _ h := h
  geometry _ _ _ h := h
  assembler _ _ _ h := h
  append _ _ _ _ _ _ h := h
  tap _ _ h := h
  runState s r hs hr h := h.runState hs (by rw [s.changeRunState_runState]; exact hr) (by simp) (by simp)
  markStatus s h := h.congr (by simp) (by simp) (by simp)
  odometer _ _ _ h := h
  control s c hr _ _ _ _ h := AnchorSound.congr (t := { s with control := c }) h rfl hr rfl
  cancel _ _ _ h := h
  cancelAll _ h := h
  actionRelease _ h := h
  clearTrackers _ h := h
  arm s hs h := by
    refine h.runState (by rw [hs]; exact RunState.noConfusion) ?_ ?_ ?_
    · unfold State.arm
      rw [State.changeRunState_runState]
      exact RunState.noConfusion
    · unfold State.arm
      rw [State.changeRunState_transit]
      rfl
    · unfold State.arm
      rw [State.changeRunState_transit]
      exact read_loadAreas_zero _ _
  releaseAreas s h := by
    refine AnchorSound.congr
      (t := { s with transit := { s.transit with areas := s.transit.areas.filter (fun e => decide (e.1 = 0)) } }) h rfl rfl ?_
    exact (Table.read_filter_key s.transit.areas (fun k => decide (k = 0)) 0).trans (if_pos (by decide))
  storeWord _ _ _ h := h
  takeMask _ _ h := h

theorem keeps_anchorSound : Keeps AnchorSound :=
  { keepsCommands_anchorSound with
    settle := fun _ h => h
    acknowledge := fun s cap h => by
      obtain ⟨ht, hr⟩ := s.acknowledge_frame cap
      exact h.congr (by rw [ht]) hr (by rw [ht])
    free := fun _ _ h => h
    tick := fun s h => h.congr (by rw [s.tick_transit]) (by rw [s.tick_control]) (by rw [s.tick_transit])
    freeSlot := fun _ _ _ _ h => h
    transit := fun s x hb ha _ _ _ h => AnchorSound.congr (t := { s with transit := x }) h hb rfl (by rw [ha])
    freeEntry := fun _ _ _ _ _ h => h
    stage := fun _ _ _ _ _ _ _ h => h
    hold := fun _ _ _ _ _ _ _ _ _ h => h
    present := fun _ _ _ _ _ h => h
    refuse := fun _ _ _ _ h => h
    anchor := fun s base _ _ => by
      unfold AnchorSound State.anchor
      rw [State.markStatus_transit, State.markStatus_control]
      exact ⟨RunState.noConfusion, Table.read_write_same _ _ _⟩
    presentRecord := fun s tag e _ _ h => by
      obtain ⟨hb, ha⟩ := s.presentRecord_frame tag e
      exact h.congr hb rfl (by rw [ha])
    presentStatus := fun s tag _ _ h => by
      obtain ⟨hb, ha⟩ := s.presentStatus_frame tag
      exact h.congr hb rfl (by rw [ha])
    outcome := fun _ _ _ _ h => h
    consumedWord := fun _ _ _ _ h => h
    controlWrite := fun _ _ _ hs _ h =>
      keepsCommands_anchorSound.controlWrite_of_present (fun _ _ _ _ _ h => h) (fun _ _ _ h => h) hs h
    portReset := fun _ h => h
    portRelease := fun _ h => h
    hardwareReset := fun _ _ => ⟨rfl, rfl⟩
    resetRelease := fun _ h => h }

/-- Settles O8: `keeps_anchorSound` over every step. -/
theorem anchorStaysSound : Obligations.AnchorStaysSound := by
  unfold Obligations.AnchorStaysSound
  exact fun s t h hstep => keeps_anchorSound.step (fun _ _ h => h) h hstep

end Sys2Proof.Machine
end

section
/-! SUPPORT. Held requests wait on something that is queued, and the tags of staged and held requests agree with the in-flight table. -/

namespace Sys2Proof.Machine

/-! ### What a release keeps and frees (R15) -/

/-- A request that stays waits on something still, and on no inserted write but those that it waited on before. -/
theorem HoldsReleased.of_mem_kept {w : OwnWrite} : ∀ {holds : List Held} {gone : List SysTag} {kept : List Held} {freed : List Request},
    HoldsReleased w gone holds kept freed → ∀ h' ∈ kept,
      (h'.waitsWrites ≠ [] ∨ h'.waitsHeld ≠ [])
        ∧ ∃ h ∈ holds, h'.request = h.request ∧ ∀ x ∈ h'.waitsWrites, x ∈ h.waitsWrites ∧ x ≠ w
  | [], _, _, _, ⟨hk, _⟩, _, hm => by rw [hk] at hm; cases hm
  | _ :: _, _, _, _, .inl ⟨_, _, _, _, hrest⟩, h', hm => by
    obtain ⟨hwaits, h, hh, hfrom⟩ := hrest.of_mem_kept h' hm
    exact ⟨hwaits, h, List.mem_cons_of_mem _ hh, hfrom⟩
  | a :: _, _, _, _, .inr ⟨hstays, a', _, hk, hreq, hwrites, hheld, hrest⟩, h', hm => by
    rw [hk] at hm
    rcases List.mem_cons.mp hm with rfl | hm
    · refine ⟨?_, a, List.mem_cons_self, hreq, fun x hx => (hwrites x).mp hx⟩
      rcases hstays with ⟨x, hx, hne⟩ | ⟨tag, ht, hgone⟩
      · exact Or.inl (List.ne_nil_of_mem ((hwrites x).mpr ⟨hx, hne⟩))
      · exact Or.inr (List.ne_nil_of_mem ((hheld tag).mpr ⟨ht, hgone⟩))
    · obtain ⟨hwaits, h, hh, hfrom⟩ := hrest.of_mem_kept h' hm
      exact ⟨hwaits, h, List.mem_cons_of_mem _ hh, hfrom⟩

/-- The tags of what stays and of what is freed are those of the hold list. -/
theorem HoldsReleased.tags_perm {w : OwnWrite} : ∀ {holds : List Held} {gone : List SysTag} {kept : List Held} {freed : List Request},
    HoldsReleased w gone holds kept freed → (freed.map (·.tag) ++ kept.map (·.request.tag)).Perm (holds.map (·.request.tag))
  | [], _, _, _, ⟨hk, hf⟩ => by rw [hk, hf]; exact List.Perm.refl _
  | _ :: _, _, _, _, .inl ⟨_, _, _, hf, hrest⟩ => by
    rw [hf]
    exact hrest.tags_perm.cons _
  | _ :: _, _, _, _, .inr ⟨_, _, _, hk, hreq, _, _, hrest⟩ => by
    rw [hk, List.map_cons, List.map_cons, hreq]
    exact List.perm_middle.trans (hrest.tags_perm.cons _)

/-! ### What held requests wait on (R14, R15) -/

/-- An inserted write is queued in write-back. -/
def WriteBack.Holds (w : WriteBack) : OwnWrite → Prop
  | .record r i => ∃ e ∈ w.queue, e.ring = r ∧ e.index = i
  | .status => w.slot.queued = true

theorem waitsSound_iff {s : State} :
    WaitsSound s ↔ ∀ h ∈ s.transit.holds, (h.waitsWrites ≠ [] ∨ h.waitsHeld ≠ []) ∧ ∀ x ∈ h.waitsWrites, s.writeBack.Holds x :=
  Iff.rfl

/-- Write-back that has lost no record and no status write holds what it held. -/
theorem WriteBack.Holds.mono {w v : WriteBack} {x : OwnWrite} (h : w.Holds x) (hq : ∀ e ∈ w.queue, e ∈ v.queue)
    (hs : w.slot.queued = true → v.slot.queued = true) : v.Holds x := by
  cases x with
  | record r i =>
    obtain ⟨e, he, hri⟩ := h
    exact ⟨e, hq e he, hri⟩
  | status => exact hs h

/-- The same hold list, with nothing gone from write-back. -/
theorem WaitsSound.mono {s t : State} (h : WaitsSound s) (hh : t.transit.holds = s.transit.holds)
    (hw : ∀ x, s.writeBack.Holds x → t.writeBack.Holds x) : WaitsSound t := by
  rw [waitsSound_iff] at h ⊢
  rw [hh]
  exact fun a ha => ⟨(h a ha).1, fun x hx => hw x ((h a ha).2 x hx)⟩

/-- A release of what waited on an inserted write that alone leaves write-back. -/
theorem WaitsSound.release {s t : State} {x : Transit} {w : OwnWrite} (h : WaitsSound s) (hx : x.holds = s.transit.holds)
    (ht : t.transit.holds = (x.releaseHolds w).holds) (hw : ∀ y, y ≠ w → s.writeBack.Holds y → t.writeBack.Holds y) : WaitsSound t := by
  obtain ⟨_, hrel, _⟩ := x.releaseHolds_spec w
  rw [waitsSound_iff] at h ⊢
  rw [ht]
  intro h' hm
  obtain ⟨hwaits, a, ha, _, hfrom⟩ := hrel.of_mem_kept h' hm
  rw [hx] at ha
  exact ⟨hwaits, fun y hy => hw y (hfrom y hy).2 ((h a ha).2 y (hfrom y hy).1)⟩

theorem StatusSlot.queued_fill (x : StatusSlot) : x.fill.queued = true := by cases x <;> rfl

theorem StatusSlot.queued_advance (x : StatusSlot) : x.advance.queued = x.queued := by cases x <;> rfl

theorem WriteBack.Holds.markStatus {w : WriteBack} {x : OwnWrite} (h : w.Holds x) : w.markStatus.Holds x :=
  h.mono (fun _ he => he) (fun _ => StatusSlot.queued_fill _)

theorem WriteBack.Holds.setRing {w : WriteBack} {x : OwnWrite} (h : w.Holds x) (r : Ring) (y : RingState) : (w.setRing r y).Holds x := by
  cases r <;> exact h

theorem WriteBack.Holds.place {w : WriteBack} {x : OwnWrite} (h : w.Holds x) (r : Ring) (base : Addr) (c : List Word64) :
    (w.place r base c).Holds x := by
  rw [WriteBack.place_eq]
  exact h.mono (fun _ he => List.mem_append_left _ he) (fun hs => by cases r <;> exact hs)

theorem WriteBack.Holds.settle {w : WriteBack} {x : OwnWrite} (h : w.Holds x) : w.settle.Holds x := by
  unfold WriteBack.settle
  split
  · exact h.mono (fun _ he => he) (fun _ => rfl)
  · exact h

theorem WaitsSound.raise {s : State} (f : EventFlag) (h : WaitsSound s) : WaitsSound (s.raise f) :=
  h.mono (by simp) fun x hx => State.raise_writeBack_of (Q := fun w => w.Holds x) (fun _ hw => hw.markStatus) f hx

theorem WaitsSound.markStatus {s : State} (h : WaitsSound s) : WaitsSound s.markStatus :=
  h.mono (by simp) fun x hx => State.markStatus_writeBack_of (Q := fun w => w.Holds x) (fun _ hw => hw.markStatus) hx

theorem WaitsSound.lose {s : State} (r : Ring) (h : WaitsSound s) : WaitsSound { s with writeBack := s.writeBack.lose r } :=
  WaitsSound.mono (t := { s with writeBack := s.writeBack.lose r }) h rfl fun _ hx => hx.setRing r _

theorem WaitsSound.produce {s : State} (r : Ring) (c : List Word64) (h : WaitsSound s) : WaitsSound (s.produce r c) := by
  unfold State.produce
  split
  · exact (h.lose r).raise _
  · split
    · exact (h.lose r).raise _
    · exact (WaitsSound.mono (t := { s with writeBack := s.writeBack.place r (s.transit.areaBase r.area) c }) h rfl
        fun _ hx => hx.place r _ _).markStatus

theorem WaitsSound.acknowledge {s : State} (cap : Capture) (h : WaitsSound s) : WaitsSound (s.acknowledge cap) := by
  unfold State.acknowledge
  dsimp only
  split
  · exact h
  · exact WaitsSound.markStatus (s := { s with control := Control.evalInt { s.control with events := ackEvents s.control.events cap } }) h

/-- A request held with what it overlaps, which is something (R14). -/
theorem WaitsSound.hold {s : State} (h : WaitsSound s) (r : Request) (n : Nat) {req : RequestFields}
    (hw : ¬((s.waitsOf req).1 = [] ∧ (s.waitsOf req).2 = [])) :
    WaitsSound { s with transit :=
        Transit.holdRequest { s.transit with takenCount := n } r (s.waitsOf req).1 (s.waitsOf req).2 } := by
  rw [waitsSound_iff] at h ⊢
  intro a ha
  rcases List.mem_append.mp ha with ha | ha
  · exact h a ha
  · rw [List.mem_singleton.mp ha]
    refine ⟨?_, fun x hx => ?_⟩
    · rwa [← Classical.not_and_iff_not_or_not]
    · obtain ⟨_, hov⟩ := (mem_waitsOf.1 x).mp hx
      cases x with
      | record q i =>
        obtain ⟨e, he, hr, hi, _⟩ := hov
        exact ⟨e, he, hr, hi⟩
      | status => exact hov.1

/-- The record that is presented alone leaves the queue. -/
theorem WaitsSound.presentRecord {s : State} (h : WaitsSound s) (tag : Nat) {e : QueuedRecord}
    (hh : s.writeBack.head = some (.record e)) : WaitsSound (s.presentRecord tag e) := by
  obtain ⟨rest, hq⟩ : ∃ rest, s.writeBack.queue = e :: rest := by
    unfold WriteBack.head at hh
    split at hh
    · cases hh
    · cases hh
    · rename_i e' rest hq _; cases hh; exact ⟨rest, hq⟩
    · cases hh
  refine h.release (x := s.transit.presentOwn tag e.addr e.content (.ring e.ring)) rfl rfl fun y hne hy => ?_
  cases y with
  | record r i =>
    obtain ⟨a, ha, hr, hi⟩ := hy
    rw [hq] at ha
    rcases List.mem_cons.mp ha with rfl | ha
    · exact absurd (by rw [hr, hi]) hne
    · exact ⟨a, by show a ∈ s.writeBack.queue.tail; rw [hq]; exact ha, hr, hi⟩
  | status => exact (StatusSlot.queued_advance _).trans hy

/-- The status write that is presented alone leaves its slot. -/
theorem WaitsSound.presentStatus {s : State} (h : WaitsSound s) (tag : Nat) : WaitsSound (s.presentStatus tag) := by
  rw [s.presentStatus_eq]
  refine h.release (x := s.statusOnPort tag) rfl rfl fun y hne hy => ?_
  cases y with
  | record r i => exact hy
  | status => exact absurd rfl hne

theorem keepsCommands_waitsSound : KeepsCommands WaitsSound where
  raise _ f h := h.raise f
  produce _ r c h := h.produce r c
  action _ _ _ _ _ h := h
  enqueue _ _ _ h := h
  dequeue _ _ _ _ h := h
  occupy _ _ _ _ h := h
  exceedance _ _ _ _ h := h
  route _ _ _ h := h
  tracker _ _ _ _ h := h
  geometry _ _ _ h := h
  assembler _ _ _ h := h
  append _ _ _ _ _ _ h := h
  tap _ _ h := h
  runState s r _ _ h := by
    unfold State.changeRunState
    exact WaitsSound.raise _ h
  markStatus _ h := h.markStatus
  odometer _ _ _ h := h
  control _ _ _ _ _ _ _ h := h
  cancel _ _ _ h := h
  cancelAll _ h := h
  actionRelease _ h := h
  clearTrackers _ h := h
  arm s _ h := by
    unfold State.arm State.changeRunState
    exact WaitsSound.raise _ h
  releaseAreas _ h := h
  storeWord _ _ _ h := h
  takeMask _ _ h := h

theorem keeps_waitsSound : Keeps WaitsSound :=
  { keepsCommands_waitsSound with
    settle := fun s h => WaitsSound.mono (t := s.settle) h rfl fun _ hx => hx.settle
    acknowledge := fun _ cap h => h.acknowledge cap
    free := fun _ _ h => h
    tick := fun s h => by rw [s.tick_frame]; exact h
    freeSlot := fun _ _ _ _ h => h
    transit := fun s x _ _ _ _ hh h => WaitsSound.mono (t := { s with transit := x }) h hh fun _ hx => hx
    freeEntry := fun _ _ _ _ _ h => h
    stage := fun _ _ _ _ _ _ _ h => h
    hold := fun _ r n _ _ _ _ _ hw h => h.hold r n hw
    present := fun _ _ _ _ _ h => h
    refuse := fun _ _ _ _ h => h
    anchor := fun s base _ h => by
      unfold State.anchor
      exact WaitsSound.markStatus h
    presentRecord := fun _ tag _ hh _ h => h.presentRecord tag hh
    presentStatus := fun _ tag _ _ h => h.presentStatus tag
    outcome := fun s r o p h => WaitsSound.mono
      (t := { s with writeBack := s.writeBack.setRing r { s.writeBack.ring r with last := o, previous := p } }) h rfl
      fun _ hx => hx.setRing r _
    consumedWord := fun s r w _ h => WaitsSound.mono (t := s.takeConsumed r w) h rfl fun _ hx => hx.setRing r _
    controlWrite := fun _ _ _ hs _ h => keepsCommands_waitsSound.controlWrite_of_present (fun _ _ _ _ _ h => h)
      (fun s r w h => WaitsSound.mono (t := s.takeConsumed r w) h rfl fun _ hx => hx.setRing r _) hs h
    portReset := fun _ _ => fun _ hm => nomatch hm
    portRelease := fun _ h => h
    hardwareReset := fun _ _ => fun _ hm => nomatch hm
    resetRelease := fun _ h => h }

/-! ### The tags of staged and held requests (R5) -/

/-- The tags of staged and held requests are different, and their entries say STAGED and HELD. -/
def Transit.Tagged (x : Transit) : Prop :=
  (x.stage.map (·.tag) ++ x.holds.map (·.request.tag)).Nodup
    ∧ (∀ r ∈ x.stage, (x.entry r.tag.toNat).map (·.phase) = some .staged)
    ∧ ∀ h ∈ x.holds, (x.entry h.request.tag.toNat).map (·.phase) = some .held

/-- The transit unit with the same holds and a part of the stage, whose entries are as they were. -/
theorem Transit.Tagged.mono {x y : Transit} (h : x.Tagged) (hs : y.stage.Sublist x.stage) (hh : y.holds = x.holds)
    (hes : ∀ r ∈ y.stage, y.entry r.tag.toNat = x.entry r.tag.toNat)
    (heh : ∀ a ∈ x.holds, y.entry a.request.tag.toNat = x.entry a.request.tag.toNat) : y.Tagged := by
  obtain ⟨hnodup, hstaged, hheld⟩ := h
  refine ⟨?_, fun r hr => by rw [hes r hr]; exact hstaged r (hs.subset hr), fun a ha => ?_⟩
  · rw [hh]
    exact hnodup.sublist ((hs.map _).append (List.Sublist.refl _))
  · rw [hh] at ha
    rw [heh a ha]
    exact hheld a ha

/-- The head of the stage has left, and only its entry has changed. -/
theorem Transit.Tagged.tail {x y : Transit} {r : Request} {rest : List Request} (h : x.Tagged) (hx : x.stage = r :: rest)
    (hs : y.stage = rest) (hh : y.holds = x.holds) (he : ∀ k, k ≠ r.tag.toNat → y.entry k = x.entry k) : y.Tagged := by
  have hnodup := h.1
  rw [hx, List.map_cons, List.cons_append, List.nodup_cons, List.mem_append] at hnodup
  have hne : ∀ tag : SysTag, tag ≠ r.tag → tag.toNat ≠ r.tag.toNat := fun tag hn hc => hn (BitVec.eq_of_toNat_eq hc)
  refine h.mono (by rw [hs, hx]; exact List.sublist_cons_self _ _) hh (fun q hq => he _ (hne _ ?_)) fun a ha => he _ (hne _ ?_)
  · rintro hc
    rw [hs] at hq
    exact hnodup.1 (Or.inl (hc ▸ List.mem_map_of_mem hq))
  · rintro hc
    exact hnodup.1 (Or.inr (hc ▸ List.mem_map_of_mem (f := fun a : Held => a.request.tag) ha))

/-- A FREE tag is not the tag of a held request. -/
theorem Transit.Tagged.held_ne {x : Transit} (h : x.Tagged) {tag : SysTag} (he : x.entry tag.toNat = none) {a : Held}
    (ha : a ∈ x.holds) : a.request.tag ≠ tag := by
  rintro rfl
  have := h.2.2 a ha
  rw [he] at this
  cases this

theorem Transit.entry_setEntry (x : Transit) (tag k : Nat) (e : Entry) :
    (x.setEntry tag e).entry k = if k = tag then some e else x.entry k := Table.read_write ..

theorem Transit.entry_freeEntry (x : Transit) (tag k : Nat) : (x.freeEntry tag).entry k = if k = tag then none else x.entry k :=
  Table.read_remove ..

theorem Transit.Tagged.stage {x : Transit} (h : x.Tagged) {r : Request} (hs : x.stage = []) (he : x.entry r.tag.toNat = none) :
    (x.stageRequest r).Tagged := by
  have hstage : (x.stageRequest r).stage = [r] := by
    show insertStage r x.stage = [r]
    rw [hs]
    rfl
  have hentry : ∀ k, (x.stageRequest r).entry k = if k = r.tag.toNat then some (r.entry .staged none) else x.entry k :=
    fun k => Transit.entry_setEntry _ _ _ _
  have hnew := fun a ha => Transit.Tagged.held_ne h he (a := a) ha
  obtain ⟨hnodup, _, hheld⟩ := h
  refine ⟨?_, fun q hq => ?_, fun a ha => ?_⟩
  · rw [hstage]
    rw [hs] at hnodup
    refine List.nodup_cons.mpr ⟨fun hm => ?_, hnodup⟩
    obtain ⟨a, ha, hc⟩ := List.mem_map.mp hm
    exact hnew a ha hc
  · rw [hstage] at hq
    rw [List.mem_singleton.mp hq, hentry, if_pos rfl]
    rfl
  · rw [hentry, if_neg fun hc => hnew a ha (BitVec.eq_of_toNat_eq hc)]
    exact hheld a ha

theorem Transit.Tagged.hold {x : Transit} (h : x.Tagged) {r : Request} (hs : x.stage = []) (he : x.entry r.tag.toNat = none)
    (writes : List OwnWrite) (held : List SysTag) : (x.holdRequest r writes held).Tagged := by
  have hentry : ∀ k, (x.holdRequest r writes held).entry k = if k = r.tag.toNat then some (r.entry .held none) else x.entry k :=
    fun k => Transit.entry_setEntry _ _ _ _
  have hnew := fun a ha => Transit.Tagged.held_ne h he (a := a) ha
  obtain ⟨hnodup, _, hheld⟩ := h
  refine ⟨?_, fun q hq => ?_, fun a ha => ?_⟩
  · show (x.stage.map _ ++ (x.holds ++ [_]).map _).Nodup
    rw [hs] at hnodup ⊢
    rw [List.map_append, List.map_nil, List.nil_append]
    refine List.nodup_append.mpr ⟨hnodup, List.pairwise_singleton _ _, fun tag ht u hu => ?_⟩
    obtain ⟨a, ha, rfl⟩ := List.mem_map.mp ht
    rw [List.mem_singleton.mp hu]
    exact hnew a ha
  · have : q ∈ x.stage := hq
    rw [hs] at this
    cases this
  · rw [hentry]
    split
    · rfl
    · rename_i hne
      rcases List.mem_append.mp ha with ha | ha
      · exact hheld a ha
      · rw [List.mem_singleton.mp ha] at hne
        exact absurd rfl hne

/-- Released requests change from HELD to STAGED and keep their tags. -/
theorem Transit.Tagged.release {x : Transit} (h : x.Tagged) (w : OwnWrite) : (x.releaseHolds w).Tagged := by
  obtain ⟨freed, hrel, hstage, _, hfreed, hother, _⟩ := x.releaseHolds_spec w
  obtain ⟨hnodup, hstaged, hheld⟩ := h
  have htags := hrel.tags_perm
  have hnew : (freed.map (·.tag) ++ (x.releaseHolds w).holds.map (·.request.tag)).Nodup :=
    htags.nodup_iff.mpr (List.nodup_append.mp hnodup).2.1
  have hentry : ∀ tag : SysTag, (∀ r ∈ freed, tag ≠ r.tag) → (x.releaseHolds w).entry tag.toNat = x.entry tag.toNat :=
    fun tag hn => hother _ fun r hr hc => hn r hr (BitVec.eq_of_toNat_eq hc)
  refine ⟨?_, fun r hr => ?_, fun a ha => ?_⟩
  · refine List.Perm.nodup_iff ?_ |>.mpr hnodup
    have hmap := hstage.map (fun r : Request => r.tag)
    rw [List.map_append] at hmap
    refine (hmap.append_right _).trans ?_
    rw [List.append_assoc]
    exact htags.append_left _
  · by_cases hf : ∃ f ∈ freed, r.tag = f.tag
    · obtain ⟨f, hf, hc⟩ := hf
      rw [hc]
      exact hfreed f hf
    · rw [hentry r.tag fun f hm hc => hf ⟨f, hm, hc⟩]
      rcases List.mem_append.mp (hstage.mem_iff.mp hr) with hr | hr
      · exact hstaged r hr
      · exact absurd ⟨r, hr, rfl⟩ hf
  · obtain ⟨_, b, hb, hreq, _⟩ := hrel.of_mem_kept a ha
    rw [hentry a.request.tag fun f hf hc => ?_, hreq]
    · exact hheld b hb
    · exact (List.nodup_append.mp hnew).2.2 _ (List.mem_map_of_mem hf) _
        (List.mem_map_of_mem (f := fun a : Held => a.request.tag) ha) hc.symm

theorem keeps_tagged : Keeps (fun s => s.transit.Tagged) := by
  refine Keeps.ofTransit (fun _ _ h => h) (fun _ h => h) (fun y x _ _ hi hs hh h => ?_) (fun x tag e he hp h => ?_)
    (fun x r hs _ he h => h.stage hs he) (fun x r writes held hs _ he h => h.hold hs he writes held) (fun x r rest cap hs h => ?_)
    (fun x r rest hs h => ?_) (fun _ _ h => h) (fun x tag e ht h => ?_) (fun x w h => h.release w)
    (fun _ _ => ⟨List.nodup_nil, fun _ hm => (nomatch hm), fun _ hm => (nomatch hm)⟩)
    (fun _ _ => ⟨List.nodup_nil, fun _ hm => (nomatch hm), fun _ hm => (nomatch hm)⟩)
  · unfold Transit.Tagged Transit.entry
    rw [hi, hs, hh]
    exact h
  · have hne : ∀ k p, (x.entry k).map (·.phase) = some p → p = .staged ∨ p = .held → k ≠ tag := by
      rintro k p hk hph rfl
      rw [he] at hk
      simp only [Option.map_some, Option.some.injEq] at hk
      rw [hk] at hp
      rcases hph with rfl | rfl <;> rcases hp with hp | hp <;> cases hp
    have hentry : ∀ k, k ≠ tag → (x.freeEntry tag).entry k = x.entry k :=
      fun k hk => (x.entry_freeEntry tag k).trans (if_neg hk)
    exact h.mono (List.Sublist.refl _) rfl (fun r hr => hentry _ (hne _ _ (h.2.1 r hr) (Or.inl rfl)))
      fun a ha => hentry _ (hne _ _ (h.2.2 a ha) (Or.inr rfl))
  · exact h.tail hs rfl rfl fun k hk => (Transit.entry_setEntry _ _ _ _).trans (if_neg hk)
  · exact h.tail hs rfl rfl fun k hk => (Transit.entry_freeEntry _ _ _).trans (if_neg hk)
  · have hentry : ∀ t : SysTag, (x.setEntry tag e).entry t.toNat = x.entry t.toNat :=
      fun t => (x.entry_setEntry tag t.toNat e).trans (if_neg (by have := t.isLt; omega))
    exact h.mono (List.Sublist.refl _) rfl (fun r _ => hentry r.tag) fun a _ => hentry a.request.tag

/-- Settles O9: what held requests wait on, and the tags, each kept by every step. -/
theorem transitStaysSound : Obligations.TransitStaysSound := by
  unfold Obligations.TransitStaysSound
  exact fun s t hstep => ⟨fun h => keeps_waitsSound.step (fun _ _ h => h) h hstep,
    fun h => keeps_tagged.step (fun _ _ h => h) h hstep⟩

end Sys2Proof.Machine
end

section
/-! SUPPORT. The queue of commands and the reset state; requests and beats that wait; counts, quadrature errors and passages. -/

namespace Sys2Proof.Machine

/-! ### The queue of commands and the reset state -/

/-- Settles O1: `step` by its two cases. -/
theorem stepRunsFrontCommand : Obligations.StepRunsFrontCommand := by
  unfold Obligations.StepRunsFrontCommand
  refine ⟨fun c rest s hp => ?_, fun s hp => ?_⟩
  · unfold step
    rw [hp]
  · unfold step
    rw [hp]

theorem reset_ring (r : Ring) :
    State.reset.writeBack.ring r = { capacity := 0, writeIndex := 0, consumed := 0, lost := 0, last := .none, previous := .none } := by
  cases r <;> rfl

theorem reset_entry (p : BitVec 3) (ch : Nat) :
    State.reset.exceedance.entry p ch = { alert := 0, limit := 0, minLength := 0, mark := false } := by
  show ((List.replicate 8 (List.replicate 8 ProfileEntry.zero)).getD p.toNat []).getD ch .zero = .zero
  rw [getD_replicate_of_lt p.isLt, List.getD_eq_getElem?_getD, List.getElem?_replicate]
  split <;> rfl

/-- Settles O2: each block's reset values, and that empty tables read as nothing. -/
theorem resetValues : Obligations.ResetValues := by
  unfold Obligations.ResetValues
  refine ⟨rfl, rfl, fun _ => rfl, fun _ => rfl, rfl, fun _ => rfl, fun _ => rfl, rfl, rfl, rfl, rfl, rfl, rfl, fun i => ?_, rfl,
    rfl, rfl, fun _ => rfl, rfl, fun p ch => ?_, rfl, fun line => ?_, reset_ring, rfl, rfl⟩
  · match i with
    | 0 | 1 | 2 | 3 => rfl
  · exact reset_entry p ch
  · match line with
    | 0 | 1 | 2 | 3 | 4 | 5 | 6 | 7 => rfl

/-- Settles O3: the invariants at the reset state. -/
theorem resetIsSound : Obligations.ResetIsSound := by
  unfold Obligations.ResetIsSound
  refine ⟨(intAgrees_iff _).mpr rfl, fun r => ?_, ⟨Nat.zero_le _, List.Pairwise.nil⟩, ?_, ActionUnit.HoldsCount.of_empty rfl rfl, sound_replicate_clear,
    Nat.zero_le _, ⟨rfl, rfl⟩, fun _ hm => (nomatch hm), ⟨List.nodup_nil, fun _ hm => (nomatch hm), fun _ hm => (nomatch hm)⟩, ?_⟩
  · rw [reset_ring]
    decide
  · exact ⟨Nat.zero_le _, Nat.zero_le _, Nat.zero_le _, Nat.zero_le _, trivial⟩
  · exact ⟨⟨Table.wf_nil, fun _ hm => (nomatch hm)⟩, Table.wf_nil, Table.wf_nil, Table.wf_nil, Table.wf_nil, Table.wf_nil,
      fun _ hm => (nomatch hm)⟩

/-! ### Requests that wait (R2, R23) -/

/-- Data that completes a request is its whole data (R2). -/
theorem wholeRequest_of_completeData {t : Transit} {req : RequestFields} {last : Option Beat} {data : List Beat}
    (h : t.completeData req last = some data) : WholeRequest t req last data := by
  unfold Transit.completeData at h
  unfold WholeRequest
  split at h
  · rename_i hp hk
    cases h
    rw [hk]
    exact ⟨hp, rfl⟩
  · cases h
  · rename_i hp hk
    split at h
    · rename_i hl
      cases h
      rw [hk]
      exact ⟨hl, Or.inl ⟨hp, rfl⟩⟩
    · cases h
  · rename_i p hp hk
    split at h
    · rename_i hl
      cases h
      rw [hk]
      exact ⟨hl.2, Or.inr ⟨p, hp, hl.1, rfl⟩⟩
    · cases h

/-- A request that is not taken changes nothing: none is taken while RESET is low, behind another, or before it is whole. -/
theorem execRequestTaken_ignored {s : State} {req : RequestFields} {last : Option Beat}
    (h : s.resetLow = true ∨ ¬FirstAtPort s.transit req last ∨ ∀ data, ¬WholeRequest s.transit req last data) :
    execRequestTaken req last s = .next s := by
  unfold execRequestTaken
  cases hd : s.transit.completeData req last with
  | none => rfl
  | some data =>
    dsimp only
    rcases h with h | h | h
    · rw [h, Bool.true_or, if_pos rfl]
    · rw [behind_iff.mpr h, Bool.or_true, if_pos rfl]
    · exact absurd (wholeRequest_of_completeData hd) (h data)

theorem execSystemHeadPresented_lost {s : State} (h : ¬SystemWins s) : execSystemHeadPresented s = .next s := by
  unfold execSystemHeadPresented
  split
  · rfl
  · rw [if_neg (fun hg => h (grant_system_iff.mp hg))]

theorem execControlWrite_lost {s : State} (h : ¬SystemWins s) : execControlWrite s = .next s := by
  unfold execControlWrite
  split
  · rfl
  · rw [if_neg (fun hg => h (grant_system_iff.mp hg.2))]

theorem execWritebackHeadPresented_lost {s : State} (h : ¬WriteBackWins s) : execWritebackHeadPresented s = .next s := by
  unfold execWritebackHeadPresented
  split
  · rw [if_neg (fun hg => h (grant_writeBack_iff.mp hg))]
  · rfl

/-- Settles O11: a request or a head that waits, by the tests that the port and the arbiter make. -/
theorem waitingChangesNothing : Obligations.WaitingChangesNothing := by
  unfold Obligations.WaitingChangesNothing
  refine ⟨fun req last s => ⟨execRequestTaken_ignored, fun data hw hr hf hb => ?_⟩,
    fun s => ⟨fun h => ⟨execSystemHeadPresented_lost h, execControlWrite_lost h⟩, execWritebackHeadPresented_lost⟩⟩
  refine (execRequestTaken_first (completeData_of_whole hw) hr hf).trans ?_
  unfold State.offerRequest
  rw [if_neg (by rw [canTake_of_blocked hb]; exact Bool.false_ne_true)]
  rfl

/-- What DATA_BEAT_RECEIVED does at an open port. -/
theorem execDataBeatReceived_open {s : State} {req : RequestFields} (b : Beat) (hr : s.resetLow = false) (hp : s.prstLow = false)
    (hw : s.transit.waiting = none) (hk : req.kind = .write) :
    execDataBeatReceived req b s = .next { s with transit := s.transit.receiveBeat req b } := by
  unfold execDataBeatReceived
  rw [hr, hp, hw, hk, if_neg (by decide)]

/-- Settles O15: a beat behind a waiting request, the first of a burst, and a later one. -/
theorem dataBeatReceived : Obligations.DataBeatReceived := by
  unfold Obligations.DataBeatReceived
  intro req b s hr hp hk hbeats
  refine ⟨fun hw => ?_, fun hw hn => ?_, fun p hw hp' => ?_⟩
  · show execDataBeatReceived req b s = _
    unfold execDataBeatReceived
    rw [Option.isSome_iff_ne_none.mpr hw, Bool.or_true, Bool.true_or, if_pos rfl]
  · refine (execDataBeatReceived_open b hr hp hw hk).trans ?_
    unfold Transit.receiveBeat
    rw [hn]
    dsimp only
    rw [if_pos hbeats]
  · refine (execDataBeatReceived_open b hr hp hw hk).trans ?_
    unfold Transit.receiveBeat
    rw [hp']
    dsimp only
    split
    · rename_i hc
      rw [hc.1]
    · rfl

end Sys2Proof.Machine
end

section
/-! SUPPORT. Counts, quadrature errors, passages and samples of the lines, and the release of a pulse. -/

namespace Sys2Proof.Machine

/-! ### The counting states (R60) -/

theorem State.whileCounting_of {s : State} (h : Counting s) (f : State → State) : s.whileCounting f = f s :=
  if_pos ((counting_iff s).mp h)

theorem State.whileCounting_of_not {s : State} (h : ¬Counting s) (f : State → State) : s.whileCounting f = s :=
  if_neg fun hc => h ((counting_iff s).mpr hc)

theorem not_counting {s : State} (h : s.control.runState = .unanchored ∨ s.control.runState = .idle) : ¬Counting s := by
  unfold Counting
  rcases h with h | h <;> rw [h] <;> decide

/-- The five filters after a sample. -/
theorem allFiltered_sampleLines (o : Odometer) (l : LineLevels) : AllFiltered o l (o.sampleLines l).1 :=
  ⟨LineFilter.sample_filtered .., LineFilter.sample_filtered .., LineFilter.sample_filtered .., LineFilter.sample_filtered ..,
    LineFilter.sample_filtered ..⟩

/-- The part with the line filters after a sample. -/
def State.filtered (s : State) (l : LineLevels) : State :=
  { s with odometer := { s.odometer with filters := (s.odometer.sampleLines l).1 } }

/-- What a sample does while RESET is high: the filters, the events it brings in the counting states, the time base. -/
theorem execLineFilterSample_high {s : State} (l : LineLevels) (h : s.resetLow = false) :
    execLineFilterSample l s =
      .next ((s.filtered l).whileCounting (fun u => u.sampleEvents (s.odometer.sampleLines l).2)).settle.tick := by
  unfold execLineFilterSample
  rw [if_neg (by rw [h]; exact Bool.false_ne_true)]
  dsimp only
  rw [State.settle_tick]
  rfl

theorem State.filtered_settle {s : State} (h : Settled s) (l : LineLevels) : (s.filtered l).settle = s.filtered l :=
  settle_of_settled (s := s.filtered l) h

/-- Settles O47: outside the counting states the odometer takes no event, and a sample moves filters and time base alone. -/
theorem countsHaveNoEffectOutsideARun : Obligations.CountsHaveNoEffectOutsideARun := by
  unfold Obligations.CountsHaveNoEffectOutsideARun
  intro s hs hrun
  have hquiet : ∀ f : State → State, (Host.Outcome.next (s.whileCounting f).settle : Host.Outcome State Fault Refusal) = .next s :=
    fun f => by rw [State.whileCounting_of_not (not_counting hrun), settle_of_settled hs]
  refine ⟨fun forward c => ⟨hquiet _, hquiet _, hquiet _, hquiet _⟩, fun l hr => ⟨(s.filtered l).tick, ?_, ?_, ?_, ?_⟩⟩
  · refine (execLineFilterSample_high l hr).trans ?_
    rw [State.whileCounting_of_not (s := s.filtered l) (not_counting hrun), State.filtered_settle hs]
  · exact State.tick_ticked (s.filtered l)
  · rw [State.tick_frame]
    exact allFiltered_sampleLines s.odometer l
  · rw [State.tick_frame]
    rfl

/-- What an event of the odometer does in the counting states. -/
theorem next_whileCounting {s : State} (h : Counting s) (f : State → State) :
    (Host.Outcome.next (s.whileCounting f).settle : Host.Outcome State Fault Refusal) = .next (f s).settle := by
  rw [State.whileCounting_of h]

/-- Settles O52: a quadrature error, a passage with room and a passage dropped. -/
theorem quadratureErrorsAndPassages : Obligations.QuadratureErrorsAndPassages := by
  unfold Obligations.QuadratureErrorsAndPassages
  intro s hs hc
  refine ⟨fun c => ?_, fun hroom => ?_, fun hfull => ?_⟩
  · obtain ⟨hcontrol, hslot, hpub, hframe⟩ := raise_settle s
      { s with odometer :=
          s.odometer.setChannel c { s.odometer.channel c with errors := satAdd (s.odometer.channel c).errors 1 } } .quadError
      hc.anchored rfl rfl
    exact ⟨_, _, next_whileCounting hc _, hframe, satAdd_toNat _, hslot, hcontrol, hpub⟩
  · refine (next_whileCounting hc State.passage).trans ?_
    unfold State.passage
    rw [if_pos hroom]
    exact congrArg _ (settle_of_settled hs)
  · obtain ⟨hcontrol, hslot, hpub, hframe⟩ := raise_settle s s .markerReject hc.anchored rfl rfl
    refine ⟨_, (next_whileCounting hc State.passage).trans ?_, hframe, hslot, hcontrol, hpub⟩
    unfold State.passage
    rw [if_neg (by omega)]

/-! ### The channel that is not the lead (R62–R64) -/

theorem Odometer.afterNonLead_watch (o : Odometer) (x : Int) :
    (o.afterNonLead x).stallDistance = o.stallDistance ∧ (o.afterNonLead x).stallReported = o.stallReported
      ∧ (o.afterNonLead x).swapLock = o.swapLock
      ∧ (o.afterNonLead x).stallTravel = ((o.channel o.lead.other).net + x).natAbs := by
  unfold Odometer.afterNonLead Odometer.setChannel
  cases o.lead <;> exact ⟨rfl, rfl, rfl, rfl⟩

/-- The odometer with its lead swapped: the old lead is watched from zero (R64). -/
def Odometer.swapped (o : Odometer) : Odometer :=
  { o.setChannel o.lead { o.channel o.lead with net := 0 } with lead := o.lead.other, stallTravel := 0, stallReported := false }

/-- The stall check, by its three outcomes (R63, R64). -/
theorem State.checkStall_cases (s : State) :
    (¬(s.odometer.stallDistance * 256 ≤ s.odometer.stallTravel ∧ s.odometer.stallReported = false) → s.checkStall = s)
    ∧ (s.odometer.stallDistance * 256 ≤ s.odometer.stallTravel → s.odometer.stallReported = false →
      (s.odometer.swapLock = true →
        s.checkStall = { s with odometer := { s.odometer with stallReported := true } }.raise .odoStall)
      ∧ (s.odometer.swapLock = false → s.checkStall = { s with odometer := s.odometer.swapped }.raise .odoStall)) := by
  unfold State.checkStall
  refine ⟨fun h => if_neg h, fun hd hr => ⟨fun hl => ?_, fun hl => ?_⟩⟩
  · dsimp only
    rw [if_pos ⟨hd, hr⟩, if_pos hl]
  · dsimp only
    rw [if_pos ⟨hd, hr⟩, if_neg (by rw [hl]; exact Bool.false_ne_true)]
    unfold Odometer.swapped Odometer.setChannel Odometer.channel
    cases s.odometer.lead <;> rfl

theorem Odometer.swapped_afterNonLead (o : Odometer) (x : Int) :
    (o.afterNonLead x).swapped =
      { (o.afterNonLead x).setChannel o.lead { o.channel o.lead with net := 0 } with
        lead := o.lead.other, stallTravel := 0, stallReported := false } := by
  unfold Odometer.swapped Odometer.afterNonLead Odometer.setChannel Odometer.channel
  cases o.lead <;> rfl

/-- A count of the channel that is not the lead is its move and the stall check (R62). -/
theorem State.nonLeadCount_eq {s : State} {forward : Bool} {x : Int}
    (hx : x = countOf (s.odometer.channel s.odometer.lead.other) forward) :
    s.nonLeadCount forward = { s with odometer := s.odometer.afterNonLead x }.checkStall := by
  rw [hx]
  rfl

/-- Settles O51: the move of the count, and the three outcomes of the stall check. -/
theorem nonLeadCountWatchesStall : Obligations.NonLeadCountWatchesStall := by
  unfold Obligations.NonLeadCountWatchesStall
  intro forward x net s hs hc hx hnet
  obtain ⟨hdist, hrep, hlock, htravel⟩ := s.odometer.afterNonLead_watch x
  rw [← hnet] at htravel
  obtain ⟨hquiet, hstall⟩ := State.checkStall_cases { s with odometer := s.odometer.afterNonLead x }
  replace hquiet := fun h => hquiet (by rw [hdist, hrep, htravel]; exact h)
  replace hstall := fun hd hr => hstall (by rw [hdist, htravel]; exact hd) (hrep.trans hr)
  have hexec : exec (.nonLeadCount forward) s = .next ({ s with odometer := s.odometer.afterNonLead x }.checkStall).settle := by
    refine (next_whileCounting hc _).trans ?_
    rw [State.nonLeadCount_eq hx]
  refine ⟨fun h => ?_, fun hd hr => ?_⟩
  · rw [hexec, hquiet fun hn => ?_]
    · exact congrArg _ (settle_of_settled (s := { s with odometer := s.odometer.afterNonLead x }) hs)
    · rcases h with h | h
      · omega
      · rw [h] at hn
        exact Bool.false_ne_true hn.2.symm
  · obtain ⟨hon, hoff⟩ := hstall hd hr
    cases hl : s.odometer.swapLock with
    | true =>
      obtain ⟨hcontrol, hslot, hpub, hframe⟩ := raise_settle s
        { s with odometer := { s.odometer.afterNonLead x with stallReported := true } } .odoStall hc.anchored rfl rfl
      rw [← hon (hlock.trans hl)] at hcontrol hslot hpub hframe
      exact ⟨_, hexec, by rw [hframe], hslot, hcontrol, hpub, fun _ => by rw [hframe], fun h => by cases h⟩
    | false =>
      obtain ⟨hcontrol, hslot, hpub, hframe⟩ := raise_settle s
        { s with odometer := (s.odometer.afterNonLead x).swapped } .odoStall hc.anchored rfl rfl
      rw [← hoff (hlock.trans hl)] at hcontrol hslot hpub hframe
      exact ⟨_, hexec, by rw [hframe], hslot, hcontrol, hpub, (fun h => by cases h),
        fun _ => by rw [hframe]; exact s.odometer.swapped_afterNonLead x⟩

/-! ### The release of a pulse (R172) -/

/-- What PULSE_RELEASE does with a slot: an occupied slot that is due is freed, and otherwise nothing happens. -/
theorem execPulseRelease_cases (slot : Fin 32) (s : State) :
    ((∀ p, Table.read s.action.pulses slot.val = some p → ¬Reached s p.release) → execPulseRelease slot s = .next s)
    ∧ ∀ p, Table.read s.action.pulses slot.val = some p → Reached s p.release →
      execPulseRelease slot s = .next { s with action := s.action.free slot.val p } := by
  unfold execPulseRelease
  refine ⟨fun h => ?_, fun p hp hr => ?_⟩
  · split
    · rename_i p hp
      rw [if_neg fun hr => h p hp ((reached_iff s p.release).mpr hr)]
    · rfl
  · rw [hp]
    dsimp only
    rw [if_pos ((reached_iff s p.release).mp hr)]

/-- A line that an occupied slot names is held at least once. -/
theorem ActionUnit.HoldsCount.pos {x : ActionUnit} (h : x.HoldsCount) {slot : Nat} {p : Pulse}
    (hread : Table.read x.pulses slot = some p) {n : Nat} (hn : n < 8) (hnames : namesLine p.group p.pattern n = true) :
    1 ≤ x.holds.getD n 0 := by
  rw [h.2.2 n hn]
  exact List.length_pos_of_mem (List.mem_filter.mpr ⟨Table.mem_of_read hread, hnames⟩)

/-- The hold counts after a slot is freed. -/
theorem ActionUnit.free_holds {x : ActionUnit} (hlen : x.holds.length = 8) (slot : Nat) (p : Pulse) (line : Fin 8) :
    (x.free slot p).holds.getD line.val 0 =
      if namesLine p.group p.pattern line.val then x.holds.getD line.val 0 - 1 else x.holds.getD line.val 0 :=
  adjustHolds_getD x.holds p (· - 1) line.val (by rw [hlen]; exact line.isLt)

/-- The level of a line, by its hold count. -/
theorem ActionUnit.lineLevel_congr {x y : ActionUnit} {line : Fin 8} (hr : y.restLevel line = x.restLevel line)
    (hh : y.holds.getD line.val 0 = x.holds.getD line.val 0) : y.lineLevel line = x.lineLevel line := by
  unfold ActionUnit.lineLevel
  rw [hr, hh]

/-- Two frees of different slots are the same in either order. -/
theorem ActionUnit.free_comm (x : ActionUnit) (i j : Nat) (p q : Pulse) : (x.free i p).free j q = (x.free j q).free i p := by
  unfold ActionUnit.free
  dsimp only
  rw [adjustHolds_comm]
  congr 1
  unfold Table.remove
  rw [List.filter_filter, List.filter_filter]
  congr 1
  funext e
  rw [Bool.and_comm]

/-- A slot that is due for its release, with its pulse. -/
def State.Due (s : State) (slot : Fin 32) (p : Pulse) : Prop :=
  Table.read s.action.pulses slot.val = some p ∧ Reached s p.release

/-- The free of a slot leaves another slot due or not due as it was. -/
theorem State.due_free {s : State} {a b : Fin 32} (h : b ≠ a) (p q : Pulse) :
    State.Due { s with action := s.action.free a.val p } b q ↔ s.Due b q := by
  unfold State.Due
  rw [show Table.read ({ s with action := s.action.free a.val p } : State).action.pulses b.val = _ from
    Table.read_remove_other s.action.pulses fun hv => h (Fin.eq_of_val_eq hv)]
  rfl

theorem execPulseRelease_due {s : State} {slot : Fin 32} {p : Pulse} (h : s.Due slot p) :
    execPulseRelease slot s = .next { s with action := s.action.free slot.val p } := (execPulseRelease_cases slot s).2 p h.1 h.2

theorem execPulseRelease_not_due {s : State} {slot : Fin 32} (h : ∀ p, ¬s.Due slot p) : execPulseRelease slot s = .next s :=
  (execPulseRelease_cases slot s).1 fun p hp hr => h p ⟨hp, hr⟩

/-- Releases of two slots are the same in either order. -/
theorem execPulseRelease_comm {a b : Fin 32} {s u v : State} (ha : execPulseRelease a s = .next u)
    (hb : execPulseRelease b s = .next v) : execPulseRelease b u = execPulseRelease a v := by
  by_cases hab : b = a
  · subst hab
    cases ha.symm.trans hb
    rfl
  · by_cases hda : ∃ p, s.Due a p <;> by_cases hdb : ∃ q, s.Due b q
    · obtain ⟨p, hp⟩ := hda
      obtain ⟨q, hq⟩ := hdb
      cases ha.symm.trans (execPulseRelease_due hp)
      cases hb.symm.trans (execPulseRelease_due hq)
      rw [execPulseRelease_due ((State.due_free hab p q).mpr hq), execPulseRelease_due ((State.due_free (Ne.symm hab) q p).mpr hp)]
      dsimp only
      rw [ActionUnit.free_comm]
    · obtain ⟨p, hp⟩ := hda
      have hdb' := not_exists.mp hdb
      cases ha.symm.trans (execPulseRelease_due hp)
      cases hb.symm.trans (execPulseRelease_not_due hdb')
      rw [execPulseRelease_not_due fun q hq => hdb' q ((State.due_free hab p q).mp hq), execPulseRelease_due hp]
    · obtain ⟨q, hq⟩ := hdb
      have hda' := not_exists.mp hda
      cases ha.symm.trans (execPulseRelease_not_due hda')
      cases hb.symm.trans (execPulseRelease_due hq)
      rw [execPulseRelease_not_due fun p hp => hda' p ((State.due_free (Ne.symm hab) q p).mp hp), execPulseRelease_due hq]
    · cases ha.symm.trans (execPulseRelease_not_due (not_exists.mp hda))
      cases hb.symm.trans (execPulseRelease_not_due (not_exists.mp hdb))
      rw [execPulseRelease_not_due (not_exists.mp hda), execPulseRelease_not_due (not_exists.mp hdb)]

/-- Settles O56: the release of one slot, and two releases in either order. -/
theorem pulseReleased : Obligations.PulseReleased := by
  unfold Obligations.PulseReleased
  refine ⟨fun slot s => ⟨(execPulseRelease_cases slot s).1, fun p hp hr hsound => ?_⟩, fun a b s u v => execPulseRelease_comm⟩
  have hcount : s.action.HoldsCount := hsound
  refine ⟨_, (execPulseRelease_cases slot s).2 p hp hr, rfl, Table.read_remove_same _ _, fun k hk => Table.read_remove_other _ hk,
    fun line => ?_⟩
  have hfree := s.action.free_holds hcount.2.1 slot.val p line
  refine ⟨fun hn => ?_, fun hn => ?_⟩
  · have hnames := (names_iff p.group p.pattern line).mp hn
    have hpos := hcount.pos hp line.isLt hnames
    rw [if_pos hnames] at hfree
    refine ⟨by dsimp only; omega, fun hone => ?_, fun hmore => ?_⟩
    · show (s.action.free slot.val p).lineLevel line = _
      unfold ActionUnit.lineLevel
      rw [if_pos (by omega)]
      rfl
    · show (s.action.free slot.val p).lineLevel line = _
      unfold ActionUnit.lineLevel
      rw [if_neg (by omega)]
      rfl
  · rw [if_neg fun h => hn ((names_iff p.group p.pattern line).mpr h)] at hfree
    exact ⟨hfree, ActionUnit.lineLevel_congr rfl hfree⟩

end Sys2Proof.Machine
end

section
/-! SUPPORT. A sample of the five lines: the event that its accepted changes bring, and the events in the order they take effect. -/

namespace Sys2Proof.Machine

/-! ### The events of a sample (R58, R59, R73) -/

/-- The event of its own that an event of a sample is, by the lead in force. -/
def SampleEvent.instr (o : Odometer) : SampleEvent → Instr
  | .count c forward => countEvent o c forward
  | .quadError c => .quadratureError c
  | .passage => .markPassage

/-- An event of a sample does what the event of its own does. -/
theorem exec_sampleEvent (u : State) (e : SampleEvent) :
    exec (e.instr u.odometer) u = .next (u.whileCounting (fun x => x.sampleEffect e)).settle := by
  cases e with
  | count c forward =>
    show exec (countEvent u.odometer c forward) u = .next (u.whileCounting (fun x => x.sampleEffect (.count c forward))).settle
    by_cases hc : c = u.odometer.lead
    · rw [show countEvent u.odometer c forward = .leadCount forward from if_pos hc]
      show Host.Outcome.next (u.whileCounting (fun x => x.leadCount forward)).settle = _
      unfold State.whileCounting State.sampleEffect
      dsimp only
      rw [if_pos hc]
    · rw [show countEvent u.odometer c forward = .nonLeadCount forward from if_neg hc]
      show Host.Outcome.next (u.whileCounting (fun x => x.nonLeadCount forward)).settle = _
      unfold State.whileCounting State.sampleEffect
      dsimp only
      rw [if_neg hc]
  | quadError c => rfl
  | passage => rfl

/-- The events of a sample, from the accepted changes of its lines. -/
theorem sampleLines_events {o : Odometer} {l : LineLevels} {a0 a1 b0 b1 m : Bool} (h : acceptedChanges o l = [a0, a1, b0, b1, m]) :
    (o.sampleLines l).2 =
      decodeChannel .a o.chanA.invert ((o.filters.ta0.sample o.filterDepth l.ta0).1, a0)
          ((o.filters.ta1.sample o.filterDepth l.ta1).1, a1)
        ++ decodeChannel .b o.chanB.invert ((o.filters.tb0.sample o.filterDepth l.tb0).1, b0)
          ((o.filters.tb1.sample o.filterDepth l.tb1).1, b1)
        ++ (if m && (if m then l.mark else o.filters.mark.accepted) then [.passage] else []) := by
  rw [acceptedChanges_eq] at h
  injection h with h0 h
  injection h with h1 h
  injection h with h2 h
  injection h with h3 h
  injection h with h4 h
  unfold Odometer.sampleLines
  dsimp only
  rw [LineFilter.sample_level o.filters.mark, h4, ← h0, ← h1, ← h2, ← h3]

/-- The accepted levels of the tachometer lines after a sample. -/
theorem sample_levels {o : Odometer} {l : LineLevels} {a0 a1 b0 b1 m : Bool} (h : acceptedChanges o l = [a0, a1, b0, b1, m]) :
    (o.filters.ta0.sample o.filterDepth l.ta0).1.accepted = (if a0 then l.ta0 else o.filters.ta0.accepted)
      ∧ (o.filters.ta1.sample o.filterDepth l.ta1).1.accepted = (if a1 then l.ta1 else o.filters.ta1.accepted)
      ∧ (o.filters.tb0.sample o.filterDepth l.tb0).1.accepted = (if b0 then l.tb0 else o.filters.tb0.accepted)
      ∧ (o.filters.tb1.sample o.filterDepth l.tb1).1.accepted = (if b1 then l.tb1 else o.filters.tb1.accepted) := by
  rw [acceptedChanges_eq] at h
  injection h with h0 h
  injection h with h1 h
  injection h with h2 h
  injection h with h3 h
  rw [← h0, ← h1, ← h2, ← h3]
  exact ⟨LineFilter.sample_level .., LineFilter.sample_level .., LineFilter.sample_level .., LineFilter.sample_level ..⟩

/-- A sample with no accepted change, or a falling change of MARK alone, brings no event. -/
theorem sampleLines_quiet {o : Odometer} {l : LineLevels}
    (h : acceptedChanges o l = [false, false, false, false, false]
      ∨ (acceptedChanges o l = [false, false, false, false, true] ∧ l.mark = false)) : (o.sampleLines l).2 = [] := by
  rcases h with h | ⟨h, hm⟩
  · rw [sampleLines_events h]
    rfl
  · rw [sampleLines_events h, hm]
    rfl

/-- A sample with the changes of one event brings that event. -/
theorem sampleLines_brings {o : Odometer} {l : LineLevels} {e : Instr} (h : SampleBrings o l e) :
    ∃ x : SampleEvent, (o.sampleLines l).2 = [x] ∧ e = x.instr o := by
  rcases h with ⟨h, rfl⟩ | ⟨h, rfl⟩ | ⟨h, rfl⟩ | ⟨h, rfl⟩ | ⟨h, rfl⟩ | ⟨h, rfl⟩ | ⟨h, hm, rfl⟩
  · obtain ⟨h0, h1, _, _⟩ := sample_levels h
    exact ⟨_, sampleLines_events h, by rw [h0, h1]; rfl⟩
  · obtain ⟨h0, h1, _, _⟩ := sample_levels h
    exact ⟨_, sampleLines_events h, by rw [h0, h1]; rfl⟩
  · obtain ⟨_, _, h2, h3⟩ := sample_levels h
    exact ⟨_, sampleLines_events h, by rw [h2, h3]; rfl⟩
  · obtain ⟨_, _, h2, h3⟩ := sample_levels h
    exact ⟨_, sampleLines_events h, by rw [h2, h3]; rfl⟩
  · exact ⟨_, sampleLines_events h, rfl⟩
  · exact ⟨_, sampleLines_events h, rfl⟩
  · have hev := sampleLines_events h
    rw [hm] at hev
    exact ⟨_, hev, rfl⟩

/-! ### The events take effect -/

theorem settle_settle (s : State) : s.settle.settle = s.settle := settle_of_settled (settled_settle s)

theorem settle_whileCounting_settle (u : State) (f : State → State) :
    (u.whileCounting fun x => (f x).settle).settle = (u.whileCounting f).settle := by
  unfold State.whileCounting
  split
  · exact settle_settle _
  · rfl

/-- The events of a sample take effect one after the other, in some order. -/
theorem State.sampleEvents_order (s : State) (l : List SampleEvent) :
    ∃ es : List SampleEvent, es.Perm l
      ∧ s.sampleEvents l =
          es.foldl State.sampleEvent { s with freeCount := if 2 ≤ es.length then s.freeCount + 1 else s.freeCount } := by
  unfold State.sampleEvents
  split
  · exact ⟨l, List.Perm.refl _, by rw [if_neg (by omega)]⟩
  · have hp := pickOrder_perm l (Config.sampleOrder s.freeCount)
    exact ⟨_, hp, by rw [if_pos (by rw [hp.length_eq]; omega)]⟩

/-- Settles O53: a sample by the number of the events that it brings. -/
theorem sampleFiltersAndDecodes : Obligations.SampleFiltersAndDecodes := by
  unfold Obligations.SampleFiltersAndDecodes
  intro l s hs
  refine ⟨fun hr => if_pos hr, fun hr => ⟨s.filtered l, rfl, allFiltered_sampleLines _ _, fun hquiet => ?_, fun e he => ?_, fun hc => ?_⟩⟩
  · refine ⟨(s.filtered l).tick, (execLineFilterSample_high l hr).trans ?_, State.tick_ticked _, State.tick_frame _⟩
    rw [sampleLines_quiet hquiet]
    unfold State.whileCounting
    split
    · exact congrArg (fun x => Host.Outcome.next (State.tick x)) (State.filtered_settle hs l)
    · rw [State.filtered_settle hs]
  · obtain ⟨x, hevents, rfl⟩ := sampleLines_brings he
    refine ⟨_, _, exec_sampleEvent (s.filtered l) x, (execLineFilterSample_high l hr).trans ?_, State.tick_ticked _,
      State.tick_frame _⟩
    rw [hevents, ← settle_whileCounting_settle (s.filtered l) fun u => u.sampleEffect x]
    rfl
  · obtain ⟨es, hperm, horder⟩ := (s.filtered l).sampleEvents_order (s.odometer.sampleLines l).2
    refine ⟨es, hperm, (execLineFilterSample_high l hr).trans ?_⟩
    rw [State.whileCounting_of (s := s.filtered l) hc, horder, State.settle_tick]
    rfl

end Sys2Proof.Machine
end

section
/-! SUPPORT. Several flags raised in one event, said once in the terms of the claims. -/

namespace Sys2Proof.Machine

/-- Nothing changed but the event set, INT and the status slot. -/
def FlagsOnly (s t : State) : Prop :=
  t = { s with control := t.control, writeBack := t.writeBack } ∧ ControlEventsOnly s t ∧ WriteBackSlotOnly s t

theorem FlagsOnly.refl (s : State) : FlagsOnly s s := ⟨rfl, rfl, rfl⟩

theorem FlagsOnly.trans {s t u : State} (h : FlagsOnly s t) (h' : FlagsOnly t u) : FlagsOnly s u := by
  obtain ⟨hframe, hcontrol, hslot⟩ := h
  obtain ⟨hframe', hcontrol', hslot'⟩ := h'
  unfold ControlEventsOnly WriteBackSlotOnly at *
  refine ⟨?_, ?_, ?_⟩
  · rw [hframe', hframe]
  · unfold ControlEventsOnly
    rw [hcontrol', hcontrol]
  · unfold WriteBackSlotOnly
    rw [hslot', hslot]

theorem FlagsOnly.raise (s : State) (f : EventFlag) : FlagsOnly s (s.raise f) := by
  unfold State.raise
  split
  · exact FlagsOnly.refl s
  · exact ⟨rfl, rfl, rfl⟩

theorem FlagsOnly.markStatus (s : State) : FlagsOnly s s.markStatus := by
  unfold State.markStatus
  split
  · exact FlagsOnly.refl s
  · exact ⟨rfl, rfl, rfl⟩

theorem FlagsOnly.settle (s : State) : FlagsOnly s s.settle := by
  refine ⟨rfl, rfl, ?_⟩
  unfold WriteBackSlotOnly State.settle WriteBack.settle
  dsimp only
  split <;> rfl

theorem FlagsOnly.raises (s : State) (flags : List EventFlag) : FlagsOnly s (s.raises flags) := by
  induction flags generalizing s with
  | nil => exact FlagsOnly.refl s
  | cons f rest ih => exact (FlagsOnly.raise s f).trans (ih (s.raise f))

/-- The flags of an event that left the control block and write-back alone before. -/
theorem FlagsOnly.of_same {s u t : State} (h : FlagsOnly u t) (hc : u.control = s.control) (hw : u.writeBack = s.writeBack) :
    ControlEventsOnly s t ∧ WriteBackSlotOnly s t ∧ t = { u with control := t.control, writeBack := t.writeBack } := by
  obtain ⟨hframe, hcontrol, hslot⟩ := h
  unfold ControlEventsOnly at hcontrol
  unfold WriteBackSlotOnly at hslot
  rw [hc] at hcontrol
  rw [hw] at hslot
  exact ⟨hcontrol, hslot, hframe⟩

/-- The flags raised, whatever their order. -/
theorem Raised.congr {s t : State} {l l' : List EventFlag} (h : Raised s t l) (hl : ∀ f, f ∈ l' ↔ f ∈ l) : Raised s t l' := by
  intro k
  have hk : k ∈ l'.map EventFlag.bit ↔ k ∈ l.map EventFlag.bit := by simp only [List.mem_map, hl]
  rw [h k]
  simp only [hk]

theorem Marked.congr_flags {s u : State} {l l' : List EventFlag} (h : Marked s u l) (hl : ∀ f, f ∈ l' ↔ f ∈ l) : Marked s u l' :=
  ⟨h.1.congr hl, h.2⟩

/-- Further flags of an event. -/
theorem Marked.raises {s u : State} {l : List EventFlag} (h : Marked s u l) (flags : List EventFlag) :
    Marked s (u.raises flags) (l ++ flags) := by
  induction flags generalizing u l with
  | nil => exact h.congr_flags fun f => by rw [List.append_nil]
  | cons f rest ih =>
    exact (ih (h.raise f)).congr_flags fun g => by simp only [List.mem_append, List.mem_cons]; grind

/-- The flags of an event that left the control block and the slot alone before. -/
theorem Marked.of_raises {s u : State} {flags : List EventFlag} (hne : flags ≠ []) (ha : s.control.runState ≠ .unanchored)
    (hc : u.control = s.control) (hw : u.writeBack = s.writeBack) : Marked s (u.raises flags) flags := by
  cases flags with
  | nil => exact absurd rfl hne
  | cons f rest =>
    exact (Marked.first s u f (by rw [hc]; exact ha) (by rw [hc]) (by rw [hc]) (by rw [hw])).raises rest

/-- A pending status write alone publishes no flag. -/
theorem Marked.of_markStatus {s u : State} (ha : s.control.runState ≠ .unanchored) (hi : IntAgrees s) (hc : u.control = s.control)
    (hw : u.writeBack = s.writeBack) : Marked s u.markStatus [] := by
  rw [u.markStatus_anchored (by rw [hc]; exact ha)]
  refine ⟨fun k => ?_, ?_, ?_, ?_, ?_⟩
  · dsimp only
    rw [hc]
    rfl
  · rw [intAgrees_iff] at hi ⊢
    dsimp only
    rw [hc]
    exact hi
  · dsimp only [WriteBack.markStatus]
    rw [hw]
  · dsimp only
    rw [hc]
    exact ha
  · dsimp only
    rw [hc]

/-- The flags of an event, where any, with a pending status write in every case. -/
theorem Marked.of_raises_markStatus {s u : State} (flags : List EventFlag) (ha : s.control.runState ≠ .unanchored) (hi : IntAgrees s)
    (hc : u.control = s.control) (hw : u.writeBack = s.writeBack) : Marked s (u.raises flags).markStatus flags := by
  by_cases hne : flags = []
  · rw [hne]
    exact Marked.of_markStatus ha hi hc hw
  · exact (Marked.of_raises hne ha hc hw).mark

/-- The end of an event that raised some flags or none. -/
theorem flagged_raises {s u : State} (flags : List EventFlag) (hs : Settled s) (ha : s.control.runState ≠ .unanchored)
    (hc : u.control = s.control) (hw : u.writeBack = s.writeBack) :
    Flagged s (u.raises flags).settle flags
      ∧ (u.raises flags).settle = { u with control := (u.raises flags).settle.control, writeBack := (u.raises flags).settle.writeBack } := by
  obtain ⟨hcontrol, hslot, hframe⟩ := ((FlagsOnly.raises u flags).trans (FlagsOnly.settle _)).of_same hc hw
  refine ⟨⟨fun hn => ?_, fun hne => ⟨hslot, hcontrol, (Marked.of_raises hne ha hc hw).settle⟩⟩, hframe⟩
  rw [hn]
  have hsettled : Settled u := by unfold Settled; rw [hw]; exact hs
  show u.settle.control = _ ∧ u.settle.writeBack = _
  rw [settle_of_settled hsettled]
  exact ⟨hc, hw⟩

end Sys2Proof.Machine
end

section
/-! SUPPORT. A count of the lead: the move, the rise of the high-water distance, the opening of a point, the reversal mark. -/

namespace Sys2Proof.Machine

/-! ### The move and the rise (R61, R170) -/

/-- The part after the move of a lead count, but for what the move leads to. -/
def State.moved (s : State) (x : Int) : State := { s with odometer := s.odometer.afterLead x s.odometer.reversal }

/-- A move within the high-water distance. -/
theorem raiseHighWater_below {s : State} {forward : Bool} {d x : Int} (hm : LeadMove s forward d)
    (hx : x = countOf (s.odometer.channel s.odometer.lead) forward) (h : d / 256 ≤ s.odometer.highWater) :
    { s with odometer := s.odometer.advance forward }.raiseHighWater = s.moved x := by
  obtain ⟨hd, hlow, hhigh⟩ := hm
  rw [← hx] at hd
  have hadv := s.odometer.advance_afterLead forward x hx (by omega) (by omega)
  rw [← hd, Int.max_eq_left h] at hadv
  have had : (s.odometer.advance forward).d = d := (congrArg Odometer.d hadv).trans hd.symm
  have hsame : ({ s.odometer.advance forward with highWater := s.odometer.highWater } : Odometer) = s.odometer.advance forward := by
    unfold Odometer.advance
    cases s.odometer.lead <;> rfl
  unfold State.raiseHighWater State.moved
  rw [← hadv, hsame]
  exact if_neg (by
    show ¬(s.odometer.advance forward).highWater < mmOf (s.odometer.advance forward).d
    rw [had, ← hsame]
    exact Int.not_lt.mpr h)

/-- A move beyond the high-water distance, which reaches the action unit. -/
theorem raiseHighWater_above {s : State} {forward : Bool} {d x : Int} (hm : LeadMove s forward d)
    (hx : x = countOf (s.odometer.channel s.odometer.lead) forward) (h : s.odometer.highWater < d / 256) :
    { s with odometer := s.odometer.advance forward }.raiseHighWater = (s.moved x).rise := by
  obtain ⟨hd, hlow, hhigh⟩ := hm
  rw [← hx] at hd
  have hadv := s.odometer.advance_afterLead forward x hx (by omega) (by omega)
  rw [← hd, Int.max_eq_right (Int.le_of_lt h)] at hadv
  have had : (s.odometer.advance forward).d = d := (congrArg Odometer.d hadv).trans hd.symm
  have hwater : (s.odometer.advance forward).highWater = s.odometer.highWater := by
    unfold Odometer.advance
    cases s.odometer.lead <;> rfl
  have hgoal : { s.odometer.advance forward with highWater := mmOf (s.odometer.advance forward).d } =
      s.odometer.afterLead x s.odometer.reversal := by
    unfold mmOf
    rw [had]
    exact hadv
  unfold State.raiseHighWater State.moved
  rw [← hgoal]
  exact if_pos (by
    show (s.odometer.advance forward).highWater < (s.odometer.advance forward).d / 256
    rw [hwater, had]
    exact h)

/-- A move that makes no action due. -/
theorem raiseHighWater_quiet {s : State} {forward : Bool} {d x : Int} (hm : LeadMove s forward d)
    (hx : x = countOf (s.odometer.channel s.odometer.lead) forward) (h : d / 256 ≤ s.odometer.highWater ∨ NothingDue s (d / 256)) :
    { s with odometer := s.odometer.advance forward }.raiseHighWater = s.moved x := by
  by_cases hle : d / 256 ≤ s.odometer.highWater
  · exact raiseHighWater_below hm hx hle
  · rw [raiseHighWater_above hm hx (Int.not_le.mp hle)]
    refine State.rise_nothing _ ?_
    have hwater : (s.moved x).odometer.highWater = d / 256 := by
      show max s.odometer.highWater ((s.odometer.d + x) / 256) = d / 256
      rw [hx, ← hm.1, Int.max_eq_right (Int.le_of_lt (Int.not_le.mp hle))]
    rw [hwater]
    exact h.resolve_left hle

/-- The move takes D to the distance of the count. -/
theorem State.moved_d {s : State} {forward : Bool} {d x : Int} (hm : LeadMove s forward d)
    (hx : x = countOf (s.odometer.channel s.odometer.lead) forward) : (s.moved x).odometer.d = d := by
  show s.odometer.d + x = d
  rw [hm.1, hx]

/-! ### The opening (R65) -/

/-- A count that opens no point. -/
theorem State.maybeOpen_none {s u : State} {d : Int} (h : ∀ k, ¬OpensPoint s d k) (hr : u.control.runState = s.control.runState)
    (hn : u.odometer.nextPoint = s.odometer.nextPoint) (hsp : u.odometer.spacing = s.odometer.spacing) (hd : u.odometer.d = d) :
    u.maybeOpen s.odometer.d = u := by
  unfold State.maybeOpen
  split
  · rfl
  · rename_i k hk
    dsimp only
    rw [if_neg]
    rintro ⟨hrun, hbefore, hafter⟩
    rw [hsp] at hbefore hafter
    rw [hd] at hafter
    exact h k ⟨hr ▸ hrun, hn ▸ hk, hbefore, hafter⟩

/-- A count that opens a point. -/
theorem State.maybeOpen_opens {s u : State} {d k : Int} (h : OpensPoint s d k) (hr : u.control.runState = s.control.runState)
    (hn : u.odometer.nextPoint = s.odometer.nextPoint) (hsp : u.odometer.spacing = s.odometer.spacing) (hd : u.odometer.d = d) :
    u.maybeOpen s.odometer.d = u.openAt k := by
  obtain ⟨hrun, hk, hbefore, hafter⟩ := h
  unfold State.maybeOpen
  rw [hn, hk]
  dsimp only
  rw [hsp, hd, hr]
  exact if_pos ⟨hrun, hbefore, hafter⟩

/-! ### The reversal mark (R69) -/

/-- A count that begins a reversal excursion. -/
theorem State.watchReversal_begins {u : State} (h : BeginsReversal u u.odometer.d) :
    u.watchReversal = { u with odometer := { u.odometer with reversal := true } }.raise .reversal := by
  obtain ⟨hrun, hrev, p, hp, hd⟩ := h
  unfold State.watchReversal
  rw [hp]
  dsimp only
  rw [if_pos ((watchesReversal_iff u).mp hrun), if_pos ⟨hd, hrev⟩]

/-- A count that begins none leaves a mark, and nothing else changes. -/
theorem State.watchReversal_mark {u : State} (h : ¬BeginsReversal u u.odometer.d) :
    ∃ mark, MarkAfter u u.odometer.d mark ∧ u.watchReversal = { u with odometer := { u.odometer with reversal := mark } } := by
  by_cases hends : EndsReversal u u.odometer.d
  · refine ⟨false, ⟨fun _ => rfl, fun hn => absurd hends hn⟩, ?_⟩
    obtain ⟨hrun, p, hp, hd⟩ := hends
    unfold State.watchReversal
    rw [hp]
    dsimp only
    rw [if_pos ((watchesReversal_iff u).mp hrun), if_neg fun hb => h ⟨hrun, hb.2, p, hp, hb.1⟩, if_pos hd]
  · refine ⟨u.odometer.reversal, ⟨fun he => absurd he hends, fun _ => rfl⟩, ?_⟩
    unfold State.watchReversal
    split
    · rfl
    · rename_i p hp
      split
      · rename_i hrun
        have hrun' := (watchesReversal_iff u).mpr hrun
        rw [if_neg fun hb => h ⟨hrun', hb.2, p, hp, hb.1⟩, if_neg fun hd => hends ⟨hrun', p, hp, hd⟩]
      · rfl

/-! ### A count of the lead -/

/-- A count of the lead that makes no action due. -/
theorem State.leadCount_quiet {s : State} {forward : Bool} {d x : Int} (hm : LeadMove s forward d)
    (hx : x = countOf (s.odometer.channel s.odometer.lead) forward) (h : d / 256 ≤ s.odometer.highWater ∨ NothingDue s (d / 256)) :
    s.leadCount forward = ((s.moved x).maybeOpen s.odometer.d).watchReversal := by
  unfold State.leadCount
  rw [raiseHighWater_quiet hm hx h]

/-- A count of the lead that raises the high-water distance. -/
theorem State.leadCount_rise {s : State} {forward : Bool} {d x : Int} (hm : LeadMove s forward d)
    (hx : x = countOf (s.odometer.channel s.odometer.lead) forward) (h : s.odometer.highWater < d / 256) :
    s.leadCount forward = (((s.moved x).rise).maybeOpen s.odometer.d).watchReversal := by
  unfold State.leadCount
  rw [raiseHighWater_above hm hx h]

/-- Settles O48: the move with no rise and no opening, and the reversal mark. -/
theorem leadCountMovesDistance : Obligations.LeadCountMovesDistance := by
  unfold Obligations.LeadCountMovesDistance
  intro forward d x s hs hc hm hx hdue hopen
  have hd := State.moved_d hm hx
  have hexec : exec (.leadCount forward) s = .next ((s.moved x).watchReversal).settle := by
    refine (next_whileCounting hc _).trans ?_
    rw [State.leadCount_quiet hm hx hdue, State.maybeOpen_none (u := s.moved x) hopen rfl rfl rfl hd]
  rw [hexec]
  refine ⟨fun hn => ?_, fun hb => ?_⟩
  · rw [← hd] at hn
    obtain ⟨mark, ⟨hends, hnot⟩, hmark⟩ := State.watchReversal_mark (u := s.moved x) hn
    rw [hd] at hends hnot
    refine ⟨mark, ?_, hends, hnot⟩
    rw [hmark]
    exact congrArg _ (settle_of_settled (s := { s with odometer := s.odometer.afterLead x mark }) hs)
  · rw [← hd] at hb
    rw [State.watchReversal_begins (u := s.moved x) hb]
    obtain ⟨hcontrol, hslot, hpub, hframe⟩ :=
      raise_settle s { s with odometer := s.odometer.afterLead x true } .reversal hc.anchored rfl rfl
    exact ⟨_, rfl, hframe, hslot, hcontrol, hpub⟩

end Sys2Proof.Machine
end

section
/-! SUPPORT. A count of the lead that opens a point (R65–R68, R75, R102–R104). -/

namespace Sys2Proof.Machine

/-! ### The odometer's part -/

/-- The flags that an opening raises in the odometer, in the order that it raises them. -/
def Odometer.flagsOfOpening (m : Odometer) : List EventFlag :=
  (if m.mismatched && !m.prevMismatch then [EventFlag.odoMismatch] else [])
    ++ (if m.latches.any m.orphaned then [EventFlag.markerReject] else [])

/-- The part with the odometer's own changes at an opening made: its figures, its flags, a pending status write. -/
def State.odometerOpened (s : State) (k : Int) : State :=
  ({ s with odometer := s.odometer.opened k s.time }.raises s.odometer.flagsOfOpening).markStatus

/-- An opening is the odometer's part, then the point assembler's. -/
theorem State.openAt_eq (s : State) (k : Int) : s.openAt k = (s.odometerOpened k).openPoint (s.odometer.opening k s.time) := by
  unfold State.openAt State.odometerOpened Odometer.flagsOfOpening
  dsimp only
  rw [State.raiseIf_raises, State.raiseIf_raises, State.raises_append]

/-- The cross-check of an opening, from the travels of the two channels (R68). -/
theorem mismatched_iff {o : Odometer} {x travelA travelB : Int} {mismatch : Bool}
    (hA : travelA = o.chanA.travel + (if o.lead = .a then x else 0)) (hB : travelB = o.chanB.travel + (if o.lead = .b then x else 0))
    (h : mismatch = true ↔ ((o.mismatchTolerance * 256 : Nat) : Int) < (travelA - travelB).natAbs) :
    mismatch = (o.afterLead x o.reversal).mismatched := by
  have hmove : ∀ c : Channel, (if decide (o.lead = c) = true then (o.channel c).travel + x else (o.channel c).travel) =
      (o.channel c).travel + (if o.lead = c then x else 0) := fun c => by
    by_cases hc : o.lead = c <;> simp [hc]
  have ha : (o.afterLead x o.reversal).chanA.travel = travelA := by rw [hA]; exact hmove .a
  have hb : (o.afterLead x o.reversal).chanB.travel = travelB := by rw [hB]; exact hmove .b
  rw [Bool.eq_iff_iff, h]
  unfold Odometer.mismatched
  rw [ha, hb, decide_eq_true_iff]
  exact Int.ofNat_lt

/-! ### The point assembler's part -/

/-- The entry of a contributing stream is what R102 and R103 say. -/
theorem newEntry_spec {s : State} {tap : StreamTap} (ht : tap = s.tap) (c : Contributor) : NewEntry s c (newEntry tap c) := by
  rw [ht]
  unfold NewEntry newEntry
  dsimp only
  refine ⟨rfl, fun hstale => if_pos hstale, fun hlive => ?_⟩
  rw [if_neg hlive]
  unfold StreamContext.beforeFrame
  refine ⟨fun f hf hh => ?_, fun hbad => ?_⟩
  · rw [hf]
    dsimp only
    rw [if_pos hh]
  · cases hf : (s.tap.stream c.stream).lastFrame with
    | none => rfl
    | some f =>
      dsimp only
      rw [if_neg (by rw [hbad f hf]; exact Bool.false_ne_true)]

/-- The point built from an opening is what R66, R67 and R102 say. -/
theorem newPoint_opened {s v : State} {d x k : Int} {mismatch : Bool} (hd : d = s.odometer.d + x)
    (hm : mismatch = (s.odometer.afterLead x s.odometer.reversal).mismatched) (ht : v.tap = s.tap)
    (hc : v.assembler.contributing = s.assembler.contributing) (hl : v.assembler.closeLimit = s.assembler.closeLimit) :
    OpenedPoint s d k mismatch (v.newPoint ((s.odometer.afterLead x s.odometer.reversal).opening k s.time)) := by
  unfold OpenedPoint State.newPoint Odometer.opening
  dsimp only
  rw [hd, hm, hc, hl]
  refine ⟨rfl, rfl, rfl, rfl, rfl, fun hn => ?_, fun h hh => ⟨fun ht => ?_, fun ht => ?_⟩, rfl, List.length_map _, fun n c e hcn hen => ?_⟩
  · show (match s.odometer.highWaterPoint with | none => 0 | some p => _) = 0
    rw [hn]
  · unfold Odometer.openingSpeed
    rw [show (s.odometer.afterLead x s.odometer.reversal).highWaterPoint = some h from hh]
    exact if_pos ht
  · unfold Odometer.openingSpeed
    rw [show (s.odometer.afterLead x s.odometer.reversal).highWaterPoint = some h from hh]
    exact if_neg ht
  · rw [List.getElem?_map, hcn] at hen
    cases hen
    exact newEntry_spec ht c

/-- The part with an opened point at the tail of the queue, before the closing. -/
def State.enqueued (s : State) (p : PendingPoint) : State :=
  { s with assembler := { s.assembler with queue := s.assembler.queue ++ [p], opened := s.assembler.opened + 1 } }

/-- An opening in the point assembler: room, the point at the tail, the closing (R102). -/
theorem State.openPoint_eq (s : State) (o : Opening) :
    s.openPoint o =
      State.closePoints (s.makeRoom.enqueued (s.makeRoom.newPoint o)).assembler.queue.length
        (s.makeRoom.enqueued (s.makeRoom.newPoint o)) := rfl

/-- A new point waits on a contributing stream that is not STALE. -/
theorem newPoint_waitsOn {s : State} {c : Contributor} (hc : c ∈ s.assembler.contributing) (h : (s.tap.stream c.stream).state ≠ .stale)
    (o : Opening) : (s.newPoint o).WaitsOn c.stream := by
  refine ⟨newEntry s.tap c, List.mem_map_of_mem hc, rfl, (s.tap.stream c.stream).beforeFrame, ?_⟩
  unfold newEntry
  exact if_neg h

/-- Behind a head that waits, or as a head that waits, a point at the tail lets nothing close. -/
theorem headWaits_append {queue : List PendingPoint} {p : PendingPoint} (h : HeadWaits queue none)
    (hp : queue = [] → ∃ j, p.WaitsOn j) : HeadWaits (queue ++ [p]) none := by
  cases queue with
  | nil =>
    intro q rest hq
    obtain ⟨rfl, _⟩ := List.cons.inj hq
    obtain ⟨j, hj⟩ := hp rfl
    exact ⟨j, hj, fun hn => nomatch hn⟩
  | cons a l =>
    intro q rest hq
    obtain ⟨rfl, _⟩ := List.cons.inj hq
    exact h a l rfl

/-! ### The count -/

/-- A count that reaches the high-water point leaves the reversal mark clear (R69). -/
theorem State.watchReversal_ends {u : State} {p : HighWaterPoint} (hrun : u.control.runState = .running)
    (hp : u.odometer.highWaterPoint = some p) (hd : p.boundary * 256 ≤ u.odometer.d) :
    u.watchReversal = { u with odometer := { u.odometer with reversal := false } } := by
  have hbegins : ¬BeginsReversal u u.odometer.d := by
    rintro ⟨_, _, q, hq, hlt⟩
    obtain rfl := Option.some.inj (hq.symm.trans hp)
    omega
  obtain ⟨mark, ⟨hends, _⟩, hmark⟩ := State.watchReversal_mark hbegins
  rw [hmark, hends ⟨by rw [hrun]; decide, p, hp, hd⟩]

theorem State.odometerOpened_odometer (s : State) (k : Int) : (s.odometerOpened k).odometer = s.odometer.opened k s.time := by
  simp [State.odometerOpened]

theorem State.odometerOpened_runState (s : State) (k : Int) : (s.odometerOpened k).control.runState = s.control.runState := by
  simp [State.odometerOpened]

theorem State.odometerOpened_tap (s : State) (k : Int) : (s.odometerOpened k).tap = s.tap := by
  simp [State.odometerOpened]

theorem State.odometerOpened_assembler (s : State) (k : Int) : (s.odometerOpened k).assembler = s.assembler := by
  simp [State.odometerOpened]

/-- The part that a count to an opening leaves behind its closing: the reversal mark clear. -/
theorem exec_leadCount_opens {s : State} {forward : Bool} {d x k : Int} (hm : LeadMove s forward d) (ho : OpensPoint s d k)
    (hx : x = countOf (s.odometer.channel s.odometer.lead) forward) (hdue : d / 256 ≤ s.odometer.highWater ∨ NothingDue s (d / 256))
    {v : State} (hv : v = ((s.moved x).odometerOpened k).makeRoom) {p : PendingPoint}
    (hp : p = v.newPoint ((s.moved x).odometer.opening k s.time)) {w : State}
    (hw : w = State.closePoints (v.enqueued p).assembler.queue.length (v.enqueued p)) :
    exec (.leadCount forward) s = .next ({ w with odometer := { w.odometer with reversal := false } }.settle) := by
  have hd := State.moved_d hm hx
  have hcounting : Counting s := by
    unfold Counting
    rw [ho.1]
    decide
  refine (next_whileCounting hcounting _).trans ?_
  rw [State.leadCount_quiet hm hx hdue, State.maybeOpen_opens (u := s.moved x) ho rfl rfl rfl hd, State.openAt_eq, State.openPoint_eq,
    ← hv]
  have hw' : w = State.closePoints (v.enqueued (v.newPoint ((s.moved x).odometer.opening k (s.moved x).time))).assembler.queue.length
      (v.enqueued (v.newPoint ((s.moved x).odometer.opening k (s.moved x).time))) := by rw [hw, hp]; rfl
  rw [← hw']
  obtain ⟨hodoW, _, hrunW, _⟩ := State.closePoints_same (v.enqueued p).assembler.queue.length (v.enqueued p)
  obtain ⟨hodoV, _, hrunV, _⟩ := ((s.moved x).odometerOpened k).makeRoom_same
  rw [← hw] at hodoW hrunW
  rw [← hv, State.odometerOpened_odometer] at hodoV
  rw [← hv, State.odometerOpened_runState] at hrunV
  have hodo : w.odometer = (s.moved x).odometer.opened k s.time := hodoW.trans hodoV
  rw [State.watchReversal_ends (u := w) (p := ⟨k, s.time, k * s.odometer.spacing⟩) ((hrunW.trans hrunV).trans ho.1) (by rw [hodo]; rfl)]
  rw [hodo]
  show k * s.odometer.spacing * 256 ≤ (s.moved x).odometer.d
  rw [hd]
  exact ho.2.2.2

/-- Settles O49: the odometer's part, the room, the point at the tail and the closings; and an opening behind a head that waits. -/
theorem leadCountOpensPoint : Obligations.LeadCountOpensPoint := by
  unfold Obligations.LeadCountOpensPoint
  intro forward mismatch d x k travelA travelB s hs hm ho hx hdue hA hB hmis
  have hmism := mismatched_iff hA hB hmis
  have hd : d = s.odometer.d + x := by rw [hm.1, hx]
  have hopened : (s.moved x).odometer.opened k s.time = s.odometer.afterOpening x d k s.time mismatch := by
    rw [hd, hmism]
    exact s.odometer.opened_afterOpening x k s.time
  have hflags : OpeningFlags s.odometer d mismatch (s.moved x).odometer.flagsOfOpening := by
    rw [hd, hmism]
    exact s.odometer.openingFlags x (s.moved x).odometer rfl
  have hu : (s.moved x).odometerOpened k =
      ({ s with odometer := s.odometer.afterOpening x d k s.time mismatch }.raises (s.moved x).odometer.flagsOfOpening).markStatus := by
    rw [← hopened]
    rfl
  obtain ⟨u, hudef⟩ : ∃ u, u = (s.moved x).odometerOpened k := ⟨_, rfl⟩
  obtain ⟨v, hv⟩ : ∃ v, v = u.makeRoom := ⟨_, rfl⟩
  obtain ⟨p, hp⟩ : ∃ p, p = v.newPoint ((s.moved x).odometer.opening k s.time) := ⟨_, rfl⟩
  obtain ⟨w, hw⟩ : ∃ w, w = State.closePoints (v.enqueued p).assembler.queue.length (v.enqueued p) := ⟨_, rfl⟩
  have hasm : u.assembler = s.assembler := by rw [hudef, State.odometerOpened_assembler]; rfl
  have htap : u.tap = s.tap := by rw [hudef, State.odometerOpened_tap]; rfl
  obtain ⟨_, hvtap, _, hcontrib, hlimit⟩ := u.makeRoom_same
  rw [← hv] at hvtap hcontrib hlimit
  rw [hasm] at hcontrib hlimit
  have hpoint : OpenedPoint s d k mismatch p := by
    rw [hp]
    exact newPoint_opened hd hmism (hvtap.trans htap) hcontrib hlimit
  have hexec := exec_leadCount_opens hm ho hx hdue (hv.trans (congrArg State.makeRoom hudef)) hp hw
  rw [← hudef] at hu
  have hmake : s.assembler.queue.length < 8 → v = u := fun hroom => hv.trans (State.makeRoom_room u (by rw [hasm]; exact hroom))
  refine ⟨⟨u, v, w, p, _, hflags, hpoint, hu, hmake, fun q behind hq hfull => ?_, ?_, hexec⟩, fun hi hwaits hroom hempty => ?_⟩
  · rw [hv]
    exact State.makeRoom_forces u (by rw [hasm]; exact hq) (by rw [hasm]; exact hfull)
  · rw [hw]
    exact State.closePoints_closes _ _ (Nat.le_refl _)
  · obtain rfl := hmake hroom
    have hstays : w = v.enqueued p := by
      refine hw.trans (State.closePoints_headWaits _ _ (headWaits_append (by rw [hasm]; exact hwaits) fun hnil => ?_))
      obtain ⟨c, hc, hlive⟩ := hempty (by rw [← hasm]; exact hnil)
      rw [hp]
      exact ⟨_, newPoint_waitsOn (by rw [hcontrib]; exact hc) (by rw [htap]; exact hlive) _⟩
    have ha : s.control.runState ≠ .unanchored := by rw [ho.1]; exact RunState.noConfusion
    have hmarked : Marked s v (s.moved x).odometer.flagsOfOpening := by
      rw [hu]
      exact Marked.of_raises_markStatus _ ha hi rfl rfl
    have honly : FlagsOnly { s with odometer := s.odometer.afterOpening x d k s.time mismatch } v.settle := by
      rw [hu]
      exact ((FlagsOnly.raises _ _).trans (FlagsOnly.markStatus _)).trans (FlagsOnly.settle _)
    obtain ⟨hcontrol, hslot, hframe⟩ := honly.of_same (s := s) rfl rfl
    have hodo : v.odometer = s.odometer.afterOpening x d k s.time mismatch := by
      rw [hudef, State.odometerOpened_odometer]
      exact hopened
    refine ⟨_, p, _, hexec, ?_, ?_, ?_, ?_, hflags, hpoint⟩
    · rw [hstays]
      show { (v.settle).enqueued p with odometer := { v.odometer with reversal := false } } = _
      rw [hodo, hframe]
      rfl
    · rw [hstays]
      exact hslot
    · rw [hstays]
      exact hcontrol
    · rw [hstays]
      exact (hmarked.congr rfl rfl).settle

end Sys2Proof.Machine
end

section
/-! SUPPORT. A count of the lead that raises the high-water distance: the rise acts first, and the rest of the count follows (R61, R170). -/

namespace Sys2Proof.Machine

/-! ### The rest of the count behind the rise -/

/-- The reversal mark of a count, behind the rise that it made. -/
theorem State.watchReversal_after {s v : State} {d x : Int} (hodo : v.odometer = s.odometer.afterLead x s.odometer.reversal)
    (hd : s.odometer.d + x = d) (hrun : v.control.runState = s.control.runState) (hb : ¬BeginsReversal s d) :
    ∃ mark, MarkAfter s d mark ∧ v.watchReversal = { v with odometer := s.odometer.afterLead x mark } := by
  have hvd : v.odometer.d = d := by rw [hodo]; exact hd
  have hb' : ¬BeginsReversal v v.odometer.d := by
    unfold BeginsReversal
    rw [hvd, hrun, hodo]
    exact hb
  obtain ⟨mark, hmark, heq⟩ := State.watchReversal_mark hb'
  refine ⟨mark, ?_, by rw [heq, hodo]; rfl⟩
  unfold MarkAfter EndsReversal at *
  rw [hvd, hrun, hodo] at hmark
  exact hmark

/-- The part that a count finds when the rise it makes has acted before it. -/
def State.risen (s v : State) (d : Int) : State :=
  { s with
    control := v.control, writeBack := v.writeBack, action := v.action
    odometer := { s.odometer with highWater := d / 256 } }

/-- The count on the part with the rise made moves it to the part behind the rise. -/
theorem State.risen_moved {s v : State} {d x : Int} (hd : s.odometer.d + x = d) (hrise : s.odometer.highWater < d / 256)
    (hv : ActsOnly (s.moved x) v) : (s.risen v d).moved x = v := by
  have hwater : (s.risen v d).odometer.afterLead x (s.risen v d).odometer.reversal = s.odometer.afterLead x s.odometer.reversal := by
    unfold State.risen Odometer.afterLead
    dsimp only
    rw [hd, Int.max_self, Int.max_eq_right (Int.le_of_lt hrise)]
  unfold State.moved
  rw [hwater, hv.1]
  rfl

/-- A count that raises the high-water distance, with the rise made and what follows it. -/
theorem exec_leadCount_rises {s : State} {forward : Bool} {d x : Int} (hc : Counting s) (hm : LeadMove s forward d)
    (hx : x = countOf (s.odometer.channel s.odometer.lead) forward) (hrise : s.odometer.highWater < d / 256) :
    exec (.leadCount forward) s = .next ((((s.moved x).rise).maybeOpen s.odometer.d).watchReversal).settle := by
  refine (next_whileCounting hc _).trans ?_
  rw [State.leadCount_rise hm hx hrise]

/-- The same count on the part with the rise made. -/
theorem exec_leadCount_risen {s v : State} {forward : Bool} {d x : Int} (hc : Counting s) (hm : LeadMove s forward d)
    (hx : x = countOf (s.odometer.channel s.odometer.lead) forward) (hrise : s.odometer.highWater < d / 256)
    (hv : ActsOnly (s.moved x) v) :
    exec (.leadCount forward) (s.risen v d) = .next ((v.maybeOpen s.odometer.d).watchReversal).settle := by
  have hd : s.odometer.d + x = d := by rw [hm.1, hx]
  have hc' : Counting (s.risen v d) := by
    have hrun : v.control.runState = s.control.runState := hv.2.1
    unfold Counting
    show v.control.runState ∈ _
    rw [hrun]
    exact hc
  refine (next_whileCounting hc' _).trans ?_
  unfold State.leadCount
  rw [raiseHighWater_below (s := s.risen v d) (x := x) hm hx (Int.le_refl _), State.risen_moved hd hrise hv]
  rfl

/-- A count that opens no point and begins no reversal excursion, behind its rise. -/
theorem exec_leadCount_rise_only {s : State} {forward : Bool} {d x : Int} (hc : Counting s) (hm : LeadMove s forward d)
    (hx : x = countOf (s.odometer.channel s.odometer.lead) forward) (hrise : s.odometer.highWater < d / 256)
    (hacts : ActsOnly (s.moved x) (s.moved x).rise) (hopen : ∀ k, ¬OpensPoint s d k) (hb : ¬BeginsReversal s d) :
    ∃ mark, MarkAfter s d mark
      ∧ exec (.leadCount forward) s = .next ({ (s.moved x).rise with odometer := s.odometer.afterLead x mark }.settle) := by
  have hd : s.odometer.d + x = d := by rw [hm.1, hx]
  have hodo : (s.moved x).rise.odometer = s.odometer.afterLead x s.odometer.reversal := by rw [hacts.1]; rfl
  obtain ⟨mark, hmark, heq⟩ := State.watchReversal_after hodo hd hacts.2.1 hb
  refine ⟨mark, hmark, ?_⟩
  rw [exec_leadCount_rises hc hm hx hrise, State.maybeOpen_none hopen hacts.2.1 (by rw [hodo]; rfl) (by rw [hodo]; rfl)
    (by rw [hodo]; exact hd), heq]

/-! ### A rise with one entry due -/

/-- The firing of an entry leaves the queue, the periodic triggers and the odometer alone. -/
theorem State.fireAction_frame (u : State) (e : ActionEntry) :
    (u.fireAction e).action.queue = u.action.queue ∧ (∀ g, (u.fireAction e).action.periodic g = u.action.periodic g)
      ∧ (u.fireAction e).odometer = u.odometer := by
  have hperiodic : ∀ (a b : ActionUnit) (g : Fin 2), a.periodic0 = b.periodic0 → a.periodic1 = b.periodic1 →
      a.periodic g = b.periodic g := fun a b g h0 h1 => by
    match g with
    | 0 => exact h0
    | 1 => exact h1
  unfold State.fireAction
  split
  · refine ⟨by simp [State.logAction, ActionUnit.occupy], fun g => hperiodic _ _ g ?_ ?_, by simp [State.logAction]⟩
    · simp [State.logAction, ActionUnit.occupy]
    · simp [State.logAction, ActionUnit.occupy]
  · refine ⟨by simp [State.missAction, State.logAction], fun g => hperiodic _ _ g ?_ ?_, by simp [State.missAction, State.logAction]⟩
    · simp [State.missAction, State.logAction]
    · simp [State.missAction, State.logAction]

/-- A rise with the head of the queue due, and nothing else. -/
theorem State.rise_head {u : State} {e : ActionEntry} {rest : List ActionEntry} (hq : u.action.queue = e :: rest)
    (he : e.trigger ≤ u.odometer.highWater) (hrest : ∀ y ∈ rest, u.odometer.highWater < y.trigger)
    (hper : ∀ g p, (u.action.periodic g).next = some p → u.odometer.highWater < p) :
    u.rise = { u with action := { u.action with queue := rest } }.fireAction e := by
  obtain ⟨hqueue, hperiodic, hodo⟩ := State.fireAction_frame { u with action := { u.action with queue := rest } } e
  have hper' : ∀ g p, (({ u with action := { u.action with queue := rest } }.fireAction e).action.periodic g).next = some p →
      ({ u with action := { u.action with queue := rest } }.fireAction e).odometer.highWater < p := fun g p hp => by
    rw [hodo]
    rw [hperiodic] at hp
    exact hper g p (by
      match g with
      | 0 => exact hp
      | 1 => exact hp)
  have hdue : State.fireDue u.action.queue.length u = { u with action := { u.action with queue := rest } }.fireAction e := by
    rw [hq, List.length_cons]
    unfold State.fireDue
    rw [hq]
    dsimp only
    rw [if_pos he]
    exact State.fireDue_nothing _ _ fun y hy => by rw [hqueue] at hy; rw [hodo]; exact hrest y hy
  unfold State.rise
  dsimp only
  rw [hdue]
  split
  · rw [State.firePeriodic_nothing _ 0 (hper' 0), State.firePeriodic_nothing _ 1 (hper' 1)]
  · rfl

/-! ### Raises and productions in states that agree -/

theorem State.raise_agree {a b : State} (f : EventFlag) (hc : a.control = b.control) (hw : a.writeBack = b.writeBack) :
    (a.raise f).control = (b.raise f).control ∧ (a.raise f).writeBack = (b.raise f).writeBack := by
  unfold State.raise
  rw [hc, hw]
  split
  · exact ⟨hc, hw⟩
  · exact ⟨rfl, rfl⟩

theorem State.markStatus_agree {a b : State} (hc : a.control = b.control) (hw : a.writeBack = b.writeBack) :
    a.markStatus.control = b.markStatus.control ∧ a.markStatus.writeBack = b.markStatus.writeBack := by
  unfold State.markStatus
  rw [hc, hw]
  split
  · exact ⟨hc, hw⟩
  · exact ⟨rfl, rfl⟩

/-- The production of a record looks at the control block, write-back and the transit unit alone. -/
theorem State.produce_agree {a b : State} (r : Ring) (c : List Word64) (hc : a.control = b.control) (hw : a.writeBack = b.writeBack)
    (ht : a.transit = b.transit) :
    (a.produce r c).control = (b.produce r c).control ∧ (a.produce r c).writeBack = (b.produce r c).writeBack := by
  unfold State.produce
  rw [hw, ht]
  split
  · exact State.raise_agree _ hc rfl
  · split
    · exact State.raise_agree _ hc rfl
    · exact State.markStatus_agree hc rfl

/-- The production of a record changes the control block and write-back alone. -/
theorem State.produce_frame (s : State) (r : Ring) (c : List Word64) :
    s.produce r c = { s with control := (s.produce r c).control, writeBack := (s.produce r c).writeBack } := by
  obtain ⟨hframe, _, _⟩ := ActsOnly.produce s r c
  rw [hframe, State.produce_action]

/-- A production in a state that agrees with another on what a production looks at. -/
theorem State.produce_eq_of_agree {a b : State} (r : Ring) (c : List Word64) (hc : a.control = b.control)
    (hw : a.writeBack = b.writeBack) (ht : a.transit = b.transit) :
    a.produce r c = { a with control := (b.produce r c).control, writeBack := (b.produce r c).writeBack } := by
  obtain ⟨hcontrol, hwrite⟩ := State.produce_agree r c hc hw ht
  rw [State.produce_frame, hcontrol, hwrite]

theorem State.raise_frame (s : State) (f : EventFlag) :
    s.raise f = { s with control := (s.raise f).control, writeBack := (s.raise f).writeBack } := (FlagsOnly.raise s f).1

/-- The firing of an entry in the lowest free slot. -/
theorem State.fireAction_slot {u : State} {e : ActionEntry} {slot : Nat} (h : u.action.freeSlot = some slot) :
    u.fireAction e =
      { u with action :=
          { u.action.occupy slot ⟨e.group, e.pattern, u.time + BitVec.ofNat 48 u.action.pulseLength⟩ with
            fired := u.action.fired + 1 } }.produce .action (logWords u e.id e.origin e.trigger .fired) := by
  unfold State.fireAction
  rw [h]
  rfl

/-- The firing of an entry at a full table. -/
theorem State.fireAction_full {u : State} {e : ActionEntry} (h : u.action.freeSlot = none) :
    u.fireAction e =
      ({ u with action := { u.action with missed := u.action.missed + 1 } }.raise .actionMissed).produce .action
        (logWords u e.id e.origin e.trigger .missed) := by
  unfold State.fireAction
  rw [h]
  exact State.missAction_missed _ _ _ _

theorem ActionUnit.freeSlot_of_tableFull {a : ActionUnit} (h : TableFull a) : a.freeSlot = none := by
  cases hf : a.freeSlot with
  | none => rfl
  | some slot =>
    obtain ⟨hlt, hempty, _⟩ := (a.freeSlot_iff slot).mp hf
    exact absurd hempty (h slot hlt)

/-- The line levels and hold counts after a pulse took a slot. -/
theorem lineLevel_occupy {x : ActionUnit} (hlen : x.holds.length = 8) (slot : Nat) (p : Pulse) (line : Fin 8) :
    (Names p.group p.pattern line → (x.occupy slot p).lineLevel line = !x.restLevel line
        ∧ (x.occupy slot p).holds.getD line.val 0 = x.holds.getD line.val 0 + 1)
      ∧ (¬Names p.group p.pattern line → (x.occupy slot p).lineLevel line = x.lineLevel line
        ∧ (x.occupy slot p).holds.getD line.val 0 = x.holds.getD line.val 0) := by
  have hholds : (x.occupy slot p).holds.getD line.val 0 =
      if namesLine p.group p.pattern line.val then x.holds.getD line.val 0 + 1 else x.holds.getD line.val 0 :=
    adjustHolds_getD x.holds p (· + 1) line.val (by rw [hlen]; exact line.isLt)
  rw [names_iff]
  refine ⟨fun hn => ?_, fun hn => ?_⟩
  · rw [if_pos hn] at hholds
    refine ⟨?_, hholds⟩
    unfold ActionUnit.lineLevel
    rw [if_neg (by omega)]
    rfl
  · rw [if_neg hn] at hholds
    exact ⟨ActionUnit.lineLevel_congr rfl hholds, hholds⟩

/-- The log record of an entry of a count to distance d. -/
def ActionEntry.logged (e : ActionEntry) (d : Int) (time : Time) (outcome : ActionOutcome) : List Word64 :=
  actionLogWords { id := e.id, origin := e.origin, trigger := e.trigger, dmm := d / 256, time := time, outcome := outcome }

/-- The one due entry fires in the lowest free slot. -/
theorem State.fireAction_moved_slot {s : State} {x d : Int} {e : ActionEntry} {rest : List ActionEntry} {slot : Nat}
    (hd : s.odometer.d + x = d) (hfree : s.action.freeSlot = some slot) :
    { s.moved x with action := { (s.moved x).action with queue := rest } }.fireAction e =
      { s.moved x with
        control := (s.produce .action (e.logged d s.time .fired)).control
        writeBack := (s.produce .action (e.logged d s.time .fired)).writeBack
        action :=
          { { s.action with queue := rest }.occupy slot ⟨e.group, e.pattern, s.time + BitVec.ofNat 48 s.action.pulseLength⟩ with
            fired := s.action.fired + 1 } } := by
  rw [← hd]
  exact (State.fireAction_slot (u := { s.moved x with action := { (s.moved x).action with queue := rest } }) hfree).trans
    (State.produce_eq_of_agree (b := s) _ _ rfl rfl rfl)

/-- The one due entry is missed at a full table. -/
theorem State.fireAction_moved_full {s : State} {x d : Int} {e : ActionEntry} {rest : List ActionEntry}
    (hd : s.odometer.d + x = d) (hfree : s.action.freeSlot = none) :
    { s.moved x with action := { (s.moved x).action with queue := rest } }.fireAction e =
      { s.moved x with
        control := ((s.raise .actionMissed).produce .action (e.logged d s.time .missed)).control
        writeBack := ((s.raise .actionMissed).produce .action (e.logged d s.time .missed)).writeBack
        action := { s.action with queue := rest, missed := s.action.missed + 1 } } := by
  obtain ⟨hcontrol, hwrite⟩ := State.raise_agree
    (a := { s.moved x with action := { s.action with queue := rest, missed := s.action.missed + 1 } }) (b := s) .actionMissed rfl rfl
  rw [← hd]
  refine (State.fireAction_full (u := { s.moved x with action := { (s.moved x).action with queue := rest } }) hfree).trans
    ((State.produce_eq_of_agree (b := s.raise .actionMissed) _ _ hcontrol hwrite ?_).trans ?_)
  · rw [State.raise_transit, State.raise_transit]
    rfl
  · rw [State.raise_frame]
    rfl

/-- Settles O50: the rise before the rest of the count; and a rise with one entry due, with a free slot and at a full table. -/
theorem leadCountFiresAction : Obligations.LeadCountFiresAction := by
  unfold Obligations.LeadCountFiresAction
  intro forward d x s hs hc hholds hm hx hrise
  have hlen : s.action.holds.length = 8 := hholds.2.1
  have hd : s.odometer.d + x = d := by rw [hm.1, hx]
  obtain ⟨hriseActs, hacts⟩ := (s.moved x).rise_acts hlen
  refine ⟨⟨s.moved x, (s.moved x).rise, rfl, hriseActs, ?_, fun hopen hb =>
    exec_leadCount_rise_only hc hm hx hrise hacts hopen hb⟩, fun e rest hq he hrest hper hopen hb => ?_⟩
  · exact (exec_leadCount_rises hc hm hx hrise).trans (exec_leadCount_risen hc hm hx hrise hacts).symm
  · obtain ⟨mark, hmark, hexec⟩ := exec_leadCount_rise_only hc hm hx hrise hacts hopen hb
    have hwater : (s.moved x).odometer.highWater = d / 256 := by
      show max s.odometer.highWater ((s.odometer.d + x) / 256) = d / 256
      rw [hd, Int.max_eq_right (Int.le_of_lt hrise)]
    have hhead := State.rise_head (u := s.moved x) hq (by rw [hwater]; exact he) (fun y hy => by rw [hwater]; exact hrest y hy)
      (fun g p hp => by rw [hwater]; exact hper g p hp)
    rw [hhead] at hexec
    refine ⟨fun slot hslot => ?_, fun hfull => ?_⟩
    · rw [State.fireAction_moved_slot hd ((s.action.freeSlot_iff slot).mpr hslot)] at hexec
      exact ⟨_, _, mark, hexec, hmark, rfl, rfl,
        lineLevel_occupy hlen slot ⟨e.group, e.pattern, s.time + BitVec.ofNat 48 s.action.pulseLength⟩⟩
    · rw [State.fireAction_moved_full hd (ActionUnit.freeSlot_of_tableFull hfull)] at hexec
      exact ⟨_, _, mark, hexec, hmark, rfl, rfl⟩

end Sys2Proof.Machine
end

section
/-! SUPPORT. How a command completes (R34), and the refusals of the nine commands. -/

namespace Sys2Proof.Machine

/-! ### Completion (R34) -/

/-- A completion raises COMMAND_DONE and keeps what the event raised before. -/
theorem Marked.complete {s u : State} {flags : List EventFlag} (h : Marked s u flags) (word : BitVec 4) (result : ResultCode)
    (detail : BitVec 32) : Marked s (u.complete word result detail) (.commandDone :: flags) :=
  Marked.raise (u := { u with control := { u.control with lastCommand := ⟨word, result, detail⟩ } }) h .commandDone

/-- What a completion does to the control block and write-back. -/
theorem State.complete_only (u : State) (word : BitVec 4) (result : ResultCode) (detail : BitVec 32) :
    FlagsOnly { u with control := { u.control with lastCommand := ⟨word, result, detail⟩ } } (u.complete word result detail).settle :=
  (FlagsOnly.raise _ _).trans (FlagsOnly.settle _)

/-- The command completes, and nothing else changes. -/
theorem complete_settle {s u : State} (ha : s.control.runState ≠ .unanchored) (hc : u.control = s.control)
    (hw : u.writeBack = s.writeBack) (word : BitVec 4) (result : ResultCode) (detail : BitVec 32) :
    Completes s (u.complete word result detail).settle word result detail s.control.runState [.commandDone]
      ∧ WriteBackSlotOnly s (u.complete word result detail).settle
      ∧ (u.complete word result detail).settle =
          { u with
            control := (u.complete word result detail).settle.control, writeBack := (u.complete word result detail).settle.writeBack } := by
  obtain ⟨hframe, hcontrol, hslot⟩ := State.complete_only u word result detail
  unfold ControlEventsOnly at hcontrol
  unfold WriteBackSlotOnly at hslot ⊢
  dsimp only at hcontrol hslot
  rw [hc] at hcontrol
  rw [hw] at hslot
  refine ⟨⟨hcontrol, ?_⟩, hslot, hframe⟩
  exact (Marked.first s { u with control := { u.control with lastCommand := ⟨word, result, detail⟩ } } .commandDone
    (by dsimp only; rw [hc]; exact ha) (by dsimp only; rw [hc]) (by dsimp only; rw [hc]) (by dsimp only; rw [hw])).settle

/-- The timers of the streams where the run state becomes STOPPED (R94). -/
def StreamTap.afterRunState (t : StreamTap) (r : RunState) : StreamTap :=
  if r = .stopped then t.mapStreams (fun c => { c with timer := none }) else t

theorem State.changeRunState_eq (u : State) (r : RunState) :
    u.changeRunState r = { u with control := { u.control with runState := r }, tap := u.tap.afterRunState r }.raise .runState := rfl

/-- A command that moves the run state completes DONE, and nothing else changes but the timers where it is STOPPED. -/
theorem done_changeRunState_settle {s u : State} (hc : u.control = s.control) (hw : u.writeBack = s.writeBack) {r : RunState}
    (hr : r ≠ .unanchored) (word : BitVec 4) :
    Completes s ((u.changeRunState r).done word).settle word .done 0 r [.commandDone, .runState]
      ∧ WriteBackSlotOnly s ((u.changeRunState r).done word).settle
      ∧ ((u.changeRunState r).done word).settle =
          { u with
            control := ((u.changeRunState r).done word).settle.control, writeBack := ((u.changeRunState r).done word).settle.writeBack
            tap := u.tap.afterRunState r } := by
  have hmark : Marked s (u.changeRunState r) [.runState] :=
    Marked.first s { u with control := { u.control with runState := r }, tap := u.tap.afterRunState r } .runState hr
      (by dsimp only; rw [hc]) (by dsimp only; rw [hc]) (by dsimp only; rw [hw])
  obtain ⟨hframe, hcontrol, hslot⟩ := State.complete_only (u.changeRunState r) word .done 0
  obtain ⟨hframe', hcontrol', hslot'⟩ := FlagsOnly.raise
    { u with control := { u.control with runState := r }, tap := u.tap.afterRunState r } .runState
  rw [← u.changeRunState_eq r] at hframe' hcontrol' hslot'
  unfold ControlEventsOnly at hcontrol hcontrol'
  unfold WriteBackSlotOnly at hslot hslot' ⊢
  dsimp only at hcontrol hslot hcontrol' hslot'
  rw [hc] at hcontrol'
  rw [hw] at hslot'
  refine ⟨⟨?_, (hmark.complete word .done 0).settle⟩, ?_, ?_⟩
  · rw [hcontrol'] at hcontrol
    exact hcontrol
  · rw [hslot'] at hslot
    exact hslot
  · unfold State.done
    generalize ((u.changeRunState r).complete word .done 0).settle = t at hframe ⊢
    rw [hframe, hframe']

/-! ### The nine commands of an anchored part (R25, R33) -/

theorem State.whileAnchored_of {s : State} (ha : s.control.runState ≠ .unanchored) (f : State → State) : s.whileAnchored f = f s :=
  if_neg ha

/-- A command of an anchored part is its word executed at the control block (R32). -/
theorem exec_commandOf {s : State} (ha : s.control.runState ≠ .unanchored) (n : Fin 9) (w : Word64) :
    exec (commandOf n w) s = .next (s.runCommand n.val w).settle := by
  match n with
  | 0 | 1 | 2 | 3 | 4 | 5 | 6 | 7 | 8 => exact congrArg (fun u => Host.Outcome.next (State.settle u)) (State.whileAnchored_of ha _)

/-- While the part is unanchored no command word has an effect. -/
theorem exec_commandOf_unanchored {s : State} (ha : s.control.runState = .unanchored) (hs : Settled s) (n : Fin 9) (w : Word64) :
    exec (commandOf n w) s = .next s := by
  have hquiet : ∀ f, (Host.Outcome.next (s.whileAnchored f).settle : Host.Outcome State Fault Refusal) = .next s := fun f => by
    rw [show s.whileAnchored f = s from if_pos ha, settle_of_settled hs]
  match n with
  | 0 | 1 | 2 | 3 | 4 | 5 | 6 | 7 | 8 => exact hquiet _

theorem steering_iff {r : RunState} : r.steering = true ↔ r ∈ [RunState.armed, .running, .draining] := by cases r <;> decide

theorem cancelling_iff {r : RunState} : r.cancelling = true ↔ r ∈ [RunState.running, .draining, .stopped] := by cases r <;> decide

/-- A command that the run state does not accept (R33). -/
theorem State.runCommand_refused {s : State} {n : Fin 9} (h : s.control.runState ∉ acceptedIn n) (w : Word64) :
    s.runCommand n.val w = s.refuseState (BitVec.ofNat 4 n.val) := by
  match n with
  | 0 => exact if_neg fun hr => h (by rw [hr]; decide)
  | 1 => exact if_neg fun hr => h (by rw [hr]; decide)
  | 2 =>
    show s.commandStop = _
    unfold State.commandStop
    split
    · rename_i hr; exact absurd (by rw [hr]; decide) h
    · rename_i hr; exact absurd (by rw [hr]; decide) h
    all_goals rfl
  | 3 =>
    show s.commandAbort = _
    unfold State.commandAbort
    split
    · rename_i hr; exact absurd (by rw [hr]; decide) h
    · rename_i hr; exact absurd (by rw [hr]; decide) h
    · rename_i hr; exact absurd (by rw [hr]; decide) h
    all_goals rfl
  | 4 => exact if_neg fun hr => h (by rw [hr]; decide)
  | 5 => exact if_neg fun hr => h (steering_iff.mp hr)
  | 6 => exact if_neg fun hr => h (steering_iff.mp hr)
  | 7 => exact if_neg fun hr => h (by rw [hr]; decide)
  | 8 => exact if_neg fun hr => h (cancelling_iff.mp hr)

/-- A command that completes with nothing else done. -/
theorem exec_completes_only {s : State} (ha : s.control.runState ≠ .unanchored) {n : Fin 9} {w : Word64} {result : ResultCode}
    {detail : BitVec 32} (h : s.runCommand n.val w = s.complete (BitVec.ofNat 4 n.val) result detail) :
    ∃ t, exec (commandOf n w) s = .next t ∧ ControlAndSlotOnly s t
      ∧ Completes s t (BitVec.ofNat 4 n.val) result detail s.control.runState [.commandDone] := by
  obtain ⟨hcompletes, hslot, hframe⟩ := complete_settle ha rfl rfl (BitVec.ofNat 4 n.val) result detail
  exact ⟨_, by rw [exec_commandOf ha, h], ⟨hframe, hslot⟩, hcompletes⟩

theorem InRun.anchored {s : State} (h : InRun s) : s.control.runState ≠ .unanchored := by
  unfold InRun at h
  rintro hu
  rw [hu] at h
  revert h
  decide

theorem InRun.steering {s : State} (h : InRun s) : s.control.runState.steering = true := steering_iff.mpr h

theorem directionArg_none {w : Word64} (h1 : w.extractLsb' 40 8 ≠ 0x01) (h2 : w.extractLsb' 40 8 ≠ 0xFF) : directionArg w = none := by
  unfold directionArg directionOf
  rw [if_neg h1, if_neg h2]

theorem profileArg_none {w : Word64} (h : 7 < (w.extractLsb' 0 8).toNat) : profileArg w = none := if_neg (by omega)

/-- The group of an action, when in range, is the number in its field. -/
theorem groupArg_of_le {w : Word64} (h : (w.extractLsb' 0 8).toNat ≤ 1) :
    ∃ g, groupArg w = some g ∧ g.val = (w.extractLsb' 0 8).toNat := by
  unfold groupArg
  split
  · rename_i h0; exact ⟨0, rfl, by rw [h0]; rfl⟩
  · split
    · rename_i h1; exact ⟨1, rfl, by rw [h1]; rfl⟩
    · rename_i h0 h1
      exfalso
      rcases Nat.le_one_iff_eq_zero_or_eq_one.mp h with h | h
      · exact h0 (BitVec.eq_of_toNat_eq h)
      · exact h1 (BitVec.eq_of_toNat_eq h)

theorem groupArg_none {w : Word64} (h : 1 < (w.extractLsb' 0 8).toNat) : groupArg w = none := by
  unfold groupArg
  rw [if_neg (by rintro h0; rw [h0] at h; revert h; decide), if_neg (by rintro h1; rw [h1] at h; revert h; decide)]

theorem patternArg_none {w : Word64} (h : (w.extractLsb' 8 8).toNat = 0 ∨ 15 < (w.extractLsb' 8 8).toNat) : patternArg w = none :=
  if_neg (by omega)

theorem patternArg_some {w : Word64} (h1 : 1 ≤ (w.extractLsb' 8 8).toNat) (h2 : (w.extractLsb' 8 8).toNat ≤ 15) :
    patternArg w = some (w.extractLsb' 8 4) := if_pos ⟨h1, h2⟩

theorem offsetArg_none {w : Word64} (h : 1048575 < (w.extractLsb' 16 24).toNat) : offsetArg w = none := if_neg (by omega)

theorem offsetArg_some {w : Word64} (h : (w.extractLsb' 16 24).toNat ≤ 1048575) : offsetArg w = some (w.extractLsb' 16 24).toNat :=
  if_pos h

/-- ACTION_POST with an argument out of range (R33, R34). -/
theorem State.commandActionPost_refused {s : State} {w : Word64} {field : BitVec 32} (hr : s.control.runState = .running)
    (h : (1 < (w.extractLsb' 0 8).toNat ∧ field = 1)
        ∨ ((w.extractLsb' 0 8).toNat ≤ 1
          ∧ ((w.extractLsb' 8 8).toNat = 0 ∨ 15 < (w.extractLsb' 8 8).toNat) ∧ field = 2)
        ∨ ((w.extractLsb' 0 8).toNat ≤ 1 ∧ 1 ≤ (w.extractLsb' 8 8).toNat ∧ (w.extractLsb' 8 8).toNat ≤ 15
          ∧ 1048575 < (w.extractLsb' 16 24).toNat ∧ field = 3)) :
    s.commandActionPost w = s.complete 7 .refusedArg field := by
  unfold State.commandActionPost
  rw [if_pos hr]
  rcases h with ⟨hg, rfl⟩ | ⟨hg, hp, rfl⟩ | ⟨hg, hp1, hp2, ho, rfl⟩
  · rw [groupArg_none hg]
    rfl
  · obtain ⟨g, hgroup, _⟩ := groupArg_of_le hg
    rw [hgroup, patternArg_none hp]
    rfl
  · obtain ⟨g, hgroup, _⟩ := groupArg_of_le hg
    rw [hgroup, patternArg_some hp1 hp2, offsetArg_none ho]
    rfl

/-- Settles O34: a refusal by the run state or by an argument is a completion with nothing else done. -/
theorem commandsRefused : Obligations.CommandsRefused := by
  unfold Obligations.CommandsRefused
  refine ⟨fun n w s => ⟨fun ha hs => exec_commandOf_unanchored ha hs n w, fun ha h =>
    exec_completes_only ha (State.runCommand_refused h w)⟩, fun w s hr h1 h2 => ?_, fun w s hr h => ?_, fun w field s hr h => ?_⟩
  · refine exec_completes_only (n := 5) hr.anchored ?_
    show s.commandChainageSet w = _
    unfold State.commandChainageSet
    rw [if_pos hr.steering, directionArg_none h1 h2]
    rfl
  · refine exec_completes_only (n := 6) hr.anchored ?_
    show s.commandProfileSelect w = _
    unfold State.commandProfileSelect
    rw [if_pos hr.steering, profileArg_none h]
    rfl
  · exact exec_completes_only (n := 7) (by rw [hr]; exact RunState.noConfusion) (State.commandActionPost_refused hr h)

end Sys2Proof.Machine
end

section
/-! SUPPORT. The commands that take effect: START, ABORT, RELEASE, CHAINAGE_SET, PROFILE_SELECT, ACTION_CANCEL. -/

namespace Sys2Proof.Machine

/-! ### A command that takes effect in the blocks, and completes -/

/-- A command that completes DONE behind its effect in the blocks. -/
theorem exec_done_only {s u : State} (ha : s.control.runState ≠ .unanchored) {n : Fin 9} {w : Word64} (hc : u.control = s.control)
    (hw : u.writeBack = s.writeBack) {result : ResultCode} {detail : BitVec 32}
    (h : s.runCommand n.val w = u.complete (BitVec.ofNat 4 n.val) result detail) :
    ∃ t, exec (commandOf n w) s = .next t ∧ Completes s t (BitVec.ofNat 4 n.val) result detail s.control.runState [.commandDone]
      ∧ WriteBackSlotOnly s t ∧ t = { u with control := t.control, writeBack := t.writeBack } := by
  obtain ⟨hcompletes, hslot, hframe⟩ := complete_settle ha hc hw (BitVec.ofNat 4 n.val) result detail
  exact ⟨_, by rw [exec_commandOf ha, h], hcompletes, hslot, hframe⟩

/-- A command that completes DONE behind its effect in the blocks and a change of the run state. -/
theorem exec_moves_run {s u : State} (ha : s.control.runState ≠ .unanchored) {n : Fin 9} {w : Word64} (hc : u.control = s.control)
    (hw : u.writeBack = s.writeBack) {r : RunState} (hr : r ≠ .unanchored)
    (h : s.runCommand n.val w = (u.changeRunState r).done (BitVec.ofNat 4 n.val)) :
    ∃ t, exec (commandOf n w) s = .next t ∧ Completes s t (BitVec.ofNat 4 n.val) .done 0 r [.commandDone, .runState]
      ∧ WriteBackSlotOnly s t
      ∧ t = { u with control := t.control, writeBack := t.writeBack, tap := u.tap.afterRunState r } := by
  obtain ⟨hcompletes, hslot, hframe⟩ := done_changeRunState_settle hc hw hr (BitVec.ofNat 4 n.val)
  exact ⟨_, by rw [exec_commandOf ha, h], hcompletes, hslot, hframe⟩

theorem StreamTap.afterRunState_of_ne {t : StreamTap} {r : RunState} (h : r ≠ .stopped) : t.afterRunState r = t := if_neg h

/-- Where the run state becomes STOPPED every timer stops. -/
theorem timersStopped_of {s t : State} (h : t.tap = s.tap.afterRunState .stopped) : TimersStopped s t := by
  unfold TimersStopped
  rw [h]
  exact ⟨fun i => StreamTap.stream_mapStreams _ _ i, rfl⟩

/-! ### START (R50) -/

theorem StreamContext.start_eq (c : StreamContext) (t : Time) :
    c.start t =
      if c.state = .idle ∨ c.silenceLimit = 0 then c else { c with timer := some (t + BitVec.ofNat 48 c.silenceLimit) } := by
  unfold StreamContext.start StreamContext.runTimer
  by_cases hi : c.state = .idle
  · rw [if_pos hi, if_pos (Or.inl hi)]
  · by_cases hl : c.silenceLimit = 0
    · rw [if_neg hi, if_pos hl, if_pos (Or.inr hl)]
    · rw [if_neg hi, if_neg hl, if_neg (not_or.mpr ⟨hi, hl⟩)]
      rfl

/-- A trigger as START arms it (R174). -/
theorem Periodic.armAt_spec (p : Periodic) (dmm : Int) :
    p.armAt dmm = { p with next := (p.armAt dmm).next } ∧ (p.period = 0 → (p.armAt dmm).next = none)
      ∧ (p.period ≠ 0 → ∃ q : Int, (p.armAt dmm).next = some q ∧ q % (p.period : Int) = 0 ∧ dmm < q ∧ q - (p.period : Int) ≤ dmm) := by
  unfold Periodic.armAt
  exact ⟨rfl, fun h => if_pos h, fun h => ⟨_, if_neg h, nextMultiple_spec p.period h dmm⟩⟩

theorem ActionUnit.start_periodic (a : ActionUnit) (dmm : Int) (g : Fin 2) :
    (a.start dmm).periodic g = (a.periodic g).armAt dmm := by
  match g with
  | 0 | 1 => rfl

/-- Settles O36: START in the blocks and its completion. -/
theorem startBeginsRun : Obligations.StartBeginsRun := by
  unfold Obligations.StartBeginsRun
  intro s hr
  obtain ⟨t, hexec, hcompletes, hslot, hframe⟩ := exec_moves_run (s := s) (n := 1) (w := 0) (r := .running)
    (u := { s with
      odometer := s.odometer.start, geometry := s.geometry.start s.odometer.firstIndex
      tap := s.tap.mapStreams (fun c => c.start s.time), action := s.action.start (mmOf s.odometer.d) })
    (by rw [hr]; exact RunState.noConfusion) rfl rfl RunState.noConfusion (if_pos hr)
  refine ⟨t, s.odometer.firstIndex, hexec, hcompletes, rfl, ?_, hslot, fun i => ?_, ?_, fun g => ?_⟩
  · rw [hframe]
    rfl
  · rw [hframe]
    exact (StreamTap.stream_mapStreams _ _ i).trans (StreamContext.start_eq _ _)
  · rw [hframe]
    rfl
  · have haction : t.action.periodic g = (s.action.periodic g).armAt (s.odometer.d / 256) := by
      rw [hframe]
      exact s.action.start_periodic _ g
    rw [haction]
    exact (s.action.periodic g).armAt_spec _

/-! ### ABORT (R53) -/

theorem State.commandAbort_of {s : State} (h : InRun s) : s.commandAbort = s.abortRun.done 3 := by
  unfold InRun at h
  unfold State.commandAbort
  cases hr : s.control.runState with
  | armed | running | draining => rfl
  | unanchored | idle | stopped => rw [hr] at h; exact absurd h (by decide)

/-- Settles O38: ABORT in the blocks and its completion. -/
theorem abortEndsRun : Obligations.AbortEndsRun := by
  unfold Obligations.AbortEndsRun
  intro s hr
  obtain ⟨t, hexec, hcompletes, hslot, hframe⟩ := exec_moves_run (s := s) (n := 3) (w := 0) (r := .stopped)
    (u := { s with
      assembler := s.assembler.abort
      exceedance := { s.exceedance with trackers := s.exceedance.trackers.map (fun _ => .clear) }
      action := s.action.abort })
    hr.anchored rfl rfl RunState.noConfusion (State.commandAbort_of hr)
  refine ⟨t, hexec, hcompletes, ?_, hslot, timersStopped_of ?_⟩
  · rw [hframe]
    rfl
  · rw [hframe]

/-! ### RELEASE (R55) -/

/-- An inserted tag is in use exactly when some inserted entry is not FREE. -/
theorem Transit.insertedInFlight_ne_zero_iff (x : Transit) :
    x.insertedInFlight ≠ 0 ↔ ∃ tag, 64 ≤ tag ∧ x.entry tag ≠ none := by
  unfold Transit.insertedInFlight Transit.entry
  rw [Ne, List.length_eq_zero_iff, List.filter_eq_nil_iff]
  constructor
  · intro h
    obtain ⟨e, he, h64⟩ : ∃ e ∈ x.inflight, 64 ≤ e.1 := by
      refine Classical.byContradiction fun hn => h fun e he => ?_
      exact fun hle => hn ⟨e, he, of_decide_eq_true hle⟩
    exact ⟨e.1, h64, Option.isSome_iff_ne_none.mp (Table.isSome_of_mem he)⟩
  · rintro ⟨tag, h64, hne⟩ hall
    obtain ⟨e, he⟩ := Option.ne_none_iff_exists'.mp hne
    exact hall _ (Table.mem_of_read he) (by simpa using h64)

theorem State.writeBackBusy_iff (s : State) :
    s.writeBackBusy = true ↔
      s.writeBack.queue ≠ [] ∨ s.writeBack.slot ≠ .empty ∨ ∃ tag, 64 ≤ tag ∧ s.transit.entry tag ≠ none := by
  unfold State.writeBackBusy
  rw [← Transit.insertedInFlight_ne_zero_iff, Bool.or_eq_true, Bool.or_eq_true, decide_eq_true_iff, decide_eq_true_iff,
    decide_eq_true_iff, or_assoc]

/-- Every line is at rest after RELEASE. -/
theorem ActionUnit.release_lineLevel (a : ActionUnit) (line : Fin 8) : a.release.lineLevel line = a.restLevel line := by
  have hheld : a.release.holds.getD line.val 0 = 0 := getD_replicate_of_lt line.isLt 0 0
  unfold ActionUnit.lineLevel
  rw [if_pos hheld]
  rfl

/-- Settles O39: RELEASE refused while write-back is busy, and its effect otherwise. -/
theorem releaseReturnsToIdle : Obligations.ReleaseReturnsToIdle := by
  unfold Obligations.ReleaseReturnsToIdle
  intro s hr
  have ha : s.control.runState ≠ .unanchored := by rw [hr]; exact RunState.noConfusion
  refine ⟨fun hbusy => ?_, fun hqueue hslot htags => ?_⟩
  · obtain ⟨t, hexec, hctl, hcompletes⟩ := exec_completes_only (s := s) (n := 4) (w := 0) (result := .refusedBusy) (detail := 0) ha (by
      show s.commandRelease = _
      unfold State.commandRelease
      rw [if_pos hr, if_pos (s.writeBackBusy_iff.mpr hbusy)]
      rfl)
    rw [hr] at hcompletes
    exact ⟨t, hexec, hctl, hcompletes⟩
  · have hfree : ¬s.writeBackBusy = true := fun hb => by
      rcases s.writeBackBusy_iff.mp hb with h | h | ⟨tag, h64, hne⟩
      · exact h hqueue
      · exact h hslot
      · exact hne (htags tag h64)
    obtain ⟨t, hexec, hcompletes, hslotOnly, hframe⟩ := exec_moves_run (s := s) (n := 4) (w := 0) (r := .idle)
      (u := { s with
        transit := { s.transit with areas := s.transit.areas.filter (fun e => decide (e.1 = 0)) }
        tap := s.tap.mapStreams StreamContext.release
        action := s.action.release }) ha rfl rfl RunState.noConfusion (by
        show s.commandRelease = _
        unfold State.commandRelease
        rw [if_pos hr, if_neg hfree]
        rfl)
    have hareas : ∀ n, Table.read t.transit.areas n = if n = 0 then Table.read s.transit.areas n else none := fun n => by
      rw [hframe]
      simpa using Table.read_filter_key s.transit.areas (fun k => decide (k = 0)) n
    refine ⟨t, hexec, hcompletes, ?_, hslotOnly, (hareas 0).trans (if_pos rfl), fun n hn => (hareas n).trans (if_neg hn), fun i => ?_, ?_,
      fun line => ?_⟩
    · rw [hframe]
      rfl
    · rw [hframe]
      exact StreamTap.stream_mapStreams _ _ i
    · rw [hframe]
      rfl
    · rw [hframe]
      exact s.action.release_lineLevel line

/-! ### CHAINAGE_SET and PROFILE_SELECT (R71, R147) -/

theorem directionArg_some {w : Word64} {dir : Direction}
    (h : (w.extractLsb' 40 8 = 0x01 ∧ dir = .plus) ∨ (w.extractLsb' 40 8 = 0xFF ∧ dir = .minus)) : directionArg w = some dir := by
  unfold directionArg directionOf
  rcases h with ⟨hw, rfl⟩ | ⟨hw, rfl⟩
  · rw [if_pos hw]
  · rw [hw, if_neg (by decide), if_pos rfl]

/-- Settles O40: CHAINAGE_SET in the odometer and its completion. -/
theorem chainageSetMapsPresentDistance : Obligations.ChainageSetMapsPresentDistance := by
  unfold Obligations.ChainageSetMapsPresentDistance
  intro w dir s hr hdir
  obtain ⟨t, hexec, hcompletes, hslot, hframe⟩ := exec_done_only (s := s) (n := 5) (w := w) (result := .done) (detail := 0)
    (u := { s with odometer := s.odometer.setChainage (chainageArg w) dir }) hr.anchored rfl rfl (by
      show s.commandChainageSet w = _
      unfold State.commandChainageSet
      rw [if_pos hr.steering, directionArg_some hdir]
      rfl)
  refine ⟨t, hexec, hcompletes, ?_, hslot, ?_⟩
  · rw [hframe]
    rfl
  · rw [hframe]
    exact Int.sub_add_cancel _ _

/-- Settles O41: PROFILE_SELECT in the exceedance unit and its completion. -/
theorem profileSelectOverrides : Obligations.ProfileSelectOverrides := by
  unfold Obligations.ProfileSelectOverrides
  intro w s hr hp
  obtain ⟨t, hexec, hcompletes, hslot, hframe⟩ := exec_done_only (s := s) (n := 6) (w := w) (result := .done) (detail := 0)
    (u := { s with exceedance := { s.exceedance with active := w.extractLsb' 0 3, overrideOn := true } }) hr.anchored rfl rfl (by
      show s.commandProfileSelect w = _
      unfold State.commandProfileSelect
      rw [if_pos hr.steering, show profileArg w = some (w.extractLsb' 0 3) from if_pos hp]
      rfl)
  exact ⟨t, hexec, hcompletes, hframe, hslot⟩

/-! ### ACTION_CANCEL (R175) -/

/-- The first entry with an id leaves the queue. -/
theorem cancelAction_first {id : BitVec 16} {before behind : List ActionEntry} {e : ActionEntry} (he : e.id = id)
    (hb : ∀ x ∈ before, x.id ≠ id) : cancelAction id (before ++ e :: behind) = before ++ behind := by
  induction before with
  | nil => exact if_pos he
  | cons x rest ih =>
    obtain ⟨hx, hrest⟩ := List.forall_mem_cons.mp hb
    exact (if_neg hx).trans (congrArg (x :: ·) (ih hrest))

theorem State.commandActionCancel_found {s : State} {w : Word64} {before behind : List ActionEntry} {e : ActionEntry}
    (hr : s.control.runState ∈ [RunState.running, .draining, .stopped]) (hq : s.action.queue = before ++ e :: behind)
    (he : e.id = idArg w) (hb : ∀ x ∈ before, x.id ≠ idArg w) :
    s.commandActionCancel w =
      { s with action := { s.action with queue := before ++ behind, cancelled := s.action.cancelled + 1 } }.done 8 := by
  unfold State.commandActionCancel
  rw [if_pos (cancelling_iff.mpr hr), if_pos, hq, cancelAction_first he hb]
  rw [List.any_eq_true]
  exact ⟨e, by rw [hq]; simp, decide_eq_true he⟩

theorem State.commandActionCancel_notFound {s : State} {w : Word64}
    (hr : s.control.runState ∈ [RunState.running, .draining, .stopped]) (h : ∀ x ∈ s.action.queue, x.id ≠ idArg w) :
    s.commandActionCancel w = s.complete 8 .notFound ((idArg w).setWidth 32) := by
  unfold State.commandActionCancel
  rw [if_pos (cancelling_iff.mpr hr), if_neg]
  rw [List.any_eq_true]
  rintro ⟨x, hx, hid⟩
  exact h x hx (of_decide_eq_true hid)

/-- Settles O43: the entry found, not found, and the run states that refuse. -/
theorem actionCancelRemovesFirst : Obligations.ActionCancelRemovesFirst := by
  unfold Obligations.ActionCancelRemovesFirst
  rintro w id s rfl
  refine ⟨fun hr => ?_, fun hr => ?_⟩
  · have ha : s.control.runState ≠ .unanchored := by
      rintro hu
      rw [hu] at hr
      revert hr
      decide
    refine ⟨fun before e behind hq he hb => ?_, fun h => ?_⟩
    · obtain ⟨t, hexec, hcompletes, hslot, hframe⟩ := exec_done_only (n := 8) ha (u := { s with action :=
        { s.action with queue := before ++ behind, cancelled := s.action.cancelled + 1 } }) rfl rfl
        (State.commandActionCancel_found hr hq he hb)
      exact ⟨t, hexec, hcompletes, hframe, hslot⟩
    · exact exec_completes_only (n := 8) ha (State.commandActionCancel_notFound hr h)
  · refine exec_completes_only (n := 8) ?_ (State.runCommand_refused (n := 8) ?_ w)
    · rintro hu
      rw [hu] at hr
      revert hr
      decide
    · intro hin
      revert hr hin
      cases s.control.runState <;> decide

end Sys2Proof.Machine
end

section
/-! SUPPORT. The taking of requests (R2, R4, R11, R14) and the presentation of a READ, of a WRITE in no area and of an anchor observation
(R8, R9, R20), and those statements settled. -/

namespace Sys2Proof.Machine

/-! ### Taking a request -/

/-- A whole request at an open port is taken (R2). -/
theorem exec_requestTaken {s : State} {req : RequestFields} {last : Option Beat} {data : List Beat}
    (ho : PortOpen s req last) (hw : WholeRequest s.transit req last data) :
    exec (.requestTaken req last) s = .next (s.takeRequest req data).settle := by
  have htake : s.offerRequest ⟨req, last⟩ data = (s.takeRequest req data).settle := by
    unfold State.offerRequest
    exact if_pos (canTake_of_portOpen ho)
  obtain ⟨hreset, _, _, _, _, hfirst⟩ := ho
  exact (execRequestTaken_first (completeData_of_whole hw) hreset hfirst).trans (by rw [htake])

/-- The state of which a taken request's event speaks: no burst in progress, no request waiting. -/
def State.taking (s : State) : State := { s with transit := { s.transit with partialBurst := none, waiting := none } }

theorem takeRequest_refused {s : State} {req : RequestFields} {data : List Beat} (h : ¬PassesBus s.transit req) :
    s.takeRequest req data = ({ s.taking with transit := s.taking.transit.answerError req.tag }).raise .requestRefused := by
  have hr : s.transit.busRefuses req = true := by
    rw [← busRefuses_iff] at h
    simpa using h
  unfold State.takeRequest
  exact if_pos hr

theorem takeRequest_passed {s : State} {req : RequestFields} {data : List Beat} (h : PassesBus s.transit req) :
    s.takeRequest req data = s.taking.classifyRequest req data := by
  have hr : ¬s.transit.busRefuses req = true := by simpa using busRefuses_iff.mpr h
  unfold State.takeRequest
  exact if_neg hr

/-- Where a request lies, as the statements give it: nowhere, or in one area, which for a WRITE is none of A5–A7 (R11). -/
def HitIs (t : Transit) (req : RequestFields) (hit : Option AreaHit) : Prop :=
  match hit with
  | none => LiesNowhere t req.addr.toNat req.beats
  | some h => LiesIn t req.addr.toNat req.beats h.area h.offset ∧ (req.kind = .write → h.area < 5)

theorem HitIs.classify {t : Transit} {req : RequestFields} {hit : Option AreaHit} (h : HitIs t req hit) :
    classifyRange t.areas req.addr.toNat req.beats = hit ∧ strayWrite req.kind hit = false := by
  cases hit with
  | none => exact ⟨classifyRange_of_liesNowhere h, by cases req.kind <;> rfl⟩
  | some x =>
    obtain ⟨hin, hlow⟩ := h
    refine ⟨classifyRange_of_liesIn hin, ?_⟩
    cases hk : req.kind with
    | read => rfl
    | write =>
      have := hlow hk
      simp [strayWrite]
      omega

/-- The request that a taken request's fields make (R2). -/
def State.madeRequest (s : State) (req : RequestFields) (data : List Beat) (hit : Option AreaHit) : Request :=
  { kind := req.kind, addr := req.addr, beats := req.beats, tag := req.tag, data := data, arrival := s.time
    hit := hit, order := s.transit.takenCount }

theorem classifyRequest_staged {s : State} {req : RequestFields} {data : List Beat} {hit : Option AreaHit}
    (hhit : HitIs s.transit req hit) (hw : (s.waitsOf req).1 = []) (hh : (s.waitsOf req).2 = []) :
    s.classifyRequest req data =
      { s with
        transit := ({ s.transit with takenCount := s.transit.takenCount + 1 }).stageRequest (s.madeRequest req data hit) } := by
  obtain ⟨hclass, hstray⟩ := hhit.classify
  unfold State.classifyRequest
  dsimp only
  rw [hclass, if_neg (by simp [hstray]), if_pos ⟨hw, hh⟩]
  rfl

theorem classifyRequest_held {s : State} {req : RequestFields} {data : List Beat} {hit : Option AreaHit}
    (hhit : HitIs s.transit req hit) (hw : ¬((s.waitsOf req).1 = [] ∧ (s.waitsOf req).2 = [])) :
    s.classifyRequest req data =
      { s with
        transit :=
          ({ s.transit with takenCount := s.transit.takenCount + 1 }).holdRequest (s.madeRequest req data hit)
            (s.waitsOf req).1 (s.waitsOf req).2 } := by
  obtain ⟨hclass, hstray⟩ := hhit.classify
  unfold State.classifyRequest
  dsimp only
  rw [hclass, if_neg (by simp [hstray]), if_neg hw]
  rfl

/-- An unanchored part records no raise (R25). -/
theorem raise_of_unanchored {u : State} (f : EventFlag) (h : u.control.runState = .unanchored) : u.raise f = u := if_pos h

/-- An error answer with a raise in an anchored part (R4, R11). -/
theorem answeredError_raise {s : State} (tag : SysTag) (f : EventFlag) (ha : s.control.runState ≠ .unanchored) :
    let t := (({ s.taking with transit := s.taking.transit.answerError tag }).raise f).settle
    AnsweredError s t tag ∧ ControlEventsOnly s t ∧ Publishes s t [f] := by
  obtain ⟨hc, hw, hp, hframe⟩ :=
    raise_settle s { s.taking with transit := s.taking.transit.answerError tag } f ha rfl rfl
  refine ⟨⟨?_, ?_, hw⟩, hc, hp⟩
  · rw [hframe]; rfl
  · rw [hframe]; rfl

/-- Settles O12: a request that fails a bus check, and a stray write, are answered ERROR and raise one flag. -/
theorem requestRefusedAtOnce : Obligations.RequestRefusedAtOnce := by
  unfold Obligations.RequestRefusedAtOnce
  intro req last data s hs ho hw
  refine ⟨fun hbus => ?_, fun n off ha hbus hk hin hn => ?_⟩
  · refine ⟨_, exec_requestTaken ho hw, ?_⟩
    rw [takeRequest_refused hbus]
    by_cases ha : s.control.runState = .unanchored
    · have hnone : (({ s.taking with transit := s.taking.transit.answerError req.tag }).raise .requestRefused).settle
          = { s.taking with transit := s.taking.transit.answerError req.tag } := by
        rw [raise_of_unanchored (u := { s.taking with transit := s.taking.transit.answerError req.tag }) _ ha]
        exact settle_of_settled hs
      rw [hnone]
      exact ⟨⟨rfl, rfl, rfl⟩, fun _ => ⟨rfl, rfl⟩, fun hne => absurd ha hne⟩
    · obtain ⟨herror, hc, hp⟩ := answeredError_raise (s := s) req.tag .requestRefused ha
      exact ⟨herror, fun hne => absurd hne ha, fun _ => ⟨hc, hp⟩⟩
  · refine ⟨_, exec_requestTaken ho hw, ?_⟩
    have hstray : s.taking.classifyRequest req data
        = ({ s.taking with transit := s.taking.transit.answerError req.tag }).raise .strayWrite := by
      unfold State.classifyRequest
      dsimp only
      rw [show classifyRange s.taking.transit.areas req.addr.toNat req.beats = some { area := n, offset := off } from
        classifyRange_of_liesIn hin]
      exact if_pos (by simp [strayWrite, hk, hn])
    rw [takeRequest_passed hbus, hstray]
    exact answeredError_raise req.tag .strayWrite ha

/-- Settles O13: a request that overlaps nothing is staged. -/
theorem requestStaged : Obligations.RequestStaged := by
  unfold Obligations.RequestStaged
  intro req last data hit s hs ho hw hbus hhit hwrites hheld
  obtain ⟨hmemw, hmemh⟩ := mem_waitsOf (s := s.taking) (req := req)
  have hnow : (s.taking.waitsOf req).1 = [] :=
    List.eq_nil_iff_forall_not_mem.mpr fun w hw => hwrites ((hmemw w).mp hw).1 w ((hmemw w).mp hw).2
  have hnoh : (s.taking.waitsOf req).2 = [] :=
    List.eq_nil_iff_forall_not_mem.mpr fun tag ht => hheld tag ((hmemh tag).mp ht)
  have hstage : s.transit.stage = [] := by
    obtain ⟨_, _, hstage, _⟩ := ho
    exact hstage
  refine ⟨_, exec_requestTaken ho hw, ?_⟩
  rw [takeRequest_passed hbus, classifyRequest_staged (s := s.taking) hhit hnow hnoh, settle_of_settled (by exact hs)]
  refine ⟨rfl, ⟨rfl, fun k hk => ?_⟩, rfl, ?_, ?_⟩
  · exact (Transit.entry_setEntry _ _ _ _).trans (if_neg hk)
  · show insertStage _ s.transit.stage = _
    rw [hstage]
    rfl
  · exact (Transit.entry_setEntry _ _ _ _).trans (if_pos rfl)

/-- Settles O14: a request that overlaps a queued write or a held request joins the hold list. -/
theorem requestHeld : Obligations.RequestHeld := by
  unfold Obligations.RequestHeld
  intro req last data hit s hs ho hw hbus hhit hover
  obtain ⟨hmemw, hmemh⟩ := mem_waitsOf (s := s.taking) (req := req)
  have hwaits : ¬((s.taking.waitsOf req).1 = [] ∧ (s.taking.waitsOf req).2 = []) := by
    rintro ⟨hnow, hnoh⟩
    rcases hover with ⟨hk, w, hover⟩ | ⟨tag, hover⟩
    · have := (hmemw w).mpr ⟨hk, hover⟩
      rw [hnow] at this
      cases this
    · have := (hmemh tag).mpr hover
      rw [hnoh] at this
      cases this
  refine ⟨_, ⟨s.madeRequest req data hit, (s.taking.waitsOf req).1, (s.taking.waitsOf req).2⟩, exec_requestTaken ho hw, ?_⟩
  rw [takeRequest_passed hbus, classifyRequest_held (s := s.taking) hhit hwaits, settle_of_settled (by exact hs)]
  refine ⟨rfl, ⟨rfl, fun k hk => ?_⟩, rfl, rfl, rfl, hmemw, hmemh, ?_⟩
  · exact (Transit.entry_setEntry _ _ _ _).trans (if_neg hk)
  · exact (Transit.entry_setEntry _ _ _ _).trans (if_pos rfl)

/-! ### Presentation of the system head -/

/-- A head that the transit unit presents is on the memory port (R5). -/
theorem headOnPort_of_present {s t : State} {r : Request} {rest : List Request} {capture : Option Capture}
    (h : t.transit = s.transit.present r rest capture) : HeadOnPort s t r rest capture := by
  refine ⟨?_, ?_, fun k hk => ?_⟩
  · rw [h]; rfl
  · rw [h]; exact (Transit.entry_setEntry _ _ _ _).trans (if_pos rfl)
  · rw [h]; exact (Transit.entry_setEntry _ _ _ _).trans (if_neg hk)

/-- The system head that wins the port is presented (R16). -/
theorem exec_systemHeadPresented {s : State} {r : Request} {rest : List Request} (hs : s.transit.stage = r :: rest)
    (hw : SystemWins s) : exec .systemHeadPresented s = .next (s.presentHead r rest).settle := by
  show execSystemHeadPresented s = _
  unfold execSystemHeadPresented
  rw [hs]
  exact if_pos (grant_system_iff.mpr hw)

/-- A WRITE that is no control write is presented and tapped (R12). -/
theorem presentHead_tapped {s : State} {r : Request} {rest : List Request} (hk : r.kind = .write) (hc : r.isControl = false) :
    s.presentHead r rest = { s with transit := s.transit.present r rest none }.tapForwarded r := by
  unfold State.presentHead
  rw [hk]
  exact if_neg (by simp [hc])

theorem isControl_of_nowhere {r : Request} (h : r.hit = none) : r.isControl = false := by
  unfold Request.isControl
  rw [h]
  cases r.kind <;> rfl

/-- The capture of a presented READ is the one of R20. -/
theorem captureFor_eq (s : State) (r : Request) : s.captureFor r = CaptureTaken s r := by
  unfold State.captureFor State.coversEventWord CaptureTaken State.windowBase rangeWithin
  cases s.transit.base with
  | none => rfl
  | some b =>
    have hcover : ((some b).isSome && (decide (r.addr.toNat ≤ ((some b).getD 0).toNat + 0x108)
          && decide (((some b).getD 0).toNat + 0x108 + 8 ≤ r.addr.toNat + 8 * r.beats))) = true
        ↔ r.addr.toNat ≤ b.toNat + 0x108 ∧ b.toNat + 0x110 ≤ r.addr.toNat + 8 * r.beats := by
      simp
    cases s.transit.statusRecords.getLast? with
    | none => simp
    | some w => simp only [hcover, Option.map_some]

/-- Settles O16: a READ that has the port is presented with its capture. -/
theorem readPresented : Obligations.ReadPresented := by
  unfold Obligations.ReadPresented
  intro r rest s hs hstage hwin hk
  refine ⟨_, exec_systemHeadPresented hstage hwin, ?_⟩
  have hp : s.presentHead r rest = { s with transit := s.transit.present r rest (s.captureFor r) } := by
    unfold State.presentHead
    rw [hk]
  rw [hp, settle_of_settled (by exact hs)]
  exact ⟨rfl, headOnPort_of_present (by rw [captureFor_eq])⟩

/-- A WRITE that is no valid anchor observation is not taken for one (R8). -/
theorem observe_of_no_anchor {s : State} {r : Request} (h : ∀ base, ¬AnchorWrite r base) : s.observe r = s := by
  unfold State.observe
  cases hv : r.anchorValue with
  | none => rfl
  | some w =>
    refine if_neg fun hvalid => ?_
    unfold Request.anchorValue at hv
    split at hv
    · rename_i b hd
      split at hv
      · rename_i hcond
        cases hv
        obtain ⟨haddr, hbeats, hstrobes⟩ := hcond
        simp only [validBase, Bool.and_eq_true, decide_eq_true_eq] at hvalid
        obtain ⟨⟨hne, hmod⟩, hle⟩ := hvalid
        exact h _ ⟨haddr, hbeats, b, hd, hstrobes, hne, hmod, hle, rfl⟩
      · cases hv
    · cases hv

/-- A valid anchor observation anchors the part at its base (R8, R9). -/
theorem observe_of_anchor {s : State} {r : Request} {base : Addr} (h : AnchorWrite r base) : s.observe r = s.anchor base := by
  obtain ⟨haddr, hbeats, b, hd, hstrobes, hne, hmod, hle, rfl⟩ := h
  have hv : r.anchorValue = some b.data := by
    unfold Request.anchorValue
    rw [hd]
    exact if_pos ⟨haddr, hbeats, hstrobes⟩
  unfold State.observe
  rw [hv]
  exact if_pos (by simpa [validBase, hmod, hle] using hne)

/-- Settles O17: a WRITE in no area that anchors nothing is forwarded and tapped by no block. -/
theorem plainWriteForwarded : Obligations.PlainWriteForwarded := by
  unfold Obligations.PlainWriteForwarded
  intro r rest s hs hstage hwin hk hhit hno
  refine ⟨_, exec_systemHeadPresented hstage hwin, ?_⟩
  have htap : ({ s with transit := s.transit.present r rest none } : State).tapForwarded r
      = { s with transit := s.transit.present r rest none } := by
    unfold State.tapForwarded
    split
    · rename_i hb
      exact observe_of_no_anchor (hno (Option.isNone_iff_eq_none.mp hb))
    · rw [hhit]
  rw [presentHead_tapped hk (isControl_of_nowhere hhit), htap, settle_of_settled (by exact hs)]
  exact ⟨rfl, headOnPort_of_present rfl⟩

/-- A status write made pending at the end of its event takes the place of R187. -/
theorem markStatus_settle_slot (w : WriteBack) :
    w.markStatus.settle = { w with slot := w.slot.afterMark w.queue.length } := by
  unfold WriteBack.markStatus WriteBack.settle
  cases w with
  | mk _ _ _ q slot => cases slot <;> rfl

/-- Settles O18: a forwarded anchor observation sets the base and area A0 and makes a status write pending. -/
theorem anchorWriteAnchors : Obligations.AnchorWriteAnchors := by
  unfold Obligations.AnchorWriteAnchors
  intro r rest base s hstage hwin hk hhit hb ha
  refine ⟨_, exec_systemHeadPresented hstage hwin, ?_⟩
  have htap : ({ s with transit := s.transit.present r rest none } : State).tapForwarded r
      = State.anchor { s with transit := s.transit.present r rest none } base := by
    unfold State.tapForwarded
    rw [if_pos (by show s.transit.base.isNone = true; simp [hb])]
    exact observe_of_anchor ha
  have hset : (State.anchor { s with transit := s.transit.present r rest none } base).settle
      = { s with
          transit :=
            { s.transit.present r rest none with
              base := some base, areas := Table.write s.transit.areas 0 { base := base, pages := 4 } }
          control := { Control.reset with runState := .idle }
          writeBack := { s.writeBack with slot := s.writeBack.slot.afterMark s.writeBack.queue.length } } := by
    unfold State.anchor State.settle
    rw [State.markStatus_anchored _ (by show RunState.idle ≠ .unanchored; decide)]
    dsimp only
    rw [markStatus_settle_slot]
    rfl
  rw [presentHead_tapped hk (isControl_of_nowhere hhit), htap, hset]
  refine ⟨rfl, rfl, ?_, fun n hn => ?_, ?_, rfl, rfl, rfl⟩
  · exact (Table.read_write _ _ _ _).trans (if_pos rfl)
  · exact (Table.read_write _ _ _ _).trans (if_neg hn)
  · exact headOnPort_of_present rfl

end Sys2Proof.Machine
end

section
/-! SUPPORT. Control writes at the control block (R26–R30): the checks in the terms of the statements, a refused burst, stored words and
consumed indices; and those statements settled. -/

namespace Sys2Proof

/-- Two canonical tables that read alike at every key are the same table. -/
theorem Table.eq_of_reads {α : Type} {a b : Table α} (ha : Table.wf a) (hb : Table.wf b)
    (h : ∀ k, Table.read a k = Table.read b k) : a = b := by
  have hnodup : ∀ {t : Table α}, Table.wf t → t.Nodup := fun ht => ht.imp fun hlt heq => by
    subst heq
    exact Nat.lt_irrefl _ hlt
  have hperm : a.Perm b := by
    rw [List.perm_ext_iff_of_nodup (hnodup ha) (hnodup hb)]
    rintro ⟨k, x⟩
    constructor
    · intro hx
      exact Table.mem_of_read ((h k).symm.trans (Table.read_of_mem ha hx))
    · intro hx
      exact Table.mem_of_read ((h k).trans (Table.read_of_mem hb hx))
  exact hperm.eq_of_pairwise (fun x y _ _ hxy hyx => absurd hxy (by omega)) ha hb

/-- Two canonical shadows that read alike at every offset are the same shadow. -/
theorem Shadow.eq_of_reads {a b : Table Word64} (ha : Shadow.wf a) (hb : Shadow.wf b)
    (h : ∀ off, Shadow.read a off = Shadow.read b off) : a = b := by
  have hnonzero : ∀ {t : Table Word64}, Shadow.wf t → ∀ k, Table.read t k ≠ some 0 := fun ht k hk =>
    ht.2 _ (Table.mem_of_read hk) rfl
  refine Table.eq_of_reads ha.1 hb.1 fun k => ?_
  have hk := h k
  have hna := hnonzero ha k
  have hnb := hnonzero hb k
  unfold Shadow.read at hk
  cases hx : Table.read a k with
  | none =>
    cases hy : Table.read b k with
    | none => rfl
    | some y =>
      rw [hx, hy] at hk
      exact absurd (by rw [hy]; exact congrArg some hk.symm) hnb
  | some x =>
    cases hy : Table.read b k with
    | none =>
      rw [hx, hy] at hk
      exact absurd (by rw [hx]; exact congrArg some hk) hna
    | some y =>
      rw [hx, hy] at hk
      exact congrArg some hk

namespace Machine

/-! ### The words of a burst -/

theorem burstWords_length (off : Nat) (l : List Beat) : (burstWords off l).length = l.length := by simp [burstWords]

theorem burstWords_getElem (off : Nat) (l : List Beat) (n : Nat) (h : n < (burstWords off l).length) :
    (burstWords off l)[n] = { off := off + 8 * n, beat := l[n]'(by rwa [burstWords_length] at h) } := by
  simp [burstWords]

theorem burstWords_cons (off : Nat) (b : Beat) (rest : List Beat) :
    burstWords off (b :: rest) = { off := off, beat := b } :: burstWords (off + 8) rest := by
  apply List.ext_getElem
  · simp [burstWords]
  · intro n _ _
    cases n with
    | zero => simp [burstWords]
    | succ n => simp [burstWords]; omega

/-- A shadow with the words of a burst stored, each at its offset (R29). -/
def storeWords (t : Table Word64) (burst : List ControlWord) : Table Word64 :=
  burst.foldl (fun t w => Shadow.write t w.off w.beat.data) t

theorem storeWords_wf {t : Table Word64} (h : Shadow.wf t) : ∀ burst : List ControlWord, Shadow.wf (storeWords t burst) := by
  intro burst
  induction burst generalizing t with
  | nil => exact h
  | cons w rest ih => exact ih (Shadow.write_wf h _ _)

theorem storeWords_read_other {off : Nat} : ∀ {burst : List ControlWord} (t : Table Word64), (∀ w ∈ burst, w.off ≠ off) →
    Shadow.read (storeWords t burst) off = Shadow.read t off
  | [], _, _ => rfl
  | w :: rest, t, h => by
    obtain ⟨hw, hrest⟩ := List.forall_mem_cons.mp h
    exact (storeWords_read_other (Shadow.write t w.off w.beat.data) hrest).trans (Shadow.read_write_other _ _ (Ne.symm hw))

theorem storeWords_read : ∀ {burst : List ControlWord} (t : Table Word64), burst.Pairwise (fun a b => a.off + 8 ≤ b.off) →
    ∀ w ∈ burst, Shadow.read (storeWords t burst) w.off = w.beat.data
  | [], _, _, w, hw => by cases hw
  | x :: rest, t, h, w, hw => by
    obtain ⟨hx, hrest⟩ := List.pairwise_cons.mp h
    rcases List.mem_cons.mp hw with rfl | hw
    · exact (storeWords_read_other (Shadow.write t w.off w.beat.data)
        (fun y hy => by have := hx y hy; omega)).trans (Shadow.read_write_same _ _ _)
    · exact storeWords_read (Shadow.write t x.off x.beat.data) hrest w hw

/-- Setup and route words, taken, are stored and do nothing else (R29). -/
theorem takeBurst_stored : ∀ {burst : List ControlWord} (s : State), (∀ w ∈ burst, regionOf w.off = .setup ∨ regionOf w.off = .route) →
    s.takeBurst burst = { s with control := { s.control with shadow := storeWords s.control.shadow burst } }
  | [], _, _ => rfl
  | w :: rest, s, h => by
    obtain ⟨hw, hrest⟩ := List.forall_mem_cons.mp h
    have htake : s.takeWord w = s.storeWord w.off w.beat.data := by
      unfold State.takeWord
      rcases hw with hw | hw <;> rw [hw]
    show (s.takeWord w).takeBurst rest = _
    rw [htake, takeBurst_stored _ hrest]
    rfl

/-! ### The checks -/

theorem wordRefusal_of_passes {s : State} : ∀ {b : List ControlWord}, (∀ w ∈ b, s.wordReason w = none) → s.wordRefusal b = none
  | [], _ => rfl
  | w :: rest, h => by
    obtain ⟨hw, hrest⟩ := List.forall_mem_cons.mp h
    unfold State.wordRefusal
    rw [hw]
    exact wordRefusal_of_passes hrest

/-- The first word that fails a word check decides (R27). -/
theorem wordRefusal_first {s : State} {w : ControlWord} {behind : List ControlWord} {why : RefusalReason}
    (hw : s.wordReason w = some why) : ∀ {before : List ControlWord}, (∀ x ∈ before, s.wordReason x = none) →
      s.wordRefusal (before ++ w :: behind) = some (w.off, why)
  | [], _ => by
    unfold State.wordRefusal
    simp only [List.nil_append, hw]
  | x :: rest, h => by
    obtain ⟨hx, hrest⟩ := List.forall_mem_cons.mp h
    rw [List.cons_append]
    unfold State.wordRefusal
    rw [hx]
    exact wordRefusal_first hw hrest

theorem misordered_iff {dir : Direction} {l : List RouteEntry} {i : Nat} :
    misordered dir l i = true ↔ ∃ e, l[i]? = some e
      ∧ ((∃ p, 0 < i ∧ l[i - 1]? = some p ∧ inOrder dir p.chainage e.chainage = false)
        ∨ ∃ n, l[i + 1]? = some n ∧ inOrder dir e.chainage n.chainage = false) := by
  unfold misordered
  cases hl : l[i]? with
  | none => simp
  | some e =>
    cases i with
    | zero => cases hn : l[0 + 1]? <;> simp
    | succ j => cases hp : l[j]? <;> cases hn : l[j + 1 + 1]? <;> simp [hp, Classical.or_iff_not_imp_left]

/-- The model's test of a touched route entry is the route rule (R29). -/
theorem routeOffends_iff {s : State} {l : List RouteEntry} {i : Nat} : s.routeOffends l i = true ↔ RouteBroken s l i := by
  unfold State.routeOffends RouteBroken
  rw [Bool.or_eq_true, Bool.or_eq_true, misordered_iff]
  cases l[i]? with
  | none => simp
  | some e => simp [or_assoc]

theorem steering_iff_inRun {s : State} : s.control.runState.steering = true ↔ InRun s := steering_iff

/-- The route check refuses at a word of the burst whose entry breaks the route rule (R29). -/
theorem routeRefusal_spec {s : State} {b : List ControlWord} {off : Nat} (h : s.routeRefusal b = some off) :
    InRun s ∧ ∃ w ∈ b, regionOf w.off = .route ∧ w.off = off
      ∧ RouteBroken s (routeList (candidateShadow s.control.shadow b)) (routeIndex w.off) := by
  unfold State.routeRefusal at h
  split at h
  · rename_i hs
    obtain ⟨w, hf, hoff⟩ := Option.map_eq_some_iff.mp h
    obtain ⟨hmem, hroute⟩ := List.mem_filter.mp (List.mem_of_find?_eq_some hf)
    exact ⟨steering_iff_inRun.mp hs, w, hmem, of_decide_eq_true hroute, hoff, routeOffends_iff.mp (by simpa using List.find?_some hf)⟩
  · cases h

theorem routeRefusal_none_of {s : State} {b : List ControlWord}
    (h : ∀ w ∈ b, regionOf w.off = .route → InRun s → ¬RouteBroken s (routeList (candidateShadow s.control.shadow b)) (routeIndex w.off)) :
    s.routeRefusal b = none := by
  cases hr : s.routeRefusal b with
  | none => rfl
  | some off =>
    obtain ⟨hrun, w, hmem, hroute, _, hbroken⟩ := routeRefusal_spec hr
    exact absurd hbroken (h w hmem hroute hrun)

theorem refusalOf_none_of {s : State} {b : List ControlWord} (hw : s.wordRefusal b = none) (hr : s.routeRefusal b = none) :
    s.refusalOf b = none := by
  unfold State.refusalOf
  rw [hw, hr]

/-- A word check decides a burst at a word that no word of the route check stands before (R26). -/
theorem refusalOf_word {s : State} {b : List ControlWord} {off : Nat} {why : RefusalReason}
    (hw : s.wordRefusal b = some (off, why)) (hr : ∀ roff, s.routeRefusal b = some roff → off ≤ roff) :
    s.refusalOf b = some { offset := BitVec.ofNat 16 off, reason := why } := by
  unfold State.refusalOf
  rw [hw]
  cases h : s.routeRefusal b with
  | none => rfl
  | some roff => exact if_pos (hr roff h)

theorem refusalOf_route {s : State} {b : List ControlWord} {off : Nat} (hw : s.wordRefusal b = none)
    (hr : s.routeRefusal b = some off) : s.refusalOf b = some (routeReport off) := by
  unfold State.refusalOf
  rw [hw, hr]

/-- Where a word fails a word check and no word before it fails a check, that word is reported (R26, R28). -/
theorem refusalOf_lowest {s : State} {off : Nat} {l : List Beat} {before behind : List ControlWord} {w : ControlWord}
    {why : RefusalReason} (hsplit : burstWords off l = before ++ w :: behind) (hw : s.wordReason w = some why)
    (hbefore : ∀ x ∈ before, s.wordReason x = none
      ∧ ¬(InRun s ∧ regionOf x.off = .route
        ∧ RouteBroken s (routeList (candidateShadow s.control.shadow (burstWords off l))) (routeIndex x.off))) :
    s.refusalOf (burstWords off l) = some { offset := BitVec.ofNat 16 w.off, reason := why } := by
  refine refusalOf_word (by rw [hsplit]; exact wordRefusal_first hw fun x hx => (hbefore x hx).1) fun roff hr => ?_
  obtain ⟨hrun, x, hmem, hroute, rfl, hbroken⟩ := routeRefusal_spec hr
  have hasc := burstWords_ascending off l
  rw [hsplit, List.pairwise_append, List.pairwise_cons] at hasc
  obtain ⟨_, ⟨hbehind, _⟩, _⟩ := hasc
  rw [hsplit] at hmem
  rcases List.mem_append.mp hmem with hx | hx
  · exact absurd ⟨hrun, hroute, hbroken⟩ (hbefore x hx).2
  · rcases List.mem_cons.mp hx with rfl | hx
    · exact Nat.le_refl _
    · have := hbehind x hx
      omega

/-! ### A refused burst -/

/-- A refusal (R28) that ends its event: the record, the flag and the pending status write. -/
theorem refuseControl_settle {s u : State} (reason : LastRefusal) (ha : s.control.runState ≠ .unanchored)
    (hc : u.control = s.control) (hw : u.writeBack = s.writeBack) :
    let t := (u.refuseControl reason).settle
    t.control = { s.control with events := t.control.events, int := t.control.int, lastRefusal := reason }
      ∧ WriteBackSlotOnly s t ∧ Publishes s t [.controlRefused] ∧ t = { u with control := t.control, writeBack := t.writeBack } := by
  obtain ⟨hcontrol, hslot, hpub, hframe⟩ :=
    raise_settle { s with control := { s.control with lastRefusal := reason } }
      { u with control := { u.control with lastRefusal := reason } } .controlRefused ha (by rw [hc]) hw
  exact ⟨hcontrol, hslot, hpub, hframe⟩

/-- Both commands that present a control write run its offer (R13). -/
theorem exec_controlWrite_offered {s : State} {r : Request} {rest : List Request} {off : Nat}
    (hs : s.transit.stage = r :: rest) (hwin : SystemWins s) (hk : r.kind = .write) (hh : r.hit = some { area := 0, offset := off }) :
    exec .controlWrite s = .next (s.offerControl r rest).settle ∧ exec .systemHeadPresented s = .next (s.offerControl r rest).settle := by
  have hcontrol : r.isControl = true := by simp [Request.isControl, hk, hh]
  have hgrant : s.grant = .system := grant_system_iff.mpr hwin
  have hpresent : s.presentHead r rest = s.offerControl r rest := by
    unfold State.presentHead
    rw [hk]
    exact if_pos hcontrol
  constructor
  · show execControlWrite s = _
    unfold execControlWrite
    rw [hs]
    exact if_pos ⟨hcontrol, hgrant⟩
  · rw [exec_systemHeadPresented hs hwin, hpresent]

/-- Settles O23: a control write that fails a check is answered ERROR, recorded and leaves the stage. -/
theorem controlWriteRefused : Obligations.ControlWriteRefused := by
  unfold Obligations.ControlWriteRefused
  intro r rest off reason s ha hs hwin hk hh hr
  obtain ⟨hcw, hsh⟩ := exec_controlWrite_offered hs hwin hk hh
  have hoffer : s.offerControl r rest
      = ({ s with transit := ({ s.transit with stage := rest }.freeEntry r.tag.toNat).answerError r.tag } : State).refuseControl reason := by
    unfold State.offerControl
    rw [show r.words = burstWords off r.data by simp [Request.words, hh], hr]
  obtain ⟨hcontrol, hslot, hpub, hframe⟩ := refuseControl_settle (s := s)
    (u := { s with transit := ({ s.transit with stage := rest }.freeEntry r.tag.toNat).answerError r.tag }) reason ha rfl rfl
  refine ⟨_, hcw, hsh, ?_⟩
  rw [hoffer]
  generalize (({ s with transit := ({ s.transit with stage := rest }.freeEntry r.tag.toNat).answerError r.tag } : State).refuseControl
    reason).settle = t at hcontrol hslot hpub hframe
  have htransit : t.transit = ({ s.transit with stage := rest }.freeEntry r.tag.toNat).answerError r.tag :=
    congrArg State.transit hframe
  refine ⟨?_, ?_, ?_, fun k hk => ?_, hcontrol, hslot, hpub, fun before w behind why hsplit hw hbefore => ?_⟩
  · rw [htransit]
    exact hframe
  · rw [htransit]
    rfl
  · rw [htransit]
    exact (Transit.entry_freeEntry _ _ _).trans (if_pos rfl)
  · rw [htransit]
    exact (Transit.entry_freeEntry _ _ _).trans (if_neg hk)
  · exact Option.some.inj (hr.symm.trans (refusalOf_lowest hsplit hw hbefore))

/-- Settles O24: setup and route words that pass every check are stored at their offsets. -/
theorem setupWriteTaken : Obligations.SetupWriteTaken := by
  unfold Obligations.SetupWriteTaken
  intro r rest off s hset hs hwin hk hh hr hregion
  obtain ⟨hcw, hsh⟩ := exec_controlWrite_taken hs hwin hk hh hr
  rw [takeBurst_stored _ hregion, settle_of_settled (by exact hset)] at hcw hsh
  exact ⟨_, hcw, hsh, rfl, headOnPort_of_present rfl, storeWords_read _ (burstWords_ascending off r.data),
    fun o ho => storeWords_read_other _ ho⟩

/-! ### A burst of route words -/

/-- The words of a burst of the route region (section 2.2). -/
def routeWords (first : Nat) (words : List Word64) : List ControlWord := burstWords (0x0C00 + 8 * first) (words.map fullBeat)

theorem mem_routeWords {first : Nat} {words : List Word64} {w : ControlWord} (h : w ∈ routeWords first words) :
    ∃ k, ∃ hk : k < words.length, w = { off := 0x0C00 + 8 * (first + k), beat := fullBeat words[k] } := by
  obtain ⟨k, hk, rfl⟩ := mem_burstWords.mp h
  rw [List.length_map] at hk
  exact ⟨k, hk, by rw [List.getElem_map]; congr 1; omega⟩

theorem routeWords_length (first : Nat) (words : List Word64) : (routeWords first words).length = words.length := by
  rw [routeWords, burstWords_length, List.length_map]

theorem routeWords_off (first : Nat) (words : List Word64) {k : Nat} (hk : k < (routeWords first words).length) :
    (routeWords first words)[k].off = 0x0C00 + 8 * (first + k) :=
  (congrArg ControlWord.off (burstWords_getElem _ _ k hk)).trans (by dsimp only; omega)

theorem regionOf_eq_route {off : Nat} (h : 0x0C00 ≤ off) (h' : off < 0x1000) : regionOf off = .route := by
  unfold regionOf
  grind

theorem routeWords_region {first : Nat} {words : List Word64} (hf : first + words.length ≤ 128) :
    ∀ w ∈ routeWords first words, regionOf w.off = .route := by
  intro w hw
  obtain ⟨k, hk, rfl⟩ := mem_routeWords hw
  exact regionOf_eq_route (off := 0x0C00 + 8 * (first + k)) (by omega) (by omega)

/-- A whole route word fails a word check in STOPPED only (R27). -/
theorem wordReason_route {s : State} {first : Nat} {words : List Word64} (hf : first + words.length ≤ 128) {w : ControlWord}
    (hw : w ∈ routeWords first words) :
    s.wordReason w = if s.control.runState = .stopped then some .locked else none := by
  have hregion := routeWords_region hf w hw
  obtain ⟨k, hk, rfl⟩ := mem_routeWords hw
  unfold State.wordReason
  rw [if_neg (by simp [fullBeat]), hregion]

/-- The candidate list's shadow of a burst of route words has all of them stored. -/
theorem candidateShadow_route {b : List ControlWord} (h : ∀ w ∈ b, regionOf w.off = .route) (t : Table Word64) :
    candidateShadow t b = storeWords t b := by
  unfold candidateShadow storeWords
  rw [(List.filter_eq_self (p := ControlWord.inRoute)).mpr fun w hw => decide_eq_true (h w hw)]

/-- The shadow that the statement describes is the one with the words stored. -/
theorem storeWords_eq_of_routeStored {old new : Table Word64} {first : Nat} {words : List Word64}
    (h : RouteStored old new first words) (ho : Shadow.wf old) (hn : Shadow.wf new) : storeWords old (routeWords first words) = new := by
  obtain ⟨hat, helse⟩ := h
  refine Shadow.eq_of_reads (storeWords_wf ho _) hn fun off => ?_
  by_cases hmem : ∃ w ∈ routeWords first words, w.off = off
  · obtain ⟨w, hw, rfl⟩ := hmem
    refine (storeWords_read _ (burstWords_ascending _ _) w hw).trans ?_
    obtain ⟨k, hk, rfl⟩ := mem_routeWords hw
    exact (hat k _ (List.getElem?_eq_getElem hk)).symm
  · have hnone : ∀ w ∈ routeWords first words, w.off ≠ off := fun w hw heq => hmem ⟨w, hw, heq⟩
    refine (storeWords_read_other _ hnone).trans (helse off fun k hk heq => ?_).symm
    have hlen : k < (routeWords first words).length := by rwa [routeWords_length]
    exact hnone _ (List.getElem_mem hlen) ((routeWords_off first words hlen).trans heq.symm)

/-- The event of a burst of route words in an anchored part. -/
theorem exec_routeEntryWrite {s : State} (ha : s.control.runState ≠ .unanchored) (first : Nat) (words : List Word64) :
    exec (.routeEntryWrite first words) s = .next (s.offerBurst (routeWords first words)).settle :=
  congrArg (fun u => Host.Outcome.next (State.settle u)) (State.whileAnchored_of ha _)

theorem routeIndex_word (n : Nat) : routeIndex (0x0C00 + 8 * n) = n / 2 := by
  unfold routeIndex
  omega

/-- The route check refuses at the first word whose entry breaks the route rule (R29). -/
theorem routeRefusal_route {s : State} {first k : Nat} {words : List Word64} (hf : first + words.length ≤ 128) (hrun : InRun s)
    (hk : k < words.length)
    (hbroken : RouteBroken s (routeList (candidateShadow s.control.shadow (routeWords first words))) ((first + k) / 2))
    (hbefore : ∀ j, j < k →
      ¬RouteBroken s (routeList (candidateShadow s.control.shadow (routeWords first words))) ((first + j) / 2)) :
    s.routeRefusal (routeWords first words) = some (0x0C00 + 8 * (first + k)) := by
  have hlen := routeWords_length first words
  unfold State.routeRefusal
  rw [if_pos (steering_iff_inRun.mpr hrun), (List.filter_eq_self (p := ControlWord.inRoute)).mpr fun w hw => decide_eq_true (routeWords_region hf w hw)]
  refine Option.map_eq_some_iff.mpr ⟨(routeWords first words)[k]'(by omega), ?_, routeWords_off first words (by omega)⟩
  refine List.find?_eq_some_iff_getElem.mpr ⟨?_, k, by omega, rfl, fun j hj => ?_⟩
  · rw [routeOffends_iff, routeWords_off, routeIndex_word]
    exact hbroken
  · have hno := hbefore j hj
    rw [← routeIndex_word, ← routeWords_off first words (k := j) (by omega), ← routeOffends_iff] at hno
    simpa using hno

/-- Settles O44: a burst of route words is stored, or refused at the first word of the lowest broken entry. -/
theorem routeWriteTakenOrRefused : Obligations.RouteWriteTakenOrRefused := by
  unfold Obligations.RouteWriteTakenOrRefused
  intro first words new s hset hwf hstored hold hnew
  simp only [Instr.wellFormed, wfRouteBurst, Bool.and_eq_true, decide_eq_true_eq] at hwf
  obtain ⟨⟨hpos, _⟩, hf⟩ := hwf
  have hregion := routeWords_region hf
  have hcand : candidateShadow s.control.shadow (routeWords first words) = new :=
    (candidateShadow_route hregion _).trans (storeWords_eq_of_routeStored hstored hold hnew)
  constructor
  · intro hcase
    have hpass : s.control.runState ≠ .unanchored ∧ s.control.runState ≠ .stopped
        ∧ s.routeRefusal (routeWords first words) = none := by
      rcases hcase with hidle | ⟨hrun, hok⟩
      · refine ⟨by simp [hidle], by simp [hidle], routeRefusal_none_of fun w _ _ hrun => ?_⟩
        unfold InRun at hrun
        rw [hidle] at hrun
        exact absurd hrun (by decide)
      · refine ⟨fun h => ?_, fun h => ?_, routeRefusal_none_of fun w hw _ _ => ?_⟩
        · unfold InRun at hrun
          rw [h] at hrun
          exact absurd hrun (by decide)
        · unfold InRun at hrun
          rw [h] at hrun
          exact absurd hrun (by decide)
        · obtain ⟨k, hk, rfl⟩ := mem_routeWords hw
          rw [hcand, routeIndex_word]
          exact hok k hk
    obtain ⟨ha, hns, hroute⟩ := hpass
    have hwords : s.wordRefusal (routeWords first words) = none := wordRefusal_of_passes fun w hw => by
      rw [wordReason_route hf hw, if_neg hns]
    have hoffer : s.offerBurst (routeWords first words) = { s with control := { s.control with shadow := new } } := by
      unfold State.offerBurst
      rw [refusalOf_none_of hwords hroute]
      exact (takeBurst_stored s fun w hw => Or.inr (hregion w hw)).trans
        (by rw [← candidateShadow_route hregion, hcand])
    rw [exec_routeEntryWrite ha, hoffer, settle_of_settled (by exact hset)]
  · intro refusal hcase
    have hrefused : s.control.runState ≠ .unanchored ∧ s.refusalOf (routeWords first words) = some refusal := by
      rcases hcase with ⟨hstopped, rfl⟩ | ⟨hrun, k, hk, hbroken, hbefore, rfl⟩
      · refine ⟨by simp [hstopped], ?_⟩
        obtain ⟨b, l, rfl⟩ := List.exists_cons_of_length_pos (l := words) (by omega)
        have hfirst : s.wordReason { off := 0x0C00 + 8 * first, beat := fullBeat b } = some .locked := by
          rw [wordReason_route hf (by rw [routeWords, List.map_cons, burstWords_cons]; exact List.mem_cons_self), if_pos hstopped]
        exact refusalOf_lowest (before := []) (by rw [List.map_cons, burstWords_cons]; rfl) hfirst (fun x hx => by cases hx)
      · have hns : s.control.runState ≠ .stopped ∧ s.control.runState ≠ .unanchored := by
          unfold InRun at hrun
          constructor
          · rintro h
            rw [h] at hrun
            exact absurd hrun (by decide)
          · rintro h
            rw [h] at hrun
            exact absurd hrun (by decide)
        have hwords : s.wordRefusal (routeWords first words) = none := wordRefusal_of_passes fun w hw => by
          rw [wordReason_route hf hw, if_neg hns.1]
        refine ⟨hns.2, (refusalOf_route hwords (routeRefusal_route hf hrun hk (by rwa [hcand]) (by rwa [hcand]))).trans ?_⟩
        rw [routeReport, routeIndex_word]
        rfl
    obtain ⟨ha, href⟩ := hrefused
    have hoffer : s.offerBurst (routeWords first words) = s.refuseControl refusal := by
      unfold State.offerBurst
      rw [href]
    obtain ⟨hcontrol, hslot, hpub, hframe⟩ := refuseControl_settle (s := s) (u := s) refusal ha rfl rfl
    exact ⟨_, by rw [exec_routeEntryWrite ha, hoffer], ⟨hframe, hslot⟩, hcontrol, hpub⟩

/-! ### A consumed index -/

/-- The check of a whole consumed-index word (R27, R30). -/
theorem wordReason_consumed (s : State) (r : Ring) (word : Word64) :
    s.wordReason { off := consumedOffset r, beat := fullBeat word }
      = if (s.writeBack.ring r).inRange (newConsumed word) then none else some .range := by
  unfold State.wordReason
  rw [if_neg (by simp [fullBeat]), regionOf_consumedOffset]
  rfl

/-- A consumed-index word has no part in the route check. -/
theorem routeRefusal_consumed (s : State) (r : Ring) (b : Beat) : s.routeRefusal [{ off := consumedOffset r, beat := b }] = none :=
  routeRefusal_none_of fun w hw hroute _ => by
    rw [List.mem_singleton.mp hw] at hroute
    exact absurd ((regionOf_consumedOffset r).symm.trans hroute) nofun

/-- The event of a consumed-index word in an anchored part. -/
theorem exec_consumedIndexWrite {s : State} (ha : s.control.runState ≠ .unanchored) (r : Ring) (word : Word64) :
    exec (.consumedIndexWrite r word) s = .next (s.offerBurst [{ off := consumedOffset r, beat := fullBeat word }]).settle :=
  congrArg (fun u => Host.Outcome.next (State.settle u)) (State.whileAnchored_of ha _)

/-- A consumed index in range is taken (R30). -/
theorem offerBurst_consumed {s : State} {r : Ring} {word : Word64} (h : (s.writeBack.ring r).inRange (newConsumed word) = true) :
    s.offerBurst [{ off := consumedOffset r, beat := fullBeat word }] = s.takeConsumed r word := by
  have hwords : s.wordRefusal [{ off := consumedOffset r, beat := fullBeat word }] = none := wordRefusal_of_passes fun w hw => by
    rw [List.mem_singleton.mp hw, wordReason_consumed, if_pos h]
  unfold State.offerBurst
  rw [refusalOf_none_of hwords (routeRefusal_consumed s r _)]
  show s.takeWord _ = _
  unfold State.takeWord
  rw [regionOf_consumedOffset]
  rfl

/-- A consumed index out of range is refused with RANGE (R30). -/
theorem offerBurst_consumed_refused {s : State} {r : Ring} {word : Word64}
    (h : (s.writeBack.ring r).inRange (newConsumed word) = false) :
    s.offerBurst [{ off := consumedOffset r, beat := fullBeat word }]
      = s.refuseControl ⟨BitVec.ofNat 16 (consumedOffset r), .range⟩ := by
  have hword : s.wordReason { off := consumedOffset r, beat := fullBeat word } = some .range := by
    rw [wordReason_consumed, if_neg (by simp [h])]
  have href := refusalOf_word (wordRefusal_first (behind := []) hword (before := []) (fun x hx => by cases hx))
    (fun roff hr => absurd ((routeRefusal_consumed s r (fullBeat word)).symm.trans hr) nofun)
  unfold State.offerBurst
  rw [show [({ off := consumedOffset r, beat := fullBeat word } : ControlWord)]
    = [] ++ { off := consumedOffset r, beat := fullBeat word } :: [] from rfl, href]

/-- Settles O45: a consumed index in range becomes the ring's, another is refused with RANGE. -/
theorem consumedIndexTakenOrRefused : Obligations.ConsumedIndexTakenOrRefused := by
  unfold Obligations.ConsumedIndexTakenOrRefused
  rintro r word _ _ _ s hset ha rfl rfl rfl
  constructor
  · intro hle
    have hoffer := offerBurst_consumed (s := s) (r := r) (word := word) (decide_eq_true hle)
    refine ⟨_, by rw [exec_consumedIndexWrite ha, hoffer], ?_⟩
    have hsettled : Settled (s.takeConsumed r word) := by
      unfold Settled State.takeConsumed
      rw [WriteBack.setRing_slot]
      exact hset
    rw [settle_of_settled hsettled]
    exact ⟨rfl, WriteBack.ring_setRing _ _ _, fun x hx => WriteBack.ring_setRing_other _ _ hx, WriteBack.setRing_queue _ _ _,
      WriteBack.setRing_slot _ _ _⟩
  · intro hlt
    have hoffer := offerBurst_consumed_refused (s := s) (r := r) (word := word)
      (decide_eq_false (by show ¬_ ≤ _; exact Nat.not_le.mpr hlt))
    obtain ⟨hcontrol, hslot, hpub, hframe⟩ :=
      refuseControl_settle (s := s) (u := s) ⟨BitVec.ofNat 16 (consumedOffset r), .range⟩ ha rfl rfl
    refine ⟨_, by rw [exec_consumedIndexWrite ha, hoffer], ⟨hframe, hslot⟩, hcontrol.trans ?_, hpub⟩
    cases r <;> rfl

end Machine
end Sys2Proof
end

section
/-! SUPPORT. Memory responses (R7, R19–R21, R36, R191): acknowledgements of the event set, the records of presented status writes, and
those statements settled. -/

namespace Sys2Proof

/-- What a canonical table reads as after a filter. -/
theorem Table.read_filter {α : Type} {t : Table α} (hw : Table.wf t) (p : Nat × α → Bool) (k : Nat) :
    Table.read (t.filter p) k = (Table.read t k).filter (fun a => p (k, a)) := by
  have hwf : Table.wf (t.filter p) := List.Pairwise.filter _ hw
  cases hr : Table.read (t.filter p) k with
  | some a =>
    obtain ⟨hmem, hp⟩ := List.mem_filter.mp (Table.mem_of_read hr)
    rw [Table.read_of_mem hw hmem]
    exact (if_pos hp).symm
  | none =>
    cases ht : Table.read t k with
    | none => rfl
    | some a =>
      by_cases hp : p (k, a) = true
      · rw [Table.read_of_mem hwf (List.mem_filter.mpr ⟨Table.mem_of_read ht, hp⟩)] at hr
        cases hr
      · exact (if_neg hp).symm

namespace Machine

/-! ### Acknowledgements (R36) -/

/-- A captured flag that was not raised since its status write was presented (R36). -/
def Acks (cap : Capture) (k : Nat) (recorded : BitVec 32) : Bool :=
  decide (k < 24) && cap.eventWord.getLsbD k && !renewedSince recorded cap.seq

theorem ackEvents_wf {events : Table (BitVec 32)} (h : Table.wf events) (cap : Capture) : Table.wf (ackEvents events cap) :=
  List.Pairwise.filter _ h

theorem read_ackEvents {events : Table (BitVec 32)} (h : Table.wf events) (cap : Capture) (k : Nat) :
    Table.read (ackEvents events cap) k = (Table.read events k).filter (fun recorded => !Acks cap k recorded) := by
  unfold ackEvents
  rw [Table.read_filter h]
  congr 1
  funext recorded
  simp [Acks, Bool.not_and]

/-- What several acknowledgements leave of the event set. -/
theorem read_ackEvents_all : ∀ (caps : List Capture) {events : Table (BitVec 32)}, Table.wf events → ∀ k,
    Table.read (caps.foldl ackEvents events) k
      = (Table.read events k).filter (fun recorded => !caps.any (fun cap => Acks cap k recorded))
  | [], events, _, k => by
    show Table.read events k = _
    cases Table.read events k <;> rfl
  | cap :: rest, events, h, k => by
    show Table.read (rest.foldl ackEvents (ackEvents events cap)) k = _
    rw [read_ackEvents_all rest (ackEvents_wf h cap), read_ackEvents h]
    cases Table.read events k with
    | none => rfl
    | some recorded =>
      cases hc : Acks cap k recorded with
      | true => simp [Option.filter, hc]
      | false => simp [Option.filter, hc]

/-- A state whose event set an event has left smaller: INT is evaluated anew and a status write is pending. -/
def State.withEvents (s : State) (events : Table (BitVec 32)) : State :=
  { s with control := Control.evalInt { s.control with events := events }, writeBack := s.writeBack.markStatus }

/-- An event set left by acknowledgements: all of it and the state as it was, or less of it. -/
def AcksTo (s t : State) (left : Table (BitVec 32)) : Prop :=
  (left = s.control.events ∧ t = s) ∨ (left.length < s.control.events.length ∧ t = s.withEvents left)

theorem WriteBack.markStatus_markStatus (w : WriteBack) : w.markStatus.markStatus = w.markStatus := by
  unfold WriteBack.markStatus
  dsimp only
  rw [StatusSlot.fill_fill]

theorem State.withEvents_withEvents (s : State) (a b : Table (BitVec 32)) : (s.withEvents a).withEvents b = s.withEvents b := by
  unfold State.withEvents
  dsimp only
  rw [WriteBack.markStatus_markStatus]
  rfl

theorem acksTo_acknowledge {s : State} (ha : s.control.runState ≠ .unanchored) (cap : Capture) :
    AcksTo s (s.acknowledge cap) (ackEvents s.control.events cap) := by
  unfold State.acknowledge
  by_cases h : ackEvents s.control.events cap = s.control.events
  · exact Or.inl ⟨h, if_pos h⟩
  · refine Or.inr ⟨?_, (if_neg h).trans (State.markStatus_anchored _ ha)⟩
    refine Nat.lt_of_le_of_ne (List.length_filter_le _ _) fun heq => h ?_
    exact List.filter_eq_self.mpr (List.length_filter_eq_length_iff.mp heq)

theorem AcksTo.trans {s t u : State} {a b : Table (BitVec 32)} (h : AcksTo s t a) (h' : AcksTo t u b) : AcksTo s u b := by
  rcases h with ⟨rfl, rfl⟩ | ⟨hlt, rfl⟩
  · exact h'
  · rcases h' with ⟨rfl, rfl⟩ | ⟨hlt', rfl⟩
    · exact Or.inr ⟨hlt, rfl⟩
    · exact Or.inr ⟨Nat.lt_trans hlt' hlt, State.withEvents_withEvents _ _ _⟩

theorem AcksTo.control_frame {s t : State} {left : Table (BitVec 32)} (h : AcksTo s t left) :
    t.control = { s.control with events := left, int := t.control.int } := by
  rcases h with ⟨rfl, rfl⟩ | ⟨_, rfl⟩ <;> rfl

/-- Several acknowledgements, one after the other. -/
theorem acksTo_all : ∀ (caps : List Capture) {s : State}, s.control.runState ≠ .unanchored →
    AcksTo s (caps.foldl State.acknowledge s) (caps.foldl ackEvents s.control.events)
  | [], _, _ => Or.inl ⟨rfl, rfl⟩
  | cap :: rest, s, ha => by
    have hone := acksTo_acknowledge ha cap
    have hframe := hone.control_frame
    have ha' : (s.acknowledge cap).control.runState ≠ .unanchored := by
      rw [hframe]
      exact ha
    have hrest := acksTo_all rest ha'
    rw [show (s.acknowledge cap).control.events = ackEvents s.control.events cap by rw [hframe]] at hrest
    exact hone.trans hrest

/-- The end of an event that acknowledged in an anchored part, stated of the state before it. -/
theorem acknowledged_settle {s u t : State} {caps : List Capture} (hset : Settled s) (hwf : Table.wf s.control.events)
    (hint : IntAgrees s) (hc : u.control = s.control) (hw : u.writeBack = s.writeBack)
    (h : AcksTo u t (caps.foldl ackEvents s.control.events)) :
    t.settle = { u with control := t.settle.control, writeBack := t.settle.writeBack }
      ∧ WriteBackSlotOnly s t.settle ∧ ControlEventsOnly s t.settle ∧ IntAgrees t.settle ∧ Acknowledged s t.settle caps
      ∧ (t.settle.control.events ≠ s.control.events →
          t.settle.writeBack.slot = s.writeBack.slot.afterMark s.writeBack.queue.length)
      ∧ (t.settle.control.events = s.control.events → t.settle.control = s.control ∧ t.settle.writeBack = s.writeBack) := by
  have hread := read_ackEvents_all caps hwf
  have hsame : u.settle = u := settle_of_settled (by unfold Settled; rw [hw]; exact hset)
  rcases h with ⟨hleft, rfl⟩ | ⟨hlt, rfl⟩
  · rw [hsame]
    unfold WriteBackSlotOnly ControlEventsOnly
    rw [hc] at hleft
    refine ⟨rfl, by rw [hw], by rw [hc], ?_, ?_, fun hne => absurd (by rw [hc]) hne, fun _ => ⟨hc, hw⟩⟩
    · rw [intAgrees_iff] at hint ⊢
      rw [hc]
      exact hint
    · intro k
      rw [hc]
      exact (congrArg (fun l => Table.read l k) hleft).symm.trans (hread k)
  · have hset' : (u.withEvents (caps.foldl ackEvents s.control.events)).settle
        = { u with
            control := Control.evalInt { s.control with events := caps.foldl ackEvents s.control.events }
            writeBack := { s.writeBack with slot := s.writeBack.slot.afterMark s.writeBack.queue.length } } := by
      unfold State.withEvents State.settle
      dsimp only
      rw [markStatus_settle_slot, hc, hw]
    rw [hset']
    refine ⟨rfl, rfl, rfl, (intAgrees_iff _).mpr rfl, hread, fun _ => rfl, fun heq => ?_⟩
    rw [hc] at hlt
    exact absurd (congrArg List.length heq) (Nat.ne_of_lt hlt)

/-! ### Records of presented status writes (R19) -/

theorem mem_of_mem_collect {t : Transit} {w : StatusWriteRecord} (h : w ∈ t.collect.statusRecords) : w ∈ t.statusRecords :=
  (List.mem_filter.mp h).1

theorem mem_collect_of_pending {t : Transit} {w : StatusWriteRecord} (h : w ∈ t.statusRecords) (hp : w.outcome = .pending) :
    w ∈ t.collect.statusRecords := List.mem_filter.mpr ⟨h, by simp [hp]⟩

/-- Collecting keeps what still waits for its response and adds nothing. -/
theorem recordsKept_collect {s t : State} {u : Transit} (ht : t.transit = u.collect)
    (hu : u.statusRecords = s.transit.statusRecords) : RecordsKept s t := by
  unfold RecordsKept
  rw [ht, ← hu]
  exact ⟨fun w hw hp => mem_collect_of_pending hw hp, fun w hw => mem_of_mem_collect hw⟩

/-! ### The routing of a response (R7) -/

/-- The response of a PRESENTED entry. -/
theorem exec_memoryResponse_presented {s : State} {tag : PortTag} {e : Entry} (he : s.transit.entry tag.toNat = some e)
    (hp : e.phase = .presented) (status : BusStatus) (data : List Word64) :
    exec (.memoryResponse tag status data) s = .next (s.answered tag e status data).collect.settle := by
  show execMemoryResponse tag status data s = _
  unfold execMemoryResponse
  rw [he]
  dsimp only
  rw [hp]

/-- The part with a tag's entry made FREE. -/
def State.freed (s : State) (tag : PortTag) : State := { s with transit := s.transit.freeEntry tag.toNat }

/-- The part with a tag's entry made FREE and its response relayed. -/
def State.relayed (s : State) (tag : PortTag) (status : BusStatus) (data : List Word64) : State :=
  { s.freed tag with transit := (s.freed tag).transit.respond { tag := tag.setWidth 6, status := status, data := data } }

theorem freed_entry (s : State) (tag : PortTag) (x : Transit) (h : x.inflight = (s.freed tag).transit.inflight) :
    x.entry tag.toNat = none ∧ ∀ k, k ≠ tag.toNat → x.entry k = s.transit.entry k := by
  have hx : ∀ k, x.entry k = (s.transit.freeEntry tag.toNat).entry k := fun k => congrArg (fun l => Table.read l k) h
  exact ⟨(hx _).trans ((Transit.entry_freeEntry _ _ _).trans (if_pos rfl)),
    fun k hk => (hx k).trans ((Transit.entry_freeEntry _ _ _).trans (if_neg hk))⟩

/-- Settles O28: a response is dropped, absorbed or relayed by its tag's entry, and leaves the channel while PRST is high. -/
theorem responsesRoutedAndDelivered : Obligations.ResponsesRoutedAndDelivered := by
  unfold Obligations.ResponsesRoutedAndDelivered
  refine ⟨fun s => ⟨fun hlow => ?_, fun hhigh r rest hr => ?_⟩, fun tag status data s => ⟨fun hnone => ?_, fun e he => ⟨?_, ?_, ?_⟩⟩⟩
  · exact if_pos hlow
  · show execSystemResponseDelivered s = _
    unfold execSystemResponseDelivered
    rw [hhigh, hr]
    rfl
  · show execMemoryResponse tag status data s = _
    unfold execMemoryResponse
    rw [hnone]
  · intro hp
    show execMemoryResponse tag status data s = _
    unfold execMemoryResponse
    rw [he]
    rcases hp with hp | hp <;> simp only [hp]
  · intro hp
    refine ⟨s.freed tag, ?_, rfl, freed_entry s tag _ rfl⟩
    show execMemoryResponse tag status data s = _
    unfold execMemoryResponse
    rw [he]
    simp only [hp]
    rfl
  · intro hset hp hcarried hquiet
    have hanswered : s.answered tag e status data = s.relayed tag status data := by
      unfold State.answered
      rw [hcarried]
      rcases hquiet with hcap | herror
      · rw [hcap]
        rfl
      · rw [herror]
        cases e.capture <;> rfl
    refine ⟨_, exec_memoryResponse_presented he hp status data, ?_⟩
    rw [hanswered, settle_of_settled (by exact hset)]
    exact ⟨rfl, rfl, (freed_entry s tag _ rfl).1, (freed_entry s tag _ rfl).2,
      recordsKept_collect (u := (s.relayed tag status data).transit) rfl rfl⟩

section

variable {s : State} {cap : Capture} {w : StatusWriteRecord}
  (hf : s.transit.statusRecords.find? (fun x => decide (x.seq = cap.seq)) = some w)

include hf

/-- A capture of a status write that was answered OKAY acknowledges at once (R21). -/
theorem State.readAnswered_okay (ho : w.outcome = .okay) : s.readAnswered cap = s.acknowledge cap := by
  unfold State.readAnswered
  rw [hf]
  dsimp only
  rw [ho]

theorem State.readAnswered_error (ho : w.outcome = .error) : s.readAnswered cap = s := by
  unfold State.readAnswered
  rw [hf]
  dsimp only
  rw [ho]

/-- A capture of a status write that is still pending waits on its record (R21). -/
theorem State.readAnswered_pending (ho : w.outcome = .pending) :
    s.readAnswered cap =
      { s with transit :=
          { s.transit with
            statusRecords :=
              updateRecord s.transit.statusRecords cap.seq (fun w => { w with waiting := w.waiting ++ [cap] }) } } := by
  unfold State.readAnswered
  rw [hf]
  dsimp only
  rw [ho]

end

/-- Settles O29: the OKAY response of a READ with a capture acknowledges, waits, or does nothing, by the status write's outcome. -/
theorem capturedReadAnswered : Obligations.CapturedReadAnswered := by
  unfold Obligations.CapturedReadAnswered
  intro tag data e cap w s hset htables ha hint he hp hcarried hcap hfind
  obtain ⟨_, hevents, _⟩ := htables
  have hanswered : s.answered tag e .okay data = (s.relayed tag .okay data).readAnswered cap := by
    unfold State.answered
    rw [hcarried, hcap]
    rfl
  have hrecord : (s.relayed tag .okay data).transit.statusRecords.find? (fun x => decide (x.seq = cap.seq)) = some w := hfind
  obtain ⟨hfree, hkept⟩ := freed_entry s tag (s.relayed tag .okay data).transit rfl
  refine ⟨_, exec_memoryResponse_presented he hp _ _, ?_⟩
  rw [hanswered]
  have hcases : w.outcome = .okay ∨ w.outcome = .error ∨ w.outcome = .pending := by cases w.outcome <;> simp
  rcases hcases with ho | ho | ho
  · rw [State.readAnswered_okay hrecord ho]
    have hacks : AcksTo (s.relayed tag .okay data).collect ((s.relayed tag .okay data).acknowledge cap).collect
        ([cap].foldl ackEvents s.control.events) := by
      rcases acksTo_acknowledge (s := s.relayed tag .okay data) ha cap with ⟨hl, ht⟩ | ⟨hl, ht⟩
      · exact Or.inl ⟨hl, congrArg State.collect ht⟩
      · exact Or.inr ⟨hl, congrArg State.collect ht⟩
    obtain ⟨hframe, hslot, hcontrol, hagrees, hack, hpend, hquiet⟩ :=
      acknowledged_settle (u := (s.relayed tag .okay data).collect) hset hevents hint rfl rfl hacks
    have htransit := congrArg State.transit hframe
    generalize (((s.relayed tag .okay data).acknowledge cap).collect).settle = t at *
    refine ⟨by rw [hframe]; rfl, by rw [htransit]; rfl, by rw [htransit]; exact hfree,
      fun k hk => by rw [htransit]; exact hkept k hk, hslot, hcontrol, hagrees, fun _ => ⟨hack, hpend, hquiet⟩,
      fun hne => absurd ho hne, fun hpending => absurd (ho.symm.trans hpending) nofun⟩
  · rw [State.readAnswered_error hrecord ho, settle_of_settled (by exact hset)]
    exact ⟨rfl, rfl, hfree, hkept, rfl, rfl, hint, fun hokay => absurd (ho.symm.trans hokay) nofun, fun _ => ⟨rfl, rfl⟩,
      fun hpending => absurd (ho.symm.trans hpending) nofun⟩
  · rw [State.readAnswered_pending hrecord ho, settle_of_settled (by exact hset)]
    refine ⟨rfl, rfl, hfree, hkept, rfl, rfl, hint, fun hokay => absurd (ho.symm.trans hokay) nofun, fun _ => ⟨rfl, rfl⟩,
      fun _ => ⟨{ w with waiting := w.waiting ++ [cap] }, ?_, rfl⟩⟩
    refine mem_collect_of_pending (w := { w with waiting := w.waiting ++ [cap] }) (List.mem_map.mpr ⟨w, List.mem_of_find?_eq_some hfind, ?_⟩) ho
    exact if_pos (by simpa using List.find?_some hfind)

theorem State.collect_raise (s : State) (f : EventFlag) : (s.raise f).collect = s.collect.raise f := by
  by_cases h : s.control.runState = .unanchored
  · rw [raise_of_unanchored f h, raise_of_unanchored (u := s.collect) f h]
  · rw [State.raise_anchored s f h, State.raise_anchored s.collect f h]
    rfl

/-- The part with a record's tag FREE and its ring's outcomes moved (R191). -/
def State.ringMoved (s : State) (tag : PortTag) (r : Ring) (o : RingOutcome) : State :=
  { s.freed tag with
    writeBack := s.writeBack.setRing r { s.writeBack.ring r with previous := (s.writeBack.ring r).last, last := o } }

/-- Settles O30: the response of a ring record moves that ring's outcomes. -/
theorem recordCompleted : Obligations.RecordCompleted := by
  unfold Obligations.RecordCompleted
  intro tag status data e r s hset ha he hp hcarried
  have hanswered : s.answered tag e status data = (s.freed tag).recordAnswered r status := by
    unfold State.answered
    rw [hcarried]
    rfl
  obtain ⟨hfree, hkept⟩ := freed_entry s tag (s.freed tag).transit rfl
  refine ⟨_, exec_memoryResponse_presented he hp _ _, ?_⟩
  rw [hanswered]
  cases status with
  | okay =>
    have hsettled : Settled ((s.freed tag).recordAnswered r .okay).collect := by
      show (s.writeBack.setRing r _).slot ≠ .filling
      rw [WriteBack.setRing_slot]
      exact hset
    rw [settle_of_settled hsettled]
    exact ⟨rfl, rfl, hfree, hkept, recordsKept_collect (u := (s.freed tag).transit) rfl rfl, WriteBack.ring_setRing _ _ _,
      fun x hx => WriteBack.ring_setRing_other _ _ hx, WriteBack.setRing_queue _ _ _,
      fun _ => ⟨rfl, WriteBack.setRing_slot _ _ _⟩, nofun⟩
  | error =>
    obtain ⟨hcontrol, hslot, ⟨hraised, hint, hafter⟩, hframe⟩ := raise_settle
      { s with writeBack := (s.ringMoved tag r .error).writeBack } (s.ringMoved tag r .error).collect .writebackError ha rfl rfl
    have hcollect : ((s.freed tag).recordAnswered r .error).collect = (s.ringMoved tag r .error).collect.raise .writebackError :=
      State.collect_raise _ _
    rw [hcollect]
    generalize ((s.ringMoved tag r .error).collect.raise .writebackError).settle = t at *
    have htransit := congrArg State.transit hframe
    have hrings : t.writeBack = { (s.ringMoved tag r .error).writeBack with slot := t.writeBack.slot } := hslot
    have hring : ∀ x, t.writeBack.ring x = (s.ringMoved tag r .error).writeBack.ring x := fun x => by
      rw [hrings]
      cases x <;> rfl
    have hqueue : t.writeBack.queue = s.writeBack.queue := by rw [hrings]; exact WriteBack.setRing_queue _ _ _
    refine ⟨by rw [hframe]; rfl, by rw [htransit]; rfl, by rw [htransit]; exact hfree,
      fun k hk => by rw [htransit]; exact hkept k hk, recordsKept_collect (u := (s.freed tag).transit) htransit rfl,
      (hring r).trans (WriteBack.ring_setRing _ _ _), fun x hx => (hring x).trans (WriteBack.ring_setRing_other _ _ hx),
      hqueue, nofun, fun _ => ⟨hcontrol, hraised, hint, ?_⟩⟩
    rw [hafter]
    exact congrArg (fun x : StatusSlot => x.afterMark t.writeBack.queue.length) (WriteBack.setRing_slot _ _ _)

/-- The outcome that a response's status gives a status write (R21). -/
def busOutcome : BusStatus → WriteOutcome
  | .okay => .okay
  | .error => .error

/-- The part with the answered status write's record moved to its outcome, its waiting captures taken off (R21). -/
def State.statusMoved (s : State) (tag : PortTag) (seq : BitVec 32) (status : BusStatus) : State :=
  { s.freed tag with
    transit :=
      { (s.freed tag).transit with
        statusRecords := updateRecord s.transit.statusRecords seq (fun w => { w with outcome := busOutcome status, waiting := [] }) } }

/-- The OKAY response of a status write hands over every capture that waits on its record (R21). -/
theorem statusAnswered_okay {s : State} {tag : PortTag} {seq : BitVec 32} {w : StatusWriteRecord}
    (hf : s.transit.statusRecords.find? (fun x => decide (x.seq = seq)) = some w) :
    (s.freed tag).statusAnswered seq .okay = w.waiting.foldl State.acknowledge (s.statusMoved tag seq .okay) := by
  have hwaiting : (((s.freed tag).transit.statusRecords.find? (fun x => decide (x.seq = seq))).map (·.waiting)).getD []
      = w.waiting := by
    rw [show (s.freed tag).transit.statusRecords = s.transit.statusRecords from rfl, hf]
    rfl
  unfold State.statusAnswered
  rw [hwaiting]
  rfl

theorem statusAnswered_error (s : State) (tag : PortTag) (seq : BitVec 32) :
    (s.freed tag).statusAnswered seq .error = (s.statusMoved tag seq .error).raise .writebackError := rfl

/-- The records after a status write's response (R19, R21). -/
theorem statusMoved_records {s t : State} {tag : PortTag} {seq : BitVec 32} {status : BusStatus}
    (ht : t.transit = (s.statusMoved tag seq status).transit.collect) :
    (∀ x ∈ t.transit.statusRecords, x.seq = seq → x.waiting = [] ∧ x.outcome = busOutcome status)
      ∧ ∀ x ∈ s.transit.statusRecords, x.seq ≠ seq → x.outcome = .pending → x ∈ t.transit.statusRecords := by
  rw [ht]
  constructor
  · intro x hx hseq
    obtain ⟨y, hy, rfl⟩ := List.mem_map.mp (mem_of_mem_collect hx)
    by_cases h : y.seq = seq
    · rw [if_pos h]
      exact ⟨rfl, rfl⟩
    · rw [if_neg h] at hseq
      exact absurd hseq h
  · intro x hx hseq hpend
    exact mem_collect_of_pending (List.mem_map.mpr ⟨x, hx, if_neg hseq⟩) hpend

/-- Settles O31: the response of a status write hands over the captures that wait on it, or raises WRITEBACK_ERROR. -/
theorem statusCompleted : Obligations.StatusCompleted := by
  unfold Obligations.StatusCompleted
  intro tag status data e seq w s hset htables ha hint he hp hcarried hfind
  obtain ⟨_, hevents, _⟩ := htables
  have hanswered : s.answered tag e status data = (s.freed tag).statusAnswered seq status := by
    unfold State.answered
    rw [hcarried]
    rfl
  obtain ⟨hfree, hkept⟩ := freed_entry s tag (s.statusMoved tag seq status).transit rfl
  refine ⟨_, exec_memoryResponse_presented he hp _ _, ?_⟩
  rw [hanswered]
  cases status with
  | okay =>
    rw [statusAnswered_okay hfind]
    have hacks : AcksTo (s.statusMoved tag seq .okay).collect (w.waiting.foldl State.acknowledge (s.statusMoved tag seq .okay)).collect
        (w.waiting.foldl ackEvents s.control.events) := by
      rcases acksTo_all w.waiting (s := s.statusMoved tag seq .okay) ha with ⟨hl, ht⟩ | ⟨hl, ht⟩
      · exact Or.inl ⟨hl, congrArg State.collect ht⟩
      · exact Or.inr ⟨hl, congrArg State.collect ht⟩
    obtain ⟨hframe, hslot, hcontrol, hagrees, hack, hpend, hquiet⟩ :=
      acknowledged_settle (u := (s.statusMoved tag seq .okay).collect) hset hevents hint rfl rfl hacks
    generalize ((w.waiting.foldl State.acknowledge (s.statusMoved tag seq .okay)).collect).settle = t at *
    have htransit := congrArg State.transit hframe
    obtain ⟨hmoved, hothers⟩ := statusMoved_records (status := .okay) htransit
    exact ⟨by rw [hframe]; rfl, by rw [htransit]; rfl, by rw [htransit]; exact hfree,
      fun k hk => by rw [htransit]; exact hkept k hk, hmoved, hothers, hslot, hcontrol, hagrees,
      fun _ => ⟨hack, hpend, hquiet⟩, nofun⟩
  | error =>
    have hcollect : ((s.statusMoved tag seq .error).raise .writebackError).collect
        = (s.statusMoved tag seq .error).collect.raise .writebackError := State.collect_raise _ _
    obtain ⟨hcontrol, hslot, hpub, hframe⟩ :=
      raise_settle s (s.statusMoved tag seq .error).collect .writebackError ha rfl rfl
    rw [statusAnswered_error, hcollect]
    generalize ((s.statusMoved tag seq .error).collect.raise .writebackError).settle = t at *
    have htransit := congrArg State.transit hframe
    obtain ⟨hmoved, hothers⟩ := statusMoved_records (status := .error) htransit
    obtain ⟨_, hagrees, _⟩ := id hpub
    exact ⟨by rw [hframe]; rfl, by rw [htransit]; rfl, by rw [htransit]; exact hfree,
      fun k hk => by rw [htransit]; exact hkept k hk, hmoved, hothers, hslot, hcontrol, hagrees, nofun, fun _ => hpub⟩

end Machine
end Sys2Proof
end

section
/-! SUPPORT. The presentation of the part's own writes (R6, R15, R19, R38, R189) and the resets (R22–R24, R57), and those statements
settled. -/

namespace Sys2Proof

/-- What a table reads as after every entry has passed through a function that may drop it. -/
theorem Machine.read_filterEntries {t : Table Machine.Entry} (hw : Table.wf t) (f : Nat → Machine.Entry → Option Machine.Entry)
    (k : Nat) : Table.read (Machine.filterEntries t f) k = (Table.read t k).bind (f k) := by
  have hwf := Machine.filterEntries_wf hw f
  have hmem : ∀ {x : Nat × Machine.Entry},
      x ∈ Machine.filterEntries t f ↔ ∃ e, (x.1, e) ∈ t ∧ f x.1 e = some x.2 := by
    rintro ⟨j, y⟩
    simp only [Machine.filterEntries, List.mem_filterMap, Option.map_eq_some_iff]
    constructor
    · rintro ⟨⟨_, e⟩, he, _, hf, heq⟩
      cases heq
      exact ⟨e, he, hf⟩
    · rintro ⟨e, he, hf⟩
      exact ⟨(j, e), he, y, hf, rfl⟩
  cases hr : (Table.read t k).bind (f k) with
  | some y =>
    obtain ⟨e, he, hf⟩ := Option.bind_eq_some_iff.mp hr
    exact Table.read_of_mem hwf (hmem.mpr ⟨e, Table.mem_of_read he, hf⟩)
  | none =>
    cases hx : Table.read (Machine.filterEntries t f) k with
    | none => rfl
    | some y =>
      obtain ⟨e, he, hf⟩ := hmem.mp (Table.mem_of_read hx)
      rw [Table.read_of_mem hw he] at hr
      exact absurd (hr.symm.trans hf) nofun

/-- A key written twice holds the second value. -/
theorem Table.write_write {α : Type} (t : Table α) (k : Nat) (a b : α) : Table.write (Table.write t k a) k b = Table.write t k b := by
  induction t with
  | nil => simp [Table.write]
  | cons e rest ih =>
    obtain ⟨j, x⟩ := e
    rcases Nat.lt_trichotomy k j with h | h | h
    · simp [Table.write, h]
    · simp [Table.write, h]
    · have h1 : ¬k < j := by omega
      have h2 : k ≠ j := by omega
      simp [Table.write, h1, h2, ih]

/-- A write at a key that a filter drops leaves what the filter keeps. -/
theorem Table.filter_write_dropped {α : Type} (t : Table α) (k : Nat) (a : α) (p : Nat → Bool) (h : p k = false) :
    (Table.write t k a).filter (fun e => p e.1) = t.filter (fun e => p e.1) := by
  induction t with
  | nil => simp [Table.write, h]
  | cons e rest ih =>
    obtain ⟨j, x⟩ := e
    rcases Nat.lt_trichotomy k j with hk | hk | hk
    · simp [Table.write, hk, h]
    · subst hk
      simp [Table.write, h]
    · have h1 : ¬k < j := by omega
      have h2 : k ≠ j := by omega
      simp [Table.write, h1, h2, List.filter_cons, ih]

namespace Machine

/-! ### The write-back head on the port -/

/-- The write-back head that wins the port is presented with the lowest FREE inserted tag (R6, R189). -/
theorem exec_writebackHeadPresented {s : State} {h : WriteBackHead} {tag : Nat} (hh : s.writeBack.head = some h)
    (hw : WriteBackWins s) (ht : LowestInsertedTag s.transit tag) :
    exec .writebackHeadPresented s = .next (s.presentOwnHead tag h).settle := by
  show execWritebackHeadPresented s = _
  unfold execWritebackHeadPresented
  rw [hh, freeInsertedTag_iff.mpr ht]
  exact if_pos (grant_writeBack_iff.mpr hw)

theorem sysTag_lt_inserted (r : Request) {tag : Nat} (h : 64 ≤ tag) : tag ≠ r.tag.toNat := by
  have := r.tag.isLt
  omega

/-- What an inserted write's presentation leaves at the transit unit: its own entry, the requests it freed, everything else as it was. -/
theorem presentOwn_release (x : Transit) (tag : Nat) (addr : Addr) (words : List Word64) (carried : Carried) (w : OwnWrite)
    (ht : 64 ≤ tag) :
    let y := (x.presentOwn tag addr words carried).releaseHolds w
    ∃ freed, HoldsReleased w [] x.holds y.holds freed ∧ y.stage.Perm (x.stage ++ freed)
      ∧ (x.stage.Pairwise (fun a b => a.order ≤ b.order) → y.stage.Pairwise (fun a b => a.order ≤ b.order))
      ∧ (∀ r ∈ freed, (y.entry r.tag.toNat).map (·.phase) = some .staged)
      ∧ y.entry tag = some (insertedEntry addr words.length carried)
      ∧ (∀ k, k ≠ tag → (∀ r ∈ freed, k ≠ r.tag.toNat) → y.entry k = x.entry k)
      ∧ y =
          { x with
            stage := y.stage, holds := y.holds, inflight := y.inflight
            memoryPort := some { tag := BitVec.ofNat 7 tag, kind := .write, addr := addr, beats := words.length
                                 data := ownData words } } := by
  obtain ⟨freed, hheld, hperm, hsorted, hstaged, hentry, hframe⟩ := (x.presentOwn tag addr words carried).releaseHolds_spec w
  refine ⟨freed, hheld, hperm, hsorted, hstaged, ?_, fun k hk hfree => ?_, hframe⟩
  · exact (hentry tag fun r _ => sysTag_lt_inserted r ht).trans ((Transit.entry_setEntry _ _ _ _).trans (if_pos rfl))
  · exact (hentry k hfree).trans ((Transit.entry_setEntry _ _ _ _).trans (if_neg hk))

/-- Settles O26: the oldest record is presented at its slot and the requests that waited on it alone are staged. -/
theorem recordPresented : Obligations.RecordPresented := by
  unfold Obligations.RecordPresented
  intro e rest tag s hset hq hslot hwin htag
  obtain ⟨hinserted, _⟩ := id htag
  have hhead : s.writeBack.head = some (.record e) := by
    unfold WriteBack.head
    rw [hq]
    split
    · rename_i h; exact absurd h hslot
    · rename_i h; cases h
    · rename_i heq _; cases heq; rfl
    · rename_i heq _ _; cases heq
  obtain ⟨freed, hheld, hperm, hsorted, hstaged, hown, hothers, hframe⟩ :=
    presentOwn_release s.transit tag e.addr e.content (.ring e.ring) (.record e.ring e.index) hinserted
  have hsettled : Settled (s.presentRecord tag e) := by
    show s.writeBack.slot.advance ≠ .filling
    unfold Settled at hset
    cases hs : s.writeBack.slot with
    | empty => nofun
    | filling => exact absurd hs hset
    | pending n => nofun
  have hwrite : (s.presentRecord tag e).writeBack
      = { s.writeBack with
          queue := rest
          slot := (match s.writeBack.slot with
            | .pending n => .pending (n - 1)
            | x => x) } := by
    show { s.writeBack with queue := s.writeBack.queue.tail, slot := s.writeBack.slot.advance } = _
    rw [hq]
    unfold StatusSlot.advance
    cases s.writeBack.slot <;> rfl
  refine ⟨_, freed, exec_writebackHeadPresented hhead hwin htag, ?_⟩
  rw [show s.presentOwnHead tag (.record e) = s.presentRecord tag e from rfl, settle_of_settled hsettled]
  refine ⟨rfl, hwrite, ?_, ?_, ?_, hothers, hheld, hperm, hsorted, hstaged⟩
  · exact hframe.trans (by rw [show (s.presentRecord tag e).transit.memoryPort = _ from congrArg Transit.memoryPort hframe]; rfl)
  · exact congrArg Transit.memoryPort hframe
  · exact congrArg (Option.map Entry.carried) hown

/-- Requests that leave the hold list are system requests: the number of inserted writes in flight stays. -/
theorem stageRequests_insertedInFlight (freed : List Request) : ∀ x : Transit,
    (freed.foldl Transit.stageRequest x).insertedInFlight = x.insertedInFlight := by
  induction freed with
  | nil => exact fun _ => rfl
  | cons r rest ih =>
    intro x
    have hdropped : (decide (64 ≤ r.tag.toNat)) = false := by
      have := r.tag.isLt
      simpa using this
    exact (ih (x.stageRequest r)).trans
      (congrArg List.length (Table.filter_write_dropped x.inflight r.tag.toNat _ (fun k => decide (64 ≤ k)) hdropped))

/-- The composed status record counts its own write among those in flight (R6, R38). -/
theorem statusOnPort_inFlight (s : State) (tag : Nat) :
    (((s.statusOnPort tag).releaseHolds .status).collect).insertedInFlight = (s.composing tag).transit.insertedInFlight := by
  have hport : (s.statusOnPort tag).inflight = (s.composing tag).transit.inflight := Table.write_write _ _ _ _
  have hsame : (s.statusOnPort tag).insertedInFlight = (s.composing tag).transit.insertedInFlight := by
    unfold Transit.insertedInFlight
    rw [hport]
  exact (stageRequests_insertedInFlight _ _).trans hsame

/-- Settles O27: the status write is composed with the values in force and its record joins the others. -/
theorem statusPresented : Obligations.StatusPresented := by
  unfold Obligations.StatusPresented
  intro n tag base s hb hslot hplace hwin htag
  obtain ⟨hinserted, _⟩ := id htag
  have hhead : s.writeBack.head = some .status := by
    unfold WriteBack.head
    rw [hslot]
    rcases hplace with rfl | hq
    · rfl
    · rw [hq]
      cases n <;> rfl
  have haddr : s.statusAddr = BitVec.ofNat 36 (base.toNat + 0x100) := by
    unfold State.statusAddr State.statusBase State.windowBase
    rw [hb]
    rfl
  obtain ⟨freed, hheld, hperm, hsorted, hstaged, hown, hothers, hframe⟩ :=
    presentOwn_release
      { (s.composing tag).transit with statusRecords := s.transit.statusRecords ++ [s.statusRecord tag] } tag s.statusAddr
      (statusWords (s.composing tag)) (.status (s.control.statusSeq + 1)) .status hinserted
  have hrelease : ({ (s.composing tag).transit with statusRecords := s.transit.statusRecords ++ [s.statusRecord tag] } : Transit).presentOwn
      tag s.statusAddr (statusWords (s.composing tag)) (.status (s.control.statusSeq + 1)) = s.statusOnPort tag := rfl
  rw [hrelease] at hheld hperm hsorted hstaged hown hothers hframe
  have hrecords : ((s.statusOnPort tag).releaseHolds .status).statusRecords = s.transit.statusRecords ++ [s.statusRecord tag] :=
    congrArg Transit.statusRecords hframe
  have hport : ((s.statusOnPort tag).releaseHolds .status).memoryPort = _ := congrArg Transit.memoryPort hframe
  refine ⟨_, statusWords (s.composing tag), freed, exec_writebackHeadPresented hhead hwin htag, ?_⟩
  have hsettled : Settled { s.beginStatus with transit := ((s.statusOnPort tag).releaseHolds .status).collect } :=
    show StatusSlot.empty ≠ .filling by decide
  rw [show s.presentOwnHead tag .status = s.presentStatus tag from rfl, State.presentStatus_eq, settle_of_settled hsettled]
  refine ⟨rfl, ?_, ?_, ?_, ?_, ?_, fun w hw hp => ?_, fun k hk hfree => ?_, hheld, hperm, hsorted, hstaged⟩
  · show ((s.statusOnPort tag).releaseHolds .status).collect = _
    rw [hframe]
    rfl
  · refine hport.trans ?_
    rw [haddr]
    rfl
  · have hcontent := statusWords_content (s.composing tag)
    rw [← statusOnPort_inFlight] at hcontent
    exact hcontent
  · exact congrArg (Option.map Entry.carried) hown
  · show (((s.statusOnPort tag).releaseHolds .status).collect).statusRecords.getLast? = _
    unfold Transit.collect
    dsimp only
    rw [hrecords, List.filter_append, List.filter_cons_of_pos (by simp [State.statusRecord]), List.filter_nil,
      List.getLast?_append]
    rfl
  · refine mem_collect_of_pending ?_ hp
    rw [hrecords]
    exact List.mem_append_left _ hw
  · refine (hothers k hk hfree).trans ?_
    exact (Transit.entry_setEntry s.transit _ _ _).trans (if_neg hk)

/-! ### Resets -/

/-- Settles O32: a port reset discards what is at the system port and clears the assembly buffers. -/
theorem portResetDiscards : Obligations.PortResetDiscards := by
  unfold Obligations.PortResetDiscards
  refine ⟨fun _ => rfl, fun s hw => ?_⟩
  have hentry : ∀ k, s.transit.portReset.entry k = (s.transit.entry k).bind (Entry.afterPortReset k) :=
    read_filterEntries hw Entry.afterPortReset
  refine ⟨_, rfl, rfl, rfl, fun k hk => ?_, fun k hk => ?_, fun i => StreamTap.stream_mapStreams _ _ _, rfl⟩
  · refine (hentry k).trans ?_
    cases s.transit.entry k with
    | none => rfl
    | some e => exact if_pos hk
  · refine (hentry k).trans ?_
    cases s.transit.entry k with
    | none => rfl
    | some e =>
      refine (if_neg (show ¬64 ≤ k by omega)).trans ?_
      cases hp : e.phase <;> simp [hp]

/-- The time base moved by one sample. -/
theorem ticked_tick (s : State) : Ticked s s.tick ∧ s.tick = { s with phase := s.tick.phase, time := s.tick.time } := by
  unfold State.tick
  by_cases h : s.phase + 1 < 10
  · rw [if_pos h]
    exact ⟨⟨fun _ => ⟨rfl, rfl⟩, fun hn => absurd h hn⟩, rfl⟩
  · rw [if_neg h]
    exact ⟨⟨fun hp => absurd hp h, fun _ => ⟨rfl, rfl⟩⟩, rfl⟩

/-- Settles O33: a hardware reset answers the reset state with tags in flight ABSORBING; its release gives the filters the first sample. -/
theorem hardwareResetClears : Obligations.HardwareResetClears := by
  unfold Obligations.HardwareResetClears
  refine ⟨fun l s => ⟨fun hhigh => ?_, fun hlow => ?_⟩, fun s hw => ?_⟩
  · exact if_neg (by simp [hhigh])
  · obtain ⟨hticked, hframe⟩ := ticked_tick { s with resetLow := false, odometer := { s.odometer with filters := .first l } }
    exact ⟨_, if_pos hlow, hticked, hframe⟩
  · refine ⟨_, rfl, rfl, fun k => ?_⟩
    refine (read_filterEntries hw Entry.afterHardwareReset k).trans ?_
    show (s.transit.entry k).bind _ = _
    cases s.transit.entry k with
    | none => rfl
    | some e =>
      show Entry.afterHardwareReset k e = _
      unfold Entry.afterHardwareReset
      cases hp : e.phase <;> cases hc : e.carried <;> simp [hp, hc]

end Machine
end Sys2Proof
end

section
/-! SUPPORT. ARM (R43–R48): what its checks say of the setup, what each block loads, and its statement settled. -/

namespace Sys2Proof.Machine

/-! ### The checks -/

/-- Where ARM reports no record, no check fails (R43). -/
theorem armChecks_pass {t : Table Word64} {window : Nat} (h : armFailure t window = none) : ∀ c ∈ armChecks t window, c.1 = false := by
  unfold armFailure at h
  rw [Option.map_eq_none_iff, List.find?_eq_none] at h
  intro c hc
  simpa using h c hc

theorem odometryFails_false {t : Table Word64} {window : Nat} (h : armFailure t window = none) : odometryFails t = false :=
  armChecks_pass h (odometryFails t, 0x0300) (by simp [armChecks])

theorem actionFails_false {t : Table Word64} {window : Nat} (h : armFailure t window = none) : actionFails t = false :=
  armChecks_pass h (actionFails t, 0x0500) (by simp [armChecks])

/-- The sign of a direction byte in range is its signed value. -/
theorem directionOf_sign {b : BitVec 8} (h : (directionOf b).isSome = true) : ((directionOf b).getD .plus).sign = b.toInt := by
  unfold directionOf at h ⊢
  by_cases hplus : b = 0x01
  · subst hplus
    decide
  · by_cases hminus : b = 0xFF
    · subst hminus
      decide
    · rw [if_neg hplus, if_neg hminus] at h
      cases h

/-- The start direction of a setup that passes (R45). -/
theorem startDirection_sign {t : Table Word64} {window : Nat} (h : armFailure t window = none) :
    (startDirection t).sign = (shadowField 8 t 0x0305).toInt := by
  have hpass := odometryFails_false h
  unfold odometryFails at hpass
  refine directionOf_sign ?_
  rw [Bool.or_eq_false_iff] at hpass
  obtain ⟨_, hdir⟩ := hpass
  simpa [Option.isSome_iff_ne_none] using hdir

/-- The mark group of a setup that passes (R47). -/
theorem markGroup_load {t : Table Word64} {window : Nat} (a : ActionUnit) (h : armFailure t window = none) :
    (a.load t).markGroup.val = (shadowField 8 t 0x0502).toNat := by
  have hle : (shadowField 8 t 0x0502).toNat ≤ 1 := by
    have hpass := actionFails_false h
    simp only [actionFails, between, Bool.or_eq_false_iff, Bool.not_eq_false', Bool.and_eq_true, decide_eq_true_eq] at hpass
    obtain ⟨⟨⟨⟨⟨_, ⟨_, hle⟩⟩, _⟩, _⟩, _⟩, _⟩ := hpass
    exact hle
  show (if shadowField 8 t 0x0502 = 1 then (1 : Fin 2) else 0).val = _
  by_cases h1 : shadowField 8 t 0x0502 = 1
  · rw [if_pos h1, h1]
    rfl
  · rw [if_neg h1]
    have hne : (shadowField 8 t 0x0502).toNat ≠ 1 := fun heq => h1 (BitVec.eq_of_toNat_eq heq)
    show 0 = _
    omega

/-! ### The quantity map -/

theorem mem_mappedSlots {m : List (BitVec 8)} {q : Nat} :
    q ∈ (mappedSlots m).map (·.2) ↔ 1 ≤ q ∧ q ≤ 8 ∧ ∃ c ∈ m, c.toNat = q := by
  have hcode : (mappedSlots m).map (·.2) = (m.filter mapsQuantity).map (·.toNat) := by
    unfold mappedSlots
    rw [List.map_filterMap]
    have hgen : ∀ (l : List (BitVec 8)) (k : Nat),
        (l.zipIdx k).filterMap (fun e => (if mapsQuantity e.1 then some (e.2, e.1.toNat) else none).map (·.2))
          = (l.filter mapsQuantity).map (·.toNat) := by
      intro l
      induction l with
      | nil => exact fun _ => rfl
      | cons c rest ih =>
        intro k
        rw [List.zipIdx_cons, List.filterMap_cons, ih]
        cases hc : mapsQuantity c <;> simp [hc]
    exact hgen m 0
  rw [hcode]
  simp only [List.mem_map, List.mem_filter, mapsQuantity, Bool.and_eq_true, decide_eq_true_eq]
  constructor
  · rintro ⟨c, ⟨hc, hlo, hhi⟩, rfl⟩
    exact ⟨hlo, hhi, c, hc, rfl⟩
  · rintro ⟨hlo, hhi, c, hc, rfl⟩
    exact ⟨c, ⟨hc, hlo, hhi⟩, rfl⟩

theorem mem_enabledStreams {t : Table Word64} {i : Fin 4} : i ∈ enabledStreams t ↔ areaEnabled t (i.val + 1) = true := by
  have hall : i ∈ ([0, 1, 2, 3] : List (Fin 4)) := by revert i; decide
  unfold enabledStreams
  rw [List.mem_filter]
  exact ⟨fun h => h.2, fun h => ⟨hall, h⟩⟩

/-- The quantities that an enabled stream maps (R46). -/
theorem mapsQuantity_iff {t : Table Word64} {i : Fin 4} {q : Nat} :
    MapsQuantity t i q ↔ i ∈ enabledStreams t ∧ q ∈ (mappedSlots (slotMapField t i.val)).map (·.2) := by
  rw [mem_enabledStreams, mem_mappedSlots]
  unfold MapsQuantity slotMapField streamOffset
  simp only [List.mem_map, List.mem_range]
  exact ⟨fun ⟨ha, h1, h8, n, hn, hq⟩ => ⟨ha, h1, h8, _, ⟨n, hn, rfl⟩, hq⟩,
    fun ⟨ha, h1, h8, _, ⟨n, hn, hc⟩, hq⟩ => ⟨ha, h1, h8, n, hn, by rw [hc]; exact hq⟩⟩

theorem quantityMapped_iff {t : Table Word64} {q : Nat} : quantityMapped t q = true ↔ ∃ i, MapsQuantity t i q := by
  unfold quantityMapped quantityWalk
  rw [List.any_eq_true]
  constructor
  · rintro ⟨e, he, hq⟩
    obtain ⟨i, hi, hm⟩ := List.mem_flatMap.mp he
    obtain ⟨x, hx, rfl⟩ := List.mem_map.mp hm
    exact ⟨i, mapsQuantity_iff.mpr ⟨hi, List.mem_map.mpr ⟨x, hx, by simpa using hq⟩⟩⟩
  · rintro ⟨i, hm⟩
    obtain ⟨hi, hq⟩ := mapsQuantity_iff.mp hm
    obtain ⟨x, hx, rfl⟩ := List.mem_map.mp hq
    exact ⟨(i.val, x.2), List.mem_flatMap.mpr ⟨i, hi, List.mem_map.mpr ⟨x, hx, rfl⟩⟩, by simp⟩

/-- A contributor is an enabled stream with the quantities that it maps, when it maps one (R90). -/
theorem mem_contributors {t : Table Word64} {c : Contributor} :
    c ∈ contributors t ↔ c.stream ∈ enabledStreams t ∧ c.quantities ≠ []
      ∧ c.quantities = (mappedSlots (slotMapField t c.stream.val)).map (·.2) := by
  unfold contributors
  rw [List.mem_filterMap]
  constructor
  · rintro ⟨i, hi, hc⟩
    dsimp only at hc
    split at hc
    · cases hc
    · rename_i hne
      cases hc
      exact ⟨hi, hne, rfl⟩
  · rintro ⟨hi, hne, hq⟩
    refine ⟨c.stream, hi, ?_⟩
    dsimp only
    rw [← hq, if_neg hne]

/-- The contributing streams that ARM loads (R90, R117). -/
theorem contributorsLoaded_contributors (t : Table Word64) : ContributorsLoaded t (contributors t) := by
  refine ⟨?_, fun c hc => (mem_contributors.mp hc).2.1, fun i q => ?_⟩
  · have hsub : ((contributors t).map (·.stream)).Sublist (enabledStreams t) := by
      unfold contributors
      rw [List.map_filterMap]
      generalize enabledStreams t = l
      induction l with
      | nil => exact List.Sublist.slnil
      | cons i rest ih =>
        rw [List.filterMap_cons]
        by_cases hq : (mappedSlots (slotMapField t i.val)).map (·.2) = []
        · rw [if_pos hq]
          exact ih.cons i
        · rw [if_neg hq]
          exact ih.cons_cons i
    exact (List.Pairwise.filter _ (show List.Pairwise (· ≠ ·) _ by decide)).sublist hsub
  · rw [mapsQuantity_iff]
    constructor
    · rintro ⟨c, hc, rfl, hq⟩
      obtain ⟨hi, _, hquantities⟩ := mem_contributors.mp hc
      exact ⟨hi, hquantities ▸ hq⟩
    · rintro ⟨hi, hq⟩
      exact ⟨⟨i, (mappedSlots (slotMapField t i.val)).map (·.2)⟩,
        mem_contributors.mpr ⟨hi, List.ne_nil_of_mem hq, rfl⟩, rfl, hq⟩

/-- The mark for uncompensated channels: INR_Y or INR_Z is mapped in no enabled stream (R127). -/
theorem uncompensated_iff (t : Table Word64) :
    (!(quantityMapped t 6 && quantityMapped t 7)) = true ↔ (∀ i, ¬MapsQuantity t i 6) ∨ ∀ i, ¬MapsQuantity t i 7 := by
  rw [Bool.not_eq_true', Bool.and_eq_false_iff, ← Bool.not_eq_true, ← Bool.not_eq_true, quantityMapped_iff, quantityMapped_iff]
  simp only [not_exists]

/-! ### What the blocks load -/

/-- ARM fills the areas of the enabled records and empties the others (R10). -/
theorem read_loadAreas (areas : Table Area) (t : Table Word64) {n : Nat} (h1 : 1 ≤ n) (h7 : n ≤ 7) :
    Table.read (loadAreas areas t) n = if areaEnabled t n then some (areaOf t n) else none := by
  have hfold : ∀ (l : List Nat) (m : Table Area),
      Table.read (l.foldl (fun m n => Table.write m n (areaOf t n)) m) n = if n ∈ l then some (areaOf t n) else Table.read m n := by
    intro l
    induction l with
    | nil => exact fun _ => rfl
    | cons k rest ih =>
      intro m
      rw [List.foldl_cons, ih, Table.read_write]
      by_cases hrest : n ∈ rest
      · simp [hrest]
      · by_cases hk : n = k
        · subst hk
          simp
        · simp [hrest, hk]
  have hmem : n ∈ [1, 2, 3, 4, 5, 6, 7].filter (areaEnabled t) ↔ areaEnabled t n = true := by
    rw [List.mem_filter]
    exact ⟨fun h => h.2, fun h => ⟨by simp; omega, h⟩⟩
  unfold loadAreas
  rw [hfold, Table.read_filter_key areas (fun k => decide (k = 0)), if_neg (show ¬decide (n = 0) = true by simp; omega)]
  simp only [hmem]

theorem exceedance_entry_load (t : Table Word64) (p : BitVec 3) {ch : Nat} (h : ch < 8) :
    (ExceedanceUnit.load t).entry p ch = profileEntryField t p.toNat ch := by
  have hp : p.toNat < 8 := p.isLt
  unfold ExceedanceUnit.entry ExceedanceUnit.load
  dsimp only
  rw [List.getD_eq_getElem?_getD, List.getD_eq_getElem?_getD]
  simp [hp, h]

theorem lineLevel_load (a : ActionUnit) (t : Table Word64) (line : Fin 8) :
    (a.load t).lineLevel line =
      if line.val < 4 then (shadowField 4 t 0x0500).getLsbD line.val else (shadowField 4 t 0x0501).getLsbD (line.val - 4) := by
  have hzero : (List.replicate 8 0).getD line.val 0 = 0 := by
    revert line
    decide
  unfold ActionUnit.lineLevel
  exact if_pos hzero

theorem stream_load (t : Table Word64) (i : Fin 4) :
    (StreamTap.load t).stream i = StreamContext.load t i.val (areaPages t (i.val + 1)) (areaEnabled t (i.val + 1)) := by
  match i with
  | 0 | 1 | 2 | 3 => rfl

/-- The part with every block loaded from the setup shadow (R48). -/
def State.loaded (s : State) : State :=
  { s with
    transit := s.transit.load s.control.shadow
    odometer := s.odometer.load s.control.shadow
    tap := .load s.control.shadow
    assembler := .load s.control.shadow (contributors s.control.shadow)
    geometry := .load s.control.shadow (!(quantityMapped s.control.shadow 6 && quantityMapped s.control.shadow 7))
    exceedance := .load s.control.shadow
    action := s.action.load s.control.shadow
    writeBack := s.writeBack.load s.control.shadow }

theorem commandArm_refused {s : State} {off : Nat} (hr : s.control.runState = .idle)
    (h : armFailure s.control.shadow s.windowBase = some off) : s.commandArm = s.complete 0 .refusedConfig (BitVec.ofNat 32 off) := by
  unfold State.commandArm
  rw [if_pos hr, h]
  rfl

theorem commandArm_done {s : State} (hr : s.control.runState = .idle) (h : armFailure s.control.shadow s.windowBase = none) :
    s.commandArm = (s.loaded.changeRunState .armed).done 0 := by
  unfold State.commandArm
  rw [if_pos hr, h]
  rfl

/-- Settles O35: ARM reports the first failing record, or loads every block and moves to ARMED. -/
theorem armChecksAndLoads : Obligations.ArmChecksAndLoads := by
  unfold Obligations.ArmChecksAndLoads
  rintro _ s hr rfl
  have ha : s.control.runState ≠ .unanchored := by simp [hr]
  constructor
  · intro off hfail
    have hrun := exec_completes_only (s := s) ha (n := 0) (w := 0) (commandArm_refused hr hfail)
    rw [hr] at hrun
    exact hrun
  · intro hpass
    obtain ⟨hcompletes, hslot, hframe⟩ := done_changeRunState_settle (s := { s with writeBack := s.loaded.writeBack }) (u := s.loaded)
      rfl rfl (r := .armed) (by decide) 0
    have hexec : exec .arm s = .next ((s.loaded.changeRunState .armed).done 0).settle :=
      (exec_commandOf ha 0 0).trans (by rw [← commandArm_done hr hpass]; rfl)
    refine ⟨_, startDirection s.control.shadow, hexec, hcompletes, ?_⟩
    generalize ((s.loaded.changeRunState .armed).done 0).settle = t at hslot hframe
    rw [StreamTap.afterRunState_of_ne (by decide)] at hframe
    have htransit : t.transit = s.transit.load s.control.shadow := congrArg State.transit hframe
    have hodometer : t.odometer = s.odometer.load s.control.shadow := congrArg State.odometer hframe
    have htap : t.tap = .load s.control.shadow := congrArg State.tap hframe
    have hassembler : t.assembler = .load s.control.shadow (contributors s.control.shadow) := congrArg State.assembler hframe
    have hgeometry : t.geometry =
        .load s.control.shadow (!(quantityMapped s.control.shadow 6 && quantityMapped s.control.shadow 7)) :=
      congrArg State.geometry hframe
    have hexceedance : t.exceedance = .load s.control.shadow := congrArg State.exceedance hframe
    have haction : t.action = s.action.load s.control.shadow := congrArg State.action hframe
    have hwrite : t.writeBack = { s.writeBack.load s.control.shadow with slot := t.writeBack.slot } := hslot
    refine ⟨?_, ?_, fun n h1 h7 => ?_, startDirection_sign hpass, hodometer, fun i => ?_, ?_, ?_, ?_, ?_, ?_, ?_, fun p ch hch => ?_,
      ?_, ?_, fun line => ?_, fun r => ?_, ?_⟩
    · rw [htransit, hodometer, htap, hassembler, hgeometry, hexceedance, haction]
      exact hframe
    · rw [htransit]
      exact read_loadAreas_zero _ _
    · rw [htransit]
      exact read_loadAreas _ _ h1 h7
    · rw [htap]
      exact stream_load _ i
    · rw [htap]
      rfl
    · rw [hassembler]
      exact contributorsLoaded_contributors _
    · rw [hassembler]
      rfl
    · rw [hgeometry]
      exact uncompensated_iff _
    · rw [hgeometry]
      rfl
    · rw [hexceedance]
      rfl
    · rw [hexceedance]
      exact exceedance_entry_load _ p hch
    · rw [haction]
      exact markGroup_load _ hpass
    · rw [haction]
      rfl
    · unfold State.lineLevel
      rw [haction]
      exact lineLevel_load _ _ line
    · rw [hwrite]
      exact WriteBack.load_ring s.writeBack _ r
    · rw [hwrite]
      rfl

end Sys2Proof.Machine
end

section
/-! SUPPORT. ACTION_POST and mark requests (R167–R169), STOP and the end of a drain (R51, R52, R125, R157), and those statements settled. -/

namespace Sys2Proof.Machine

/-! ### Flags stay set -/

theorem State.raise_flagSet (u : State) (f g : EventFlag) (h : u.flagSet g = true) : (u.raise f).flagSet g = true := by
  unfold State.raise
  split
  · exact h
  · show (Table.read (Table.write _ _ _) _).isSome = true
    rw [Table.read_write]
    split
    · rfl
    · exact h

theorem State.markStatus_flagSet (u : State) (g : EventFlag) (h : u.flagSet g = true) : u.markStatus.flagSet g = true := by
  unfold State.flagSet
  rw [State.markStatus_control]
  exact h

theorem State.produce_flagSet (u : State) (r : Ring) (c : List Word64) (g : EventFlag) (h : u.flagSet g = true) :
    (u.produce r c).flagSet g = true := by
  unfold State.produce
  split
  · exact State.raise_flagSet _ _ _ h
  · split
    · exact State.raise_flagSet _ _ _ h
    · exact State.markStatus_flagSet _ _ h

/-- What the level of the odometer does to a flag that is set: nothing. -/
theorem keeps_flagSet (g : EventFlag) : KeepsOdometer (fun s => s.flagSet g = true) where
  raise s f h := s.raise_flagSet f g h
  produce s r c h := s.produce_flagSet r c g h
  action _ _ _ _ _ h := h
  enqueue _ _ _ h := h
  dequeue _ _ _ _ h := h
  occupy _ _ _ _ h := h
  exceedance _ _ _ _ h := h
  route _ _ _ h := h
  tracker _ _ _ _ h := h
  geometry _ _ _ h := h
  assembler _ _ _ h := h
  append _ _ _ _ _ _ h := h
  tap _ _ h := h
  runState _ _ _ _ h := State.raise_flagSet _ _ _ h
  markStatus s h := s.markStatus_flagSet g h
  odometer _ _ _ h := h

theorem State.raise_sets (u : State) (f : EventFlag) (ha : u.control.runState ≠ .unanchored) : (u.raise f).flagSet f = true := by
  rw [State.raise_anchored u f ha]
  show (Table.read (Table.write _ _ _) _).isSome = true
  rw [Table.read_write_same]
  rfl

/-- An event that ends with a raise leaves its flag set, INT agreeing and a status write queued. -/
theorem raise_ends {u : State} (f : EventFlag) (ha : u.control.runState ≠ .unanchored) :
    (u.raise f).settle.flagSet f = true ∧ IntAgrees (u.raise f).settle ∧ (u.raise f).settle.writeBack.slot.queued = true
      ∧ ∀ g, u.flagSet g = true → (u.raise f).settle.flagSet g = true := by
  refine ⟨State.raise_sets u f ha, ?_, ?_, fun g hg => State.raise_flagSet u f g hg⟩
  · rw [State.raise_anchored u f ha]
    exact (intAgrees_iff _).mpr rfl
  · rw [State.raise_anchored u f ha]
    show u.writeBack.markStatus.settle.slot.queued = true
    rw [markStatus_settle_slot]
    unfold StatusSlot.afterMark
    cases u.writeBack.slot <;> rfl

/-- The completion of a command at the end of its event (R34). -/
theorem complete_ends {m : State} (word : BitVec 4) (result : ResultCode) (detail : BitVec 32)
    (ha : m.control.runState ≠ .unanchored) :
    let t := (m.complete word result detail).settle
    t.flagSet .commandDone = true ∧ IntAgrees t ∧ t.writeBack.slot.queued = true ∧ ∀ g, m.flagSet g = true → t.flagSet g = true :=
  raise_ends (u := { m with control := { m.control with lastCommand := ⟨word, result, detail⟩ } }) .commandDone ha

/-! ### A missed action -/

/-- What a missed action leaves: the action unit's count, the flag, the record at write-back. -/
theorem missAction_frame (u : State) (id : BitVec 16) (o : Origin) (T : Int) :
    u.missAction id o T =
      { u with
        control := (u.missAction id o T).control, writeBack := (u.missAction id o T).writeBack
        action := { u.action with missed := u.action.missed + 1 } } := by
  have haction : (u.missAction id o T).action = { u.action with missed := u.action.missed + 1 } := by
    simp [State.missAction, State.logAction]
  rw [← haction]
  exact (ActsOnly.missAction u id o T).1

theorem missAction_control (u : State) (id : BitVec 16) (o : Origin) (T : Int) :
    (u.missAction id o T).control =
      { u.control with events := (u.missAction id o T).control.events, int := (u.missAction id o T).control.int } := by
  unfold State.missAction State.logAction
  have hraise := (FlagsOnly.raise { u with action := { u.action with missed := u.action.missed + 1 } } .actionMissed).2.1
  unfold ControlEventsOnly at hraise
  have hproduce : ∀ (v : State) (r : Ring) (c : List Word64),
      (v.produce r c).control = { v.control with events := (v.produce r c).control.events, int := (v.produce r c).control.int } := by
    intro v r c
    unfold State.produce
    split
    · exact (FlagsOnly.raise { v with writeBack := v.writeBack.lose r } .ringFull).2.1
    · split
      · exact (FlagsOnly.raise { v with writeBack := v.writeBack.lose r } .writebackLag).2.1
      · rw [State.markStatus_control]
  rw [hproduce, hraise]

theorem missAction_sets (u : State) (id : BitVec 16) (o : Origin) (T : Int) (ha : u.control.runState ≠ .unanchored) :
    (u.missAction id o T).flagSet .actionMissed = true :=
  State.produce_flagSet _ _ _ _ (State.raise_sets _ _ ha)

/-! ### ACTION_POST (R167, R169) -/

/-- The entry of the action queue that a post makes. -/
def State.postedEntry (s : State) (g : Fin 2) (p : BitVec 4) (T : Int) : ActionEntry :=
  { id := s.action.idCounter, trigger := T, group := g, pattern := p, origin := .posted }

section

variable {s : State} {g : Fin 2} {p : BitVec 4} {off : Nat}

theorem post_missed (h : s.odometer.d / 256 + off ≤ s.odometer.highWater) :
    s.post g p off =
      ⟨State.missAction { s with action := s.action.takeId } s.action.idCounter .posted (s.odometer.d / 256 + off), .done,
        s.action.idCounter.setWidth 32⟩ := by
  unfold State.post
  exact if_pos h

theorem post_full (h : s.odometer.highWater < s.odometer.d / 256 + off) (hq : s.action.queue.length = 32) :
    s.post g p off = ⟨s, .queueFull, 0⟩ := by
  unfold State.post
  exact (if_neg (Int.not_le.mpr h)).trans (if_pos hq)

theorem post_queued (h : s.odometer.highWater < s.odometer.d / 256 + off) (hq : s.action.queue.length ≠ 32) :
    s.post g p off =
      ⟨{ s with action := s.action.takeId.enqueue (s.postedEntry g p (s.odometer.d / 256 + off)) }, .done,
        s.action.idCounter.setWidth 32⟩ := by
  unfold State.post
  exact (if_neg (Int.not_le.mpr h)).trans (if_neg hq)

end

/-- ACTION_POST in RUNNING with its arguments in range (R169). -/
theorem commandActionPost_inRange {s : State} {w : Word64} {g : Fin 2} {p : BitVec 4} {off : Nat} (hr : s.control.runState = .running)
    (hg : groupArg w = some g) (hp : patternArg w = some p) (ho : offsetArg w = some off) :
    s.commandActionPost w = (s.post g p off).state.complete 7 (s.post g p off).result (s.post g p off).detail := by
  unfold State.commandActionPost
  rw [if_pos hr, hg, hp, ho]

/-! ### Mark requests (R166, R168) -/

theorem markRequest_queued {s : State} {dmm : Int} (hr : s.control.runState = .running)
    (h : s.odometer.highWater < dmm + s.action.markOffset) (hq : s.action.queue.length ≠ 32) :
    s.markRequest dmm =
      { s with
        action :=
          s.action.takeId.enqueue
            { id := s.action.idCounter, trigger := dmm + s.action.markOffset, group := s.action.markGroup
              pattern := s.action.markPattern, origin := .mark } } := by
  unfold State.markRequest
  exact if_pos ⟨hr, h, hq⟩

theorem markRequest_missed {s : State} {dmm : Int}
    (h : ¬(s.control.runState = .running ∧ s.odometer.highWater < dmm + s.action.markOffset ∧ s.action.queue.length ≠ 32)) :
    s.markRequest dmm =
      State.missAction { s with action := s.action.takeId } s.action.idCounter .mark (dmm + s.action.markOffset) := by
  unfold State.markRequest
  exact if_neg h

/-- Settles O42: a post or a mark request is queued in its place, refused at a full queue, or missed. -/
theorem actionPostQueuesOrMisses : Obligations.ActionPostQueuesOrMisses := by
  unfold Obligations.ActionPostQueuesOrMisses
  constructor
  · rintro w T s hr ⟨_, hsorted⟩ hg hp1 hp2 ho rfl
    obtain ⟨g, hgroup, hgval⟩ := groupArg_of_le hg
    have ha : s.control.runState ≠ .unanchored := by simp [hr]
    have hcommand := commandActionPost_inRange hr hgroup (patternArg_some hp1 hp2) (offsetArg_some ho)
    refine ⟨fun habove hroom => ?_, fun habove hfull => ?_, fun hbelow => ?_⟩
    · rw [post_queued habove (Nat.ne_of_lt hroom)] at hcommand
      obtain ⟨t, hexec, hcompletes, hslot, hframe⟩ := exec_done_only (n := 7) (s := s)
        (u := { s with
          action := s.action.takeId.enqueue
            (s.postedEntry g (w.extractLsb' 8 4) (s.odometer.d / 256 + ((w.extractLsb' 16 24).toNat : Int))) }) ha rfl rfl hcommand
      obtain ⟨before, behind, hsplit, hbefore, hbehind, hinsert⟩ :=
        insertAction_split (s.postedEntry g (w.extractLsb' 8 4) (s.odometer.d / 256 + (w.extractLsb' 16 24).toNat)) _ hsorted
      rw [hr] at hcompletes
      refine ⟨t, before, behind, s.postedEntry g (w.extractLsb' 8 4) (s.odometer.d / 256 + (w.extractLsb' 16 24).toNat), hexec,
        hcompletes, hsplit, hbefore, hbehind, rfl, rfl, hgval, rfl, rfl, hframe.trans ?_, hslot⟩
      rw [← hinsert]
      rfl
    · rw [post_full habove hfull] at hcommand
      obtain ⟨t, hexec, honly, hcompletes⟩ := exec_completes_only (n := 7) ha hcommand
      rw [hr] at hcompletes
      exact ⟨t, hexec, honly, hcompletes⟩
    · rw [post_missed hbelow] at hcommand
      have hmissed := State.missAction_missed { s with action := s.action.takeId } s.action.idCounter .posted
        (s.odometer.d / 256 + ((w.extractLsb' 16 24).toNat : Int))
      have hframe := missAction_frame { s with action := s.action.takeId } s.action.idCounter .posted
        (s.odometer.d / 256 + ((w.extractLsb' 16 24).toNat : Int))
      have hcontrol := missAction_control { s with action := s.action.takeId } s.action.idCounter .posted
        (s.odometer.d / 256 + ((w.extractLsb' 16 24).toNat : Int))
      have hsets := missAction_sets { s with action := s.action.takeId } s.action.idCounter .posted
        (s.odometer.d / 256 + ((w.extractLsb' 16 24).toNat : Int)) ha
      have hexec := exec_commandOf ha 7 w
      rw [show s.runCommand (7 : Fin 9).val w = s.commandActionPost w from rfl, hcommand] at hexec
      generalize State.missAction { s with action := s.action.takeId } s.action.idCounter .posted
        (s.odometer.d / 256 + ((w.extractLsb' 16 24).toNat : Int)) = m at hmissed hframe hcontrol hsets hexec
      have hm : m.control.runState = .running := by rw [hcontrol]; exact hr
      have hma : m.control.runState ≠ .unanchored := by simp [hm]
      obtain ⟨hcomplete, hcomplete', _⟩ := m.complete_only 7 .done (s.action.idCounter.setWidth 32)
      obtain ⟨hdone, hint, hqueued, hkeep⟩ := complete_ends 7 .done (s.action.idCounter.setWidth 32) hma
      unfold ControlEventsOnly at hcomplete'
      refine ⟨_, hexec, ?_, ?_, ?_, ?_, ?_, hint, hdone, hkeep _ hsets, hqueued, m, hmissed, rfl⟩
      · generalize (m.complete 7 .done (s.action.idCounter.setWidth 32)).settle = t at hcomplete
        exact hcomplete.trans (by rw [hframe]; rfl)
      · show (m.complete 7 .done (s.action.idCounter.setWidth 32)).settle.control.lastCommand = _
        rw [hcomplete']
      · show (m.complete 7 .done (s.action.idCounter.setWidth 32)).settle.control.runState = _
        rw [hcomplete']
        exact hm
      · show (m.complete 7 .done (s.action.idCounter.setWidth 32)).settle.control.mask = _
        rw [hcomplete', hcontrol]
      · show (m.complete 7 .done (s.action.idCounter.setWidth 32)).settle.control.shadow = _
        rw [hcomplete', hcontrol]
  · rintro dmm _ s ⟨hle, hsorted⟩ rfl
    refine ⟨fun hr habove hroom => ?_, fun hcase => ?_⟩
    · obtain ⟨before, behind, hsplit, hbefore, hbehind, hinsert⟩ := insertAction_split
        { id := s.action.idCounter, trigger := dmm + s.action.markOffset, group := s.action.markGroup
          pattern := s.action.markPattern, origin := .mark } _ hsorted
      refine ⟨before, behind, _, hsplit, hbefore, hbehind, rfl, ?_⟩
      rw [markRequest_queued hr habove (Nat.ne_of_lt hroom), ← hinsert]
      rfl
    · have hnot : ¬(s.control.runState = .running ∧ s.odometer.highWater < dmm + s.action.markOffset ∧ s.action.queue.length ≠ 32) := by
        rintro ⟨hr, habove, hroom⟩
        rcases hcase with h | h | h
        · exact h hr
        · omega
        · exact hroom h
      rw [markRequest_missed hnot]
      exact State.missAction_missed _ _ _ _

end Sys2Proof.Machine
end

section
/-! SUPPORT. STOP and the end of the records (R51, R52, R125, R157): what the end-of-points notice leaves alone, and that statement
settled. -/

namespace Sys2Proof.Machine

/-! ### The periodic triggers at the end of the records -/

/-- The two periodic triggers of the action unit. -/
def State.triggers (s : State) : Periodic × Periodic := (s.action.periodic0, s.action.periodic1)

theorem triggers_eq_of_action {s t : State} (h : t.action = s.action) : t.triggers = s.triggers := by
  unfold State.triggers
  rw [h]

@[simp] theorem raise_triggers (s : State) (f : EventFlag) : (s.raise f).triggers = s.triggers :=
  triggers_eq_of_action (s.raise_action f)

@[simp] theorem produce_triggers (s : State) (r : Ring) (c : List Word64) : (s.produce r c).triggers = s.triggers :=
  triggers_eq_of_action (s.produce_action r c)

theorem missAction_triggers (s : State) (id : BitVec 16) (o : Origin) (T : Int) : (s.missAction id o T).triggers = s.triggers := by
  unfold State.triggers
  rw [missAction_frame]

theorem markRequest_triggers (s : State) (d : Int) : (s.markRequest d).triggers = s.triggers := by
  unfold State.markRequest
  dsimp only
  split
  · rfl
  · exact missAction_triggers _ _ _ _

theorem emitExceedance_triggers (s : State) (ch : Nat) (sev : Severity) (r : OpenRun) (cause : CloseCause) :
    (s.emitExceedance ch sev r cause).triggers = s.triggers :=
  (raise_triggers _ _).trans (produce_triggers _ _ _)

theorem closeRun_triggers (s : State) (ch : Nat) (cause : CloseCause) : (s.closeRun ch cause).triggers = s.triggers := by
  unfold State.closeRun
  dsimp only
  split
  · rfl
  · exact emitExceedance_triggers _ _ _ _ _
  · split
    · exact emitExceedance_triggers _ _ _ _ _
    · rfl

theorem enterLimit_triggers (s : State) (g : GeometryRecord) (ch : Nat) (r : OpenRun) :
    (s.enterLimit g ch r).triggers = s.triggers := by
  unfold State.enterLimit
  split
  · exact markRequest_triggers _ _
  · rfl

theorem trackClear_triggers (s : State) (g : GeometryRecord) (ch : Nat) (c : ValueClass) (v : Int) :
    (s.trackClear g ch c v).triggers = s.triggers := by
  cases c with
  | limit => exact enterLimit_triggers _ _ _ _
  | none | invalid | alert => rfl

theorem closeRun_trackClear_triggers (s : State) (g : GeometryRecord) (ch : Nat) (cause : CloseCause) (c : ValueClass) (v : Int) :
    ((s.closeRun ch cause).trackClear g ch c v).triggers = s.triggers :=
  (trackClear_triggers _ _ _ _ _).trans (closeRun_triggers _ _ _)

theorem trackClass_triggers (s : State) (g : GeometryRecord) (ch : Nat) (c : ValueClass) (v : Int) :
    (s.trackClass g ch c v).triggers = s.triggers := by
  unfold State.trackClass
  split
  · exact trackClear_triggers _ _ _ _ _
  · split
    · exact closeRun_triggers _ _ _
    · exact closeRun_triggers _ _ _
    · split
      · exact closeRun_trackClear_triggers _ _ _ _ _ _
      · rfl
    · split
      · exact closeRun_trackClear_triggers _ _ _ _ _ _
      · exact enterLimit_triggers _ _ _ _
  · split
    · exact closeRun_triggers _ _ _
    · exact closeRun_triggers _ _ _
    all_goals
      split
      · exact closeRun_trackClear_triggers _ _ _ _ _ _
      · rfl

theorem profileCheck_triggers (s : State) (g : GeometryRecord) (ch : Nat) : (s.profileCheck g ch).triggers = s.triggers := by
  unfold State.profileCheck
  split
  · rfl
  · split
    · rfl
    · exact closeRun_triggers _ _ _

theorem trackChannel_triggers (s : State) (g : GeometryRecord) (ch : Nat) : (s.trackChannel g ch).triggers = s.triggers :=
  (trackClass_triggers _ _ _ _ _).trans (profileCheck_triggers _ _ _)

theorem consumeRoute_triggers (s : State) (c : Int) : (s.consumeRoute c).triggers = s.triggers := by
  unfold State.consumeRoute
  split
  · rfl
  · exact raise_triggers _ _

/-- A fold of steps that leave the triggers alone leaves them alone. -/
theorem fold_triggers {α : Type} {f : State → α → State} (hf : ∀ s a, (f s a).triggers = s.triggers) (l : List α) (s : State) :
    (l.foldl f s).triggers = s.triggers :=
  fold_keeps (P := fun u => u.triggers = s.triggers) (fun u a hu => (hf u a).trans hu) l rfl

theorem classifyRecord_triggers (s : State) (g : GeometryRecord) : (s.classifyRecord g).triggers = s.triggers :=
  (produce_triggers _ _ _).trans ((fold_triggers (fun u ch => trackChannel_triggers u _ ch) _ _).trans (consumeRoute_triggers _ _))

theorem emitCentre_triggers (s : State) (c : Int) : (s.emitCentre c).triggers = s.triggers := by
  unfold State.emitCentre
  dsimp only
  split
  · rfl
  · exact classifyRecord_triggers _ _

theorem emitCentres_triggers : ∀ (n : Nat) (s : State), (State.emitCentres n s).triggers = s.triggers
  | 0, _ => rfl
  | n + 1, s => by
    unfold State.emitCentres
    split
    · rfl
    · exact (emitCentres_triggers n _).trans (emitCentre_triggers _ _)

theorem endOfPoints_triggers (s : State) : s.endOfPoints.triggers = s.triggers :=
  (fold_triggers (fun u ch => closeRun_triggers u ch .runEnd) _ _).trans (emitCentres_triggers _ _)

/-! ### The transit unit and the trackers at the end of the records -/

/-- What the level of the geometry unit leaves alone, as a property kept: the transit unit. -/
theorem keeps_transit (x : Transit) : KeepsGeometry (fun s => s.transit = x) where
  raise s f h := by simpa using h
  produce s q c h := by simpa using h
  action _ _ _ _ _ h := h
  enqueue _ _ _ h := h
  dequeue _ _ _ _ h := h
  occupy _ _ _ _ h := h
  exceedance _ _ _ _ h := h
  route _ _ _ h := h
  tracker _ _ _ _ h := h
  geometry _ _ _ h := h

/-- What the level of the geometry unit leaves alone, as a property kept: the number of trackers. -/
theorem keeps_trackers_length (n : Nat) : KeepsGeometry (fun s => s.exceedance.trackers.length = n) where
  raise s f h := by simpa using h
  produce s q c h := by simpa using h
  action _ _ _ _ _ h := h
  enqueue _ _ _ h := h
  dequeue _ _ _ _ h := h
  occupy _ _ _ _ h := h
  exceedance s x ht _ h := by rw [← ht] at h; exact h
  route _ _ _ h := h
  tracker s ch t _ h := (List.length_set ..).trans h
  geometry _ _ _ h := h

theorem closeRun_trackers (s : State) (ch : Nat) (cause : CloseCause) :
    (s.closeRun ch cause).exceedance.trackers = s.exceedance.trackers.set ch .clear := by
  cases hr : (s.exceedance.tracker ch).run with
  | some r => exact (s.closeRun_tracker ch cause hr).1
  | none =>
    have hclear : s.exceedance.tracker ch = .clear := by
      cases ht : s.exceedance.tracker ch with
      | clear => rfl
      | alertRun r => rw [ht] at hr; cases hr
      | limitRun r => rw [ht] at hr; cases hr
    have hsame : s.closeRun ch cause = s := by
      unfold State.closeRun
      rw [hclear]
    rw [hsame]
    unfold ExceedanceUnit.tracker at hclear
    apply List.ext_getElem?
    intro n
    rw [List.getElem?_set]
    split
    · rename_i heq
      subst heq
      split
      · rename_i hlt
        rw [List.getD_eq_getElem?_getD, List.getElem?_eq_getElem hlt] at hclear
        rw [List.getElem?_eq_getElem hlt]
        exact congrArg some hclear
      · rename_i hge
        exact List.getElem?_eq_none (by omega)
    · rfl

/-- The end of the records leaves every tracker CLEAR (R157). -/
theorem endRecords_trackers {s : State} (h : s.exceedance.trackers.length = 8) : ∀ x ∈ s.endRecords.exceedance.trackers, x = .clear := by
  have hfold : ∀ (l : List Nat) (u : State),
      (l.foldl (fun s ch => s.closeRun ch .runEnd) u).exceedance.trackers = l.foldl (fun t ch => t.set ch .clear) u.exceedance.trackers := by
    intro l
    induction l with
    | nil => exact fun _ => rfl
    | cons ch rest ih => exact fun u => (ih _).trans (by rw [closeRun_trackers]; rfl)
  have htrackers : s.endRecords.exceedance.trackers = List.replicate 8 .clear := by
    refine (hfold (List.range 8) s).trans ?_
    generalize s.exceedance.trackers = l at h
    match l, h with
    | [_, _, _, _, _, _, _, _], _ => rfl
  rw [htrackers]
  exact fun x hx => List.eq_of_mem_replicate hx

theorem endOfPoints_trackers {s : State} (h : s.exceedance.trackers.length = 8) :
    ∀ x ∈ s.endOfPoints.exceedance.trackers, x = .clear := by
  have hlength : (State.emitCentres s.geometry.tailLength s).exceedance.trackers.length = 8 :=
    (keeps_trackers_length 8).emitCentres s.geometry.tailLength h
  unfold State.endOfPoints
  exact endRecords_trackers hlength

/-! ### STOP -/

/-- The part as STOP finds it at the drain completion: DRAINING, the periodic triggers off (R51). -/
def State.stopping (s : State) : State := { s with action := s.action.periodicOff }.changeRunState .draining

theorem commandStop_armed {s : State} (hr : s.control.runState = .armed) : s.commandStop = (s.changeRunState .stopped).done 2 := by
  unfold State.commandStop
  rw [hr]

theorem commandStop_running {s : State} (hr : s.control.runState = .running) : s.commandStop = s.stopping.completeDrain.done 2 := by
  unfold State.commandStop
  rw [hr]
  rfl

theorem stopping_assembler (s : State) : s.stopping.assembler = s.assembler := State.raise_assembler _ _

theorem stopping_runState (s : State) : s.stopping.control.runState = .draining := by simp [State.stopping]

/-- With a point pending, STOP leaves the drain to the points (R51, R52). -/
theorem completeDrain_pending {u : State} (h : u.assembler.queue ≠ []) : u.completeDrain = u := by
  unfold State.completeDrain
  exact if_neg fun hd => h hd.2

theorem completeDrain_empty {u : State} (hr : u.control.runState = .draining) (h : u.assembler.queue = []) :
    u.completeDrain = u.endOfPoints.changeRunState .stopped := by
  unfold State.completeDrain
  exact if_pos ⟨hr, h⟩

/-- Settles O37: STOP in ARMED, with a point pending, and with none, when the drain completes in the same event. -/
theorem stopEndsOrDrains : Obligations.StopEndsOrDrains := by
  unfold Obligations.StopEndsOrDrains
  intro s
  refine ⟨fun hr => ?_, fun hr hq => ?_, fun hr => ?_, fun hr hq hruns => ?_⟩
  · have ha : s.control.runState ≠ .unanchored := by simp [hr]
    obtain ⟨t, hexec, hcompletes, hslot, hframe⟩ :=
      exec_moves_run (n := 2) (w := 0) (u := s) ha rfl rfl (r := .stopped) (by decide) (commandStop_armed hr)
    have htap : t.tap = s.tap.afterRunState .stopped := congrArg State.tap hframe
    exact ⟨t, hexec, hcompletes, hframe.trans (by rw [htap]), hslot, timersStopped_of htap⟩
  · have ha : s.control.runState ≠ .unanchored := by simp [hr]
    have hcommand : s.commandStop = s.stopping.done 2 := by
      rw [commandStop_running hr, completeDrain_pending (by rw [stopping_assembler]; exact hq)]
    obtain ⟨t, hexec, hcompletes, hslot, hframe⟩ :=
      exec_moves_run (n := 2) (w := 0) (u := { s with action := s.action.periodicOff }) ha rfl rfl (r := .draining) (by decide) hcommand
    exact ⟨t, hexec, hcompletes, hframe, hslot⟩
  · have ha : s.control.runState ≠ .unanchored := by simp [hr]
    refine ⟨s.stopping, s.stopping.completeDrain, rfl, State.completeDrain_ends _, ?_⟩
    have hexec := exec_commandOf ha 2 0
    rw [show s.runCommand (2 : Fin 9).val 0 = s.commandStop from rfl, commandStop_running hr] at hexec
    exact hexec
  · have ha : s.control.runState ≠ .unanchored := by simp [hr]
    have hexec := exec_commandOf ha 2 0
    rw [show s.runCommand (2 : Fin 9).val 0 = s.commandStop from rfl, commandStop_running hr,
      completeDrain_empty (stopping_runState s) (by rw [stopping_assembler]; exact hq)] at hexec
    obtain ⟨hlength, _⟩ := hruns
    have hodometer := (keeps_odometer_tap s.stopping.odometer s.stopping.tap).endOfPoints ⟨rfl, rfl⟩
    have hassembler := (keeps_assembler s.stopping.assembler).endOfPoints rfl
    have htransit := (keeps_transit s.stopping.transit).endOfPoints rfl
    have htriggers := endOfPoints_triggers s.stopping
    have hstopping : s.stopping.exceedance.trackers.length = 8 := by
      rw [show s.stopping.exceedance = s.exceedance from State.raise_exceedance _ _]
      exact hlength
    have htrackers := endOfPoints_trackers hstopping
    generalize s.stopping.endOfPoints = m at hexec hodometer hassembler htransit htriggers htrackers
    have hmoved : (m.changeRunState .stopped).control.runState ≠ .unanchored := by simp
    have hrunState : (m.changeRunState .stopped).flagSet .runState = true :=
      State.raise_sets _ _ (show RunState.stopped ≠ .unanchored by decide)
    obtain ⟨hdone, hint, hqueued, hkeep⟩ := complete_ends 2 .done 0 hmoved
    obtain ⟨hframe, hcontrol, _⟩ := (m.changeRunState .stopped).complete_only 2 .done 0
    unfold ControlEventsOnly at hcontrol
    refine ⟨((m.changeRunState .stopped).complete 2 .done 0).settle, hexec, ?_⟩
    generalize ((m.changeRunState .stopped).complete 2 .done 0).settle = t at hdone hint hqueued hkeep hframe hcontrol
    obtain ⟨hodo, htap⟩ := hodometer
    have htap' : t.tap = s.tap.afterRunState .stopped := by
      rw [show t.tap = (m.changeRunState .stopped).tap from (congrArg State.tap hframe).trans rfl,
        show (m.changeRunState .stopped).tap = m.tap.afterRunState .stopped from State.raise_tap _ _, htap,
        show s.stopping.tap = s.tap from State.raise_tap _ _]
    have hact : t.triggers = s.stopping.triggers :=
      (triggers_eq_of_action ((congrArg State.action hframe).trans rfl)).trans ((raise_triggers _ _).trans htriggers)
    have hoff : t.triggers = (s.action.periodicOff.periodic0, s.action.periodicOff.periodic1) := hact.trans (raise_triggers _ _)
    refine ⟨?_, ?_, hdone, hkeep _ hrunState, hint, hqueued, timersStopped_of htap', ?_, ?_, ?_, ?_, fun g => ?_⟩
    · rw [hcontrol]
      exact m.changeRunState_runState .stopped
    · rw [hcontrol]
    · rw [show t.exceedance = m.exceedance from (congrArg State.exceedance hframe).trans (State.raise_exceedance _ _)]
      exact htrackers
    · exact (congrArg State.odometer hframe).trans ((State.raise_odometer _ _).trans (hodo.trans (State.raise_odometer _ _)))
    · exact (congrArg State.assembler hframe).trans ((State.raise_assembler _ _).trans (hassembler.trans (State.raise_assembler _ _)))
    · exact (congrArg State.transit hframe).trans ((State.raise_transit _ _).trans (htransit.trans (State.raise_transit _ _)))
    · match g with
      | 0 => exact congrArg (fun x => x.1.next) hoff
      | 1 => exact congrArg (fun x => x.2.next) hoff

end Sys2Proof.Machine
end

section
/-! SUPPORT. Capture writes that store beats, tear a frame, complete a bad frame or a MARKER frame (R74, R80–R86, R92), and those statements
settled. -/

namespace Sys2Proof.Machine

/-! ### A capture write at the port -/

/-- The part with its system head on the memory port. -/
def State.presenting (s : State) (r : Request) (rest : List Request) : State := { s with transit := s.transit.present r rest none }

theorem captureStream_succ (i : Fin 4) : captureStream (i.val + 1) = some i := by
  match i with
  | 0 | 1 | 2 | 3 => rfl

/-- A capture write that has the port is forwarded and tapped (R12, R80). -/
theorem exec_captureHead {s : State} {r : Request} {rest : List Request} {i : Fin 4} {off : Nat} {beats : List Beat}
    (h : CaptureHead s r rest i off beats) :
    exec .systemHeadPresented s = .next ((s.presenting r rest).tapWrite i off beats r.arrival).settle := by
  obtain ⟨_, _, hb, hstage, hwin, hk, hhit, rfl⟩ := h
  have hcontrol : r.isControl = false := by simp [Request.isControl, hk, hhit]
  have htap : (s.presenting r rest).tapForwarded r = (s.presenting r rest).tapWrite i off r.data r.arrival := by
    unfold State.tapForwarded
    rw [if_neg (by show ¬s.transit.base.isNone = true; simpa using hb), hhit]
    dsimp only
    rw [captureStream_succ]
  rw [exec_systemHeadPresented hstage hwin, presentHead_tapped hk hcontrol]
  exact congrArg (fun u => Host.Outcome.next (State.settle u)) htap

theorem headOnPort_of_transit {s t : State} {r : Request} {rest : List Request} (h : t.transit = (s.presenting r rest).transit) :
    HeadOnPort s t r rest none := headOnPort_of_present h

theorem raise_with_tap (u : State) (x : StreamTap) (f : EventFlag) :
    ({ u.raise f with tap := x } : State) = { u with tap := x }.raise f := by
  unfold State.raise
  dsimp only
  split <;> rfl

theorem setStream_raise (u : State) (i : Fin 4) (c : StreamContext) (f : EventFlag) :
    (u.raise f).setStream i c = (u.setStream i c).raise f := by
  unfold State.setStream
  rw [State.raise_tap, raise_with_tap]

theorem setStream_setStream (u : State) (i : Fin 4) (c d : StreamContext) : (u.setStream i c).setStream i d = u.setStream i d := by
  unfold State.setStream
  rw [StreamTap.setStream_setStream]

theorem stream_of_setStream (u : State) (i : Fin 4) (c : StreamContext) : (u.setStream i c).tap.stream i = c :=
  StreamTap.stream_setStream _ _ _

/-- A FRAME_ERROR in a stream whose context has just been set (R95). -/
theorem frameError_setStream (u : State) (i : Fin 4) (c : StreamContext) :
    (u.setStream i c).frameError i = (u.setStream i { c with errors := satAdd c.errors 1 }).raise .frameError := by
  unfold State.frameError
  rw [stream_of_setStream]
  dsimp only
  rw [setStream_setStream]

/-- A forwarded capture write whose taps end in one raise. -/
theorem raised_at_port {s u : State} {r : Request} {rest : List Request} (f : EventFlag) (ha : s.control.runState ≠ .unanchored)
    (ht : u.transit = (s.presenting r rest).transit) (hc : u.control = s.control) (hw : u.writeBack = s.writeBack) :
    let t := (u.raise f).settle
    HeadOnPort s t r rest none ∧ t = { u with transit := t.transit, control := t.control, writeBack := t.writeBack }
      ∧ WriteBackSlotOnly s t ∧ ControlEventsOnly s t ∧ Publishes s t [f] := by
  obtain ⟨hcontrol, hwrite, hpub, hframe⟩ := raise_settle s u f ha hc hw
  have htransit : (u.raise f).settle.transit = u.transit := (congrArg State.transit hframe).trans rfl
  exact ⟨headOnPort_of_transit (htransit.trans ht), by rw [htransit]; exact hframe, hwrite, hcontrol, hpub⟩

/-! ### Beats with no effect, beats of another slot -/

/-- Beats with a clear strobe, or of an IDLE stream, have no effect (R80). -/
theorem tapWrite_ignored (i : Fin 4) (arrival : Time) : ∀ (beats : List Beat) (off : Nat) (u : State),
    (∀ b ∈ beats, b.strobes ≠ BitVec.allOnes 8) ∨ (u.tap.stream i).state = .idle → u.tapWrite i off beats arrival = u := by
  have htaps : ∀ (beats : List Beat) (off : Nat) (u : State),
      (∀ b ∈ beats, b.strobes ≠ BitVec.allOnes 8) ∨ (u.tap.stream i).state = .idle → BeatsTapped i arrival off beats u u := by
    intro beats
    induction beats with
    | nil => exact fun _ _ _ => rfl
    | cons b rest ih =>
      intro off u h
      unfold BeatsTapped
      rw [u.tapBeat_ignored i arrival off b (h.imp (fun hb => hb b List.mem_cons_self) id)]
      exact ih _ _ (h.imp (fun hb x hx => hb x (List.mem_cons_of_mem _ hx)) id)
  exact fun beats off u h => (htaps beats off u h).eq.symm

/-- A context whose assembly starts anew at a slot, the error counted (R82, R83). -/
def StreamContext.restarted (c : StreamContext) (slot : Nat) : StreamContext :=
  { c with buffer := emptyBuffer, expectedSlot := slot, errors := satAdd c.errors 1 }

/-- The state after the tear or the resynchronisation that a beat of another slot makes (R82, R83). -/
theorem alignSlot_other {u : State} {i : Fin 4} {slot : Nat} (h : slot ≠ (u.tap.stream i).expectedSlot) :
    u.alignSlot i slot = (u.setStream i ((u.tap.stream i).restarted slot)).raise .frameError := by
  unfold State.alignSlot
  exact (if_neg h).trans (frameError_setStream _ _ _)

/-- The first whole beat of another slot aligns the context; the burst then meets its expected slot (R82, R83). -/
theorem tapWrite_aligned {u : State} {i : Fin 4} {arrival : Time} {off : Nat} {b : Beat} {rest : List Beat}
    (hb : b.strobes = BitVec.allOnes 8) (hi : (u.tap.stream i).state ≠ .idle) :
    u.tapWrite i off (b :: rest) arrival = (u.alignSlot i (off / 64)).tapWrite i off (b :: rest) arrival := by
  by_cases hslot : off / 64 = (u.tap.stream i).expectedSlot
  · rw [show u.alignSlot i (off / 64) = u from if_pos hslot]
  · have htap : (u.alignSlot i (off / 64)).tap.stream i = (u.tap.stream i).restarted (off / 64) := by
      rw [alignSlot_other hslot, State.raise_tap, stream_of_setStream]
    have hfirst : u.tapBeat i arrival off b = (u.alignSlot i (off / 64)).tapBeat i arrival off b := by
      rw [State.tapBeat_expected (u.alignSlot i (off / 64)) i arrival off b hb (by rw [htap]; exact hi) (by rw [htap]; rfl)]
      unfold State.tapBeat
      exact if_pos ⟨hb, hi⟩
    refine (BeatsTapped.eq (s := u) ?_).symm
    unfold BeatsTapped
    rw [hfirst]
    exact State.tapWrite_taps i arrival (b :: rest) off (u.alignSlot i (off / 64))

/-- Settles O19: the beats of a capture write are tapped in turn, stored, or start assembly at their slot. -/
theorem captureBeatTapped : Obligations.CaptureBeatTapped := by
  unfold Obligations.CaptureBeatTapped
  rintro r rest i off beats _ s hcap rfl
  have hexec := exec_captureHead hcap
  obtain ⟨hset, ha, _⟩ := hcap
  refine ⟨⟨s.presenting r rest, _, headOnPort_of_transit rfl, rfl, State.tapWrite_taps i r.arrival beats off _, hexec⟩,
    fun hnone => ?_, fun ⟨_, hwhole, hfit⟩ hi hslot hk => ?_, fun ⟨hne, hwhole, hfit⟩ hi hslot hlen => ?_⟩
  · rw [tapWrite_ignored i r.arrival beats off (s.presenting r rest) hnone, settle_of_settled (by exact hset)] at hexec
    exact ⟨_, hexec, headOnPort_of_transit rfl, rfl⟩
  · rw [State.tapWrite_partial i r.arrival beats off (s.presenting r rest) hwhole hfit hi hslot hk,
      settle_of_settled (by exact hset)] at hexec
    exact ⟨_, hexec, headOnPort_of_transit rfl, rfl⟩
  · obtain ⟨b, more, rfl⟩ := List.exists_cons_of_ne_nil hne
    have hroom : ∃ k, (k < off % 64 / 8 ∨ off % 64 / 8 + (b :: more).length ≤ k) ∧ emptyBuffer[k]? = some none := by
      by_cases h0 : 0 < off % 64 / 8
      · exact ⟨0, Or.inl h0, rfl⟩
      · exact ⟨7, Or.inr (by omega), rfl⟩
    have hstream : ((s.presenting r rest).alignSlot i (off / 64)).tap.stream i = (s.tap.stream i).restarted (off / 64) := by
      rw [alignSlot_other (u := s.presenting r rest) hslot, State.raise_tap, stream_of_setStream]
      rfl
    have hstored : (s.presenting r rest).tapWrite i off (b :: more) r.arrival
        = ((s.presenting r rest).setStream i
            { (s.tap.stream i).restarted (off / 64) with buffer := withBeats emptyBuffer (off % 64 / 8) (b :: more) }).raise
              .frameError := by
      rw [tapWrite_aligned (u := s.presenting r rest) (hwhole b List.mem_cons_self) hi,
        State.tapWrite_partial i r.arrival (b :: more) off _ hwhole hfit (by rw [hstream]; exact hi) (by rw [hstream]; rfl)
          (by rw [hstream]; exact hroom), hstream, alignSlot_other (u := s.presenting r rest) hslot, setStream_raise, setStream_setStream]
      rfl
    rw [hstored] at hexec
    exact ⟨_, hexec, raised_at_port .frameError ha rfl rfl rfl⟩

/-! ### A completed frame -/

theorem frameKind_of_bad {words : List Word64} (h1 : kindByte words ≠ 0x01) (h2 : kindByte words ≠ 0x02) : frameKind words = .bad :=
  (if_neg h1).trans (if_neg h2)

theorem frameKind_of_sensor {words : List Word64} (h : kindByte words = 0x01) : frameKind words = .sensor := if_pos h

theorem frameKind_of_marker {words : List Word64} (h : kindByte words = 0x02) : frameKind words = .marker := by
  have hne : kindByte words ≠ 0x01 := by
    rw [h]
    decide
  exact (if_neg hne).trans (if_pos h)

/-- Settles O20: a frame with a bad kind or a used slot count above 14 is discarded, counted as an error. -/
theorem badFrameDiscarded : Obligations.BadFrameDiscarded := by
  unfold Obligations.BadFrameDiscarded
  rintro r rest i off beats _ words s hcap rfl hcomplete hbad
  have hexec := exec_captureHead hcap
  obtain ⟨_, ha, _⟩ := hcap
  have hfails : headerFails words = true := by
    unfold headerFails
    rcases hbad with ⟨h1, h2⟩ | ⟨hkind, hused⟩
    · rw [frameKind_of_bad h1 h2]
    · rw [frameKind_of_sensor hkind]
      exact decide_eq_true hused
  have hstored : (s.presenting r rest).tapWrite i off beats r.arrival
      = ((s.presenting r rest).setStream i
          { (s.tap.stream i).emptied with errors := satAdd (s.tap.stream i).errors 1 }).raise .frameError := by
    rw [State.tapWrite_complete i r.arrival beats off words (s.presenting r rest) hcomplete]
    unfold State.checkFrame
    rw [if_pos hfails]
    exact frameError_setStream _ _ _
  rw [hstored] at hexec
  exact ⟨_, hexec, raised_at_port .frameError ha rfl rfl rfl⟩

/-! ### MARKER frames (R74, R92) -/

/-- The sequence check of a frame with no gap only keeps the sequence (R86). -/
theorem checkSequence_inSequence {u : State} {i : Fin 4} {seq : BitVec 16}
    (h : ∀ last, (u.tap.stream i).lastSequence = some last → seq = last + 1) :
    u.checkSequence i seq = u.setStream i { u.tap.stream i with lastSequence := some seq } := by
  unfold State.checkSequence
  cases hl : (u.tap.stream i).lastSequence with
  | none => simp only [hl]
  | some last =>
    simp only [hl]
    exact if_pos (h last hl)

/-- What the pairing of a MARKER frame does to the odometer, and the flag that it raises (R74). -/
structure Paired (o o' : Odometer) (id : BitVec 32) (surveyed : Int) (f : EventFlag) : Prop where
  unlatched : o.latches = [] →
    o' = { o with lastMarker := { id := id, error := 0, outcome := .rejected } } ∧ f = .markerReject
  taken : ∀ l rest e, o.latches = l :: rest → e = surveyed - (o.q + o.dir.sign * (l.d / 256)) → e.natAbs ≤ o.acceptWindow →
    o' =
        { o with
          latches := rest, q := o.q + e, chainageStep := o.chainageStep || decide (e ≠ 0)
          lastMarker := { id := id, error := e, outcome := .taken } }
      ∧ f = .markerTaken
  rejected : ∀ l rest e, o.latches = l :: rest → e = surveyed - (o.q + o.dir.sign * (l.d / 256)) → o.acceptWindow < e.natAbs →
    o' = { o with latches := rest, lastMarker := { id := id, error := e, outcome := .rejected } } ∧ f = .markerReject

theorem pairMarker_paired (u : State) (id : BitVec 32) (surveyed : Int) :
    ∃ o' f, u.pairMarker id surveyed = ({ u with odometer := o' }).raise f ∧ Paired u.odometer o' id surveyed f := by
  unfold State.pairMarker
  cases hl : u.odometer.latches with
  | nil => exact ⟨_, .markerReject, rfl, ⟨fun _ => ⟨rfl, rfl⟩, by simp [hl], by simp [hl]⟩⟩
  | cons l rest =>
    dsimp only
    by_cases he : (surveyed - u.odometer.chainageOf (mmOf l.d)).natAbs ≤ u.odometer.acceptWindow
    · rw [if_pos he]
      refine ⟨_, .markerTaken, rfl, ⟨by simp [hl], fun l' rest' e h heq _ => ?_, fun l' rest' e h heq hlt => ?_⟩⟩
      · cases hl.symm.trans h
        subst heq
        exact ⟨rfl, rfl⟩
      · cases hl.symm.trans h
        subst heq
        exact absurd he (Nat.not_le.mpr hlt)
    · rw [if_neg he]
      refine ⟨_, .markerReject, rfl, ⟨by simp [hl], fun l' rest' e h heq hle => ?_, fun l' rest' e h heq _ => ?_⟩⟩
      · cases hl.symm.trans h
        subst heq
        exact absurd hle he
      · cases hl.symm.trans h
        subst heq
        exact ⟨rfl, rfl⟩

/-- The part with a completed frame out of its buffer and its sequence kept (R84, R86). -/
def State.frameLeft (s : State) (r : Request) (rest : List Request) (i : Fin 4) (seq : BitVec 16) : State :=
  (s.presenting r rest).setStream i { (s.tap.stream i).emptied with lastSequence := some seq }

/-- Settles O22: a MARKER frame in sequence pairs with the oldest latch. -/
theorem markerFramePaired : Obligations.MarkerFramePaired := by
  unfold Obligations.MarkerFramePaired
  rintro r rest i off beats _ words s hcap rfl hcomplete hidle hkind hseq
  have hexec := exec_captureHead hcap
  obtain ⟨_, ha, _⟩ := hcap
  have hcounting : Counting s := by
    unfold Counting
    cases h : s.control.runState <;> simp_all
  have hpaired : (s.presenting r rest).tapWrite i off beats r.arrival
      = (s.frameLeft r rest i ((words.getD 0 0).extractLsb' 16 16)).pairMarker ((words.getD 1 0).extractLsb' 0 32)
          ((words.getD 2 0).toInt) := by
    rw [State.tapWrite_complete i r.arrival beats off words (s.presenting r rest) hcomplete]
    have hfails : headerFails words = false := by
      unfold headerFails
      rw [frameKind_of_marker hkind]
    have hchecked : ((s.presenting r rest).setStream i (s.tap.stream i).emptied).checkSequence i (frameSequence words)
        = s.frameLeft r rest i ((words.getD 0 0).extractLsb' 16 16) := by
      rw [checkSequence_inSequence (by rw [stream_of_setStream]; exact hseq), stream_of_setStream, setStream_setStream]
      rfl
    unfold State.checkFrame
    rw [if_neg (by simp [hfails]), frameKind_of_marker hkind]
    dsimp only
    rw [show ((s.presenting r rest).tap.stream i) = s.tap.stream i from rfl, hchecked]
    exact State.whileCounting_of (s := s.frameLeft r rest i ((words.getD 0 0).extractLsb' 16 16)) hcounting _
  obtain ⟨o', f, hraise, hunlatched, htaken, hrejected⟩ :=
    pairMarker_paired (s.frameLeft r rest i ((words.getD 0 0).extractLsb' 16 16)) ((words.getD 1 0).extractLsb' 0 32)
      ((words.getD 2 0).toInt)
  rw [hpaired, hraise] at hexec
  obtain ⟨hport, hframe, hwrite, hcontrol, hpub⟩ := raised_at_port (s := s)
    (u := { s.frameLeft r rest i ((words.getD 0 0).extractLsb' 16 16) with odometer := o' }) (r := r) (rest := rest) f ha rfl rfl rfl
  generalize (({ s.frameLeft r rest i ((words.getD 0 0).extractLsb' 16 16) with odometer := o' } : State).raise f).settle = t
    at hexec hport hframe hwrite hcontrol hpub
  have hodometer : t.odometer = o' := congrArg State.odometer hframe
  refine ⟨t, hexec, hport, by rw [hodometer]; exact hframe, hwrite, hcontrol, fun hnil => ?_, fun l latches e hl he =>
    ⟨fun hle => ?_, fun hlt => ?_⟩⟩
  · obtain ⟨rfl, rfl⟩ := hunlatched hnil
    exact ⟨hodometer, hpub⟩
  · obtain ⟨rfl, rfl⟩ := htaken l latches e hl he hle
    exact ⟨hodometer, hpub⟩
  · obtain ⟨rfl, rfl⟩ := hrejected l latches e hl he hlt
    exact ⟨hodometer, hpub⟩

end Sys2Proof.Machine
end

section
/-! SUPPORT. SENSOR frames (R86–R94, R105–R110): the sequence check, the take, what the closing of an event leaves alone, and that
statement settled. -/

namespace Sys2Proof.Machine

/-! ### Raises and the other blocks -/

theorem raises_with_tap (x : StreamTap) : ∀ (l : List EventFlag) (u : State),
    ({ u.raises l with tap := x } : State) = { u with tap := x }.raises l
  | [], _ => rfl
  | f :: rest, u => (raises_with_tap x rest (u.raise f)).trans (by rw [raise_with_tap]; rfl)

theorem raise_with_assembler (u : State) (x : Assembler) (f : EventFlag) :
    ({ u.raise f with assembler := x } : State) = { u with assembler := x }.raise f := by
  unfold State.raise
  dsimp only
  split <;> rfl

theorem raises_with_assembler (x : Assembler) : ∀ (l : List EventFlag) (u : State),
    ({ u.raises l with assembler := x } : State) = { u with assembler := x }.raises l
  | [], _ => rfl
  | f :: rest, u => (raises_with_assembler x rest (u.raise f)).trans (by rw [raise_with_assembler]; rfl)

theorem setStream_raises (u : State) (i : Fin 4) (c : StreamContext) (l : List EventFlag) :
    (u.raises l).setStream i c = (u.setStream i c).raises l := by
  unfold State.setStream
  rw [State.raises_tap, raises_with_tap]

theorem stream_framesLost (t : StreamTap) (n : BitVec 32) (i : Fin 4) : ({ t with framesLost := n } : StreamTap).stream i = t.stream i := by
  match i with
  | 0 | 1 | 2 | 3 => rfl

theorem setStream_framesLost (t : StreamTap) (n : BitVec 32) (i : Fin 4) (c : StreamContext) :
    ({ t with framesLost := n } : StreamTap).setStream i c = { t.setStream i c with framesLost := n } := by
  match i with
  | 0 | 1 | 2 | 3 => rfl

theorem framesLost_setStream (t : StreamTap) (i : Fin 4) (c : StreamContext) : (t.setStream i c).framesLost = t.framesLost := by
  match i with
  | 0 | 1 | 2 | 3 => rfl

/-! ### The sequence check (R86) -/

/-- The stream contexts after the sequence check of a completed frame. -/
def StreamTap.sequenced (t : StreamTap) (i : Fin 4) (c : StreamContext) (seq : BitVec 16) (lost : BitVec 32) : StreamTap :=
  { t.setStream i { c.emptied with lastSequence := some seq } with framesLost := lost }

/-- The part after the sequence check of a completed frame, but for the flag of a gap. -/
def State.sequenced (s : State) (r : Request) (rest : List Request) (i : Fin 4) (seq : BitVec 16) (lost : BitVec 32) : State :=
  { s.presenting r rest with tap := s.tap.sequenced i (s.tap.stream i) seq lost }

theorem satAdd_of_toNat {x y : BitVec 32} {n : Nat} (h : y.toNat = min 0xFFFFFFFF (x.toNat + n)) : satAdd x n = y := by
  unfold satAdd
  apply BitVec.eq_of_toNat_eq
  rw [h]
  split
  · rename_i hlt
    rw [BitVec.toNat_add, BitVec.toNat_ofNat]
    omega
  · rename_i hge
    have : (BitVec.allOnes 32).toNat = 0xFFFFFFFF := rfl
    omega

theorem checkSequence_checked {s : State} {r : Request} {rest : List Request} {i : Fin 4} {seq : BitVec 16} {lost : BitVec 32}
    {loss : List EventFlag} (h : SequenceChecked s (s.tap.stream i) seq lost loss) :
    ((s.presenting r rest).setStream i (s.tap.stream i).emptied).checkSequence i seq = (s.sequenced r rest i seq lost).raises loss := by
  rcases h with ⟨hseq, rfl, rfl⟩ | ⟨last, hlast, hgap, rfl, hlost⟩
  · have hfree : s.tap.sequenced i (s.tap.stream i) seq s.tap.framesLost
        = s.tap.setStream i { (s.tap.stream i).emptied with lastSequence := some seq } := by
      unfold StreamTap.sequenced
      rw [← framesLost_setStream s.tap i { (s.tap.stream i).emptied with lastSequence := some seq }]
    rw [checkSequence_inSequence (by rw [stream_of_setStream]; exact hseq), stream_of_setStream, setStream_setStream]
    unfold State.sequenced
    rw [hfree]
    rfl
  · unfold State.checkSequence
    rw [stream_of_setStream]
    dsimp only
    rw [show (s.tap.stream i).emptied.lastSequence = some last from hlast]
    dsimp only
    rw [if_neg hgap, setStream_setStream]
    have hsat : satAdd (s.tap.setStream i { (s.tap.stream i).emptied with lastSequence := some seq }).framesLost (missingCount last seq)
        = lost := by
      rw [framesLost_setStream]
      exact satAdd_of_toNat hlost
    rw [← hsat]
    rfl

/-! ### The checks and the take of a SENSOR frame (R87–R94) -/

theorem outOfOrder_iff {c : StreamContext} {t : Time} : c.outOfOrder t = true ↔ ¬FrameInOrder c t := by
  unfold StreamContext.outOfOrder FrameInOrder timeAtOrAbove
  cases c.lastFrame <;> simp

theorem measuring_iff {r : RunState} : r.measuring = true ↔ r.Measures := by
  unfold RunState.Measures
  cases r <;> decide

theorem contributes_iff {a : Assembler} {i : Fin 4} : a.contributes i = true ↔ ∃ x ∈ a.contributing, x.stream = i := by
  unfold Assembler.contributes
  simp

/-- The silence timer of a stream after a taken SENSOR frame (R94). -/
def StreamContext.timerAfter (c : StreamContext) (run : RunState) (arrival : Time) : Option Time :=
  if run.measuring = true ∧ c.silenceLimit ≠ 0 then some (arrival + BitVec.ofNat 48 c.silenceLimit) else c.timer

theorem timerAfter_timerAfter (run : RunState) (c : StreamContext) (arrival : Time) :
    TimerAfter run c arrival (c.timerAfter run arrival) := by
  unfold TimerAfter StreamContext.timerAfter
  rw [← measuring_iff]
  refine ⟨fun hm hl => if_pos ⟨hm, hl⟩, fun h => if_neg ?_⟩
  rintro ⟨hm, hl⟩
  rcases h with h | h
  · exact h hm
  · exact hl h

/-- The context of a stream that has taken a SENSOR frame. -/
def StreamContext.kept (c : StreamContext) (run : RunState) (arrival : Time) (f : Frame) : StreamContext :=
  { c with lastFrame := some f, state := .live, timer := c.timerAfter run arrival }

/-- The flag of a stream that comes back (R93). -/
def StreamState.backFlags (x : StreamState) : List EventFlag := if x = .stale then [.streamBack] else []

/-- What a taken SENSOR frame does after it was handed on, where it was (R91, R93, R94). -/
theorem takeSensor_handed {v w : State} {i : Fin 4} {arrival : Time} {f : Frame}
    (hw : (if v.control.runState.measuring && v.assembler.contributes i then v.handFrame i f else v) = w)
    (hi : (w.tap.stream i).state ≠ .idle) :
    v.takeSensor i arrival f =
      (w.setStream i ((w.tap.stream i).kept w.control.runState arrival f)).raises (w.tap.stream i).state.backFlags := by
  unfold State.takeSensor
  rw [hw]
  dsimp only
  rw [State.raiseIf_raises]
  have htaken : (w.tap.stream i).state.taken = .live := by
    cases h : (w.tap.stream i).state with
    | idle => exact absurd h hi
    | silent | live | stale => rfl
  have htimed : (if w.control.runState.measuring = true then
        StreamContext.runTimer { w.tap.stream i with lastFrame := some f, state := (w.tap.stream i).state.taken } arrival
      else { w.tap.stream i with lastFrame := some f, state := (w.tap.stream i).state.taken })
      = (w.tap.stream i).kept w.control.runState arrival f := by
    rw [htaken]
    unfold StreamContext.runTimer StreamContext.kept StreamContext.timerAfter
    by_cases hm : w.control.runState.measuring = true
    · by_cases hl : (w.tap.stream i).silenceLimit = 0
      · simp [hm, hl]
      · simp [hm, hl, timeAfter]
    · simp [hm]
  rw [htimed]
  unfold StreamState.backFlags
  congr 1
  by_cases hs : (w.tap.stream i).state = .stale <;> simp [hs]

/-! ### The closing of an event (R110, R114) -/

/-- What the closing of an event and a drain that it completes do to the blocks about the points. -/
theorem close_frame (u : State) :
    u.close.odometer = u.odometer ∧ u.close.tap.framesLost = u.tap.framesLost
      ∧ ClosingOf u.assembler.queue u.assembler u.close.assembler
      ∧ ((u.close.control.runState = u.control.runState ∧ u.close.tap = u.tap)
        ∨ (u.control.runState = .draining ∧ u.close.assembler.queue = [] ∧ u.close.control.runState = .stopped
          ∧ u.close.tap = u.tap.afterRunState .stopped)) := by
  obtain ⟨hodometer, htap, hrun, _⟩ := State.closePoints_same u.assembler.queue.length u
  have hclosing := State.closePoints_closing u.assembler.queue.length u (Nat.le_refl _)
  unfold State.close
  generalize State.closePoints u.assembler.queue.length u = m at *
  by_cases hd : m.control.runState = .draining ∧ m.assembler.queue = []
  · obtain ⟨hdraining, hempty⟩ := hd
    rw [completeDrain_empty hdraining hempty]
    obtain ⟨hodo, htaps⟩ := (keeps_odometer_tap m.odometer m.tap).endOfPoints ⟨rfl, rfl⟩
    have hassembler := (keeps_assembler m.assembler).endOfPoints rfl
    generalize m.endOfPoints = n at *
    have hstopped : (n.changeRunState .stopped).tap = u.tap.afterRunState .stopped := by
      rw [show (n.changeRunState .stopped).tap = n.tap.afterRunState .stopped from State.raise_tap _ _, htaps, htap]
    have hkept : (n.changeRunState .stopped).assembler = m.assembler := (State.raise_assembler _ _).trans hassembler
    refine ⟨(State.raise_odometer _ _).trans (hodo.trans hodometer), by rw [hstopped]; rfl, by rw [hkept]; exact hclosing,
      Or.inr ⟨hrun.symm.trans hdraining, by rw [hkept]; exact hempty, n.changeRunState_runState .stopped, hstopped⟩⟩
  · rw [show m.completeDrain = m from if_neg hd]
    exact ⟨hodometer, by rw [htap], hclosing, Or.inl ⟨hrun, htap⟩⟩

/-- The closing of an event leaves each stream context but its timer. -/
theorem close_stream (u : State) (i : Fin 4) :
    u.close.tap.stream i = { u.tap.stream i with timer := (u.close.tap.stream i).timer } := by
  obtain ⟨_, _, _, ⟨_, htap⟩ | ⟨_, _, _, htap⟩⟩ := close_frame u
  · rw [htap]
  · rw [htap]
    unfold StreamTap.afterRunState
    rw [if_pos rfl, StreamTap.stream_mapStreams]

/-! ### A SENSOR frame at the port -/

/-- A forwarded capture write whose taps only raise flags at their end. -/
theorem flagged_at_port {s u : State} {r : Request} {rest : List Request} (flags : List EventFlag) (hs : Settled s)
    (ha : s.control.runState ≠ .unanchored) (ht : u.transit = (s.presenting r rest).transit) (hc : u.control = s.control)
    (hw : u.writeBack = s.writeBack) :
    let t := (u.raises flags).settle
    HeadOnPort s t r rest none ∧ t = { u with transit := t.transit, control := t.control, writeBack := t.writeBack }
      ∧ Flagged s t flags := by
  obtain ⟨hflagged, hframe⟩ := flagged_raises flags hs ha hc hw
  have htransit : (u.raises flags).settle.transit = u.transit := (congrArg State.transit hframe).trans rfl
  exact ⟨headOnPort_of_transit (htransit.trans ht), by rw [htransit]; exact hframe, hflagged⟩

/-- A forwarded capture write that changes the stream tap and raises flags. -/
theorem tapped_at_port {s : State} {r : Request} {rest : List Request} (x : StreamTap) (flags : List EventFlag) (hs : Settled s)
    (ha : s.control.runState ≠ .unanchored) :
    let t := (State.raises { s.presenting r rest with tap := x } flags).settle
    HeadOnPort s t r rest none
      ∧ t = { s with transit := t.transit, control := t.control, writeBack := t.writeBack, tap := x } ∧ Flagged s t flags :=
  flagged_at_port (u := { s.presenting r rest with tap := x }) flags hs ha rfl rfl rfl

/-- The context of a stream after the sequence check of its completed frame. -/
def StreamContext.sequenced (c : StreamContext) (seq : BitVec 16) : StreamContext := { c.emptied with lastSequence := some seq }

theorem sequenced_stream (s : State) (r : Request) (rest : List Request) (i : Fin 4) (seq : BitVec 16) (lost : BitVec 32)
    (loss : List EventFlag) :
    ((s.sequenced r rest i seq lost).raises loss).tap.stream i = (s.tap.stream i).sequenced seq := by
  rw [State.raises_tap]
  exact (stream_framesLost _ _ _).trans (StreamTap.stream_setStream _ _ _)

/-- The part after the sequence check, the context of the frame's stream replaced. -/
theorem sequenced_setStream (s : State) (r : Request) (rest : List Request) (i : Fin 4) (seq : BitVec 16) (lost : BitVec 32)
    (d : StreamContext) :
    (s.sequenced r rest i seq lost).setStream i d
      = { s.presenting r rest with tap := { s.tap.setStream i d with framesLost := lost } } := by
  unfold State.setStream State.sequenced StreamTap.sequenced
  dsimp only
  rw [setStream_framesLost, StreamTap.setStream_setStream]

/-- A completed SENSOR frame with a good header goes through its sequence check to the order and short checks (R84–R88). -/
theorem tapWrite_sensor {s : State} {r : Request} {rest : List Request} {i : Fin 4} {off : Nat} {beats : List Beat}
    {words : List Word64} {seq : BitVec 16} {lost : BitVec 32} {loss : List EventFlag}
    (hcomplete : FrameComplete (s.tap.stream i) off beats words) (hkind : kindByte words = 0x01)
    (hused : ((words.getD 0 0).extractLsb' 32 8).toNat ≤ 14) (hseq : seq = (words.getD 0 0).extractLsb' 16 16)
    (hchecked : SequenceChecked s (s.tap.stream i) seq lost loss) :
    (s.presenting r rest).tapWrite i off beats r.arrival
      = ((s.sequenced r rest i seq lost).raises loss).checkSensor i r.arrival words := by
  have hfails : headerFails words = false := by
    unfold headerFails
    rw [frameKind_of_sensor hkind]
    exact decide_eq_false (Nat.not_lt.mpr hused)
  rw [State.tapWrite_complete i r.arrival beats off words (s.presenting r rest) hcomplete]
  unfold State.checkFrame
  rw [if_neg (by simp [hfails]), frameKind_of_sensor hkind, ← checkSequence_checked hchecked, hseq]
  rfl

/-- A frame that fails a check after the sequence check is discarded (R87, R88). -/
theorem sequenced_frameError (s : State) (r : Request) (rest : List Request) (i : Fin 4) (seq : BitVec 16) (lost : BitVec 32)
    (loss : List EventFlag) :
    ((s.sequenced r rest i seq lost).raises loss).frameError i
      = State.raises
          { s.presenting r rest with
            tap :=
              { s.tap.setStream i { (s.tap.stream i).sequenced seq with errors := satAdd (s.tap.stream i).errors 1 } with
                framesLost := lost } }
          (loss ++ [.frameError]) := by
  unfold State.frameError
  dsimp only
  rw [sequenced_stream, setStream_raises, sequenced_setStream, ← State.raises_append]
  rfl

/-- The part in which every pending point has taken a frame, before the closing (R105, R107). -/
def State.handing (u : State) (i : Fin 4) (f : Frame) : State :=
  { u with assembler := { u.assembler with queue := u.assembler.queue.map (PendingPoint.took i f) } }

theorem handFrame_eq (u : State) (i : Fin 4) (f : Frame) : u.handFrame i f = (u.handing i f).close := by
  unfold State.handFrame State.updatePoints State.handing
  rw [show PendingPoint.takeFrame i f = PendingPoint.took i f from funext (PendingPoint.takeFrame_eq i f)]

theorem handing_raises (u : State) (i : Fin 4) (f : Frame) (l : List EventFlag) : (u.raises l).handing i f = (u.handing i f).raises l := by
  unfold State.handing
  rw [State.raises_assembler, raises_with_assembler]

section

variable {s : State} {r : Request} {rest : List Request} {i : Fin 4} {seq : BitVec 16} {lost : BitVec 32} {loss : List EventFlag}
  {words : List Word64} {f : Frame}

/-- A frame out of order or too short is discarded with FRAME_ERROR (R87, R88). -/
theorem checkSensor_discarded
    (hbad : ¬FrameInOrder (s.tap.stream i) (r.arrival - BitVec.ofNat 48 (s.tap.stream i).latency)
      ∨ ((words.getD 0 0).extractLsb' 32 8).toNat < slotsNeeded (s.tap.stream i).slotMap) :
    ((s.sequenced r rest i seq lost).raises loss).checkSensor i r.arrival words
      = ((s.sequenced r rest i seq lost).raises loss).frameError i := by
  unfold State.checkSensor
  rw [sequenced_stream]
  dsimp only
  by_cases horder : FrameInOrder ((s.tap.stream i).sequenced seq) (((s.tap.stream i).sequenced seq).frameTime r.arrival)
  · have hshort := hbad.resolve_left (not_not_intro horder)
    rw [if_neg (fun h => outOfOrder_iff.mp h horder)]
    exact if_pos hshort
  · exact if_pos (outOfOrder_iff.mpr horder)

/-- A frame in order and long enough is taken (R89, R91). -/
theorem checkSensor_taken (hf : f.time = r.arrival - BitVec.ofNat 48 (s.tap.stream i).latency)
    (hhealthy : f.healthy = decide ((words.getD 0 0).extractLsb' 8 8 = 0))
    (hvalues : f.values = frameValues (s.tap.stream i).slotMap words) (horder : FrameInOrder (s.tap.stream i) f.time)
    (hlong : slotsNeeded (s.tap.stream i).slotMap ≤ ((words.getD 0 0).extractLsb' 32 8).toNat) :
    ((s.sequenced r rest i seq lost).raises loss).checkSensor i r.arrival words
      = ((s.sequenced r rest i seq lost).raises loss).takeSensor i r.arrival f := by
  have hframe : f = { time := ((s.tap.stream i).sequenced seq).frameTime r.arrival, healthy := frameHealthy words
                      values := frameValues (s.tap.stream i).slotMap words } := by
    cases f
    cases hf
    cases hhealthy
    cases hvalues
    rfl
  have hinOrder : FrameInOrder ((s.tap.stream i).sequenced seq) (((s.tap.stream i).sequenced seq).frameTime r.arrival) := by
    rw [hf] at horder
    exact horder
  unfold State.checkSensor
  rw [sequenced_stream]
  dsimp only
  rw [if_neg (fun h => outOfOrder_iff.mp h hinOrder),
    if_neg (show ¬frameUsed words < slotsNeeded ((s.tap.stream i).sequenced seq).slotMap from Nat.not_lt.mpr hlong),
    hframe]
  rfl

/-- The take of a frame that is not handed on (R91). -/
theorem takeSensor_quiet (hi : (s.tap.stream i).state ≠ .idle)
    (hquiet : ¬(s.control.runState.Measures ∧ ∃ x ∈ s.assembler.contributing, x.stream = i)) :
    ((s.sequenced r rest i seq lost).raises loss).takeSensor i r.arrival f
      = State.raises
          { s.presenting r rest with
            tap :=
              { s.tap.setStream i (((s.tap.stream i).sequenced seq).kept s.control.runState r.arrival f) with framesLost := lost } }
          (loss ++ (s.tap.stream i).state.backFlags) := by
  have hrun : ((s.sequenced r rest i seq lost).raises loss).control.runState = s.control.runState := State.raises_control_runState _ _
  have hassembler : ((s.sequenced r rest i seq lost).raises loss).assembler = s.assembler := State.raises_assembler _ _
  have hnot : ¬(((s.sequenced r rest i seq lost).raises loss).control.runState.measuring
      && ((s.sequenced r rest i seq lost).raises loss).assembler.contributes i) = true := by
    rw [hrun, hassembler, Bool.and_eq_true, measuring_iff, contributes_iff]
    exact hquiet
  rw [takeSensor_handed (if_neg hnot) (by rw [sequenced_stream]; exact hi), sequenced_stream, hrun, setStream_raises,
    sequenced_setStream, State.raises_append]
  rfl

/-- The part with a frame handed to every pending point, before the closing. -/
def State.frameHanded (s : State) (r : Request) (rest : List Request) (i : Fin 4) (seq : BitVec 16) (lost : BitVec 32)
    (loss : List EventFlag) (f : Frame) : State :=
  ((s.sequenced r rest i seq lost).handing i f).raises loss

theorem frameHanded_stream : (s.frameHanded r rest i seq lost loss f).tap.stream i = (s.tap.stream i).sequenced seq := by
  unfold State.frameHanded
  rw [← handing_raises]
  exact sequenced_stream s r rest i seq lost loss

/-- The take of a frame that is handed on (R91, R105–R110). -/
theorem takeSensor_measuring (hi : (s.tap.stream i).state ≠ .idle) (hm : s.control.runState.Measures)
    (hcontrib : ∃ x ∈ s.assembler.contributing, x.stream = i) :
    ((s.sequenced r rest i seq lost).raises loss).takeSensor i r.arrival f
      = ((s.frameHanded r rest i seq lost loss f).close.setStream i
          (((s.frameHanded r rest i seq lost loss f).close.tap.stream i).kept
            (s.frameHanded r rest i seq lost loss f).close.control.runState r.arrival f)).raises
          (s.tap.stream i).state.backFlags := by
  have hrun : ((s.sequenced r rest i seq lost).raises loss).control.runState = s.control.runState := State.raises_control_runState _ _
  have hassembler : ((s.sequenced r rest i seq lost).raises loss).assembler = s.assembler := State.raises_assembler _ _
  have hyes : (((s.sequenced r rest i seq lost).raises loss).control.runState.measuring
      && ((s.sequenced r rest i seq lost).raises loss).assembler.contributes i) = true := by
    rw [hrun, hassembler, Bool.and_eq_true, measuring_iff, contributes_iff]
    exact ⟨hm, hcontrib⟩
  have hclose : (if ((s.sequenced r rest i seq lost).raises loss).control.runState.measuring
        && ((s.sequenced r rest i seq lost).raises loss).assembler.contributes i then
        ((s.sequenced r rest i seq lost).raises loss).handFrame i f
      else (s.sequenced r rest i seq lost).raises loss) = (s.frameHanded r rest i seq lost loss f).close := by
    rw [if_pos hyes, handFrame_eq, handing_raises]
    rfl
  have hstate : ((s.frameHanded r rest i seq lost loss f).close.tap.stream i).state = (s.tap.stream i).state := by
    rw [close_stream, frameHanded_stream]
    rfl
  rw [takeSensor_handed hclose (by rw [hstate]; exact hi), hstate]


/-! ### The parts of the statement -/

theorem raises_flagSet (g : EventFlag) (l : List EventFlag) (u : State) (h : u.flagSet g = true) : (u.raises l).flagSet g = true := by
  unfold State.raises
  induction l generalizing u with
  | nil => exact h
  | cons f rest ih => exact ih _ (u.raise_flagSet f g h)

theorem raises_sets (x : EventFlag) (l : List EventFlag) (u : State) (ha : u.control.runState ≠ .unanchored) (hx : x ∈ l) :
    (u.raises l).flagSet x = true := by
  unfold State.raises
  induction l generalizing u with
  | nil => exact absurd hx List.not_mem_nil
  | cons f rest ih =>
    rcases List.mem_cons.mp hx with rfl | hx
    · exact raises_flagSet x rest _ (State.raise_sets u x ha)
    · exact ih _ (by simpa using ha) hx

theorem raises_transit (l : List EventFlag) (u : State) : (u.raises l).transit = u.transit := by
  unfold State.raises
  induction l generalizing u with
  | nil => rfl
  | cons f rest ih => exact (ih _).trans (State.raise_transit u f)

/-- The context that takes a frame, but for its timer. -/
theorem kept_of_timer {c d : StreamContext} (h : c = { d with timer := c.timer }) (run : RunState) (arrival : Time) (f : Frame) :
    c.kept run arrival f = { d with lastFrame := some f, state := .live, timer := c.timerAfter run arrival } := by
  unfold StreamContext.kept
  generalize c.timerAfter run arrival = x
  rw [h]

/-- What the closing of points leaves alone, as a property kept: the transit unit. -/
theorem keeps_transit_points (x : Transit) : KeepsPoints (fun s => s.transit = x) where
  toKeepsGeometry := keeps_transit x
  assembler _ _ _ h := h
  append _ _ _ _ _ _ h := h
  tap _ _ h := h
  runState s r _ _ h := (s.changeRunState_transit r).trans h

/-- The silence timer where the streams did not stop. -/
theorem timerAfter_sequenced {run : RunState} {c : StreamContext} {seq : BitVec 16} {arrival : Time} :
    TimerAfter run c arrival ((c.sequenced seq).timerAfter run arrival) := timerAfter_timerAfter run (c.sequenced seq) arrival

/-- The part with a SENSOR frame taken where the part `w` is, the frame's stream back. -/
def State.keepingFrame (w : State) (i : Fin 4) (arrival : Time) (f : Frame) (back : List EventFlag) : State :=
  ((w.setStream i ((w.tap.stream i).kept w.control.runState arrival f)).raises back).settle

theorem keepingFrame_flags {w : State} {arrival : Time} {back : List EventFlag} (ha : w.control.runState ≠ .unanchored)
    (hset : ∀ x ∈ loss, w.flagSet x = true) : ∀ x ∈ loss ++ back, (w.keepingFrame i arrival f back).flagSet x = true := by
  intro x hx
  rcases List.mem_append.mp hx with h | h
  · exact raises_flagSet x back _ (hset x h)
  · exact raises_sets x back _ ha h

theorem frameHanded_runState : (s.frameHanded r rest i seq lost loss f).control.runState = s.control.runState :=
  State.raises_control_runState _ _

theorem frameHanded_assembler : (s.frameHanded r rest i seq lost loss f).assembler
    = { s.assembler with queue := s.assembler.queue.map (PendingPoint.took i f) } := State.raises_assembler _ _

theorem frameHanded_framesLost : (s.frameHanded r rest i seq lost loss f).tap.framesLost = lost :=
  congrArg StreamTap.framesLost (State.raises_tap _ _)

theorem frameHanded_transit : (s.frameHanded r rest i seq lost loss f).transit = (s.presenting r rest).transit :=
  raises_transit loss _

/-- The run state after the closing is not UNANCHORED. -/
theorem close_anchored {u : State} (ha : u.control.runState ≠ .unanchored) : u.close.control.runState ≠ .unanchored := by
  obtain ⟨_, _, _, ⟨hrun, _⟩ | ⟨_, _, hrun, _⟩⟩ := close_frame u <;> rw [hrun]
  · exact ha
  · decide

/-- What a handed frame leaves after the closing (R91, R105–R110, R114). -/
theorem keepingFrame_closed (ha : s.control.runState ≠ .unanchored) (back : List EventFlag) :
    let w := (s.frameHanded r rest i seq lost loss f).close
    let t := w.keepingFrame i r.arrival f back
    let timer := (w.tap.stream i).timerAfter w.control.runState r.arrival
    HeadOnPort s t r rest none ∧ t.odometer = s.odometer ∧ t.tap.framesLost = lost
      ∧ ClosingOf (s.assembler.queue.map (PendingPoint.took i f)) s.assembler t.assembler
      ∧ t.tap.stream i =
          { (s.tap.stream i).emptied with lastSequence := some seq, lastFrame := some f, state := .live, timer := timer }
      ∧ (t.control.runState = s.control.runState → TimerAfter s.control.runState (s.tap.stream i) r.arrival timer)
      ∧ (t.control.runState ≠ s.control.runState →
          s.control.runState = .draining ∧ t.assembler.queue = [] ∧ t.control.runState = .stopped ∧ timer = none)
      ∧ ∀ x ∈ loss ++ back, t.flagSet x = true := by
  intro w t timer
  obtain ⟨hodometer, hlost, hclosing, hrun⟩ := close_frame (s.frameHanded r rest i seq lost loss f)
  have htapT : t.tap = w.tap.setStream i ((w.tap.stream i).kept w.control.runState r.arrival f) := State.raises_tap _ _
  have hrunT : t.control.runState = w.control.runState := State.raises_control_runState _ _
  have hassemblerT : t.assembler = w.assembler := State.raises_assembler _ _
  have htransit : t.transit = (s.presenting r rest).transit :=
    (raises_transit back _).trans ((keeps_transit_points _).close frameHanded_transit)
  rw [frameHanded_assembler] at hclosing
  rw [frameHanded_framesLost] at hlost
  have hcontext : w.tap.stream i = { (s.tap.stream i).sequenced seq with timer := (w.tap.stream i).timer } :=
    (close_stream _ i).trans (by rw [frameHanded_stream])
  refine ⟨headOnPort_of_transit htransit, (State.raises_odometer _ _).trans (hodometer.trans (State.raises_odometer _ _)), ?_, ?_, ?_,
    ?_, ?_, keepingFrame_flags (close_anchored (fun h => ha (frameHanded_runState.symm.trans h))) fun x hx => ?_⟩
  · rw [htapT, framesLost_setStream]
    exact hlost
  · rw [hassemblerT]
    exact hclosing
  · rw [htapT, StreamTap.stream_setStream]
    exact kept_of_timer hcontext _ _ _
  · intro heq
    rcases hrun with ⟨hsame, htap⟩ | ⟨hdraining, _, hstopped, _⟩
    · rw [frameHanded_runState] at hsame
      have hstream : w.tap.stream i = (s.tap.stream i).sequenced seq := (congrArg (·.stream i) htap).trans frameHanded_stream
      show TimerAfter _ _ _ ((w.tap.stream i).timerAfter w.control.runState r.arrival)
      rw [hstream, hsame]
      exact timerAfter_sequenced
    · rw [frameHanded_runState] at hdraining
      rw [hrunT, hdraining] at heq
      exact absurd (hstopped.symm.trans heq) (by decide)
  · intro hne
    rcases hrun with ⟨hsame, _⟩ | ⟨hdraining, hempty, hstopped, htap⟩
    · exact absurd (hrunT.trans (hsame.trans frameHanded_runState)) hne
    · rw [frameHanded_runState] at hdraining
      refine ⟨hdraining, by rw [hassemblerT]; exact hempty, hrunT.trans hstopped, ?_⟩
      show (w.tap.stream i).timerAfter w.control.runState r.arrival = none
      have hnone : (w.tap.stream i).timer = none := by
        rw [show w.tap = _ from htap]
        unfold StreamTap.afterRunState
        rw [if_pos rfl, StreamTap.stream_mapStreams]
      rw [show w.control.runState = .stopped from hstopped]
      exact hnone
  · exact (keeps_flagSet x).close (raises_sets x loss _ ha hx)

/-- A frame with which no point closes (R110). -/
theorem keepingFrame_waits (hs : Settled s) (ha : s.control.runState ≠ .unanchored) (back : List EventFlag)
    (hq : s.control.runState = .running ∨ s.assembler.queue ≠ [])
    (hwait : HeadWaits (s.assembler.queue.map (PendingPoint.took i f)) none) :
    let w := (s.frameHanded r rest i seq lost loss f).close
    let t := w.keepingFrame i r.arrival f back
    t =
        { s with
          transit := t.transit, control := t.control, writeBack := t.writeBack
          tap :=
            { s.tap.setStream i
                { (s.tap.stream i).emptied with
                  lastSequence := some seq, lastFrame := some f, state := .live
                  timer := (w.tap.stream i).timerAfter w.control.runState r.arrival } with
              framesLost := lost }
          assembler := { s.assembler with queue := s.assembler.queue.map (PendingPoint.took i f) } }
      ∧ Flagged s t (loss ++ back) := by
  have hopen : (s.frameHanded r rest i seq lost loss f).close = s.frameHanded r rest i seq lost loss f := by
    refine State.close_headWaits _ (by rw [frameHanded_assembler]; exact hwait) ?_
    rw [frameHanded_assembler, frameHanded_runState]
    rcases hq with h | h
    · exact Or.inr (by rw [h]; decide)
    · exact Or.inl (by simpa using h)
  have hkept : (s.frameHanded r rest i seq lost loss f).keepingFrame i r.arrival f back
      = (State.raises
          { s.presenting r rest with
            tap :=
              { s.tap.setStream i (((s.tap.stream i).sequenced seq).kept s.control.runState r.arrival f) with framesLost := lost }
            assembler := { s.assembler with queue := s.assembler.queue.map (PendingPoint.took i f) } }
          (loss ++ back)).settle := by
    unfold State.keepingFrame
    rw [frameHanded_stream, frameHanded_runState]
    unfold State.frameHanded
    rw [setStream_raises, State.raises_append]
    congr 2
    unfold State.setStream State.handing State.sequenced StreamTap.sequenced
    dsimp only
    rw [setStream_framesLost, StreamTap.setStream_setStream]
    rfl
  intro w t
  rw [show w = _ from hopen, frameHanded_stream, frameHanded_runState]
  rw [show t = (s.frameHanded r rest i seq lost loss f).keepingFrame i r.arrival f back from
    congrArg (fun u : State => u.keepingFrame i r.arrival f back) hopen, hkept]
  obtain ⟨_, hframe, hflagged⟩ := flagged_at_port (s := s) (r := r) (rest := rest)
    (u := { s.presenting r rest with
            tap :=
              { s.tap.setStream i (((s.tap.stream i).sequenced seq).kept s.control.runState r.arrival f) with framesLost := lost }
            assembler := { s.assembler with queue := s.assembler.queue.map (PendingPoint.took i f) } })
    (loss ++ back) hs ha rfl rfl rfl
  exact ⟨hframe, hflagged⟩

end

theorem backFlags_of {x : StreamState} {back : List EventFlag}
    (h : (x = .stale ∧ back = [.streamBack]) ∨ (x ≠ .stale ∧ back = [])) : back = x.backFlags := by
  unfold StreamState.backFlags
  rcases h with ⟨hx, rfl⟩ | ⟨hx, rfl⟩
  · rw [if_pos hx]
  · rw [if_neg hx]

/-- Settles O21: a SENSOR frame with a good header is checked, taken and handed on. -/
theorem sensorFrameKept : Obligations.SensorFrameKept := by
  unfold Obligations.SensorFrameKept
  rintro r rest i off beats _ words seq lost loss back f s hcap rfl hcomplete hkind hused hseq hchecked htime hhealthy hvalues hback
  have hexec := exec_captureHead hcap
  obtain ⟨hs, ha, _⟩ := hcap
  rw [tapWrite_sensor hcomplete hkind hused hseq hchecked] at hexec
  obtain ⟨_, hi, _⟩ := hcomplete
  obtain rfl := backFlags_of hback
  refine ⟨fun hbad => ?_, fun horder hlong => ?_⟩
  · rw [htime] at hbad
    rw [checkSensor_discarded hbad, sequenced_frameError] at hexec
    exact ⟨_, hexec, tapped_at_port _ (loss ++ [.frameError]) hs ha⟩
  · rw [checkSensor_taken htime hhealthy hvalues horder hlong] at hexec
    refine ⟨fun hquiet => ?_, fun hm hcontrib => ?_, fun hm hcontrib hq => ?_⟩
    · rw [takeSensor_quiet hi hquiet] at hexec
      obtain ⟨hport, hframe, hflagged⟩ := tapped_at_port (s := s) (r := r) (rest := rest)
        { s.tap.setStream i (((s.tap.stream i).sequenced seq).kept s.control.runState r.arrival f) with framesLost := lost }
        (loss ++ (s.tap.stream i).state.backFlags) hs ha
      exact ⟨_, _, hexec, hport, timerAfter_sequenced, hframe, hflagged⟩
    · rw [takeSensor_measuring hi hm hcontrib] at hexec
      obtain ⟨v, hclosing, hdrain⟩ := State.close_closes (s.frameHanded r rest i seq lost loss f)
      exact ⟨s.presenting r rest, s.frameHanded r rest i seq lost loss f, v, _, _, headOnPort_of_transit rfl, rfl, hclosing, hdrain,
        timerAfter_timerAfter _ _ _, hexec⟩
    · rw [takeSensor_measuring hi hm hcontrib] at hexec
      obtain ⟨hport, hodometer, hlost, hclosing, hstream, hsame, hdrained, hflags⟩ :=
        keepingFrame_closed (r := r) (rest := rest) (i := i) (seq := seq) (lost := lost) (loss := loss) (f := f) ha
          (s.tap.stream i).state.backFlags
      exact ⟨_, _, hexec, hport, hodometer, hlost, hclosing, hstream, hsame, hdrained, hflags, fun hwait =>
        keepingFrame_waits hs ha _ hq hwait⟩

end Sys2Proof.Machine
end

section
/-! SUPPORT. Silence timers and point deadlines (R94, R108–R110), and those statements settled. -/

namespace Sys2Proof.Machine

/-! ### A closing that emits no centre -/

theorem raise_with_points (u : State) (a : Assembler) (g : GeometryUnit) (f : EventFlag) :
    ({ u.raise f with assembler := a, geometry := g } : State) = { u with assembler := a, geometry := g }.raise f := by
  unfold State.raise
  dsimp only
  split <;> rfl

/-- A sample with no centre due is placed, and nothing else (R121, R124). -/
theorem placeSample_quiet {u : State} {x : Sample}
    (h : ∀ first, u.geometry.firstPoint = some first → x.index - u.geometry.chord < first) :
    u.placeSample x = { u with geometry := u.geometry.place x } := by
  unfold State.placeSample
  cases hf : u.geometry.firstPoint with
  | none => rfl
  | some first => exact if_neg (Int.not_le.mpr (h first hf))

/-- The closing of a head that waits on no stream (R110). -/
theorem closePoints_head {u : State} {p : PendingPoint} {rest : List PendingPoint} (n : Nat) (hq : u.assembler.queue = p :: rest)
    (hp : ∀ i, ¬p.WaitsOn i) :
    State.closePoints (n + 1) u =
      State.closePoints n
        (State.placeSample { u with assembler := { u.assembler with queue := rest, closed := u.assembler.closed + 1 } }
          (u.assembler.sample p)) := by
  have hfinal : ¬p.hasWaiting = true := fun h => (p.hasWaiting_iff.mp h).elim hp
  rw [State.closePoints, hq]
  exact if_neg hfinal

/-- A closing whose head alone closes, with no centre due and no drain to complete. -/
theorem close_head {u : State} {p : PendingPoint} {rest : List PendingPoint} (hq : u.assembler.queue = p :: rest)
    (hp : ∀ i, ¬p.WaitsOn i) (hne : rest ≠ []) (hrest : HeadWaits rest none)
    (hcentre : ∀ first, u.geometry.firstPoint = some first → p.index - u.geometry.chord < first) :
    u.close =
      { u with
        assembler := { u.assembler with queue := rest, closed := u.assembler.closed + 1 }
        geometry := u.geometry.place (u.assembler.sample p) } := by
  have hfirst : State.closePoints u.assembler.queue.length u =
      { u with
        assembler := { u.assembler with queue := rest, closed := u.assembler.closed + 1 }
        geometry := u.geometry.place (u.assembler.sample p) } := by
    rw [show u.assembler.queue.length = rest.length + 1 from congrArg List.length hq, closePoints_head _ hq hp,
      placeSample_quiet (x := u.assembler.sample p) (by exact hcentre)]
    exact State.closePoints_headWaits _ _ hrest
  unfold State.close
  rw [hfirst]
  exact if_neg (fun h => hne h.2)

/-! ### Silence timers (R94, R108) -/

theorem giveUpStream_eq (i : Fin 4) (p : PendingPoint) :
    p.giveUpStream i = { p with entries := p.entries.map (fun e => if e.stream = i then e.givenUp else e) } := by
  unfold PendingPoint.giveUpStream
  congr 1
  refine List.map_congr_left fun e _ => ?_
  rw [StreamEntry.giveUp_eq]

theorem givenUp_final (e : StreamEntry) (b : Option BeforeFrame) : e.givenUp.state ≠ .waiting b := by
  unfold StreamEntry.givenUp
  cases h : e.state with
  | waiting => simp
  | filled | missing => simp [h]

/-- A point whose stream is given up waits on the other streams as before (R108). -/
theorem giveUpStream_waitsOn (p : PendingPoint) (i j : Fin 4) : (p.giveUpStream i).WaitsOn j ↔ j ≠ i ∧ p.WaitsOn j := by
  rw [giveUpStream_eq]
  unfold PendingPoint.WaitsOn
  simp only [List.mem_map]
  constructor
  · rintro ⟨_, ⟨e, he, rfl⟩, hj, b, hb⟩
    by_cases hi : e.stream = i
    · rw [if_pos hi] at hb
      exact absurd hb (givenUp_final e b)
    · rw [if_neg hi] at hj hb
      exact ⟨fun h => hi (hj.trans h), e, he, hj, b, hb⟩
  · rintro ⟨hne, e, he, hj, b, hb⟩
    have hi : ¬e.stream = i := fun h => hne (hj.symm.trans h)
    exact ⟨e, ⟨e, he, if_neg hi⟩, hj, b, hb⟩

theorem headWaits_giveUpStream {queue : List PendingPoint} {i : Fin 4} (h : HeadWaits queue (some i)) :
    HeadWaits (queue.map (PendingPoint.giveUpStream i)) none := by
  intro p rest hq
  obtain ⟨p', rest', rfl, rfl, _⟩ := List.map_eq_cons_iff.mp hq
  obtain ⟨j, hj, hne⟩ := h p' rest' rfl
  exact ⟨j, (giveUpStream_waitsOn p' i j).mpr ⟨fun h => hne (congrArg some h), hj⟩, by simp⟩

/-- The part with stream i lost and given up by every point, before the flag (R94, R108). -/
def State.losing (s : State) (i : Fin 4) : State :=
  { s with
    tap := s.tap.setStream i { s.tap.stream i with state := .stale, timer := none }
    assembler :=
      { s.assembler with
        queue := s.assembler.queue.map
          (fun p => { p with entries := p.entries.map (fun e => if e.stream = i then e.givenUp else e) }) } }

theorem exec_silenceTimer {i : Fin 4} {s : State} {expiry : Time} (ht : (s.tap.stream i).timer = some expiry) (hr : Reached s expiry) :
    exec (.silenceTimerExpiry i) s = .next ((s.losing i).raise .streamLost).close.settle := by
  show execSilenceTimerExpiry i s = _
  unfold execSilenceTimerExpiry
  dsimp only
  rw [ht]
  dsimp only
  rw [if_pos ((reached_iff _ _).mp hr)]
  unfold State.giveUpStream State.updatePoints State.losing
  rw [State.raise_assembler, raise_with_assembler, show PendingPoint.giveUpStream i = _ from funext (giveUpStream_eq i)]
  rfl

theorem exec_silenceTimer_none {i : Fin 4} {s : State} (h : ∀ expiry, (s.tap.stream i).timer = some expiry → ¬Reached s expiry) :
    exec (.silenceTimerExpiry i) s = .next s := by
  show execSilenceTimerExpiry i s = _
  unfold execSilenceTimerExpiry
  dsimp only
  cases ht : (s.tap.stream i).timer with
  | none => rfl
  | some expiry => exact if_neg (fun hr => h expiry ht ((reached_iff _ _).mpr hr))

theorem losing_queue (s : State) (i : Fin 4) :
    ((s.losing i).raise .streamLost).assembler.queue = s.assembler.queue.map (PendingPoint.giveUpStream i) := by
  rw [State.raise_assembler, show PendingPoint.giveUpStream i = _ from funext (giveUpStream_eq i)]
  rfl

/-- Settles O54: a due silence timer makes its stream STALE and gives it up; otherwise nothing expires. -/
theorem silenceTimerExpires : Obligations.SilenceTimerExpires := by
  unfold Obligations.SilenceTimerExpires
  intro i s _ hc
  refine ⟨exec_silenceTimer_none, fun expiry ht hr => ⟨_, exec_silenceTimer ht hr, ?_, ?_, ?_, ?_, fun hq hwait => ?_⟩⟩
  · obtain ⟨_, _, ⟨n, _, hclosed, _⟩, _⟩ := close_frame ((s.losing i).raise .streamLost)
    intro p hp
    have hmem : p ∈ (s.assembler.queue.map (PendingPoint.giveUpStream i)).drop n := by
      rw [← losing_queue]
      exact (congrArg (fun a : Assembler => p ∈ a.queue) hclosed).mp hp
    obtain ⟨p', _, rfl⟩ := List.mem_map.mp (List.mem_of_mem_drop hmem)
    exact fun h => ((giveUpStream_waitsOn p' i i).mp h).1 rfl
  · obtain ⟨v, hclosing, hdrain⟩ := State.close_closes ((s.losing i).raise .streamLost)
    exact ⟨s.losing i, _, v, _, rfl, rfl, hclosing, hdrain, rfl⟩
  · have htap : ((s.losing i).raise .streamLost).tap.stream i = { s.tap.stream i with state := .stale, timer := none } := by
      rw [State.raise_tap]
      exact StreamTap.stream_setStream _ _ _
    show ((s.losing i).raise .streamLost).close.tap.stream i = _
    obtain ⟨_, _, _, ⟨_, hkept⟩ | ⟨_, _, _, hstopped⟩⟩ := close_frame ((s.losing i).raise .streamLost)
    · rw [hkept]
      exact htap
    · rw [hstopped]
      unfold StreamTap.afterRunState
      rw [if_pos rfl, StreamTap.stream_mapStreams, htap]
  · exact (keeps_flagSet .streamLost).close (State.raise_sets (s.losing i) .streamLost hc.anchored)
  · have hopen : ((s.losing i).raise .streamLost).close = (s.losing i).raise .streamLost := by
      refine State.close_headWaits _ (by rw [losing_queue]; exact headWaits_giveUpStream hwait) ?_
      rw [losing_queue, State.raise_control_runState]
      exact (hq.imp id (fun h => by simpa using h)).symm
    rw [hopen]
    obtain ⟨hcontrol, hslot, hpub, hframe⟩ := raise_settle s (s.losing i) .streamLost hc.anchored rfl rfl
    exact ⟨hframe, hslot, hcontrol, hpub⟩

/-! ### Point deadlines (R109) -/

theorem exec_deadline_none {k : Int} {s : State} (h : ∀ p ∈ s.assembler.queue, p.index = k → ¬Reached s p.deadline) :
    exec (.pointDeadlineExpiry k) s = .next s := by
  show execPointDeadlineExpiry k s = _
  unfold execPointDeadlineExpiry
  cases hp : s.assembler.queue.find? (fun p => decide (p.index = k)) with
  | none => rfl
  | some p =>
    have hk : p.index = k := of_decide_eq_true (List.find?_some (p := fun p : PendingPoint => decide (p.index = k)) hp)
    exact if_neg (fun hr => h p (List.mem_of_find?_eq_some hp) hk ((reached_iff _ _).mpr hr))

section

variable {s : State} {before behind : List PendingPoint} {p : PendingPoint}

/-- The part with the point `p` between others given up with a gap, before the flag (R109). -/
def State.gapping (s : State) (before : List PendingPoint) (p : PendingPoint) (behind : List PendingPoint) : State :=
  { s with
    assembler :=
      { s.assembler with
        queue := before ++ p.givenUp { p.flags with gap := true } :: behind
        gapped := s.assembler.gapped + 1 } }

theorem exec_deadline (hq : s.assembler.queue = before ++ p :: behind) (hr : Reached s p.deadline)
    (hunique : ∀ x ∈ before ++ behind, x.index ≠ p.index) :
    exec (.pointDeadlineExpiry p.index) s = .next (s.gapPoint p).close.settle := by
  have hfind : s.assembler.queue.find? (fun x => decide (x.index = p.index)) = some p := by
    rw [hq, List.find?_append, List.find?_eq_none.mpr fun x hx => by simpa using hunique x (List.mem_append_left _ hx)]
    simp
  show execPointDeadlineExpiry p.index s = _
  unfold execPointDeadlineExpiry
  rw [hfind]
  exact if_pos ((reached_iff _ _).mp hr)

theorem gapPoint_final (hp : ∀ i, ¬p.WaitsOn i) : s.gapPoint p = s :=
  if_neg fun h => (p.hasWaiting_iff.mp h).elim hp

theorem gapPoint_waiting (hq : s.assembler.queue = before ++ p :: behind) (hunique : ∀ x ∈ before ++ behind, x.index ≠ p.index)
    (hp : ∃ i, p.WaitsOn i) : s.gapPoint p = (s.gapping before p behind).raise .pointGap := by
  have hothers : ∀ (l : List PendingPoint) (y : PendingPoint), (∀ x ∈ l, x.index ≠ p.index) →
      l.map (fun x => if x.index = p.index then y else x) = l := by
    intro l y h
    exact (List.map_congr_left fun x hx => if_neg (h x hx)).trans (List.map_id l)
  unfold State.gapPoint
  rw [if_pos (p.hasWaiting_iff.mpr hp)]
  dsimp only
  rw [hq, List.map_append, List.map_cons, if_pos rfl, hothers before _ fun x hx => hunique x (List.mem_append_left _ hx),
    hothers behind _ fun x hx => hunique x (List.mem_append_right _ hx), PendingPoint.giveUpAll_eq]
  rfl

theorem givenUp_waitsNot (p : PendingPoint) (flags : PointFlags) (i : Fin 4) : ¬(p.givenUp flags).WaitsOn i := by
  rintro ⟨_, he, _, b, hb⟩
  obtain ⟨e, _, rfl⟩ := List.mem_map.mp he
  exact givenUp_final e b hb

/-- The head that a queue starts with waits on, whatever follows it. -/
theorem headWaits_behind (hne : before ≠ []) (h : HeadWaits before none) (l : List PendingPoint) : HeadWaits (before ++ l) none := by
  obtain ⟨x, rest, rfl⟩ := List.exists_cons_of_ne_nil hne
  intro y rest' hy
  cases hy
  exact h x rest rfl

/-- Behind a head that waits, a deadline closes nothing. -/
theorem gapPoint_behind (hq : s.assembler.queue = before ++ p :: behind) (hne : before ≠ []) (hwait : HeadWaits before none)
    (hunique : ∀ x ∈ before ++ behind, x.index ≠ p.index) : (s.gapPoint p).close = s.gapPoint p := by
  have hhead : HeadWaits (s.gapPoint p).assembler.queue none ∧ (s.gapPoint p).assembler.queue ≠ [] := by
    by_cases hp : ∃ i, p.WaitsOn i
    · rw [gapPoint_waiting hq hunique hp, State.raise_assembler]
      exact ⟨headWaits_behind hne hwait _, by simp [State.gapping]⟩
    · rw [gapPoint_final (not_exists.mp hp), hq]
      exact ⟨headWaits_behind hne hwait _, by simp⟩
  exact State.close_headWaits _ hhead.1 (Or.inl hhead.2)

/-- The head given up with a gap, closed and placed, before the flag. -/
def State.gapClosed (s : State) (p : PendingPoint) (behind : List PendingPoint) : State :=
  { s with
    assembler := { s.assembler with queue := behind, closed := s.assembler.closed + 1, gapped := s.assembler.gapped + 1 }
    geometry := s.geometry.place (s.assembler.sample (p.givenUp { p.flags with gap := true })) }

theorem gapPoint_head (hq : s.assembler.queue = p :: behind) (hunique : ∀ x ∈ behind, x.index ≠ p.index) (hp : ∃ i, p.WaitsOn i)
    (hne : behind ≠ []) (hwait : HeadWaits behind none)
    (hcentre : ∀ first, s.geometry.firstPoint = some first → p.index - s.geometry.chord < first) :
    (s.gapPoint p).close = (s.gapClosed p behind).raise .pointGap := by
  rw [gapPoint_waiting (before := []) hq hunique hp,
    close_head (by rw [State.raise_assembler]; rfl) (givenUp_waitsNot p _) hne hwait (by rw [State.raise_geometry]; exact hcentre),
    State.raise_assembler, State.raise_geometry]
  exact raise_with_points (s.gapping [] p behind) _ _ _

end

/-- Settles O55: a due deadline gives its point up with a gap and closes the queue up to the first point that waits. -/
theorem pointDeadlineExpires : Obligations.PointDeadlineExpires := by
  unfold Obligations.PointDeadlineExpires
  intro k s hs hc
  refine ⟨exec_deadline_none, ?_, ?_, ?_⟩
  · rintro before p behind hq rfl hr hunique
    have hexec := exec_deadline hq hr hunique
    obtain ⟨v, hclosing, hdrain⟩ := State.close_closes (s.gapPoint p)
    exact ⟨s.gapPoint p, v, _, gapPoint_final, gapPoint_waiting hq hunique, hclosing, hdrain, hexec⟩
  · rintro before p behind hq hne rfl hr hunique hwait
    have hexec := exec_deadline hq hr hunique
    rw [gapPoint_behind hq hne hwait hunique] at hexec
    refine ⟨fun hp => ?_, fun hp => ?_⟩
    · rw [gapPoint_final hp, settle_of_settled hs] at hexec
      exact hexec
    · rw [gapPoint_waiting hq hunique hp] at hexec
      obtain ⟨hcontrol, hslot, hpub, hframe⟩ := raise_settle s (s.gapping before p behind) .pointGap hc.anchored rfl rfl
      exact ⟨_, hexec, hframe, hslot, hcontrol, hpub⟩
  · rintro p behind hq rfl hr hunique hp hne hwait hcentre
    have hexec := exec_deadline (before := []) hq hr hunique
    rw [gapPoint_head hq hunique hp hne hwait hcentre] at hexec
    obtain ⟨hcontrol, hslot, hpub, hframe⟩ := raise_settle s (s.gapClosed p behind) .pointGap hc.anchored rfl rfl
    exact ⟨_, _, hexec, hframe, hslot, hcontrol, hpub, s.assembler.sample_of _⟩

end Sys2Proof.Machine
end

section
/-! SUPPORT. The classes, the trackers of a record's channels and the route (R143–R145, R148–R159), and that statement settled. -/

namespace Sys2Proof.Machine

/-! ### Classes (R143) -/

theorem classify_limit {e : ProfileEntry} {v : Int} (h : 0 < e.limit ∧ e.limit < v.natAbs) : classify e (some v) = .limit := if_pos h

theorem classify_alert {e : ProfileEntry} {v : Int} (hl : ¬(0 < e.limit ∧ e.limit < v.natAbs))
    (ha : 0 < e.alert ∧ e.alert < v.natAbs) :
    classify e (some v) = .alert := (if_neg hl).trans (if_pos ha)

theorem classify_none {e : ProfileEntry} {v : Int} (hl : ¬(0 < e.limit ∧ e.limit < v.natAbs))
    (ha : ¬(0 < e.alert ∧ e.alert < v.natAbs)) :
    classify e (some v) = .none := (if_neg hl).trans (if_neg ha)

/-- A record that opens or extends a run carries the value of its channel. -/
theorem value_of_exceeding {e : ProfileEntry} {value : Option Int} {v : Int} (hv : value = some v ∨ value = none)
    (h : classify e value = .alert ∨ classify e value = .limit) : value.getD 0 = v := by
  rcases hv with rfl | rfl
  · rfl
  · rcases h with h | h <;> cases h

/-! ### Runs (R151, R152, R159) -/

theorem extend_extends (r : OpenRun) (g : GeometryRecord) (v : Int) : Extends r (r.extend g v) g v := by
  unfold OpenRun.extend Extends
  dsimp only
  by_cases h : r.peakValue.natAbs < v.natAbs
  · rw [if_pos h]
    exact ⟨rfl, fun _ => ⟨rfl, rfl, rfl⟩, fun hle => absurd h (Nat.not_lt.mpr hle)⟩
  · rw [if_neg h]
    exact ⟨rfl, fun hlt => absurd hlt h, fun _ => ⟨rfl, rfl, rfl⟩⟩

theorem extend_markRequested (r : OpenRun) (g : GeometryRecord) (v : Int) : (r.extend g v).markRequested = r.markRequested := by
  unfold OpenRun.extend
  dsimp only
  split <;> rfl

section

variable {s : State} {g : GeometryRecord} {ch : Nat} {value : Option Int} {v : Int} {r : OpenRun} {cause : CloseCause}

theorem enterLimit_plain (h : (s.exceedance.entry g.profile ch).mark = false ∨ r.markRequested = true) :
    s.enterLimit g ch r = { s with exceedance := s.exceedance.setTracker ch (.limitRun r) } := by
  refine if_neg ?_
  rintro ⟨hmark, hrequested⟩
  rcases h with h | h
  · exact Bool.noConfusion (h.symm.trans hmark)
  · exact Bool.noConfusion (h.symm.trans hrequested)

theorem enterLimit_marked (hmark : (s.exceedance.entry g.profile ch).mark = true) (hr : r.markRequested = false) :
    s.enterLimit g ch r =
      { s with exceedance := s.exceedance.setTracker ch (.limitRun { r with markRequested := true }) }.markRequest g.dmm :=
  if_pos ⟨hmark, hr⟩

theorem tracker_of {t : Tracker} (h : s.exceedance.trackers[ch]? = some t) : s.exceedance.tracker ch = t := by
  unfold ExceedanceUnit.tracker
  rw [List.getD_eq_getElem?_getD, h]
  rfl

/-! ### The tracker of a channel (R150) -/

/-- Where no run of another profile is open, a channel's record acts by its class. -/
theorem trackChannel_current (hv : g.channels[ch]? = some value)
    (h : ∀ r, (s.exceedance.tracker ch).run = some r → r.profile = g.profile) :
    s.trackChannel g ch = s.trackClass g ch (classify (s.exceedance.entry g.profile ch) value) (value.getD 0) := by
  have hcheck : s.profileCheck g ch = s := by
    unfold State.profileCheck
    cases hr : (s.exceedance.tracker ch).run with
    | none => rfl
    | some r => exact if_pos (h r hr)
  unfold State.trackChannel
  dsimp only
  rw [hcheck, List.getD_eq_getElem?_getD, hv]
  rfl

theorem trackChannel_clear (hv : g.channels[ch]? = some value) (ht : s.exceedance.tracker ch = .clear) :
    s.trackChannel g ch = s.trackClear g ch (classify (s.exceedance.entry g.profile ch) value) (value.getD 0) := by
  rw [trackChannel_current hv (by rw [ht]; exact fun r h => nomatch h)]
  unfold State.trackClass
  rw [ht]

theorem trackChannel_alertRun (hv : g.channels[ch]? = some value) (ht : s.exceedance.tracker ch = .alertRun r)
    (hp : r.profile = g.profile) :
    s.trackChannel g ch = s.trackClass g ch (classify (s.exceedance.entry g.profile ch) value) (value.getD 0) :=
  trackChannel_current hv (by
    rw [ht]
    rintro _ ⟨⟩
    exact hp)

theorem trackChannel_limitRun (hv : g.channels[ch]? = some value) (ht : s.exceedance.tracker ch = .limitRun r)
    (hp : r.profile = g.profile) :
    s.trackChannel g ch = s.trackClass g ch (classify (s.exceedance.entry g.profile ch) value) (value.getD 0) :=
  trackChannel_current hv (by
    rw [ht]
    rintro _ ⟨⟩
    exact hp)

/-- A channel with an open run. -/
def ExceedanceUnit.OpenAt (x : ExceedanceUnit) (ch : Nat) (r : OpenRun) : Prop :=
  x.tracker ch = .alertRun r ∨ x.tracker ch = .limitRun r

theorem trackChannel_open (hv : g.channels[ch]? = some value) (ht : s.exceedance.OpenAt ch r) (hp : r.profile = g.profile) :
    s.trackChannel g ch = s.trackClass g ch (classify (s.exceedance.entry g.profile ch) value) (value.getD 0) :=
  ht.elim (fun h => trackChannel_alertRun hv h hp) (fun h => trackChannel_limitRun hv h hp)

theorem openAt_run (h : s.exceedance.OpenAt ch r) : (s.exceedance.tracker ch).run = some r := by
  rcases h with h | h <;> rw [h] <;> rfl

/-- NONE closes an open run. -/
theorem trackClass_none (h : s.exceedance.OpenAt ch r) : s.trackClass g ch .none v = s.closeRun ch .cleared := by
  unfold State.trackClass
  rcases h with h | h <;> rw [h]

/-- INVALID closes an open run. -/
theorem trackClass_invalid (h : s.exceedance.OpenAt ch r) : s.trackClass g ch .invalid v = s.closeRun ch .invalid := by
  unfold State.trackClass
  rcases h with h | h <;> rw [h]

/-- A run of 4096 records closes, and the record acts from CLEAR (R156). -/
theorem trackClass_full {c : ValueClass} (h : s.exceedance.OpenAt ch r) (hlen : r.length = 4096) (hc : c = .alert ∨ c = .limit) :
    s.trackClass g ch c v = (s.closeRun ch .length).trackClear g ch c v := by
  unfold State.trackClass
  rcases h with h | h <;> rw [h] <;> rcases hc with rfl | rfl <;> exact if_pos hlen

/-- After the closing of an open run the tracker is CLEAR and the entries of the profiles are as they were. -/
theorem closeRun_clear (h : s.exceedance.OpenAt ch r) (hlen : ch < s.exceedance.trackers.length) :
    (s.closeRun ch cause).exceedance.trackers[ch]? = some .clear
      ∧ (s.closeRun ch cause).exceedance.entry g.profile ch = s.exceedance.entry g.profile ch := by
  obtain ⟨htrackers, hprofiles⟩ := s.closeRun_tracker ch cause (openAt_run h)
  refine ⟨by rw [htrackers, List.getElem?_set_self hlen], ?_⟩
  unfold ExceedanceUnit.entry
  rw [hprofiles]

/-- The record that acts from CLEAR after a closing (R155, R156). -/
theorem trackChannel_closed (hv : g.channels[ch]? = some value) (h : s.exceedance.OpenAt ch r)
    (hlen : ch < s.exceedance.trackers.length) :
    (s.closeRun ch cause).trackChannel g ch
      = (s.closeRun ch cause).trackClear g ch (classify (s.exceedance.entry g.profile ch) value) (value.getD 0) := by
  obtain ⟨hclear, hentry⟩ := closeRun_clear (cause := cause) (g := g) h hlen
  rw [trackChannel_clear hv (tracker_of hclear), hentry]

/-- A run of another profile closes first, and the record acts from CLEAR (R155). -/
theorem trackChannel_otherProfile (hv : g.channels[ch]? = some value) (h : s.exceedance.OpenAt ch r)
    (hlen : ch < s.exceedance.trackers.length) (hp : r.profile ≠ g.profile) :
    s.trackChannel g ch = (s.closeRun ch .profile).trackChannel g ch := by
  have hcheck : s.profileCheck g ch = s.closeRun ch .profile := by
    unfold State.profileCheck
    rw [openAt_run h]
    exact if_neg hp
  obtain ⟨hclear, _⟩ := closeRun_clear (cause := .profile) (g := g) h hlen
  rw [trackChannel_closed hv h hlen]
  unfold State.trackChannel
  dsimp only
  rw [hcheck, List.getD_eq_getElem?_getD, hv]
  unfold State.trackClass
  rw [tracker_of hclear]
  rfl

/-- ALERT extends an ALERT run. -/
theorem trackClass_alertRun_alert (ht : s.exceedance.tracker ch = .alertRun r) (hlen : r.length < 4096) :
    s.trackClass g ch .alert v = { s with exceedance := s.exceedance.setTracker ch (.alertRun (r.extend g v)) } := by
  unfold State.trackClass
  rw [ht]
  exact if_neg (Nat.ne_of_lt hlen)

/-- LIMIT on an ALERT run enters LIMIT_RUN. -/
theorem trackClass_alertRun_limit (ht : s.exceedance.tracker ch = .alertRun r) (hlen : r.length < 4096) :
    s.trackClass g ch .limit v = s.enterLimit g ch (r.extend g v) := by
  unfold State.trackClass
  rw [ht]
  exact if_neg (Nat.ne_of_lt hlen)

/-- ALERT and LIMIT extend a LIMIT run. -/
theorem trackClass_limitRun {c : ValueClass} (ht : s.exceedance.tracker ch = .limitRun r) (hlen : r.length < 4096)
    (hc : c = .alert ∨ c = .limit) :
    s.trackClass g ch c v = { s with exceedance := s.exceedance.setTracker ch (.limitRun (r.extend g v)) } := by
  unfold State.trackClass
  rw [ht]
  rcases hc with rfl | rfl <;> exact if_neg (Nat.ne_of_lt hlen)

/-! ### The route (R145) -/

theorem routeReached_iff {dir : Direction} {chainage : Int} {e : RouteEntry} (hd : s.odometer.dir = dir) :
    routeReached dir chainage e = true ↔ EntryReached s chainage e := by
  unfold routeReached EntryReached
  rw [hd]
  cases dir <;> simp

theorem reachedEntries_of {chainage : Int} {reached : List RouteEntry} (h : ReachedFromCursor s chainage reached) :
    s.reachedEntries chainage = reached := by
  obtain ⟨ahead, hlist, hreached, hahead⟩ := h
  unfold State.reachedEntries
  rw [hlist, List.takeWhile_append_of_pos fun e he => (routeReached_iff rfl).mpr (hreached e he)]
  have hstop : ahead.takeWhile (routeReached s.odometer.dir chainage) = [] := by
    cases ahead with
    | nil => rfl
    | cons e rest => exact List.takeWhile_cons_of_neg fun h => hahead e rfl ((routeReached_iff rfl).mp h)
  rw [hstop, List.append_nil]

theorem consumeRoute_none {chainage : Int} (h : ReachedFromCursor s chainage []) : s.consumeRoute chainage = s := by
  unfold State.consumeRoute
  rw [reachedEntries_of h]
  rfl

theorem consumeRoute_last {chainage : Int} {reached : List RouteEntry} {e : RouteEntry} (h : ReachedFromCursor s chainage reached)
    (hlast : reached.getLast? = some e) :
    s.consumeRoute chainage =
      { s with
        exceedance :=
          { s.exceedance with
            active := routeProfile e.profile, overrideOn := false
            cursor := s.exceedance.cursor + reached.length } }.raise .profileChange := by
  unfold State.consumeRoute
  rw [reachedEntries_of h, hlast]

end

/-! ### The parts of the statement -/

section

variable {s : State} {g : GeometryRecord} {ch : Nat} {value : Option Int} {v : Int} {e : ProfileEntry}

/-- A record at a CLEAR tracker (R150, R151, R159). -/
theorem trackChannel_opens (he : e = s.exceedance.entry g.profile ch) (hv : g.channels[ch]? = some value)
    (hvalue : value = some v ∨ value = none) (ht : s.exceedance.tracker ch = .clear) :
    (classify e value = .none ∨ classify e value = .invalid → s.trackChannel g ch = s)
      ∧ (classify e value = .alert →
        s.trackChannel g ch = { s with exceedance := s.exceedance.setTracker ch (.alertRun (newRun g v)) })
      ∧ (classify e value = .limit → s.trackChannel g ch = s.enterLimit g ch (newRun g v)) := by
  subst he
  rw [trackChannel_clear hv ht]
  refine ⟨fun h => ?_, fun h => ?_, fun h => ?_⟩
  · rcases h with h | h <;> rw [h] <;> rfl
  · rw [value_of_exceeding hvalue (Or.inl h), h]
    rfl
  · rw [value_of_exceeding hvalue (Or.inr h), h]
    rfl

end

/-- Settles O59: what a record does to the trackers, to the route and to write-back. -/
theorem runsOpenAndExtend : Obligations.RunsOpenAndExtend := by
  unfold Obligations.RunsOpenAndExtend
  refine ⟨fun e v => ⟨rfl, fun h h' => classify_limit ⟨h, h'⟩, fun hl h h' => classify_alert hl ⟨h, h'⟩, classify_none⟩,
    ?_, fun s => s.endRecords_closes, ?_⟩
  · intro g ch s e value v hch hlength he hv hvalue
    have hlen : ch < s.exceedance.trackers.length := by omega
    refine ⟨fun ht => ?_, fun r ht hp hr => ?_, fun r ht hp hr hc => ?_, fun r ht => ?_⟩
    · obtain ⟨hquiet, halert, hlimit⟩ := trackChannel_opens he hv hvalue (tracker_of ht)
      subst he
      refine ⟨hquiet, ?_⟩
      rintro _ rfl
      exact ⟨halert, fun h hm => (hlimit h).trans (enterLimit_plain (Or.inl hm)),
        fun h hm => (hlimit h).trans (enterLimit_marked hm rfl)⟩
    · have hclass := trackChannel_alertRun hv (tracker_of ht) hp
      subst he
      refine ⟨fun h => ⟨_, extend_extends r g v, ?_⟩, fun h => ⟨_, extend_extends r g v, fun hm => ?_, fun hm hreq => ?_⟩⟩
      · rw [hclass, value_of_exceeding hvalue (Or.inl h), h, trackClass_alertRun_alert (tracker_of ht) hr]
      · rw [hclass, value_of_exceeding hvalue (Or.inr h), h, trackClass_alertRun_limit (tracker_of ht) hr,
          enterLimit_plain (hm.imp id (extend_markRequested r g v).trans)]
      · rw [hclass, value_of_exceeding hvalue (Or.inr h), h, trackClass_alertRun_limit (tracker_of ht) hr,
          enterLimit_marked hm ((extend_markRequested r g v).trans hreq)]
    · subst he
      refine ⟨_, extend_extends r g v, ?_⟩
      rw [trackChannel_limitRun hv (tracker_of ht) hp, value_of_exceeding hvalue hc, trackClass_limitRun (tracker_of ht) hr hc]
    · have hopen : s.exceedance.OpenAt ch r := ht.imp tracker_of tracker_of
      subst he
      refine ⟨fun hp h => ?_, fun hp h => ?_, fun hp hfull hc => ?_, fun hp => ?_⟩
      · rw [trackChannel_open hv hopen hp, h, trackClass_none hopen]
        exact s.closeRun_closes ch .cleared
      · rw [trackChannel_open hv hopen hp, h, trackClass_invalid hopen]
        exact s.closeRun_closes ch .invalid
      · refine ⟨_, s.closeRun_closes ch .length, (closeRun_clear (g := g) hopen hlen).1, ?_⟩
        rw [trackChannel_open hv hopen hp, trackClass_full hopen hfull hc, trackChannel_closed hv hopen hlen]
      · exact ⟨_, s.closeRun_closes ch .profile, (closeRun_clear (g := g) hopen hlen).1,
          trackChannel_otherProfile hv hopen hlen hp⟩
  · intro g reached s hreached
    refine ⟨s.consumeRoute g.chainage, _, _, ?_,
      fun e hlast => ⟨routeProfile e.profile, fun h => if_pos h, consumeRoute_last hreached hlast⟩, rfl, rfl, rfl⟩
    rintro rfl
    exact consumeRoute_none hreached

end Sys2Proof.Machine
end

section
/-! SUPPORT. What an operation does to the other blocks does not depend on the status slot (R39, R187): the operations that a command word
can run, each with the slot replaced. -/

namespace Sys2Proof.Machine

/-- The part with another status slot. -/
def State.withSlot (s : State) (x : StatusSlot) : State := { s with writeBack := { s.writeBack with slot := x } }

/-- An operation that looks at the status slot only to fill it. -/
def SlotBlind (f : State → State) : Prop := ∀ s x, ∃ y, f (s.withSlot x) = (f s).withSlot y

namespace SlotBlind

variable {f g : State → State}

theorem of_update (h : ∀ s x, f (s.withSlot x) = (f s).withSlot x) : SlotBlind f := fun s x => ⟨x, h s x⟩

theorem same : SlotBlind (fun s => s) := of_update fun _ _ => rfl

theorem after (hf : SlotBlind f) (hg : SlotBlind g) : SlotBlind (fun s => f (g s)) := by
  intro s x
  obtain ⟨y, hy⟩ := hg s x
  obtain ⟨z, hz⟩ := hf (g s) y
  exact ⟨z, (congrArg f hy).trans hz⟩

/-- An operation chosen by data of the part other than the slot. -/
theorem chosen {D : Type} {d : State → D} {F : D → State → State} (hF : ∀ a, SlotBlind (F a))
    (hd : ∀ s x, d (s.withSlot x) = d s) :
    SlotBlind (fun s => F (d s) s) := by
  intro s x
  obtain ⟨y, hy⟩ := hF (d s) s x
  exact ⟨y, (congrArg (fun a => F a (s.withSlot x)) (hd s x)).trans hy⟩

theorem ite {c : State → Prop} [∀ s, Decidable (c s)] (hc : ∀ s x, c (s.withSlot x) ↔ c s) (hf : SlotBlind f) (hg : SlotBlind g) :
    SlotBlind (fun s => if c s then f s else g s) := by
  intro s x
  dsimp only
  by_cases h : c s
  · rw [if_pos h, if_pos ((hc s x).mpr h)]
    exact hf s x
  · rw [if_neg h, if_neg (mt (hc s x).mp h)]
    exact hg s x

theorem fold {α : Type} {F : State → α → State} (h : ∀ a, SlotBlind (fun s => F s a)) :
    ∀ l : List α, SlotBlind (fun s => l.foldl F s)
  | [] => same
  | a :: rest => (fold h rest).after (h a)

end SlotBlind

/-! ### Flags and records -/

theorem raise_blind (f : EventFlag) : SlotBlind (fun s => s.raise f) :=
  .ite (fun _ _ => Iff.rfl) .same fun _ x => ⟨x.fill, rfl⟩

theorem markStatus_blind : SlotBlind State.markStatus := .ite (fun _ _ => Iff.rfl) .same fun _ x => ⟨x.fill, rfl⟩

theorem ring_withSlot (s : State) (x : StatusSlot) (r : Ring) : (s.withSlot x).writeBack.ring r = s.writeBack.ring r := by
  cases r <;> rfl

theorem lose_blind (r : Ring) : SlotBlind (fun s => { s with writeBack := s.writeBack.lose r }) :=
  .of_update fun s x => by cases r <;> rfl

theorem place_blind (r : Ring) (content : List Word64) :
    SlotBlind (fun s => { s with writeBack := s.writeBack.place r (s.transit.areaBase r.area) content }) :=
  .of_update fun s x => by cases r <;> rfl

theorem produce_blind (r : Ring) (content : List Word64) : SlotBlind (fun s => s.produce r content) :=
  .ite (fun s x => by rw [ring_withSlot]) ((raise_blind .ringFull).after (lose_blind r))
    (.ite (fun s x => Iff.rfl) ((raise_blind .writebackLag).after (lose_blind r)) (markStatus_blind.after (place_blind r content)))

theorem changeRunState_blind (r : RunState) : SlotBlind (fun s => s.changeRunState r) :=
  (raise_blind .runState).after (.of_update fun _ _ => rfl)

theorem complete_blind (word : BitVec 4) (result : ResultCode) (detail : BitVec 32) :
    SlotBlind (fun s => s.complete word result detail) :=
  (raise_blind .commandDone).after (.of_update fun _ _ => rfl)

theorem done_blind (word : BitVec 4) : SlotBlind (fun s => s.done word) := complete_blind word .done 0

theorem refuseState_blind (word : BitVec 4) : SlotBlind (fun s => s.refuseState word) :=
  .chosen (F := fun (d : BitVec 32) s => s.complete word .refusedState d) (fun _ => complete_blind _ _ _) fun _ _ => rfl

theorem refuseArg_blind (word : BitVec 4) (field : Nat) : SlotBlind (fun s => s.refuseArg word field) := complete_blind _ _ _

/-! ### Actions -/

theorem logAction_blind (id : BitVec 16) (origin : Origin) (trigger : Int) (outcome : ActionOutcome) :
    SlotBlind (fun s => s.logAction id origin trigger outcome) :=
  .chosen (F := fun (c : List Word64) s => s.produce .action c) (fun c => produce_blind .action c) fun _ _ => rfl

theorem missAction_blind (id : BitVec 16) (origin : Origin) (trigger : Int) : SlotBlind (fun s => s.missAction id origin trigger) :=
  (logAction_blind id origin trigger .missed).after ((raise_blind .actionMissed).after (.of_update fun _ _ => rfl))

theorem takeId_blind : SlotBlind (fun s => { s with action := s.action.takeId }) := .of_update fun _ _ => rfl

theorem markRequest_blind (dmm : Int) : SlotBlind (fun s => s.markRequest dmm) :=
  .ite (fun _ _ => Iff.rfl) (.of_update fun _ _ => rfl)
    (.chosen (F := fun (d : BitVec 16 × Int) s => ({ s with action := s.action.takeId } : State).missAction d.1 .mark d.2)
      (d := fun s => (s.action.idCounter, dmm + s.action.markOffset))
      (fun d => (missAction_blind d.1 .mark d.2).after takeId_blind) fun _ _ => rfl)

/-! ### Exceedance runs -/

theorem setTracker_blind (ch : Nat) (t : Tracker) : SlotBlind (fun s => { s with exceedance := s.exceedance.setTracker ch t }) :=
  .of_update fun _ _ => rfl

theorem emitExceedance_blind (ch : Nat) (sev : Severity) (r : OpenRun) (cause : CloseCause) :
    SlotBlind (fun s => s.emitExceedance ch sev r cause) :=
  .after (f := fun s => { s with exceedance := { s.exceedance with emitted := s.exceedance.emitted + 1 } }) (.of_update fun _ _ => rfl)
    ((raise_blind sev.flag).after
      (.chosen (F := fun (c : List Word64) s => s.produce .exceedance c) (fun c => produce_blind .exceedance c) fun _ _ => rfl))

/-- The closing of a run by the tracker found and the minimum length in force (R153). -/
def State.closeTracker (ch : Nat) (cause : CloseCause) (t : Tracker) (s : State) : State :=
  match t with
  | .clear => s
  | .limitRun r => ({ s with exceedance := s.exceedance.setTracker ch .clear } : State).emitExceedance ch .limit r cause
  | .alertRun r =>
    if (s.exceedance.entry r.profile ch).minLength ≤ r.length then
      ({ s with exceedance := s.exceedance.setTracker ch .clear } : State).emitExceedance ch .alert r cause
    else
      { s with exceedance := { s.exceedance.setTracker ch .clear with short := s.exceedance.short + 1 } }

theorem closeRun_eq_closeTracker (s : State) (ch : Nat) (cause : CloseCause) :
    s.closeRun ch cause = State.closeTracker ch cause (s.exceedance.tracker ch) s := by
  unfold State.closeRun State.closeTracker
  cases s.exceedance.tracker ch <;> rfl

theorem closeTracker_blind (ch : Nat) (cause : CloseCause) : ∀ t, SlotBlind (State.closeTracker ch cause t)
  | .clear => .same
  | .limitRun r => (emitExceedance_blind ch .limit r cause).after (setTracker_blind ch .clear)
  | .alertRun r =>
    .ite (fun _ _ => Iff.rfl) ((emitExceedance_blind ch .alert r cause).after (setTracker_blind ch .clear)) (.of_update fun _ _ => rfl)

theorem closeRun_blind (ch : Nat) (cause : CloseCause) : SlotBlind (fun s => s.closeRun ch cause) := by
  rw [show (fun s : State => s.closeRun ch cause) = fun s => State.closeTracker ch cause (s.exceedance.tracker ch) s from
    funext fun s => closeRun_eq_closeTracker s ch cause]
  exact .chosen (closeTracker_blind ch cause) fun _ _ => rfl

theorem enterLimit_blind (g : GeometryRecord) (ch : Nat) (r : OpenRun) : SlotBlind (fun s => s.enterLimit g ch r) :=
  .ite (fun _ _ => Iff.rfl) ((markRequest_blind g.dmm).after (setTracker_blind ch _)) (setTracker_blind ch _)

theorem trackClear_blind (g : GeometryRecord) (ch : Nat) (v : Int) : ∀ c, SlotBlind (fun s => s.trackClear g ch c v)
  | .none | .invalid => .same
  | .alert => setTracker_blind ch _
  | .limit => enterLimit_blind g ch _

/-- A class acting on a tracker (R150): what `State.trackClass` does once the tracker is known. -/
def State.trackAt (g : GeometryRecord) (ch : Nat) (c : ValueClass) (v : Int) (t : Tracker) (s : State) : State :=
  match t, c with
  | .clear, c => s.trackClear g ch c v
  | .alertRun _, .none | .limitRun _, .none => s.closeRun ch .cleared
  | .alertRun _, .invalid | .limitRun _, .invalid => s.closeRun ch .invalid
  | .alertRun r, .alert =>
    if r.length = 4096 then (s.closeRun ch .length).trackClear g ch .alert v
    else { s with exceedance := s.exceedance.setTracker ch (.alertRun (r.extend g v)) }
  | .alertRun r, .limit =>
    if r.length = 4096 then (s.closeRun ch .length).trackClear g ch .limit v else s.enterLimit g ch (r.extend g v)
  | .limitRun r, c =>
    if r.length = 4096 then (s.closeRun ch .length).trackClear g ch c v
    else { s with exceedance := s.exceedance.setTracker ch (.limitRun (r.extend g v)) }

theorem trackClass_eq_trackAt (s : State) (g : GeometryRecord) (ch : Nat) (c : ValueClass) (v : Int) :
    s.trackClass g ch c v = State.trackAt g ch c v (s.exceedance.tracker ch) s := by
  unfold State.trackClass
  generalize s.exceedance.tracker ch = t
  cases t with
  | clear => rfl
  | alertRun r => cases c <;> rfl
  | limitRun r => cases c <;> rfl

/-- A run of 4096 records closes and the record acts from CLEAR; a shorter one takes the record in place. -/
theorem fullRun_blind (r : OpenRun) (g : GeometryRecord) (ch : Nat) (c : ValueClass) (v : Int) {f : State → State} (hf : SlotBlind f) :
    SlotBlind (fun s => if r.length = 4096 then (s.closeRun ch .length).trackClear g ch c v else f s) :=
  .ite (fun _ _ => Iff.rfl) ((trackClear_blind g ch v c).after (closeRun_blind ch .length)) hf

theorem trackAt_blind (g : GeometryRecord) (ch : Nat) (v : Int) : ∀ (t : Tracker) (c : ValueClass), SlotBlind (State.trackAt g ch c v t)
  | .clear, c => trackClear_blind g ch v c
  | .alertRun _, .none | .limitRun _, .none => closeRun_blind ch .cleared
  | .alertRun _, .invalid | .limitRun _, .invalid => closeRun_blind ch .invalid
  | .alertRun r, .alert => fullRun_blind r g ch .alert v (setTracker_blind ch _)
  | .alertRun r, .limit => fullRun_blind r g ch .limit v (enterLimit_blind g ch _)
  | .limitRun r, .alert => fullRun_blind r g ch .alert v (setTracker_blind ch _)
  | .limitRun r, .limit => fullRun_blind r g ch .limit v (setTracker_blind ch _)

theorem trackClass_blind (g : GeometryRecord) (ch : Nat) (c : ValueClass) (v : Int) : SlotBlind (fun s => s.trackClass g ch c v) := by
  rw [show (fun s : State => s.trackClass g ch c v) = fun s => State.trackAt g ch c v (s.exceedance.tracker ch) s from
    funext fun s => trackClass_eq_trackAt s g ch c v]
  exact .chosen (fun t => trackAt_blind g ch v t c) fun _ _ => rfl

theorem profileCheck_blind (g : GeometryRecord) (ch : Nat) : SlotBlind (fun s => s.profileCheck g ch) := by
  intro s x
  unfold State.profileCheck
  dsimp only
  rw [show (s.withSlot x).exceedance = s.exceedance from rfl]
  cases (s.exceedance.tracker ch).run with
  | none => exact ⟨x, rfl⟩
  | some r => exact SlotBlind.ite (c := fun _ => r.profile = g.profile) (fun _ _ => Iff.rfl) .same (closeRun_blind ch .profile) s x

theorem trackChannel_blind (g : GeometryRecord) (ch : Nat) : SlotBlind (fun s => s.trackChannel g ch) :=
  .chosen (F := fun (e : ProfileEntry) s => (s.profileCheck g ch).trackClass g ch (classify e (g.channels.getD ch none)) _)
    (d := fun s => s.exceedance.entry g.profile ch)
    (fun _ => (trackClass_blind g ch _ _).after (profileCheck_blind g ch)) fun _ _ => rfl

/-! ### Records and the end of the points -/

theorem consumeRoute_blind (chainage : Int) : SlotBlind (fun s => s.consumeRoute chainage) := by
  intro s x
  unfold State.consumeRoute
  dsimp only
  rw [show (s.withSlot x).reachedEntries chainage = s.reachedEntries chainage from rfl]
  cases (s.reachedEntries chainage).getLast? with
  | none => exact ⟨x, rfl⟩
  | some e =>
    exact raise_blind .profileChange
      { s with
        exceedance :=
          { s.exceedance with
            active := routeProfile e.profile, overrideOn := false
            cursor := s.exceedance.cursor + (s.reachedEntries chainage).length } } x

theorem classifyRecord_blind (g : GeometryRecord) : SlotBlind (fun s => s.classifyRecord g) :=
  .after (f := fun s => (s.trackChannels { g with profile := s.exceedance.active }).produce .geometry
      (geometryWords { g with profile := s.exceedance.active }))
    (.chosen
      (F := fun (p : BitVec 3) s => (s.trackChannels { g with profile := p }).produce .geometry (geometryWords { g with profile := p }))
      (fun _ => (produce_blind .geometry _).after (.fold (fun ch => trackChannel_blind _ ch) (List.range 8))) fun _ _ => rfl)
    (consumeRoute_blind g.chainage)

theorem emitCentre_blind (c : Int) : SlotBlind (fun s => s.emitCentre c) := by
  intro s x
  unfold State.emitCentre
  dsimp only
  rw [show (s.withSlot x).geometry = s.geometry from rfl]
  cases s.geometry.pointAt c with
  | none => exact ⟨x, rfl⟩
  | some y =>
    exact classifyRecord_blind (s.geometry.record y) { s with geometry := { s.geometry with cursor := some (c + 1) } } x

theorem emitCentres_blind (n : Nat) : SlotBlind (State.emitCentres n) := by
  induction n with
  | zero => exact .same
  | succ n ih =>
    intro s x
    unfold State.emitCentres
    rw [show (s.withSlot x).geometry = s.geometry from rfl]
    cases s.geometry.cursor with
    | none => exact ⟨x, rfl⟩
    | some c =>
      exact ih.after (emitCentre_blind c) s x

theorem endOfPoints_blind : SlotBlind State.endOfPoints :=
  .after (f := State.endRecords) (.fold (fun ch => closeRun_blind ch .runEnd) (List.range 8))
    (.chosen (F := State.emitCentres) emitCentres_blind fun _ _ => rfl)

theorem completeDrain_blind : SlotBlind State.completeDrain :=
  .ite (fun _ _ => Iff.rfl) ((changeRunState_blind .stopped).after endOfPoints_blind) .same

end Sys2Proof.Machine
end

section
/-! SUPPORT. Bursts of command words (R26, R32): the commands with the status slot replaced, the slot after a command, and the words run one
after the other. -/

namespace Sys2Proof.Machine

/-! ### Commands with the slot replaced -/

theorem arm_blind : SlotBlind State.arm := (changeRunState_blind .armed).after (.of_update fun _ _ => rfl)

theorem commandArm_blind : SlotBlind State.commandArm :=
  .ite (fun _ _ => Iff.rfl)
    (.chosen (d := fun s => armFailure s.control.shadow s.windowBase)
      (F := fun (x : Option Nat) s =>
        match x with
        | some off => s.complete 0 .refusedConfig (offsetDetail off)
        | none => s.arm.done 0)
      (fun
        | some _ => complete_blind _ _ _
        | none => (done_blind 0).after arm_blind)
      fun _ _ => rfl)
    (refuseState_blind 0)

theorem startRun_blind : SlotBlind State.startRun := (changeRunState_blind .running).after (.of_update fun _ _ => rfl)

theorem commandStart_blind : SlotBlind State.commandStart :=
  .ite (fun _ _ => Iff.rfl) ((done_blind 1).after startRun_blind) (refuseState_blind 1)

theorem stopRun_blind : SlotBlind State.stopRun :=
  completeDrain_blind.after ((changeRunState_blind .draining).after (.of_update fun _ _ => rfl))

theorem commandStop_blind : SlotBlind State.commandStop :=
  .chosen (d := fun s => s.control.runState)
    (F := fun (r : RunState) s =>
      match r with
      | .armed => (s.changeRunState .stopped).done 2
      | .running => s.stopRun.done 2
      | .unanchored | .idle | .draining | .stopped => s.refuseState 2)
    (fun
      | .armed => (done_blind 2).after (changeRunState_blind .stopped)
      | .running => (done_blind 2).after stopRun_blind
      | .unanchored | .idle | .draining | .stopped => refuseState_blind 2)
    fun _ _ => rfl

theorem abortRun_blind : SlotBlind State.abortRun := (changeRunState_blind .stopped).after (.of_update fun _ _ => rfl)

theorem commandAbort_blind : SlotBlind State.commandAbort :=
  .chosen (d := fun s => s.control.runState)
    (F := fun (r : RunState) s =>
      match r with
      | .armed | .running | .draining => s.abortRun.done 3
      | .unanchored | .idle | .stopped => s.refuseState 3)
    (fun
      | .armed | .running | .draining => (done_blind 3).after abortRun_blind
      | .unanchored | .idle | .stopped => refuseState_blind 3)
    fun _ _ => rfl

theorem releaseRun_blind : SlotBlind State.releaseRun := (changeRunState_blind .idle).after (.of_update fun _ _ => rfl)

theorem commandChainageSet_blind (w : Word64) : SlotBlind (fun s => s.commandChainageSet w) := by
  unfold State.commandChainageSet
  cases directionArg w with
  | none => exact .ite (fun _ _ => Iff.rfl) (refuseArg_blind 5 2) (refuseState_blind 5)
  | some dir => exact .ite (fun _ _ => Iff.rfl) ((done_blind 5).after (.of_update fun _ _ => rfl)) (refuseState_blind 5)

theorem commandProfileSelect_blind (w : Word64) : SlotBlind (fun s => s.commandProfileSelect w) := by
  unfold State.commandProfileSelect
  cases profileArg w with
  | none => exact .ite (fun _ _ => Iff.rfl) (refuseArg_blind 6 1) (refuseState_blind 6)
  | some p => exact .ite (fun _ _ => Iff.rfl) ((done_blind 6).after (.of_update fun _ _ => rfl)) (refuseState_blind 6)

/-- An ACTION_POST that is missed at once, completed (R167). -/
def State.postMissed (id : BitVec 16) (trigger : Int) (s : State) : State :=
  (({ s with action := s.action.takeId } : State).missAction id .posted trigger).complete 7 .done (id.setWidth 32)

/-- An ACTION_POST that is queued, completed (R169). -/
def State.postQueued (e : ActionEntry) (s : State) : State :=
  ({ s with action := s.action.takeId.enqueue e } : State).complete 7 .done (e.id.setWidth 32)

/-- The completion of an ACTION_POST by its fate (R167, R169). -/
theorem post_complete (s : State) (g : Fin 2) (pattern : BitVec 4) (offset : Nat) :
    (s.post g pattern offset).state.complete 7 (s.post g pattern offset).result (s.post g pattern offset).detail =
      if mmOf s.odometer.d + offset ≤ s.odometer.highWater then
        State.postMissed s.action.idCounter (mmOf s.odometer.d + offset) s
      else if s.action.queue.length = 32 then s.complete 7 .queueFull 0
      else
        State.postQueued
          { id := s.action.idCounter, trigger := mmOf s.odometer.d + offset, group := g, pattern := pattern, origin := .posted } s := by
  unfold State.post
  dsimp only
  by_cases hmissed : mmOf s.odometer.d + offset ≤ s.odometer.highWater
  · rw [if_pos hmissed, if_pos hmissed]
    rfl
  · rw [if_neg hmissed, if_neg hmissed]
    by_cases hfull : s.action.queue.length = 32
    · rw [if_pos hfull, if_pos hfull]
    · rw [if_neg hfull, if_neg hfull]
      rfl

theorem postMissed_blind (id : BitVec 16) (trigger : Int) : SlotBlind (State.postMissed id trigger) :=
  (complete_blind 7 .done _).after ((missAction_blind id .posted trigger).after takeId_blind)

theorem postQueued_blind (e : ActionEntry) : SlotBlind (State.postQueued e) :=
  (complete_blind 7 .done _).after (.of_update fun _ _ => rfl)

theorem postComplete_blind (g : Fin 2) (pattern : BitVec 4) (offset : Nat) :
    SlotBlind (fun s => (s.post g pattern offset).state.complete 7 (s.post g pattern offset).result (s.post g pattern offset).detail) := by
  rw [funext fun s => post_complete s g pattern offset]
  exact .ite (fun _ _ => Iff.rfl)
    (.chosen (d := fun s => (s.action.idCounter, mmOf s.odometer.d + (offset : Int)))
      (F := fun (d : BitVec 16 × Int) => State.postMissed d.1 d.2)
      (fun d => postMissed_blind d.1 d.2) fun _ _ => rfl)
    (.ite (fun _ _ => Iff.rfl) (complete_blind 7 .queueFull 0) (.chosen (F := State.postQueued) postQueued_blind fun _ _ => rfl))

theorem commandActionPost_blind (w : Word64) : SlotBlind (fun s => s.commandActionPost w) := by
  unfold State.commandActionPost
  cases groupArg w with
  | none => exact .ite (fun _ _ => Iff.rfl) (refuseArg_blind 7 1) (refuseState_blind 7)
  | some g =>
    cases patternArg w with
    | none => exact .ite (fun _ _ => Iff.rfl) (refuseArg_blind 7 2) (refuseState_blind 7)
    | some p =>
      cases offsetArg w with
      | none => exact .ite (fun _ _ => Iff.rfl) (refuseArg_blind 7 3) (refuseState_blind 7)
      | some off => exact .ite (fun _ _ => Iff.rfl) (postComplete_blind g p off) (refuseState_blind 7)

theorem commandActionCancel_blind (w : Word64) : SlotBlind (fun s => s.commandActionCancel w) :=
  .ite (fun _ _ => Iff.rfl)
    (.ite (fun _ _ => Iff.rfl) ((done_blind 8).after (.of_update fun _ _ => rfl)) (complete_blind _ _ _))
    (refuseState_blind 8)

/-- RELEASE looks at the status slot only to see whether it is empty (R55). -/
theorem commandRelease_withSlot (s : State) {x : StatusSlot} (h : x = .empty ↔ s.writeBack.slot = .empty) :
    ∃ y, (s.withSlot x).commandRelease = s.commandRelease.withSlot y := by
  have hbusy : (s.withSlot x).writeBackBusy = s.writeBackBusy := by
    unfold State.writeBackBusy
    exact congrArg (fun b => decide (s.writeBack.queue ≠ []) || b || decide (s.transit.insertedInFlight ≠ 0))
      (decide_eq_decide.mpr (not_congr h))
  unfold State.commandRelease
  rw [hbusy]
  exact SlotBlind.ite (f := fun u => if s.writeBackBusy = true then u.complete 4 .refusedBusy 0 else u.releaseRun.done 4)
    (c := fun u => u.control.runState = .stopped) (fun _ _ => Iff.rfl)
    (.ite (c := fun _ => s.writeBackBusy = true) (fun _ _ => Iff.rfl) (complete_blind _ _ _) ((done_blind 4).after releaseRun_blind))
    (refuseState_blind 4) s x

/-- A command word in a part with another status slot, empty or not as the first (R32). -/
theorem runCommand_withSlot (n : Nat) (w : Word64) (s : State) {x : StatusSlot} (h : x = .empty ↔ s.writeBack.slot = .empty) :
    ∃ y, (s.withSlot x).runCommand n w = (s.runCommand n w).withSlot y := by
  match n with
  | 0 => exact commandArm_blind s x
  | 1 => exact commandStart_blind s x
  | 2 => exact commandStop_blind s x
  | 3 => exact commandAbort_blind s x
  | 4 => exact commandRelease_withSlot s h
  | 5 => exact commandChainageSet_blind w s x
  | 6 => exact commandProfileSelect_blind w s x
  | 7 => exact commandActionPost_blind w s x
  | 8 => exact commandActionCancel_blind w s x
  | n + 9 => exact ⟨x, rfl⟩

/-! ### The slot after a command -/

/-- A state in which a command has just completed (R34). -/
def Completing (t : State) : Prop := ∃ m word result detail, t = State.complete m word result detail

theorem completing_complete (m : State) (word : BitVec 4) (result : ResultCode) (detail : BitVec 32) :
    Completing (m.complete word result detail) := ⟨m, word, result, detail, rfl⟩

/-- A command word ends in its completion (R34). -/
theorem runCommand_completes {n : Nat} (hn : n < 9) (w : Word64) (s : State) :
    Completing (s.runCommand n w) := by
  match n, hn with
  | 0, _ =>
    show Completing (s.commandArm)
    unfold State.commandArm
    split
    · split <;> exact completing_complete _ _ _ _
    · exact completing_complete _ _ _ _
  | 1, _ =>
    show Completing (s.commandStart)
    unfold State.commandStart
    split <;> exact completing_complete _ _ _ _
  | 2, _ =>
    show Completing (s.commandStop)
    unfold State.commandStop
    split <;> exact completing_complete _ _ _ _
  | 3, _ =>
    show Completing (s.commandAbort)
    unfold State.commandAbort
    split <;> exact completing_complete _ _ _ _
  | 4, _ =>
    show Completing (s.commandRelease)
    unfold State.commandRelease
    split
    · split <;> exact completing_complete _ _ _ _
    · exact completing_complete _ _ _ _
  | 5, _ =>
    show Completing (s.commandChainageSet w)
    unfold State.commandChainageSet
    split
    · split <;> exact completing_complete _ _ _ _
    · exact completing_complete _ _ _ _
  | 6, _ =>
    show Completing (s.commandProfileSelect w)
    unfold State.commandProfileSelect
    split
    · split <;> exact completing_complete _ _ _ _
    · exact completing_complete _ _ _ _
  | 7, _ =>
    show Completing (s.commandActionPost w)
    unfold State.commandActionPost
    split
    · split <;> exact completing_complete _ _ _ _
    · exact completing_complete _ _ _ _
  | 8, _ =>
    show Completing (s.commandActionCancel w)
    unfold State.commandActionCancel
    split
    · split <;> exact completing_complete _ _ _ _
    · exact completing_complete _ _ _ _

/-- The slot of an anchored part is as it was, or filled. -/
def SlotKept (x : StatusSlot) (s : State) : Prop :=
  s.control.runState ≠ .unanchored ∧ (s.writeBack.slot = x ∨ s.writeBack.slot = x.fill)

theorem slotKept_raise {x : StatusSlot} {s : State} (h : SlotKept x s) (f : EventFlag) : SlotKept x (s.raise f) := by
  obtain ⟨ha, hslot⟩ := h
  rw [State.raise_anchored s f ha]
  refine ⟨ha, Or.inr ?_⟩
  rcases hslot with hslot | hslot
  · exact congrArg StatusSlot.fill hslot
  · exact (congrArg StatusSlot.fill hslot).trans x.fill_fill

theorem slotKept_markStatus {x : StatusSlot} {s : State} (h : SlotKept x s) : SlotKept x s.markStatus := by
  obtain ⟨ha, hslot⟩ := h
  unfold State.markStatus
  rw [if_neg ha]
  refine ⟨ha, Or.inr ?_⟩
  rcases hslot with hslot | hslot
  · exact congrArg StatusSlot.fill hslot
  · exact (congrArg StatusSlot.fill hslot).trans x.fill_fill

theorem slotKept_changeRunState {x : StatusSlot} {s : State} {r : RunState} (hr : r ≠ .unanchored)
    (h : s.writeBack.slot = x ∨ s.writeBack.slot = x.fill) : SlotKept x (s.changeRunState r) :=
  slotKept_raise (s := { s with control := { s.control with runState := r }, tap := s.tap.afterRunState r }) ⟨hr, h⟩ .runState

theorem slotKept_lose {x : StatusSlot} {s : State} (h : SlotKept x s) (r : Ring) :
    SlotKept x { s with writeBack := s.writeBack.lose r } := by
  obtain ⟨ha, hslot⟩ := h
  rw [← show (s.writeBack.lose r).slot = s.writeBack.slot from WriteBack.setRing_slot _ _ _] at hslot
  exact ⟨ha, hslot⟩

theorem slotKept_place {x : StatusSlot} {s : State} (h : SlotKept x s) (r : Ring) (base : Addr) (content : List Word64) :
    SlotKept x { s with writeBack := s.writeBack.place r base content } := by
  obtain ⟨ha, hslot⟩ := h
  rw [← show (s.writeBack.place r base content).slot = s.writeBack.slot from WriteBack.setRing_slot _ _ _] at hslot
  exact ⟨ha, hslot⟩

/-- What a command does to the status slot, as a property kept (R39). -/
theorem keeps_slotKept (x : StatusSlot) : KeepsCommands (SlotKept x) where
  raise s f h := slotKept_raise h f
  produce s r c h := by
    unfold State.produce
    split
    · exact slotKept_raise (slotKept_lose h r) .ringFull
    · split
      · exact slotKept_raise (slotKept_lose h r) .writebackLag
      · exact slotKept_markStatus (slotKept_place h r _ c)
  action _ _ _ _ _ h := h
  enqueue _ _ _ h := h
  dequeue _ _ _ _ h := h
  occupy _ _ _ _ h := h
  exceedance _ _ _ _ h := h
  route _ _ _ h := h
  tracker _ _ _ _ h := h
  geometry _ _ _ h := h
  assembler _ _ _ h := h
  append _ _ _ _ _ _ h := h
  tap _ _ h := h
  runState _ _ _ hr h := slotKept_changeRunState hr h.2
  markStatus s h := slotKept_markStatus h
  odometer _ _ _ h := h
  control s c hrun _ _ _ _ h := ⟨by rw [hrun]; exact h.1, h.2⟩
  cancel _ _ _ h := h
  cancelAll _ h := h
  actionRelease _ h := h
  clearTrackers _ h := h
  arm s _ h := by
    unfold State.arm
    exact slotKept_changeRunState (by decide) h.2
  releaseAreas _ h := h
  storeWord _ _ _ h := h
  takeMask _ _ h := h

/-- After a command word the status slot is filled, and the part is anchored still. -/
theorem runCommand_slot {n : Nat} (hn : n < 9) (w : Word64) {s : State} (ha : s.control.runState ≠ .unanchored) :
    (s.runCommand n w).control.runState ≠ .unanchored ∧ (s.runCommand n w).writeBack.slot = s.writeBack.slot.fill := by
  obtain ⟨hanchored, hslot⟩ := (keeps_slotKept s.writeBack.slot).runCommand ⟨ha, Or.inl rfl⟩ n w
  refine ⟨hanchored, hslot.elim (fun hsame => ?_) id⟩
  obtain ⟨m, word, result, detail, hcomplete⟩ := runCommand_completes hn w s
  rw [hcomplete] at hanchored hsame ⊢
  have hm : m.control.runState ≠ .unanchored := by
    unfold State.complete at hanchored
    rwa [State.raise_control_runState] at hanchored
  have hfilled : (m.complete word result detail).writeBack.slot = m.writeBack.slot.fill := by
    unfold State.complete
    rw [State.raise_anchored _ _ (by exact hm)]
    rfl
  rw [← hsame, hfilled, StatusSlot.fill_fill]

end Sys2Proof.Machine
end

section
/-! SUPPORT. Taken control writes of live words (R26, R30–R32), and that statement settled. -/

namespace Sys2Proof.Machine

/-! ### Command words -/

theorem regionOf_commandWord {n : Nat} (h : n < 9) : regionOf (8 * n) = .command n := by
  unfold regionOf
  rw [if_pos (by omega), Nat.mul_div_cancel_left n (by decide)]

theorem wordCommand_of_lt {n : Nat} (h : n < 9) (w : Word64) : wordCommand n w = some (commandOf ⟨n, h⟩ w) := dif_pos h

theorem burstWords_word (n : Nat) (b : Beat) (rest : List Beat) :
    burstWords (8 * n) (b :: rest) = { off := 8 * n, beat := b } :: burstWords (8 * (n + 1)) rest := burstWords_cons (8 * n) b rest

theorem takeBurst_cons (s : State) (w : ControlWord) (rest : List ControlWord) :
    s.takeBurst (w :: rest) = (s.takeWord w).takeBurst rest := rfl

theorem takeWord_command {n : Nat} (h : n < 9) (s : State) (b : Beat) :
    s.takeWord { off := 8 * n, beat := b } = s.runCommand n b.data := by
  unfold State.takeWord
  rw [regionOf_commandWord h]

theorem settle_withSlot (s : State) : ∃ y, s.settle = s.withSlot y ∧ (y = .empty ↔ s.writeBack.slot = .empty) := by
  by_cases h : s.writeBack.slot = .filling
  · refine ⟨.pending s.writeBack.queue.length, ?_, iff_of_false nofun (by rw [h]; nofun)⟩
    unfold State.settle WriteBack.settle State.withSlot
    rw [h]
  · exact ⟨s.writeBack.slot, settle_of_settled h, Iff.rfl⟩

theorem withSlot_withSlot (s : State) (x y : StatusSlot) : (s.withSlot x).withSlot y = s.withSlot y := rfl

/-- The slot that a burst of command words leaves: filled by the first word. -/
def StatusSlot.afterWords (x : StatusSlot) (l : List Beat) : StatusSlot := if l = [] then x else x.fill

theorem fill_afterWords (x : StatusSlot) (l : List Beat) : x.fill.afterWords l = x.fill := by
  unfold StatusSlot.afterWords
  split
  · rfl
  · exact x.fill_fill

theorem fill_ne_empty (x : StatusSlot) : x.fill ≠ .empty := by cases x <;> simp [StatusSlot.fill]

/-- Command words taken one after the other in one event do what their rows do one after the other, but for the place of the status
write (R26, R32, R187). -/
theorem wordsRun_commands : ∀ (l : List Beat) (n : Nat) (s : State) (x : StatusSlot), n + l.length ≤ 9 →
    s.control.runState ≠ .unanchored → (x = .empty ↔ s.writeBack.slot = .empty) →
    ∃ v, WordsRun n (l.map (·.data)) (s.withSlot x) v
      ∧ s.takeBurst (burstWords (8 * n) l) = v.withSlot (s.writeBack.slot.afterWords l) := by
  intro l
  induction l with
  | nil => exact fun n s x _ _ _ => ⟨_, rfl, rfl⟩
  | cons b rest ih =>
    intro n s x hlen ha hx
    rw [List.length_cons] at hlen
    have hn : n < 9 := by omega
    obtain ⟨y, hy⟩ := runCommand_withSlot n b.data s hx
    obtain ⟨hanchored, hslot⟩ := runCommand_slot hn b.data ha
    obtain ⟨z, hz, hzempty⟩ := settle_withSlot ((s.withSlot x).runCommand n b.data)
    have hfilled : ((s.withSlot x).runCommand n b.data).writeBack.slot ≠ .empty := by
      rw [(runCommand_slot hn b.data (s := s.withSlot x) ha).2]
      exact fill_ne_empty _
    have hboth : z = .empty ↔ (s.runCommand n b.data).writeBack.slot = .empty := by
      rw [hslot]
      exact iff_of_false (fun h => hfilled (hzempty.mp h)) (fill_ne_empty _)
    obtain ⟨v, hrun, htake⟩ := ih (n + 1) (s.runCommand n b.data) z (by omega) hanchored hboth
    have hexec : exec (commandOf ⟨n, hn⟩ b.data) (s.withSlot x) = .next ((s.runCommand n b.data).withSlot z) := by
      rw [exec_commandOf (s := s.withSlot x) ha ⟨n, hn⟩ b.data]
      refine congrArg Host.Outcome.next (hz.trans ?_)
      rw [hy, withSlot_withSlot]
    refine ⟨v, ⟨_, _, wordCommand_of_lt hn b.data, hexec, hrun⟩, ?_⟩
    rw [burstWords_word, takeBurst_cons, takeWord_command hn, htake, hslot, fill_afterWords]
    rfl

/-- The words of a burst, each with its number in the window. -/
theorem burstWord_number {n : Nat} {l : List Beat} {w : ControlWord} (h : w ∈ burstWords (8 * n) l) :
    ∃ k, n ≤ k ∧ k < n + l.length ∧ w.off = 8 * k ∧ w.beat ∈ l := by
  obtain ⟨i, hi, rfl⟩ := mem_burstWords.mp h
  exact ⟨n + i, by omega, by omega, by dsimp only; omega, List.getElem_mem hi⟩

/-- Command words pass every check (R27, R29). -/
theorem refusalOf_commands (s : State) {n : Nat} {l : List Beat} (hlen : n + l.length ≤ 9)
    (hfull : ∀ b ∈ l, b.strobes = BitVec.allOnes 8) :
    s.refusalOf (burstWords (8 * n) l) = none := by
  have hregion : ∀ w ∈ burstWords (8 * n) l, ∃ k, regionOf w.off = .command k ∧ w.beat.strobes = BitVec.allOnes 8 := by
    intro w hw
    obtain ⟨k, _, hk, hoff, hbeat⟩ := burstWord_number hw
    exact ⟨k, by rw [hoff, regionOf_commandWord (by omega)], hfull _ hbeat⟩
  refine refusalOf_none_of (wordRefusal_of_passes fun w hw => ?_) (routeRefusal_none_of fun w hw hroute => ?_)
  · obtain ⟨k, hk, hstrobes⟩ := hregion w hw
    unfold State.wordReason
    rw [if_neg (not_not_intro hstrobes), hk]
  · obtain ⟨k, hk, _⟩ := hregion w hw
    exact absurd (hk.symm.trans hroute) nofun

/-! ### Consumed indices and the mask -/

/-- A live word that is checked at the offer is the consumed index of a ring, or the mask word. -/
theorem offeredWord_cases {n : Nat} (h : 16 ≤ n) (h' : n < 20) :
    (∃ r, 8 * n = consumedOffset r ∧ ∀ w, wordCommand n w = some (.consumedIndexWrite r w)) ∨ n = 19 := by
  obtain rfl | rfl | rfl | rfl : n = 16 ∨ n = 17 ∨ n = 18 ∨ n = 19 := by omega
  · exact Or.inl ⟨.geometry, rfl, fun _ => rfl⟩
  · exact Or.inl ⟨.exceedance, rfl, fun _ => rfl⟩
  · exact Or.inl ⟨.action, rfl, fun _ => rfl⟩
  · exact Or.inr rfl

theorem fullBeat_data {b : Beat} (h : b.strobes = BitVec.allOnes 8) : fullBeat b.data = b := by
  cases b
  cases h
  rfl

theorem takeWord_consumed (s : State) (r : Ring) (b : Beat) :
    s.takeWord { off := consumedOffset r, beat := b } = s.takeConsumed r b.data := by
  unfold State.takeWord
  rw [regionOf_consumedOffset]

/-- A live word that passes its check does at the offer what the command of its row does (R30, R31). -/
theorem exec_offeredWord {n : Nat} (h : 16 ≤ n) (h' : n < 20) {s : State} (ha : s.control.runState ≠ .unanchored) {b : Beat}
    (hb : b.strobes = BitVec.allOnes 8) (hpass : s.wordReason { off := 8 * n, beat := b } = none) :
    ∃ c, wordCommand n b.data = some c ∧ exec c s = .next (s.takeWord { off := 8 * n, beat := b }).settle := by
  rcases offeredWord_cases h h' with ⟨r, hoff, hcommand⟩ | rfl
  · refine ⟨_, hcommand b.data, ?_⟩
    rw [hoff, ← fullBeat_data hb, wordReason_consumed] at hpass
    have hrange : (s.writeBack.ring r).inRange (newConsumed b.data) = true := by
      refine Classical.byContradiction fun hnot => ?_
      rw [if_neg hnot] at hpass
      cases hpass
    rw [exec_consumedIndexWrite ha, offerBurst_consumed hrange, hoff, takeWord_consumed]
  · refine ⟨_, rfl, ?_⟩
    have hoffer : s.offerBurst [{ off := 0x0098, beat := fullBeat b.data }] = s.takeMask b.data := by
      unfold State.offerBurst
      rw [refusalOf_maskWord]
      rfl
    show Host.Outcome.next (s.whileAnchored fun s => s.offerBurst [{ off := 0x0098, beat := fullBeat b.data }]).settle = _
    rw [State.whileAnchored_of ha, hoffer]
    rfl

theorem setRing_settle (w : WriteBack) (r : Ring) (x : RingState) : w.settle.setRing r x = (w.setRing r x).settle := by
  unfold WriteBack.settle
  rw [WriteBack.setRing_slot]
  cases w.slot <;> cases r <;> rfl

theorem ring_settle (w : WriteBack) (r : Ring) : w.settle.ring r = w.ring r := by
  unfold WriteBack.settle
  cases w.slot <;> cases r <;> rfl

/-- A consumed index that is taken leaves the place of the status write open or fixed as it is (R30, R187). -/
theorem takeConsumed_settle (s : State) (r : Ring) (w : Word64) : s.settle.takeConsumed r w = (s.takeConsumed r w).settle := by
  unfold State.takeConsumed State.settle
  dsimp only
  rw [ring_settle, setRing_settle]

theorem takeWord_offered_settle {n : Nat} (h : 16 ≤ n) (h' : n < 20) (s : State) (b : Beat) :
    s.settle.takeWord { off := 8 * n, beat := b } = (s.takeWord { off := 8 * n, beat := b }).settle := by
  rcases offeredWord_cases h h' with ⟨r, hoff, _⟩ | rfl
  · rw [hoff, takeWord_consumed, takeWord_consumed, takeConsumed_settle]
  · rfl

/-- A taken consumed index or mask leaves the part anchored and the checks of the words above it as they were. -/
theorem takeWord_offered_kept {n : Nat} (h : 16 ≤ n) (h' : n < 20) (s : State) (b : Beat) :
    (s.takeWord { off := 8 * n, beat := b }).control.runState = s.control.runState
      ∧ ∀ m b', n < m → m < 20 →
        (s.takeWord { off := 8 * n, beat := b }).wordReason { off := 8 * m, beat := b' } = s.wordReason { off := 8 * m, beat := b' } := by
  rcases offeredWord_cases h h' with ⟨r, hoff, _⟩ | rfl
  · rw [hoff, takeWord_consumed]
    refine ⟨rfl, fun m b' hm hm' => ?_⟩
    rcases offeredWord_cases (show 16 ≤ m by omega) hm' with ⟨q, hq, _⟩ | rfl
    · have hne : q ≠ r := by
        rintro rfl
        omega
      unfold State.wordReason
      dsimp only
      rw [hq, regionOf_consumedOffset]
      dsimp only
      rw [show (s.takeConsumed r b.data).writeBack.ring q = s.writeBack.ring q from WriteBack.ring_setRing_other _ _ hne]
    · rfl
  · exact ⟨rfl, fun m _ hm hm' => absurd hm' (by omega)⟩

theorem wordReason_settle (s : State) (w : ControlWord) : s.settle.wordReason w = s.wordReason w := by
  unfold State.wordReason State.settle
  dsimp only
  congr 1
  cases regionOf w.off with
  | consumed r =>
    dsimp only
    rw [ring_settle]
  | _ => rfl

/-- The words of a burst that are left after the first has been taken pass their checks still. -/
theorem offeredWords_rest {n : Nat} {s : State} {b : Beat} {rest : List Beat} (h : 16 ≤ n) (hlen : n + (b :: rest).length ≤ 20)
    (hpass : ∀ w ∈ burstWords (8 * n) (b :: rest), s.wordReason w = none) :
    ∀ w ∈ burstWords (8 * (n + 1)) rest, (s.takeWord { off := 8 * n, beat := b }).wordReason w = none := by
  rintro ⟨off, b'⟩ hw
  rw [List.length_cons] at hlen
  obtain ⟨k, hlow, hhigh, rfl, _⟩ := burstWord_number hw
  rw [(takeWord_offered_kept h (by omega) s b).2 k b' (by omega) (by omega)]
  exact hpass _ (by rw [burstWords_word]; exact List.mem_cons_of_mem _ hw)

/-- Live words that pass their checks, taken one after the other in one event, do what their rows do one after the other (R26). -/
theorem wordsRun_offered (l : List Beat) : ∀ (n : Nat) (s : State), 16 ≤ n → n + l.length ≤ 20 →
    s.control.runState ≠ .unanchored →
    (∀ b ∈ l, b.strobes = BitVec.allOnes 8) → (∀ w ∈ burstWords (8 * n) l, s.wordReason w = none) →
    WordsRun n (l.map (·.data)) s.settle (s.takeBurst (burstWords (8 * n) l)).settle := by
  induction l with
  | nil => exact fun n s _ _ _ _ _ => rfl
  | cons b rest ih =>
    intro n s h hlen ha hfull hpass
    have hrest := offeredWords_rest h hlen hpass
    rw [List.length_cons] at hlen
    have hfirst : s.settle.wordReason { off := 8 * n, beat := b } = none := by
      rw [wordReason_settle]
      exact hpass _ (by rw [burstWords_word]; exact List.mem_cons_self)
    obtain ⟨c, hc, hexec⟩ := exec_offeredWord h (by omega) (s := s.settle) ha (hfull b List.mem_cons_self) hfirst
    rw [takeWord_offered_settle h (by omega), settle_settle] at hexec
    refine ⟨c, _, hc, hexec, ?_⟩
    rw [burstWords_word]
    exact ih (n + 1) _ (by omega) (by omega) (by rw [(takeWord_offered_kept h (by omega) s b).1]; exact ha)
      (fun x hx => hfull x (List.mem_cons_of_mem _ hx)) hrest

/-- The first of some live words needs no settled status slot. -/
theorem wordsRun_offered_first {l : List Beat} (hne : l ≠ []) {n : Nat} {s : State} (h : 16 ≤ n) (hlen : n + l.length ≤ 20)
    (ha : s.control.runState ≠ .unanchored) (hfull : ∀ b ∈ l, b.strobes = BitVec.allOnes 8)
    (hpass : ∀ w ∈ burstWords (8 * n) l, s.wordReason w = none) :
    WordsRun n (l.map (·.data)) s (s.takeBurst (burstWords (8 * n) l)).settle := by
  obtain ⟨b, rest, rfl⟩ := List.exists_cons_of_ne_nil hne
  have hrest := offeredWords_rest h hlen hpass
  rw [List.length_cons] at hlen
  obtain ⟨c, hc, hexec⟩ := exec_offeredWord h (by omega) ha (hfull b List.mem_cons_self)
    (hpass _ (by rw [burstWords_word]; exact List.mem_cons_self))
  refine ⟨c, _, hc, hexec, ?_⟩
  rw [burstWords_word]
  exact wordsRun_offered rest (n + 1) _ (by omega) (by omega) (by rw [(takeWord_offered_kept h (by omega) s b).1]; exact ha)
    (fun x hx => hfull x (List.mem_cons_of_mem _ hx)) hrest

theorem wordReason_of_wordRefusal {s : State} : ∀ {burst : List ControlWord}, s.wordRefusal burst = none →
    ∀ w ∈ burst, s.wordReason w = none
  | [], _ => fun _ hw => absurd hw List.not_mem_nil
  | w :: rest, h => by
    unfold State.wordRefusal at h
    cases hw : s.wordReason w with
    | some reason =>
      rw [hw] at h
      cases h
    | none =>
      rw [hw] at h
      exact List.forall_mem_cons.mpr ⟨hw, wordReason_of_wordRefusal h⟩

/-- A burst that is not refused has no word that fails its check (R26, R27). -/
theorem wordReason_of_taken {s : State} {burst : List ControlWord} (h : s.refusalOf burst = none) :
    ∀ w ∈ burst, s.wordReason w = none := by
  refine wordReason_of_wordRefusal ?_
  unfold State.refusalOf at h
  split at h
  · assumption
  · cases h
  · assumption
  · split at h <;> cases h

/-- One command word of a window run alone (R32). -/
theorem wordsRun_single {n : Nat} (hn : n < 9) {s v : State} (ha : s.control.runState ≠ .unanchored) {w : Word64}
    (h : WordsRun n [w] s v) : v = (s.runCommand n w).settle := by
  obtain ⟨c, m, hc, hexec, rfl⟩ := h
  obtain rfl : commandOf ⟨n, hn⟩ w = c := Option.some.inj ((wordCommand_of_lt hn w).symm.trans hc)
  exact (Host.Outcome.next.inj ((exec_commandOf ha ⟨n, hn⟩ w).symm.trans hexec)).symm

/-! ### The statement -/

/-- The slot at the end of an event that filled it (R187). -/
theorem settle_fill (v : State) (x : StatusSlot) : (v.withSlot x.fill).settle = v.withSlot (x.afterMark v.writeBack.queue.length) := by
  cases x <;> rfl

/-- Settles O25: the live words of a taken control write do what the commands of their rows do. -/
theorem commandWordRunsCommand : Obligations.CommandWordRunsCommand := by
  unfold Obligations.CommandWordRunsCommand
  intro r rest n s ha hstage hwin hkind hhit hne hfull
  refine ⟨fun hlen => ?_, fun h hlen hrefusal => ?_⟩
  · obtain ⟨hexec, hexec'⟩ := exec_controlWrite_taken hstage hwin hkind hhit (refusalOf_commands s hlen hfull)
    obtain ⟨v, hrun, htake⟩ := wordsRun_commands r.data n (s.presenting r rest) s.writeBack.slot hlen ha Iff.rfl
    have hslot : (s.presenting r rest).writeBack.slot.afterWords r.data = s.writeBack.slot.fill := if_neg hne
    have hend : ((s.presenting r rest).takeBurst (burstWords (8 * n) r.data)).settle
        = v.withSlot (s.writeBack.slot.afterMark v.writeBack.queue.length) := by
      rw [htake, hslot, settle_fill]
    refine ⟨s.presenting r rest, v, _, headOnPort_of_transit rfl, rfl, hrun, rfl, hexec.trans (congrArg _ hend),
      hexec'.trans (congrArg _ hend), fun hone => ?_⟩
    obtain ⟨b, hb⟩ := List.length_eq_one_iff.mp hone
    rw [hb] at hlen hrun hend
    have hn : n < 9 := by
      rw [List.length_singleton] at hlen
      omega
    refine hend.symm.trans ?_
    rw [wordsRun_single (s := s.presenting r rest) hn ha hrun, burstWords_word, takeBurst_cons, takeWord_command hn]
    rfl
  · obtain ⟨hexec, hexec'⟩ := exec_controlWrite_taken hstage hwin hkind hhit hrefusal
    exact ⟨s.presenting r rest, _, headOnPort_of_transit rfl, rfl,
      wordsRun_offered_first hne h hlen ha hfull (wordReason_of_taken (s := s) hrefusal), hexec, hexec'⟩

end Sys2Proof.Machine
end
